-- ==== Sys2Proof/Word.lean ====
section
/-! DEFINITION. The words of the device: bytes, scratchpad slots, carriages, HBM granules and instruction words. -/

namespace Sys2Proof

/-- One byte of HBM, host memory or a record (R7). -/
abbrev Byte := BitVec 8

/-- A 36-bit scratchpad slot (R8). -/
abbrev Slot := BitVec 36

/-- A carriage: 64 slots of 36 bits, treated as one 2,304-bit value (R8). -/
abbrev Carriage := BitVec 2304

/-- A granule of HBM: 576 bytes, two carriages (R42, R251). -/
abbrev Granule := BitVec 4608

/-- A 64-bit register or tag value (R10, R58). -/
abbrev Word64 := BitVec 64

/-- A coach ID, 0 to 63 (R17). -/
abbrev CoachId := BitVec 6

/-- A node ID of the fabric (R283). -/
abbrev NodeId := BitVec 12

/-- A task ID as the host chose it (R334, R344). -/
abbrev TaskId := BitVec 32

end Sys2Proof
end

