-- ==== Sys2Proof/Syntax.lean ====
section
/-! DEFINITION. The commands of the block: one constructor of `Instr` per row of the table of steps. Engine
instructions carry their fields as the encodings of R200 to R224 lay them out; host commands carry the fields of
R334 to R346; packets carry the fields of R281; events carry what the outside world decides. -/

namespace Sys2Proof

/-- The eight engines of a coach, IDs 0 to 7 in this order (the table of engines before R27). -/
inductive Engine where
  | nte | ksa | vec | dbu | pxu | sin | sout | kin
  deriving DecidableEq, Repr

/-- The low 30 bits of a data-path instruction less its opcode (R200). -/
structure Common where
  csRem : Bool
  csDoor : BitVec 8
  csAmt : BitVec 3
  hold : BitVec 12
  deriving DecidableEq, Repr

/-- SIGNAL (R210). -/
structure SignalF where
  remote : Bool
  coach : CoachId
  door : BitVec 8
  amount : BitVec 16
  hold : BitVec 12
  deriving DecidableEq, Repr

/-- ACCT (R211). -/
structure AcctF where
  param : BitVec 32
  cls : BitVec 4
  hdrB : BitVec 12
  hdrA : BitVec 12
  hdrR : BitVec 12
  com : Common
  deriving DecidableEq, Repr

/-- The six NTE instructions (R212). -/
structure NteF where
  drain : Bool
  push : Bool
  pseq : BitVec 2
  prime : BitVec 6
  pset : BitVec 8
  logN : BitVec 4
  count : BitVec 6
  hdr : BitVec 12
  tw : BitVec 16
  dst : BitVec 16
  src : BitVec 16
  com : Common
  deriving DecidableEq, Repr

/-- KMM and KEW (R213). -/
structure KsaF where
  drainB : Bool
  drainA : Bool
  push : Bool
  accIn : Bool
  exit : Bool
  cls : BitVec 4
  t : BitVec 10
  hdrA : BitVec 12
  hdrR : BitVec 12
  dst : BitVec 16
  b : BitVec 16
  a : BitVec 16
  com : Common
  deriving DecidableEq, Repr

/-- The nine VEC instructions (R216). -/
structure VecF where
  drainB : Bool
  drainA : Bool
  count : BitVec 12
  hdrB : BitVec 12
  hdrA : BitVec 12
  hdrR : BitVec 12
  dst : BitVec 16
  b : BitVec 16
  a : BitVec 16
  com : Common
  deriving DecidableEq, Repr

/-- The nine DBU instructions (R221). -/
structure DbuF where
  drain : Bool
  pset : BitVec 8
  pa : BitVec 6
  pb : BitVec 6
  pc : BitVec 6
  count : BitVec 11
  hdr : BitVec 12
  aux : BitVec 16
  dst : BitVec 16
  src : BitVec 16
  com : Common
  deriving DecidableEq, Repr

/-- AUTO (R223). -/
structure AutoF where
  drain : Bool
  order : BitVec 2
  pseq : BitVec 2
  prime : BitVec 6
  pset : BitVec 8
  logN : BitVec 4
  count : BitVec 6
  galois : BitVec 17
  hdr : BitVec 12
  dst : BitVec 16
  src : BitVec 16
  com : Common
  deriving DecidableEq, Repr

/-- ROT (R223). -/
structure RotF where
  drain : Bool
  amount : BitVec 18
  c : BitVec 12
  hdr : BitVec 12
  dst : BitVec 16
  src : BitVec 16
  com : Common
  deriving DecidableEq, Repr

/-- TRANS (R223). -/
structure TransF where
  drain : Bool
  t : BitVec 8
  sstride : BitVec 16
  dstride : BitVec 16
  hdr : BitVec 12
  dst : BitVec 16
  src : BitVec 16
  com : Common
  deriving DecidableEq, Repr

/-- MROT (R223). -/
structure MrotF where
  neg : Bool
  logN : BitVec 4
  count : BitVec 6
  pset : BitVec 8
  amtStride : BitVec 12
  amtIndex : BitVec 10
  amtBase : BitVec 22
  dst : BitVec 16
  src : BitVec 16
  com : Common
  deriving DecidableEq, Repr

/-- KCART (R224). -/
structure KcartF where
  hdr : BitVec 12
  roff : BitVec 10
  ring : BitVec 10
  rbase : BitVec 10
  count : BitVec 10
  cart : BitVec 16
  keyIndex : BitVec 16
  com : Common
  deriving DecidableEq, Repr

/-- The common header of a host command (R334), with the ring and the index it was fetched from (R335). -/
structure CmdHdr where
  sq : BitVec 6
  index : BitVec 16
  taskId : TaskId
  noIrq : Bool
  argAddr : BitVec 64
  deriving DecidableEq, Repr

/-- TASK_SUBMIT (R340). -/
structure TaskF where
  seed : BitVec 128
  digestAddr : BitVec 64
  digestCap : BitVec 32
  runLimit : BitVec 48
  margin : BitVec 32
  keylistAddr : BitVec 40
  keylistCount : BitVec 16
  ftag : BitVec 16
  minor : BitVec 8
  devices : BitVec 12
  nCtx : BitVec 7
  perCoach : Bool
  hazard : Bool
  mode : BitVec 2
  programId : BitVec 32
  deriving DecidableEq, Repr

/-- GROUP_SET (R345). -/
structure GroupF where
  members : BitVec 12
  portMask : BitVec 16
  source : NodeId
  role : BitVec 2
  delete : Bool
  group : BitVec 12
  deriving DecidableEq, Repr

/-- A fabric packet as it arrives at a port (R281): the header's fields, the TYPE standing in the command's name. -/
structure Packet where
  tag : BitVec 16
  dst : NodeId
  src : NodeId
  group : BitVec 12
  ttl : BitVec 5
  len : BitVec 2
  addr : BitVec 40
  info : BitVec 86
  data : List Byte
  deriving DecidableEq, Repr

/-- A packet as it comes in: the SEQ of the data flit that carries it (R276), and the packet. -/
structure InFlit where
  seq : BitVec 12
  packet : Packet
  deriving DecidableEq, Repr

/-- What else a received flit header says (R276) and what the receiver knows of the flits since the last one: ACK, and the symbols
that FEC has corrected (R275). -/
structure FlitAck where
  ack : BitVec 12
  corr : Nat
  deriving DecidableEq, Repr

/-- The temperatures and the power the management controller samples (R413): four dies, eight stacks, the input power in W of the
millisecond that the sample closes (R411; log entry 88), and VIN in 0.1 V. -/
structure ThermalReading where
  dieTemps : List (BitVec 8)
  stackTemps : List (BitVec 8)
  power : BitVec 16
  vin : BitVec 10
  deriving DecidableEq, Repr

/-- PERST# held low (R380, R419): for how long, and the bytes that an external programmer at the debug header writes to the NVM
meanwhile, each with its offset. -/
structure PerstLow where
  nanoseconds : Nat
  programmed : List (Nat × Byte)
  deriving DecidableEq, Repr

/-- The capability record of R293. -/
structure CapRecord where
  fabricId : BitVec 32
  major : BitVec 8
  minor : BitVec 8
  port : BitVec 4
  node : NodeId
  deriving DecidableEq, Repr

/-- Who a key-stream receiver is: a coach of this device or a member device of a group (R238). -/
inductive Receiver where
  | coach (c : CoachId)
  | member (n : NodeId)
  deriving DecidableEq, Repr

/-- The commands of the block, one constructor per row of the table. -/
inductive Instr where
  -- control and configuration instructions of any engine (R174 to R211)
  | signal (c : CoachId) (e : Engine) (f : SignalF)
  | wait (c : CoachId) (e : Engine) (door : BitVec 8) (count : BitVec 16) (hold : BitVec 12)
  | shutter (c : CoachId) (e : Engine) (sid : BitVec 4) (hold : BitVec 12)
  | loop (c : CoachId) (e : Engine) (count : BitVec 24) (body : BitVec 13) (hold : BitVec 12)
  | idle (c : CoachId) (e : Engine) (long : BitVec 24)
  | bankpwr (c : CoachId) (e : Engine) (up : Bool) (mask : BitVec 32) (hold : BitVec 12)
  | endPart (c : CoachId) (e : Engine)
  | stride (c : CoachId) (e : Engine) (value : BitVec 16) (depth : BitVec 2) (pos : BitVec 3) (hold : BitVec 12)
  | setWord (c : CoachId) (e : Engine) (payload : BitVec 96) (word : BitVec 2) (hold : BitVec 12)
  | acct (c : CoachId) (e : Engine) (f : AcctF)
  -- NTE (R116 to R121, R212)
  | fwd (c : CoachId) (f : NteF)
  | inv (c : CoachId) (f : NteF)
  | fcol (c : CoachId) (f : NteF)
  | frow (c : CoachId) (f : NteF)
  | irow (c : CoachId) (f : NteF)
  | icol (c : CoachId) (f : NteF)
  -- KSA (R122 to R133, R213 to R215)
  | kmm (c : CoachId) (f : KsaF)
  | kew (c : CoachId) (f : KsaF)
  | ktab (c : CoachId) (src : BitVec 16) (com : Common)
  -- VEC (R134 to R136, R216 to R220)
  | add (c : CoachId) (f : VecF)
  | sub (c : CoachId) (f : VecF)
  | mul (c : CoachId) (f : VecF)
  | fma (c : CoachId) (f : VecF)
  | minOp (c : CoachId) (f : VecF)
  | maxOp (c : CoachId) (f : VecF)
  | cmp (c : CoachId) (f : VecF)
  | sel (c : CoachId) (f : VecF)
  | cvt (c : CoachId) (f : VecF)
  -- DBU (R137 to R139, R168, R221, R222, R434)
  | decg (c : CoachId) (f : DbuF)
  | deck (c : CoachId) (f : DbuF)
  | presc (c : CoachId) (f : DbuF)
  | bext (c : CoachId) (f : DbuF)
  | bdrop (c : CoachId) (f : DbuF)
  | mswb (c : CoachId) (f : DbuF)
  | extr (c : CoachId) (f : DbuF)
  | raise (c : CoachId) (f : DbuF)
  | lower (c : CoachId) (f : DbuF)
  -- PXU (R140 to R142, R154, R223)
  | auto (c : CoachId) (f : AutoF)
  | rot (c : CoachId) (f : RotF)
  | trans (c : CoachId) (f : TransF)
  | mrot (c : CoachId) (f : MrotF)
  | gsx (c : CoachId) (desc : BitVec 10) (com : Common)
  -- stream engines (R91, R223, R224)
  | sinXfer (c : CoachId) (desc : BitVec 10) (com : Common)
  | soutXfer (c : CoachId) (desc : BitVec 10) (com : Common)
  | kcart (c : CoachId) (f : KcartF)
  -- what follows an instruction inside the device
  | completionSignal (c : CoachId) (e : Engine)
  | remoteDoorAdd (c : CoachId)
  | streamComplete (c : CoachId) (e : Engine)
  | deviceShutterRelease (task : TaskId) (sid : BitVec 4)
  | fabricShutterRelease (task : TaskId) (sid : BitVec 4)
  | digestRecordWrite (task : TaskId)
  | deadlockWatchdog (c : CoachId)
  | taskWatchdog (task : TaskId)
  | runLimit (task : TaskId)
  | taskStart (task : TaskId)
  | coachWake (c : CoachId)
  | coachIdleGate (c : CoachId)
  | gateNow (c : CoachId)
  | bankDrainEnd (c : CoachId) (bank : BitVec 5)
  | bankWakeEnd (c : CoachId) (bank : BitVec 5)
  | spadRowRepair (c : CoachId) (row : BitVec 16)
  | coachEnd (c : CoachId)
  | abortReceipt (c : CoachId)
  | abortDrainDone (c : CoachId)
  | scrubDone (c : CoachId)
  | abortComplete (task : TaskId)
  -- key streamer (R225 to R245)
  | cartSend (q : BitVec 4)
  | cartArrival (c : CoachId)
  | keyCreditArrival (c : CoachId)
  | mcastTimeout (q : BitVec 4) (r : Receiver)
  | servingTaskEnd (task : TaskId)
  -- HBM (R242 to R273)
  | grantSlot (ch : BitVec 8) (slot : BitVec 6) (err : BitVec 2)
  | hbmFrameBoundary
  | hbmRetrainDone (stack : BitVec 3) (ok : Bool)
  | poisonFillDone (stack : BitVec 3)
  | evacDone (stack : BitVec 3)
  | memMaintRetrain (stack : BitVec 3) (ch : BitVec 5)
  | memMaintEvacuate (stack : BitVec 3) (ch : BitVec 5)
  -- host interface (R323 to R348)
  | bar2Read (off : BitVec 36) (len : BitVec 10)
  | bar2Write (off : BitVec 36) (data : List Byte)
  | hifBar2BaseWrite (value : BitVec 32)
  | sqTailDoorbell (off : BitVec 24) (size : Nat) (value : BitVec 32)
  | cqHeadDoorbell (off : BitVec 24) (size : Nat) (value : BitVec 32)
  | eventHeadDoorbell (off : BitVec 24) (size : Nat) (value : BitVec 32)
  | sqEnable (ring : BitVec 6) (value : BitVec 32)
  | cqEnable (c : BitVec 6) (value : BitVec 32)
  | eventRingEnable (value : BitVec 32)
  | commandFetch (ring : BitVec 6) (error : Bool)
  | completionWrite (c : BitVec 6) (error : Bool)
  | irqDelayExpire (vec : BitVec 7)
  | contextCreate (h : CmdHdr) (paramSet : BitVec 8)
  | contextDestroy (h : CmdHdr) (context : BitVec 14)
  | keyRegister (h : CmdHdr) (context : BitVec 14) (keyCount : BitVec 16) (dirAddr : BitVec 40)
  | programLoad (h : CmdHdr) (src : Bool) (imageBytes : BitVec 32)
  | taskSubmit (h : CmdHdr) (f : TaskF)
  | taskAbort (h : CmdHdr) (upto : Bool)
  | fence (h : CmdHdr) (ownRing : Bool)
  | groupSet (h : CmdHdr) (f : GroupF)
  | syncSummary (h : CmdHdr) (capacity : BitVec 32)
  | hostMemoryError (task : TaskId) (region : BitVec 8)
  | flr
  | hotReset
  | d3hotEntry
  | pcieLinkDown
  | d3cold
  | perstAssert (low : PerstLow)
  | powerGood
  | vinUndervoltage
  | vinOvervoltage
  | thermalSample (r : ThermalReading)
  | shutdownRelease
  | maintEnChange (fitted : Bool)
  | sealCheck (back : Option (BitVec 16))
  | bootUpdate (kind : BitVec 2)
  | updateDone (nvmOk : Bool)
  | commit
  | debugEn
  | dbgRead (c : CoachId)
  | dbgWrite (c : CoachId)
  | dbgDone (c : CoachId)
  | kstSplitWrite (value : BitVec 32)
  | splitApply
  -- Ehray link fabric (R274 to R303)
  | routeRestore
  | routeRestoreApply
  | portRetrainRequest (p : BitVec 4)
  | portDisable (p : BitVec 4) (disable : Bool)
  | lossOfSignal (p : BitVec 4)
  | portTrainAttempt (p : BitVec 4) (signalLanes : BitVec 8)
  | trainingEnd (p : BitVec 4) (ok : Bool)
  | capabilityExchange (p : BitVec 4) (r : CapRecord)
  | negotiateTimeout (p : BitVec 4)
  | heldRetry (p : BitVec 4) (r : CapRecord)
  | portRetrainEnd (p : BitVec 4) (ok : Bool)
  | flitCrcError (p : BitVec 4)
  | nak (p : BitVec 4) (ack : BitVec 12)
  | linkCreditReturn (p : BitVec 4) (vc : Bool) (amount : BitVec 12) (ack : FlitAck)
  | writePkt (p : BitVec 4) (k : InFlit)
  | readReq (p : BitVec 4) (k : InFlit)
  | readRsp (p : BitVec 4) (k : InFlit)
  | cart (p : BitVec 4) (k : InFlit)
  | cartCredit (p : BitVec 4) (k : InFlit)
  | shutArrive (p : BitVec 4) (k : InFlit)
  | abortPkt (p : BitVec 4) (k : InFlit)
  | taskLost (p : BitVec 4) (k : InFlit)
  | unreach (p : BitVec 4) (k : InFlit)
  | reachableTimeout (node : NodeId)
  | remoteReqTimeout (reqId : BitVec 16)
  | syncExchange (p : BitVec 4) (parentTime : BitVec 64) (delay2 : Nat)
  | timeHoldover
  | timeStep
  -- events (R357 to R361)
  | eventRecord (source : BitVec 15)
  | eventRingWrite (error : Bool)
  -- security engine (R387 to R407)
  | identityPub
  | bakCert
  | bakRotate
  | quote
  | sessionOpen
  | sessionQuote (session : BitVec 4)
  | sessionClose (session : BitVec 4)
  | secAbort
  | secDone
  -- module (R408 to R426)
  | smbusDieTemp
  | smbusStackTemp
  | smbusPower
  | smbusStatus
  | smbusSlot
  | smbusAlertResponse
  | bypass
  | idcode
  | samplePreload
  | extest
  | uartRx (ch : Byte)
  -- registers (R10 to R13)
  | registerWrite (off : BitVec 26) (bits : Nat) (value : BitVec 64)
  | rcRead (off : BitVec 26) (bits : Nat)
  -- the rest of the module's and the host's events
  | vinTurnOn
  | perstRelease
  | pcieLinkUp (fullRate : Bool)
  | d3hotExit
  | configurationRequest
  | hostMemoryCompletion (c : CoachId)
  | programLoadDone (sq : BitVec 6)
  | keyRegisterDone (sq : BitVec 6)
  | syncSummaryDone
  | pllLockLoss (root : Bool) (phy : Bool)
  deriving DecidableEq, Repr

end Sys2Proof
end

