-- ==== Sys2Proof/Config.lean ====
section
/-! DEFINITION. What the spec leaves open: values without a body, so that no proof can lean on one (log entries 1
to 6). A claim about any of them holds whatever the value is. -/

namespace Sys2Proof.Config

/-- The carriage that use `n`, place `i` of an undefined data result takes (R30, R111, R180, R202; log entry 1). -/
opaque freeCarriage : Nat → Nat → Carriage

/-- The number that use `n`, place `i` of an open quantity takes (log entry 1). -/
opaque freeNat : Nat → Nat → Nat

/-- Where within its bounds an instruction word makes its access number `k`: the clk is fixed by the instruction and its field
values, and the spec publishes it for the KSA's writes only (R433; log entry 14). -/
opaque accessClk : Nat → Nat → Nat

/-- Draw `i` of use `n` of the hardware random generator (R316, R381, R394, R399; log entry 2). -/
opaque random : Nat → Nat → BitVec 384

/-- What the module ships with and the spec does not state: firmware minor version and microcode version, the payloads of the
firmware (1) and the microcode (2), the security versions by kind, the training parameters of the HBM (R3, R348, R373, R404; log
entry 3). -/
opaque shippedFwMinor : BitVec 8
opaque shippedMcVersion : BitVec 16
opaque shippedPayload : Nat → List Byte
opaque shippedSecVersion : Nat → BitVec 32
opaque hbmSettings : List Byte

/-- The vendor's private seed, from which its root key and its signatures of the shipped images come, and the randomisers of those
(R3, R368, R370; log entry 3). -/
opaque vendorSeed : List Byte
opaque vendorSalt : Nat → List Byte

/-- The helper data that enrolment of use `n` gives, the PUF key K that helper data stand for, and whether a boot of number `n`
reconstructs it (R398, R399, R383; log entry 4). -/
opaque pufHelper : Nat → List Byte
opaque pufKey : List Byte → BitVec 256
opaque pufReconstructs : Nat → List Byte → Bool

/-- Which formats the operands of a plain-mode KSA instruction have, by its settings word 0: R125 allows INT8 and the two
FP8 formats and no field of R213 or R214 selects among them (log entry 5). -/
opaque plainOperands : Nat → Nat

end Sys2Proof.Config
end

