-- ==== Sys2Proof/Machine/Map.lean ====
section
/-! DEFINITION. Sparse tables in one canonical form: keys strictly rising, no entry equal to the default. HBM bytes,
host memory, scratchpad rows, registers and every numbered thing of the device are held so. -/

namespace Sys2Proof.Machine

/-- A sparse table: keys strictly rising, no entry equal to what an unlisted key reads as. -/
abbrev SMap (α : Type) := List (Nat × α)

variable {α : Type}

/-- What key `k` reads as; an unlisted key reads as the default. -/
def look (d : α) : SMap α → Nat → α
  | [], _ => d
  | (j, v) :: rest, k => if j = k then v else look d rest k

/-- The table without key `k`. -/
def drop (m : SMap α) (k : Nat) : SMap α :=
  m.filter fun e => e.1 ≠ k

/-- The table with key `k` set, in key order. -/
def insert : SMap α → Nat → α → SMap α
  | [], k, v => [(k, v)]
  | (j, w) :: rest, k, v =>
    if j < k then (j, w) :: insert rest k v
    else if j = k then (k, v) :: rest
    else (k, v) :: (j, w) :: rest

/-- Writes `v` at key `k`; writing the default removes the entry. -/
def store [DecidableEq α] (d : α) (m : SMap α) (k : Nat) (v : α) : SMap α :=
  if v = d then drop m k else insert m k v

/-- The canonical form of a table. -/
def SMap.wf [DecidableEq α] (d : α) : SMap α → Bool
  | [] => true
  | [(_, v)] => v != d
  | (j, v) :: (k, w) :: rest => v != d && j < k && SMap.wf d ((k, w) :: rest)

/-- The keys of a table below `n`, in order. -/
def keys (m : SMap α) : List Nat := m.map (·.1)

/-- Writes the values of a list at successive keys. -/
def storeList [DecidableEq α] (d : α) : SMap α → Nat → List α → SMap α
  | m, _, [] => m
  | m, k, v :: vs => storeList d (store d m k v) (k + 1) vs

/-- Reads `n` successive keys. -/
def lookList (d : α) (m : SMap α) (k n : Nat) : List α :=
  (List.range n).map fun i => look d m (k + i)

/-! ## Memory -/

/-- Byte-addressed memory: HBM or host memory. -/
abbrev Memory := SMap Byte

/-- The canonical form of a memory; an unlisted byte reads as zero. -/
abbrev Memory.wf (m : Memory) : Bool := SMap.wf (0 : Byte) m

end Sys2Proof.Machine
end

