-- ==== Sys2Proof/Machine/Bits.lean ====
section
/-! DEFINITION. Bit fields, byte order and the elements of slots and carriages (R7, R8, R39). -/

namespace Sys2Proof.Machine

open Sys2Proof

/-- Bits [hi:lo] of a number. -/
def bits (x hi lo : Nat) : Nat := x / 2 ^ lo % 2 ^ (hi - lo + 1)

/-- Bit `i` of a number. -/
def bitOf (x i : Nat) : Bool := x / 2 ^ i % 2 = 1

/-- A flag as a number. -/
def flag (b : Bool) : Nat := if b then 1 else 0

/-- A number of `w` bits read as two's complement. -/
def signed (w x : Nat) : Int :=
  if x % 2 ^ w < 2 ^ (w - 1) then (x % 2 ^ w : Nat) else (x % 2 ^ w : Nat) - (2 ^ w : Nat)

/-- The `w` low bits of an integer in two's complement. -/
def unsigned (w : Nat) (x : Int) : Nat := (x % (2 ^ w : Nat)).toNat

/-- Bytes to a number, the first byte lowest (R7). -/
def leNat : List Byte → Nat
  | [] => 0
  | b :: bs => b.toNat + 256 * leNat bs

/-- The `n` bytes of a number, lowest first (R7). -/
def leBytes : Nat → Nat → List Byte
  | 0, _ => []
  | n + 1, x => BitVec.ofNat 8 x :: leBytes n (x / 256)

/-- Bytes to a number, the first byte highest. -/
def beNat (bs : List Byte) : Nat := leNat bs.reverse

/-- The `n` bytes of a number, highest first. -/
def beBytes (n x : Nat) : List Byte := (leBytes n x).reverse

/-- Slot `s` of a carriage (R8). -/
def slotOf (v : Carriage) (s : Nat) : Slot := v.extractLsb' (36 * s) 36

/-- A carriage from its slots; absent slots are zero (R8). -/
def ofSlots (f : Nat → Nat) : Carriage :=
  BitVec.ofNat 2304 <| (List.range 64).foldl (fun a s => a + (f s % 2 ^ 36) * 2 ^ (36 * s)) 0

/-- A carriage with slot `s` replaced. -/
def setSlot (v : Carriage) (s : Nat) (x : Slot) : Carriage :=
  ofSlots fun i => if i = s then x.toNat else (slotOf v i).toNat

/-- The two carriages of a granule, the first in the low half (R42, R251). -/
def granuleHalf (g : Granule) (h : Nat) : Carriage := g.extractLsb' (2304 * h) 2304

/-- Slots selected by `f` from the new value, the others from the old one (R74). -/
def mergeSlots (old new : Carriage) (f : Nat → Bool) : Carriage :=
  ofSlots fun i => if f i then (slotOf new i).toNat else (slotOf old i).toNat

/-- Element `e` of width `w` of a slot (R39). -/
def elemOf (w : Nat) (x : Slot) (e : Nat) : Nat := x.toNat / 2 ^ (w * e) % 2 ^ w

/-- A slot of plain elements: bits [35:32] are zero (R39). -/
def packElems (w m : Nat) (f : Nat → Nat) : Nat :=
  (List.range m).foldl (fun a e => a + (f e % 2 ^ w) * 2 ^ (w * e)) 0

/-- The smallest number of `n`-sized pieces that cover `x`. -/
def ceilDiv (x n : Nat) : Nat := (x + n - 1) / n

/-- The `w` low bits of `i` in reverse order. -/
def bitrev : Nat → Nat → Nat
  | 0, _ => 0
  | w + 1, i => (i % 2) * 2 ^ w + bitrev w (i / 2)

/-- The number of bits of `x` (0 for 0). -/
def bitLen (x : Nat) : Nat := if x = 0 then 0 else Nat.log2 x + 1

/-- b^e mod q by repeated squaring over `fuel` bits of the exponent. -/
def powModAux (q : Nat) : Nat → Nat → Nat → Nat → Nat
  | 0, _, _, acc => acc % q
  | f + 1, b, e, acc => powModAux q f (b * b % q) (e / 2) (if e % 2 = 1 then acc * b % q else acc)

def powMod (b e q : Nat) : Nat := powModAux q (bitLen e) (b % q) e 1

/-- The inverse modulo a prime. -/
def invMod (a q : Nat) : Nat := powMod a (q - 2) q

/-- (a - b) mod q for any a and b. -/
def subMod (a b q : Nat) : Nat := (a % q + (q - b % q)) % q

/-- A SET_COUNT companion after one more hardware set: it saturates at 255 (R13). -/
def satInc (c : BitVec 8) : BitVec 8 := if c = 255 then c else c + 1

/-- A 48-bit counter: it saturates until it is read (R303). -/
def count48 (n : Nat) : Nat := min n (2 ^ 48 - 1)

/-- The first element that satisfies `p`, with its position. -/
def findAt {α : Type} (p : α → Bool) : List α → Nat → Option (Nat × α)
  | [], _ => none
  | a :: rest, i => if p a then some (i, a) else findAt p rest (i + 1)

/-- A list with position `i` replaced. -/
def setNth {α : Type} : List α → Nat → α → List α
  | [], _, _ => []
  | _ :: rest, 0, v => v :: rest
  | a :: rest, i + 1, v => a :: setNth rest i v

end Sys2Proof.Machine
end

