-- ==== Sys2Proof/Machine/Sha.lean ====
section
/-! DEFINITION. SHA-256 of FIPS 180-4 and HMAC-SHA256 of RFC 2104 (R58, R316, R318, R388). The words of a state or of a schedule
stand in one number, word `i` in its bits [32 i + 31 : 32 i]. -/

namespace Sys2Proof.Machine

open Sys2Proof

/-- Word `i` of a row of 32-bit words. -/
def wordOf (x i : Nat) : Nat := x >>> (32 * i) % 4294967296

/-- The 64 round constants: the first 32 bits of the fractions of the cube roots of the first 64 primes. -/
def shaConstants : Nat :=
  25051139735836467913601071899189108501681633092613316132753366958947502841281110980347811086624969305314199562795868290539880502533646505489797110349007385020507326982043050618112420254613810441709594605123090411975756494285771699200369901479195251226368983824020564277645963860728452821576845901498668417244438721537663670541944820957180957595559282976806173113161068298822071065329290006052849814285001949914564097058408480133985233335799884203712730341384999677089997083749077591931498939520449886954646413138343858395935213418018409268340744776361518554939863400075967197509182087778881547827184266701615699472280

/-- The initial state: the first 32 bits of the fractions of the square roots of the first eight primes. -/
def shaInit : Nat := 41557658498906279274860226408925318911382702236748615442085426012007055353447

/-- A 32-bit word twice over: its low 32 bits after a shift right are the word rotated right. -/
def twice (x : Nat) : Nat := x * 4294967297

/-- One round over the state (words a to h from the lowest) with the sum of its constant and its schedule word. -/
def shaRound (s kw : Nat) : Nat :=
  let b := wordOf s 1
  let c := wordOf s 2
  let f := wordOf s 5
  let g := wordOf s 6
  let aa := twice (wordOf s 0)
  let ee := twice (wordOf s 4)
  let t := wordOf s 7 + kw + (g ^^^ (ee &&& (f ^^^ g))) + (ee >>> 6 ^^^ ee >>> 11 ^^^ ee >>> 25) % 4294967296
  let top := t + ((aa &&& (b ||| c)) ||| (b &&& c)) + (aa >>> 2 ^^^ aa >>> 13 ^^^ aa >>> 22) % 4294967296
  (s % 2 ^ 96) <<< 32 + top % 4294967296 + ((wordOf s 3 + t) % 4294967296) <<< 128 + (s >>> 128 % 2 ^ 96) <<< 160

/-- The schedule a word further: the word sixteen places on joins. -/
def shaSchedule (w : Nat) : Nat :=
  let x := wordOf w 1
  let y := wordOf w 14
  w >>> 32 + ((w + wordOf w 9 + ((twice x >>> 7 ^^^ twice x >>> 18) % 4294967296 ^^^ x >>> 3) +
    ((twice y >>> 17 ^^^ twice y >>> 19) % 4294967296 ^^^ y >>> 10)) % 4294967296) <<< 480

/-- The last `n` of the 64 rounds. -/
def shaRounds : Nat → Nat → Nat → Nat
  | 0, s, _ => s
  | n + 1, s, w => shaRounds n (shaRound s (wordOf shaConstants (63 - n) + wordOf w 0)) (shaSchedule w)

/-- Eight words added to eight. -/
def addWords (s r : Nat) : Nat := (List.range 8).foldl (fun a i => a + ((wordOf s i + wordOf r i) % 2 ^ 32) <<< (32 * i)) 0

/-- The words of a block of bytes, in which the highest byte of each stands first. -/
def blockWords : List Byte → Nat
  | p :: q :: r :: s :: rest =>
    ((p.toNat * 256 + q.toNat) * 256 + r.toNat) * 256 + s.toNat + blockWords rest <<< 32
  | _ => 0

def shaBlock (s : Nat) (block : List Byte) : Nat := addWords s (shaRounds 64 s (blockWords block))

/-- Padding to whole blocks. -/
def shaPad (msg : List Byte) : List Byte :=
  let n := msg.length
  msg ++ (0x80 : Byte) :: List.replicate ((119 - n % 64) % 64) 0 ++ beBytes 8 (8 * n)

def shaBlocks : Nat → List Byte → Nat → Nat
  | 0, _, s => s
  | n + 1, m, s => shaBlocks n (m.drop 64) (shaBlock s (m.take 64))

/-- SHA-256 as 32 bytes. -/
def sha256 (msg : List Byte) : List Byte :=
  let m := shaPad msg
  let s := shaBlocks (m.length / 64) m shaInit
  (List.range 8).flatMap fun i => beBytes 4 (wordOf s i)

/-- SHA-256 as a 256-bit value, byte 0 of the digest in the low byte (R7). -/
def sha256Word (msg : List Byte) : BitVec 256 := BitVec.ofNat 256 (leNat (sha256 msg))

/-- HMAC-SHA256. -/
def hmac256 (key msg : List Byte) : List Byte :=
  let k := if 64 < key.length then sha256 key else key
  let k := k ++ List.replicate (64 - k.length) 0
  sha256 ((k.map (· ^^^ 0x5c)) ++ sha256 ((k.map (· ^^^ 0x36)) ++ msg))

end Sys2Proof.Machine
end

