-- ==== Sys2Proof/Machine/Hss.lean ====
section
/-! DEFINITION. HSS and LMS signatures of RFC 8554: signing with the identity key, and the verifier of signed images (R370,
R388, R397). -/

namespace Sys2Proof.Machine

open Sys2Proof

/-! ## LM-OTS -/

/-- Parameters of an LM-OTS type with N = 32: width w, chains p, and the shift of the checksum. -/
structure Ots where
  code : Nat
  w : Nat
  p : Nat
  ls : Nat

def otsOf (code : Nat) : Option Ots :=
  match code with
  | 1 => some ⟨1, 1, 265, 7⟩ | 2 => some ⟨2, 2, 133, 6⟩ | 3 => some ⟨3, 4, 67, 4⟩ | 4 => some ⟨4, 8, 34, 0⟩
  | _ => none

/-- The height of an LMS type LMS_SHA256_M32_H10 to H25 (R370). -/
def lmsHeight (code : Nat) : Option Nat :=
  match code with
  | 6 => some 10 | 7 => some 15 | 8 => some 20 | 9 => some 25
  | _ => none

def u32 (x : Nat) : List Byte := beBytes 4 x
def u16 (x : Nat) : List Byte := beBytes 2 x

/-- The i-th digit of `w` bits of a byte string. -/
def coefAt (s : List Byte) (i w : Nat) : Nat := (s.getD (i * w / 8) 0).toNat / 2 ^ (8 - (w * (i % (8 / w)) + w)) % 2 ^ w

/-- The digits of a hash with its checksum. -/
def otsDigits (o : Ots) (q : List Byte) : List Nat :=
  let n := 256 / o.w
  let sum := (List.range n).foldl (fun a i => a + (2 ^ o.w - 1 - coefAt q i o.w)) 0
  let full := q ++ u16 (sum * 2 ^ o.ls)
  (List.range o.p).map fun i => coefAt full i o.w

/-- A chain from step `j` over `n` steps. -/
def otsChain (i : List Byte) (q k : Nat) : Nat → Nat → List Byte → List Byte
  | 0, _, x => x
  | n + 1, j, x => otsChain i q k n (j + 1) (sha256 (i ++ u32 q ++ u16 k ++ [BitVec.ofNat 8 j] ++ x))

/-- The leaf hash's input K from the ends of the chains. -/
def otsPublic (i : List Byte) (q : Nat) (ends : List (List Byte)) : List Byte :=
  sha256 (i ++ u32 q ++ u16 0x8080 ++ ends.flatten)

/-- The hash that is signed. -/
def otsHash (i : List Byte) (q : Nat) (c msg : List Byte) : List Byte := sha256 (i ++ u32 q ++ u16 0x8181 ++ c ++ msg)

/-! ## LMS -/

def lmsLeaf (i : List Byte) (r : Nat) (k : List Byte) : List Byte := sha256 (i ++ u32 r ++ u16 0x8282 ++ k)

def lmsNode (i : List Byte) (r : Nat) (left right : List Byte) : List Byte :=
  sha256 (i ++ u32 r ++ u16 0x8383 ++ left ++ right)

/-- The root candidate of a path from node `r`. -/
def lmsClimb (i : List Byte) : Nat → List (List Byte) → List Byte → List Byte
  | _, [], x => x
  | r, s :: rest, x =>
    lmsClimb i (r / 2) rest (if r % 2 = 1 then lmsNode i (r / 2) s x else lmsNode i (r / 2) x s)

/-- What a signature gives: the bytes consumed, and whether it is of the public key. -/
def lmsVerify (pub msg sig : List Byte) : Option (Nat × Bool) :=
  let i := (pub.drop 8).take 16
  match lmsHeight (beNat (pub.take 4)), otsOf (beNat ((pub.drop 4).take 4)) with
  | some h, some o =>
    let q := beNat (sig.take 4)
    let otsLen := 36 + 32 * o.p
    let len := 8 + otsLen + 32 * h
    let c := (sig.drop 8).take 32
    let digits := otsDigits o (otsHash i q c msg)
    let ends := (List.range o.p).map fun k =>
      otsChain i q k (2 ^ o.w - 1 - digits.getD k 0) (digits.getD k 0) ((sig.drop (40 + 32 * k)).take 32)
    let path := (List.range h).map fun k => (sig.drop (8 + otsLen + 32 * k)).take 32
    let root := lmsClimb i (2 ^ h + q) path (lmsLeaf i (2 ^ h + q) (otsPublic i q ends))
    some (len, decide (len ≤ sig.length) && decide (q < 2 ^ h) && beNat ((sig.drop 4).take 4) = o.code &&
      beNat ((sig.drop (4 + otsLen)).take 4) = beNat (pub.take 4) && root = (pub.drop 24).take 32)
  | _, _ => none

/-- The length of a signature under a public key. -/
def lmsLength (pub : List Byte) : Nat :=
  match lmsHeight (beNat (pub.take 4)), otsOf (beNat ((pub.drop 4).take 4)) with
  | some h, some o => 44 + 32 * o.p + 32 * h
  | _, _ => 0

/-! ## HSS -/

/-- The signed public keys of a signature: `n` levels, then the message. -/
def hssWalk : Nat → List Byte → List Byte → List Byte → Bool
  | 0, pub, msg, sig => match lmsVerify pub msg sig with
    | some (len, ok) => ok && sig.length = len
    | none => false
  | n + 1, pub, msg, sig => match lmsVerify pub ((sig.drop (lmsLength pub)).take 56) sig with
    | some (len, ok) => ok && hssWalk n ((sig.drop len).take 56) msg (sig.drop (len + 56))
    | none => false

/-- An HSS signature verifies under a 60-byte public key of one to three levels (R370). -/
def hssVerify (pub msg sig : List Byte) : Bool :=
  let levels := beNat (pub.take 4)
  1 ≤ levels && levels ≤ 3 && pub.length = 60 && beNat (sig.take 4) + 1 = levels &&
    hssWalk (levels - 1) (pub.drop 4) msg (sig.drop 4)

/-! ## The identity key (R397): two levels of H10 with W4 -/

def idOts : Ots := ⟨3, 4, 67, 4⟩

/-- The private element of a chain. -/
def otsPrivate (i seed : List Byte) (q k : Nat) : List Byte := sha256 (i ++ u32 q ++ u16 k ++ [0xFF] ++ seed)

/-- The value of a tree node, `d` levels above the leaves. -/
def treeNode (i seed : List Byte) : Nat → Nat → List Byte
  | 0, r =>
    let q := r - 1024
    lmsLeaf i r (otsPublic i q ((List.range 67).map fun k => otsChain i q k 15 0 (otsPrivate i seed q k)))
  | d + 1, r => lmsNode i r (treeNode i seed d (2 * r)) (treeNode i seed d (2 * r + 1))

/-- The public key of a tree: 56 bytes. -/
def treePublic (i seed : List Byte) : List Byte := u32 6 ++ u32 3 ++ i ++ treeNode i seed 10 1

/-- The path of leaf `q`: siblings from the leaf up. -/
def treePath (i seed : List Byte) (q : Nat) : List (List Byte) :=
  (List.range 10).map fun d =>
    let r := (1024 + q) / 2 ^ d
    treeNode i seed d (if r % 2 = 1 then r - 1 else r + 1)

/-- An LMS signature of a message by leaf `q` with randomiser `c`: 2,508 bytes. -/
def treeSign (i seed : List Byte) (q : Nat) (c msg : List Byte) : List Byte :=
  let digits := otsDigits idOts (otsHash i q c msg)
  u32 q ++ u32 3 ++ c ++
    ((List.range 67).flatMap fun k => otsChain i q k (digits.getD k 0) 0 (otsPrivate i seed q k)) ++
    u32 6 ++ (treePath i seed q).flatten

/-- The top tree of an identity seed. -/
def topId (seed : List Byte) : List Byte := (sha256 (seed ++ [1])).take 16
def topSeed (seed : List Byte) : List Byte := sha256 (seed ++ [0])

/-- The bottom tree of block b. -/
def bottomId (seed : List Byte) (b : Nat) : List Byte := (sha256 (seed ++ u32 b ++ [3])).take 16
def bottomSeed (seed : List Byte) (b : Nat) : List Byte := sha256 (seed ++ u32 b ++ [2])

/-- The identity public key: 60 bytes. -/
def identityPublic (seed : List Byte) : List Byte := u32 2 ++ treePublic (topId seed) (topSeed seed)

/-- The top leaf b signs the public key of bottom tree b. -/
def topSignature (seed : List Byte) (b : Nat) (c : List Byte) : List Byte :=
  treeSign (topId seed) (topSeed seed) b c (treePublic (bottomId seed b) (bottomSeed seed b))

/-- An identity signature: Nspk 1, the top signature, the bottom public key, the bottom signature: 5,076 bytes. -/
def identitySign (seed : List Byte) (b leaf : Nat) (top c msg : List Byte) : List Byte :=
  u32 1 ++ top ++ treePublic (bottomId seed b) (bottomSeed seed b) ++
    treeSign (bottomId seed b) (bottomSeed seed b) leaf c msg

end Sys2Proof.Machine
end

