-- ==== Sys2Proof/Machine/Nvm.lean ====
section
/-! DEFINITION. The configuration NVM as it is programmed: its layout, the boot header, the records of the journal, the identity
record and the images as shipped (R3, R263, R366 to R369, R373, R375 to R377, R398, R400, R416, R427). -/

namespace Sys2Proof.Machine

open Sys2Proof

/-! ## Fields -/

/-- A number from fields, each with its lowest bit, its width and its value. -/
def fieldsWord (l : List (Nat × Nat × Nat)) : Nat := l.foldl (fun a f => a + f.2.2 % 2 ^ f.2.1 * 2 ^ f.1) 0

/-- The first `n` bytes of a list, zero beyond its end. -/
def padTo (n : Nat) (bs : List Byte) : List Byte := bs.take n ++ List.replicate (n - bs.length) 0

/-- A little-endian field of `n` bytes at an offset. -/
def fieldAt (bs : List Byte) (off n : Nat) : Nat := leNat ((bs.drop off).take n)

/-- Bytes are zero. -/
def allZero (bs : List Byte) : Bool := bs.all (· = 0)

/-! ## Journal records (R263, R375, R400) -/

/-- A remap entry in use (R263). -/
structure Remap where
  phys : Nat
  row : Nat
  spare : Nat
  remaps : Nat
  deriving DecidableEq, Repr

/-- The 64 bits of a remap entry in use. -/
def Remap.word (r : Remap) : Nat := fieldsWord [(63, 1, 1), (58, 5, r.phys), (37, 21, r.row), (30, 7, r.spare), (27, 3, r.remaps)]

def remapOf (x : Nat) : Remap := { phys := bits x 62 58, row := bits x 57 37, spare := bits x 36 30, remaps := bits x 29 27 }

/-- What a journal record says. -/
inductive JRec where
  | boot (number : Nat) (copies fallback : BitVec 3) (restricted sealFlag cfgMissing : Bool)
  | sealRec (bootNumber : Nat) (during : Bool)
  | lmsReserve (bootNumber : Nat) (block : Nat) (generation : Nat)
  | identity (generation : Nat)
  | secVersion (kind : Nat) (minimum : BitVec 32)
  | update (region : Nat) (copy : Bool) (version : BitVec 16) (secVersion : BitVec 32)
  | debug (bootNumber : Nat)
  | hbmRemap (stack : Nat) (entry : Remap)
  | spareRetire (stack phys spare : Nat)
  | rowRetire (stack ch row : Nat)
  | channel (stack ch : Nat) (finished lost : Bool)
  | spadRepair (coach bank row spare : Nat)
  | coachDegraded (coach bank : Nat)
  | policyUnusable (set cond : Nat)
  | checkpoint (seq boots restricted : Nat)
  deriving DecidableEq, Repr

/-- TYPE and PAYLOAD of a record. LEVEL of LMS_RESERVE is 0: a block of bottom leaves. -/
def JRec.body : JRec → Nat × Nat
  | .boot n copies fell restricted open_ missing =>
    (0x01, fieldsWord [(0, 32, n), (32, 3, copies.toNat), (35, 3, fell.toNat), (38, 1, flag restricted), (39, 1, flag open_),
      (40, 1, flag missing)])
  | .sealRec n during => (0x02, fieldsWord [(0, 32, n), (32, 1, flag during)])
  | .lmsReserve n b g => (0x03, fieldsWord [(0, 16, g), (16, 10, b), (26, 2, 0), (44, 32, n)])
  | .identity g => (0x04, fieldsWord [(0, 16, g)])
  | .secVersion k v => (0x05, fieldsWord [(0, 8, k), (8, 32, v.toNat)])
  | .update r copy v sv => (0x06, fieldsWord [(0, 2, r), (2, 1, flag copy), (3, 16, v.toNat), (19, 32, sv.toNat)])
  | .debug n => (0x07, fieldsWord [(0, 32, n)])
  | .hbmRemap k e => (0x08, fieldsWord [(0, 3, k), (3, 64, e.word)])
  | .spareRetire k ph sp => (0x09, fieldsWord [(0, 3, k), (3, 5, ph), (8, 7, sp)])
  | .rowRetire k ch row => (0x0A, fieldsWord [(0, 3, k), (3, 8, ch), (11, 21, row)])
  | .channel k ch fin lost => (0x0B, fieldsWord [(0, 3, k), (3, 5, ch), (8, 1, flag fin), (9, 1, flag lost)])
  | .spadRepair c b row sp => (0x0C, fieldsWord [(0, 6, c), (6, 5, b), (11, 11, row), (22, 4, sp)])
  | .coachDegraded c b => (0x0D, fieldsWord [(0, 6, c), (6, 5, b)])
  | .policyUnusable k n => (0x0E, fieldsWord [(0, 8, k), (8, 8, n)])
  | .checkpoint seq boots restricted => (0x0F, fieldsWord [(0, 32, seq), (32, 32, boots), (64, 32, restricted)])

/-- A record from its TYPE and PAYLOAD. -/
def JRec.ofBody (ty x : Nat) : Option JRec :=
  match ty with
  | 0x01 => some (.boot (bits x 31 0) (BitVec.ofNat 3 (bits x 34 32)) (BitVec.ofNat 3 (bits x 37 35)) (bitOf x 38) (bitOf x 39)
      (bitOf x 40))
  | 0x02 => some (.sealRec (bits x 31 0) (bitOf x 32))
  | 0x03 => if bits x 27 26 = 0 then some (.lmsReserve (bits x 75 44) (bits x 25 16) (bits x 15 0)) else none
  | 0x04 => some (.identity (bits x 15 0))
  | 0x05 => some (.secVersion (bits x 7 0) (BitVec.ofNat 32 (bits x 39 8)))
  | 0x06 => some (.update (bits x 1 0) (bitOf x 2) (BitVec.ofNat 16 (bits x 18 3)) (BitVec.ofNat 32 (bits x 50 19)))
  | 0x07 => some (.debug (bits x 31 0))
  | 0x08 => some (.hbmRemap (bits x 2 0) (remapOf (bits x 66 3)))
  | 0x09 => some (.spareRetire (bits x 2 0) (bits x 7 3) (bits x 14 8))
  | 0x0A => some (.rowRetire (bits x 2 0) (bits x 10 3) (bits x 31 11))
  | 0x0B => some (.channel (bits x 2 0) (bits x 7 3) (bitOf x 8) (bitOf x 9))
  | 0x0C => some (.spadRepair (bits x 5 0) (bits x 10 6) (bits x 21 11) (bits x 25 22))
  | 0x0D => some (.coachDegraded (bits x 5 0) (bits x 10 6))
  | 0x0E => some (.policyUnusable (bits x 7 0) (bits x 15 8))
  | 0x0F => some (.checkpoint (bits x 31 0) (bits x 63 32) (bits x 95 64))
  | _ => none

/-- CHECK of a record: the first 32 bits of the SHA-256 of its bits [479:0]. -/
def recCheck (x : Nat) : Nat := leNat ((sha256 (leBytes 60 x)).take 4)

/-- The 64 bytes of a record under a SEQ. -/
def JRec.word (r : JRec) (seq : Nat) : BitVec 512 :=
  let x := fieldsWord [(0, 440, r.body.2), (440, 8, r.body.1), (448, 32, seq)]
  BitVec.ofNat 512 (x + recCheck x * 2 ^ 480)

/-- What a record place says: SEQ and the record; none where CHECK fails, as for a torn record (R376). -/
def recOf (w : BitVec 512) : Option (Nat × JRec) :=
  let x := w.toNat
  if bits x 511 480 = recCheck x then (JRec.ofBody (bits x 447 440) (bits x 439 0)).map fun r => (bits x 479 448, r) else none

/-! ## The layout (R366, R367) -/

/-- The regions: offset and size. The other offsets of the 512 MiB are reserved, and nothing reads or writes them. -/
inductive NvmRegion where
  | header (copy : Bool) | firmware (copy : Bool) | microcode (copy : Bool) | config (copy : Bool) | identity | journal (half : Bool)
  deriving DecidableEq, Repr

def NvmRegion.offset : NvmRegion → Nat
  | .header b => if b then 0x00010000 else 0
  | .firmware b => if b then 0x01100000 else 0x00100000
  | .microcode b => if b then 0x02500000 else 0x02100000
  | .config b => if b then 0x03100000 else 0x02900000
  | .identity => 0x03900000
  | .journal b => if b then 0x06000000 else 0x04000000

def NvmRegion.size : NvmRegion → Nat
  | .header _ => 0x10000
  | .firmware _ => 0x1000000
  | .microcode _ => 0x400000
  | .config _ => 0x800000
  | .identity => 0x100000
  | .journal _ => 0x2000000

/-- The NVM: what is programmed of each region, from the region's first byte on (of the identity region's two copies, from the
first byte of each); a half of the journal is a list of 64-byte records, oldest first. What is not programmed is erased. -/
structure Nvm where
  hdr0 : List Byte
  hdr1 : List Byte
  fwA : List Byte
  fwB : List Byte
  mcA : List Byte
  mcB : List Byte
  cfgA : List Byte
  cfgB : List Byte
  idA : List Byte
  idB : List Byte
  half0 : List (BitVec 512)
  half1 : List (BitVec 512)
  deriving DecidableEq, Repr

/-- The programmed bytes of a region. -/
def Nvm.region (n : Nvm) : NvmRegion → List Byte
  | .header b => if b then n.hdr1 else n.hdr0
  | .firmware b => if b then n.fwB else n.fwA
  | .microcode b => if b then n.mcB else n.mcA
  | .config b => if b then n.cfgB else n.cfgA
  | .identity => n.idA ++ List.replicate (0x80000 - n.idA.length) 0xFF ++ n.idB
  | .journal b => (if b then n.half1 else n.half0).flatMap fun w => leBytes 64 w.toNat

/-- The records that the bytes of a half of the journal make; an erased byte is 0xFF (PRESUMED, log entry 8). -/
def recsOf (bs : List Byte) : List (BitVec 512) :=
  (List.range (ceilDiv bs.length 64)).map fun i =>
    BitVec.ofNat 512 (leNat ((bs.drop (64 * i)).take 64 ++ List.replicate (64 - (bs.drop (64 * i)).length) 0xFF))

/-- The NVM with the bytes of a region replaced. -/
def Nvm.withRegion (n : Nvm) (r : NvmRegion) (bs : List Byte) : Nvm :=
  match r with
  | .header b => if b then { n with hdr1 := bs } else { n with hdr0 := bs }
  | .firmware b => if b then { n with fwB := bs } else { n with fwA := bs }
  | .microcode b => if b then { n with mcB := bs } else { n with mcA := bs }
  | .config b => if b then { n with cfgB := bs } else { n with cfgA := bs }
  | .identity => { n with idA := bs.take 0x80000, idB := bs.drop 0x80000 }
  | .journal b => if b then { n with half1 := recsOf bs } else { n with half0 := recsOf bs }

/-- The region that holds an address; none for a reserved one. -/
def regionAt (addr : Nat) : Option NvmRegion :=
  (([false, true].flatMap fun b => [NvmRegion.header b, .firmware b, .microcode b, .config b, .journal b]) ++ [NvmRegion.identity]).find?
    fun r => decide (r.offset ≤ addr ∧ addr < r.offset + r.size)

/-- A byte that the external programmer of R380 writes; no reserved offset holds one (log entry 8). -/
def Nvm.putByte (n : Nvm) (addr : Nat) (v : Byte) : Nvm :=
  match regionAt addr with
  | none => n
  | some r =>
    let bs := n.region r
    n.withRegion r ((bs ++ List.replicate (addr - r.offset + 1 - bs.length) 0xFF).set (addr - r.offset) v)

/-! ## The boot header (R368) -/

/-- A boot header copy: SEQ, the vendor root public key, and by region (firmware, microcode, configuration) ACTIVE and TRIAL. -/
structure BootHdr where
  seq : BitVec 32
  root : List Byte
  activeB : BitVec 3
  trial : BitVec 3
  deriving DecidableEq, Repr

/-- The 96 bytes that the hash covers: format at 0, SEQ at 4, the key at 8, ACTIVE and TRIAL in byte 68 (the places are a DESIGN
CHOICE, log entry 8). -/
def BootHdr.front (h : BootHdr) : List Byte :=
  padTo 96 (leBytes 4 1 ++ leBytes 4 h.seq.toNat ++ padTo 60 h.root ++ [BitVec.ofNat 8 (h.activeB.toNat + 8 * h.trial.toNat)])

/-- The 128 bytes of a header copy, its SHA-256 last. -/
def BootHdr.bytes (h : BootHdr) : List Byte := h.front ++ sha256 h.front

/-- The fields of a header copy. -/
def hdrFields (bs : List Byte) : BootHdr :=
  { seq := BitVec.ofNat 32 (fieldAt bs 4 4), root := (bs.drop 8).take 60, activeB := BitVec.ofNat 3 (fieldAt bs 68 1)
    trial := BitVec.ofNat 3 (fieldAt bs 68 1 / 8) }

/-- A header copy whose format is right and whose hash verifies. -/
def hdrOf (bs : List Byte) : Option BootHdr :=
  if fieldAt bs 0 2 = 1 ∧ (bs.drop 96).take 32 = sha256 (bs.take 96) then some (hdrFields bs) else none

/-- `a` is higher than `b` in serial order. -/
def serialAfter (a b : BitVec 32) : Bool := a ≠ b && (a - b).toNat < 2 ^ 31

/-- Copy 1 of the boot header is the one in use. -/
def Nvm.second (n : Nvm) : Bool :=
  match hdrOf n.hdr0, hdrOf n.hdr1 with
  | some h0, some h1 => serialAfter h1.seq h0.seq
  | none, some _ => true
  | _, none => false

/-- The boot header in use; with no valid copy, copy A of every region and no trial, under the key that stands in header copy 0. -/
def Nvm.header (n : Nvm) : BootHdr :=
  match hdrOf (if n.second then n.hdr1 else n.hdr0) with
  | some h => h
  | none => { hdrFields n.hdr0 with activeB := 0, trial := 0 }

/-- The header copy not in use is written, with SEQ one higher. -/
def Nvm.putHeader (n : Nvm) (activeB trial : BitVec 3) : Nvm :=
  let h : BootHdr := { n.header with seq := n.header.seq + 1, activeB := activeB, trial := trial }
  if n.second then { n with hdr0 := h.bytes } else { n with hdr1 := h.bytes }

/-! ## The journal (R375 to R377) -/

/-- Record places of a half of the journal. -/
def journalPlaces : Nat := 524288

/-- The records of a half that can be read, oldest first. -/
def scanHalf (half : List (BitVec 512)) : List (Nat × JRec) := half.filterMap recOf

/-- What the last CHECKPOINT of a half covers. -/
def checkpointOf (half : List (BitVec 512)) : Option Nat :=
  (scanHalf half).foldl (fun a r => match r.2 with | .checkpoint seq _ _ => some seq | _ => a) none

/-- Half 1 is the active one: a half without a CHECKPOINT is ignored beside one that has it; of two, the later one counts, and
with none half 0, in which the journal began (DEDUCED, log entry 70). -/
def Nvm.half (n : Nvm) : Bool :=
  match checkpointOf n.half0, checkpointOf n.half1 with
  | some a, some b => decide (a < b)
  | none, some _ => true
  | _, none => false

def Nvm.active (n : Nvm) : List (BitVec 512) := if n.half then n.half1 else n.half0

/-- What the journal says, oldest first. -/
def Nvm.journal (n : Nvm) : List JRec := (scanHalf n.active).map (·.2)

/-- The SEQ of the next record. -/
def Nvm.nextSeq (n : Nvm) : Nat :=
  match (scanHalf n.active).getLast? with
  | some r => (r.1 + 1) % 2 ^ 32
  | none => 0

/-- Record places used of the active half. -/
def Nvm.used (n : Nvm) : Nat := n.active.length

/-- A record that a compaction keeps whatever its age. -/
def JRec.live : JRec → Bool
  | .secVersion _ _ | .hbmRemap _ _ | .spareRetire _ _ _ | .rowRetire _ _ _ | .channel _ _ _ _ | .spadRepair _ _ _ _
  | .coachDegraded _ _ => true
  | _ => false

/-- The last record that satisfies `p`, as a list. -/
def lastRec (p : JRec → Bool) (l : List JRec) : List JRec :=
  match l.reverse.find? p with
  | some r => [r]
  | none => []

/-- Boots and boots in restricted mode that a journal shows, those that a checkpoint counts included. -/
def bootCounts (l : List JRec) : Nat × Nat :=
  l.foldl (fun a r => match r with
    | .boot n _ _ restricted _ _ => (n, a.2 + (if restricted then 1 else 0))
    | .checkpoint _ b r => (b, r)
    | _ => a) (0, 0)

/-- A BOOT or SEAL record. -/
def JRec.history : JRec → Bool
  | .boot _ _ _ _ _ _ | .sealRec _ _ => true
  | _ => false

/-- The live state of a journal with its checkpoint. -/
def compacted (seq : Nat) (l : List JRec) : List JRec :=
  let hist := l.filter JRec.history
  let counts := bootCounts l
  l.filter JRec.live ++ lastRec (fun r => match r with | .lmsReserve _ _ _ => true | _ => false) l ++
    lastRec (fun r => match r with | .identity _ => true | _ => false) l ++ hist.drop (hist.length - 256) ++
    [.checkpoint seq counts.1 counts.2]

/-- Records under successive SEQ. -/
def recWords : Nat → List JRec → List (BitVec 512)
  | _, [] => []
  | seq, r :: rest => r.word seq :: recWords (seq + 1) rest

/-- The halves, of which half `b` is given and the other one erased where `erase` says so. -/
def Nvm.withHalf (n : Nvm) (b : Bool) (l : List (BitVec 512)) (erase : Bool) : Nvm :=
  if b then { n with half1 := l, half0 := if erase then [] else n.half0 }
  else { n with half0 := l, half1 := if erase then [] else n.half1 }

/-- A record is appended; a half with fewer than 16,384 places left is compacted into the other and erased. -/
def Nvm.append (n : Nvm) (r : JRec) : Nvm :=
  let seq := n.nextSeq
  if journalPlaces < 16384 + (n.used + 1) then
    n.withHalf (!n.half) (recWords (seq + 1) (compacted seq (n.journal ++ [r]))) true
  else n.withHalf n.half (n.active ++ [r.word seq]) false

/-- The minimum security version of a kind (1 firmware, 2 microcode, 3 policy table) in the journal. -/
def Nvm.minimum (n : Nvm) (kind : Nat) : Nat :=
  n.journal.foldl (fun a r => match r with
    | .secVersion k v => if k = kind then max a v.toNat else a
    | _ => a) 0

/-- The generation of the last IDENTITY record; 0 when no key was ever created. -/
def Nvm.lastGeneration (n : Nvm) : Nat :=
  n.journal.foldl (fun a r => match r with | .identity g => g | _ => a) 0

/-- The highest block that the journal records for a generation. -/
def Nvm.lastBlock (n : Nvm) (generation : Nat) : Option Nat :=
  n.journal.foldl (fun a r => match r with
    | .lmsReserve _ b g => if g = generation then some (max b (a.getD 0)) else a
    | _ => a) none

/-- The last boot of the journal ran in restricted mode. -/
def Nvm.lastRestricted (n : Nvm) : Bool :=
  n.journal.foldl (fun a r => match r with | .boot _ _ _ restricted _ _ => restricted | _ => a) false

/-! ## The identity record (R398) -/

/-- An identity record. -/
structure IdentityRec where
  generation : Nat
  cipher : BitVec 256
  mac : BitVec 256
  publicKey : List Byte
  helper : List Byte

/-- The 8,256 bytes of an identity record. -/
def IdentityRec.bytes (r : IdentityRec) : List Byte :=
  leBytes 2 1 ++ leBytes 2 r.generation ++ List.replicate 128 0 ++ leBytes 32 r.cipher.toNat ++ leBytes 32 r.mac.toNat ++
    padTo 60 r.publicKey ++ padTo 8000 r.helper

/-- The record that a copy of the identity region holds, where its format is right. -/
def identityOf (bs : List Byte) : Option IdentityRec :=
  if fieldAt bs 0 2 = 1 ∧ allZero ((bs.drop 4).take 128) = true then
    some { generation := fieldAt bs 2 2, cipher := BitVec.ofNat 256 (fieldAt bs 132 32), mac := BitVec.ofNat 256 (fieldAt bs 164 32)
           publicKey := (bs.drop 196).take 60, helper := (bs.drop 256).take 8000 }
  else none

/-! ## Signed images (R369) -/

/-- The header of a signed image. -/
structure SignedHdr where
  sigBytes : Nat
  payloadBytes : Nat
  secVersion : Nat
  version : Nat
  signer : Nat
  kind : Nat
  payloadHash : Nat
  clean : Bool

def SignedHdr.of (bs : List Byte) : SignedHdr :=
  let x := leNat (bs.take 64)
  { sigBytes := bits x 447 416, payloadBytes := bits x 415 384, secVersion := bits x 383 352, version := bits x 351 336
    signer := bits x 335 328, kind := bits x 327 320, payloadHash := bits x 319 64
    clean := bits x 15 0 = 1 && bits x 63 16 = 0 && bits x 511 448 = 0 }

/-! ## As shipped (R3, R4, R245, R373, R416, R427; log entries 3 and 8) -/

/-- The vendor root public key, of two levels (log entry 3), and the hash of it in the boot ROM (R370). -/
def vendorKey : List Byte := identityPublic Config.vendorSeed

def romRootHash : BitVec 256 := sha256Word vendorKey

/-- A signed image of the vendor by the leaf of a number. -/
def vendorImage (leaf kind version secVersion : Nat) (payload : List Byte) : List Byte :=
  let hdr := leBytes 64 (fieldsWord [(0, 16, 1), (64, 256, leNat (sha256 payload)), (320, 8, kind), (328, 8, 1), (336, 16, version),
    (352, 32, secVersion), (384, 32, payload.length), (416, 32, 5076)])
  hdr ++ payload ++ identitySign Config.vendorSeed 0 leaf (topSignature Config.vendorSeed 0 (Config.vendorSalt 0))
    (Config.vendorSalt (leaf + 1)) hdr

/-- The ciphertext primes and special primes of set 0x21 (R427). -/
def referenceCiphertextPrimes : List Nat :=
  [0x7fff80001, 0x7ffd80001, 0x7ffc80001, 0x7ff9c0001, 0x7ff900001, 0x7ff860001, 0x7ff6c0001, 0x7ff300001,
   0x7ff120001, 0x7fef40001, 0x7feea0001, 0x7fed80001, 0x7febe0001, 0x7feae0001, 0x7feac0001, 0x7fe960001,
   0x7fe820001, 0x7fe780001, 0x7fe5a0001, 0x7fe540001, 0x7fe220001, 0x7fdee0001, 0x7fde20001, 0x7fddc0001]

def referenceSpecialPrimes : List Nat :=
  [0xffff00001, 0xfff9c0001, 0xfff8e0001, 0xfff840001, 0xfff700001, 0xfff640001, 0xfff4c0001, 0xfff3c0001]

/-- Values of one width, the first lowest. -/
def packed (w : Nat) (l : List Nat) : Nat := fieldsWord (l.zipIdx.map fun e => (w * e.2, w, e.1))

/-- The policy entry of the reference parameter set 0x21 (R65, the table after R66, R68's costs, R147, R427); LOG_N 16 stands as 0
(log entry 20). -/
def referenceEntry : Nat :=
  fieldsWord [(0, 8, 0x21), (8, 2, 3), (20, 6, 24), (26, 4, 8), (30, 3, 3), (33, 8, 35), (48, 11, 768), (59, 4, 11), (64, 4, 2),
    (68, 5, 23), (73, 4, 4), (77, 5, 5), (82, 4, 4), (96, 16, 0x01E0), (112, 16, 0x0080), (128, 16, 0x0060), (144, 16, 0x0010),
    (160, 512, packed 16 [0x0001, 0x0001, 0x0018, 0x0020, 0x0004, 0x0008, 0x0000, 0x0010, 0x0010, 0x0008, 0x0010, 0x0000, 0x0008,
      0x0060]),
    (672, 2016, packed 36 (referenceCiphertextPrimes ++ List.replicate 24 0 ++ referenceSpecialPrimes)),
    (2688, 32, 0xFFF00001), (2720, 32, 0xC0000001),
    (2752, 448, packed 8 (List.replicate 24 35 ++ List.replicate 24 0 ++ List.replicate 8 36))]

/-- The policy table as shipped: the reference set at its position. -/
def shippedPolicy : List Byte := List.replicate (1024 * 0x21) 0 ++ leBytes 1024 referenceEntry ++ List.replicate (1024 * 0xDE) 0

/-- The configuration image as shipped under a CHECK. -/
def shippedConfig (check : List Byte) : List Byte :=
  padTo 0x20 (leBytes 4 1 ++ leBytes 4 786432) ++ padTo 0x20 check ++
    padTo 0x40 (List.replicate 12 0 ++ leBytes 2 0xFFFF ++ leBytes 2 0x224 ++ [1]) ++
    padTo 0xF80 ((List.replicate 16 (leBytes 4 0x1000)).flatten) ++
    padTo 0x1000 (leBytes 2 1 ++ [100, 95, 110, 95, 90, 105] ++ leBytes 2 1650) ++ List.replicate 0xE000 0 ++
    padTo 0x10000 Config.hbmSettings ++ List.replicate 0x20000 0 ++
    padTo 0x80000 (vendorImage 2 3 0 (Config.shippedSecVersion 3).toNat shippedPolicy)

/-- The NVM as shipped: copies A and B alike, no identity key, an empty journal. -/
def shippedNvm : Nvm :=
  let hdr : BootHdr := { seq := 0, root := vendorKey, activeB := 0, trial := 0 }
  let fw := vendorImage 0 1 (0x200 + Config.shippedFwMinor.toNat) (Config.shippedSecVersion 1).toNat (Config.shippedPayload 1)
  let mc := vendorImage 1 2 Config.shippedMcVersion.toNat (Config.shippedSecVersion 2).toNat (Config.shippedPayload 2)
  let cfg := shippedConfig (sha256 (shippedConfig []))
  { hdr0 := hdr.bytes, hdr1 := hdr.bytes, fwA := fw, fwB := fw, mcA := mc, mcB := mc, cfgA := cfg, cfgB := cfg, idA := [], idB := []
    half0 := [], half1 := [] }

end Sys2Proof.Machine
end

