-- ==== Sys2Proof/Machine/State.lean ====
section
/-! DEFINITION. The state of the device: every register, memory, queue, counter, mode and pin the spec gives it, and
the queue of commands that wait. Plain data throughout. -/

namespace Sys2Proof.Machine

/-! ## Ciphertext headers, contexts and parameter sets (R38 to R73, R427) -/

/-- SCHEME of a header (R49). -/
inductive Scheme where
  | plain | packed | lwe | glwe
  deriving DecidableEq, Repr

/-- The 128-bit header of R49, less its reserved bits, which are always zero in the table (R51, R52). -/
structure Header where
  originEngine : BitVec 3
  originIndex : BitVec 13
  poison : Bool
  scaleExp : BitVec 8
  budget : BitVec 16
  level : BitVec 6
  paramSet : BitVec 8
  scheme : Scheme
  context : BitVec 14
  deriving DecidableEq, Repr

/-- The fixed plain header of slot 0 (R50). -/
def Header.fixedPlain : Header :=
  { originEngine := 0, originIndex := 0, poison := false, scaleExp := 0, budget := 0, level := 0, paramSet := 0,
    scheme := .plain, context := 0 }

/-- The uninitialised value (R51). -/
def Header.uninit : Header :=
  { Header.fixedPlain with originEngine := 7, originIndex := 0x1FFF, poison := true }

/-- A policy table entry (R65). LOG_N holds the exponent itself; a stored 0 of a packed set stands for 16 (log
entry 20). `reservedZero` says whether every reserved field was zero, `usable` whether R66's conditions held. -/
structure PolicyEntry where
  setId : BitVec 8
  packed : Bool
  bitwise : Bool
  logN : Nat
  limbs : Nat
  special : Nat
  digits : Nat
  scaleLog : Nat
  lweN : Nat
  glweLogN : Nat
  glweK : Nat
  gadgetL : Nat
  gadgetLogB : Nat
  ksL : Nat
  ksLogB : Nat
  msgBits : Nat
  freshPacked : Nat
  floorPacked : Nat
  freshBitwise : Nat
  floorBitwise : Nat
  cost : List Nat
  primes : List Nat
  primeBits : List Nat
  torusPa : Nat
  torusPb : Nat
  reservedZero : Bool
  usable : Bool
  failed : Nat
  deriving DecidableEq, Repr

/-- A context that is not FREE (R53, R229). -/
structure Context where
  bound : Bool
  paramSet : BitVec 8
  tag : Word64
  dirAddr : BitVec 40
  deriving DecidableEq, Repr

/-- An entry of a coach's task context list (R60, R61): the tag is none for a context that was only CREATED. -/
structure CtxTag where
  context : BitVec 14
  tag : Option Word64
  paramSet : BitVec 8
  deriving DecidableEq, Repr

/-- The no-key tag (R61). -/
def noKeyTag : Word64 := BitVec.allOnes 64

/-! ## Carts -/

/-- A cart: its header (R231), carried unchanged, and its 64 carriages. -/
structure Cart where
  hdr : BitVec 256
  body : List Carriage
  deriving DecidableEq, Repr

/-- A cart on its way to a coach or in its intake buffer (R236, R237, R239): the clk by which its last carriage arrives, or in
which it arrived, the coach, the task that ran there when the cart started, and the cart. -/
structure Delivery where
  clkAt : Nat
  coach : CoachId
  task : Option Nat
  cart : Cart
  deriving DecidableEq, Repr

/-! ## Aborts -/

/-- Abort codes (R350). -/
inductive AbortCode where
  | deadlock | mcastTimeout | gatherRange | bankOff | hazard | memUncorr | linkLost | wdog | hostAbort | hostFault
  deriving DecidableEq, Repr

/-- The KIND of a hazard (R107). -/
inductive HazardKind where
  | readBeforeFill | overwriteBeforeDrain | writeNotAllowed | outsideMap | queueOverflow | queueUnderflow | readNotAllowed
  deriving DecidableEq, Repr

/-- A latched abort condition (R351): its code, its rank, the coach it names, the source that latched it (R358), the
per-code payload (R359) and the node whose packet carried it. -/
structure AbortCond where
  code : BitVec 8
  rank : Nat
  coach : Option CoachId
  source : Nat
  payload : Word64
  remote : Option NodeId
  clkAt : Nat
  deriving DecidableEq, Repr

/-! ## Engines and coaches -/

/-- What an engine does (STATE of CCH_ENG_STATEe, R199). -/
inductive EngSt where
  | noTask | issuing | onWait (door : BitVec 8) (n : BitVec 16) | atShutter (sid : BitVec 4) | ownTransfer | ended
  deriving DecidableEq, Repr

/-- One nesting level of LOOP (R177): first PC of the body, its length, iterations left, index. -/
structure LoopFrame where
  start : Nat
  body : Nat
  left : Nat
  index : Nat
  deriving DecidableEq, Repr

/-- Where a stream request goes. -/
inductive Far where
  | hbm | host | fabric (n : NodeId)
  deriving DecidableEq, Repr

/-- What a partial sum is: a residue sum, an INT32 accumulator, the bits of an FP32 accumulator, or undefined
(R124, R125, R131). -/
inductive AccKind where
  | residue | int | float | undefined
  deriving DecidableEq, Repr

/-- A KSA tile of 16 x 16 partial sums on its way along a chain (R132): `src` names the instruction that sent it, by the number of
its free values. -/
structure ChainTile where
  kind : AccKind
  sums : List Int
  terms : Nat
  arrived : Nat
  src : Nat
  deriving DecidableEq, Repr

/-- What an instruction does in a planned clk: it accesses a bank, aborts the task with GATHER_RANGE, pushes a tile or pops one,
takes a tile of its chain input buffer, or begins to send one on. -/
inductive Act where
  | bank | fail (payload : Nat) | push | pop | take | send
  deriving DecidableEq, Repr

/-- What the content that an access reads is for: nothing, the results, or the choice of other accesses. -/
inductive Want where
  | nothing | data | index
  deriving DecidableEq, Repr

/-- What an instruction has still to do in a planned clk, above all the accesses of scratchpad banks (R74, R79, R433). For an access:
its engine, the issue clk of its instruction, index, engine and row as CCH_HAZARD_INFO lays them out, its row, the kind of the map
entry (0 outside every entry), whether it writes, whether a read clears the fill bit, whether its own execution has filled
the row before (R431), and whether the fill bit and the reader are checked (a reduce of SIN reads unchecked). `ord` is its number
within the execution, `want` what its content is for, `slots` the slots a write changes or a stream read moves, `data` the content
written or pushed (for a reduce of SIN the incoming values follow the result; for a read of SOUT what it was taken to hold), `tile`
the tile sent, and `full` the fill bit before the clk in which a bank conflict first put the access off (R106). -/
structure Acc where
  clk : Nat
  engine : Engine
  issued : Nat
  info : BitVec 32
  row : Nat
  kind : Nat
  write : Bool
  clears : Bool
  own : Bool
  checked : Bool
  ord : Nat
  act : Act
  want : Want
  slots : List Nat
  data : List Carriage
  tile : Option ChainTile
  full : Option Bool
  deriving DecidableEq, Repr

/-- One granule request of a transfer (R243): its far side, byte address, urgency stamp, the clk it leaves the coach, the
first visit it serves (header images are numbered beyond the visits), the masked bytes a write carries by their place in
the granule (none for a read) and the request ID of a remote read (R281). -/
structure Req where
  far : Far
  addr : Nat
  urg : Nat
  clkAt : Nat
  first : Nat
  wr : SMap (Byte × Byte)
  rid : Nat
  deriving DecidableEq, Repr

/-- A transfer of SIN or SOUT under way (R91, R176): its descriptor, its far side and base, the clk it issued, the visits
done, the granules that have arrived and are not yet used by the first visit they serve, the requests that wait, the clk
its near side is next free, the clk the next data-path instruction was planned for, and the rows it has filled.
`images` holds the header images SOUT has still to take: the clk its object's last carriage leaves, the header slot, the
first field of the request that carries it and its byte there (R52, R93); `remote` is the coach that word 3 named at the
issue (R207). -/
structure Transfer where
  desc : BitVec 512
  far : Far
  base : Nat
  issuedAt : Nat
  visits : Nat
  got : SMap Granule
  reqs : List Req
  free : Nat
  planned : Nat
  com : Common
  index : BitVec 13
  filled : List Nat
  poisoned : Bool
  images : List (Nat × Nat × Nat × Nat)
  remote : CoachId
  deriving DecidableEq, Repr

/-- A KCART under way (R224): the target header, the region of cart 0 within the ring, the sequence of the first cart,
the carts done, the clk KIN is next free, the clk the next data-path instruction was planned for. -/
structure KinOpen where
  f : KcartF
  target : Nat
  roff : Int
  cart : Int
  issuedAt : Nat
  done : Nat
  free : Nat
  planned : Nat
  index : BitVec 13
  filled : List Nat
  poisoned : Bool
  remote : CoachId
  deriving DecidableEq, Repr

/-- An engine (R174 to R178, R207, R208). `shutAt` is the clk of its shutter arrival, `afterHold` the HOLD that counts
from a WAIT's or a SHUTTER's resolution, `lostTo` the clk after the last one lost to a bank conflict (R79, R248);
REMOTE_COACH and the other settings stand in `words`. -/
structure EngineS where
  pc : Nat
  st : EngSt
  nextIssue : Nat
  busyUntil : Nat
  afterHold : Nat
  shutAt : Nat
  loops : List LoopFrame
  words : SMap (BitVec 96)
  strides : SMap (BitVec 16)
  transfer : Option Transfer
  kin : Option KinOpen
  lostTo : Nat
  deriving DecidableEq, Repr

/-- An engine before any task. -/
def EngineS.zero : EngineS :=
  { pc := 0, st := .noTask, nextIssue := 0, busyUntil := 0, afterHold := 0, shutAt := 0, loops := [], words := [],
    strides := [], transfer := none, kin := none, lostTo := 0 }

/-- The power state of a bank (R82). -/
inductive BankSt where
  | off | waking | on | draining
  deriving DecidableEq, Repr

/-- A bank (R82, R432): state, target (true is ON), the clk it entered the state, and the issue clk of the power-down up to which
its writes were counted (none before a power-down, and for a drain that began with a zero counter). -/
structure Bank where
  st : BankSt
  target : Bool
  since : Nat
  downAt : Option Nat
  deriving DecidableEq, Repr

/-- A bank at reset (R107: ON). -/
def Bank.reset : Bank := { st := .on, target := true, since := 0, downAt := none }

/-- A door (R184 to R187): its value at the start of the present clk less the counts of the WAITs satisfied in it, its
class, and the amounts still to be added with the clk each is added in. -/
structure Door where
  value : BitVec 16
  cls : BitVec 2
  adds : List (Nat × Nat)
  deriving DecidableEq, Repr

def Door.zero : Door := { value := 0, cls := 0, adds := [] }

/-- A header that its instruction has computed and that becomes visible at clk `due` (R67): the writing engine, the
slot and the value. -/
structure HdrWrite where
  due : Nat
  engine : Nat
  slot : Nat
  value : Header
  deriving DecidableEq, Repr

/-- A key-set tag that KIN has recorded in a region and that the region shows from clk `due` on (R61, R64). -/
structure TagWrite where
  due : Nat
  region : Nat
  tag : Word64
  deriving DecidableEq, Repr

/-- A program slot (R181, R338): one loaded image for the coach. Instruction i of engine e stands at 8,192 e + i. -/
structure ProgSlot where
  progId : BitVec 32
  valid : Bool
  imem : SMap (BitVec 128)
  desc : SMap (BitVec 512)
  map : SMap (BitVec 128)
  regions : SMap (BitVec 128)
  doors : SMap (BitVec 32)
  shutters : SMap (BitVec 32)
  header : BitVec 512
  deriving DecidableEq, Repr

def ProgSlot.empty : ProgSlot :=
  { progId := 0, valid := false, imem := [], desc := [], map := [], regions := [], doors := [], shutters := [],
    header := 0 }

/-- Where a coach stands in the life of a task (R22, R196, R352 to R354, R346). -/
inductive Phase where
  | idle | running | stopped | scrubbing
  deriving DecidableEq, Repr

/-- A completion signal or SIGNAL that waits for its clk (R185). -/
structure Sig where
  engine : Engine
  coach : CoachId
  door : BitVec 8
  amount : BitVec 16
  due : Nat
  deriving DecidableEq, Repr

/-- The first origin of poison of a task (R72). -/
structure Origin where
  coach : CoachId
  engine : BitVec 3
  index : BitVec 13
  clkAt : Nat
  deriving DecidableEq, Repr

/-- A physical error state of stored bits (R75, R254). -/
inductive EccErr where
  | single | double
  deriving DecidableEq, Repr

/-- One accumulator entry: 16 partial sums and their term count (R131). -/
structure AccRow where
  kind : AccKind
  sums : List Int
  terms : Nat
  deriving DecidableEq, Repr

/-- A tile of the tile queue (R30, R143): the clk of its push, the pushing instruction's index and engine as CCH_HAZARD_INFO lays
them out, the number of that instruction's free values, its four carriages. -/
structure QTile where
  clk : Nat
  info : Nat
  src : Nat
  data : List Carriage
  deriving DecidableEq, Repr

/-- The operations of the vector engine (R135). -/
inductive VecOp where
  | add | sub | mul | fma | min | max | cmp | sel | cvt
  deriving DecidableEq, Repr

/-- The six NTE instructions. -/
inductive NteOp where
  | fwd | inv | fcol | frow | irow | icol
  deriving DecidableEq, Repr

/-- The operations of the decompose and base-conversion unit (R222). -/
inductive DbuOp where
  | decg | deck | presc | bext | bdrop | mswb | extr | raise | lower
  deriving DecidableEq, Repr

/-- A data-path instruction of engines 0 to 4, as far as its data go: KMM and KEW together, and ACCT, which moves none. -/
inductive DataCmd where
  | nte (op : NteOp) (f : NteF)
  | vec (op : VecOp) (f : VecF)
  | dbu (op : DbuOp) (f : DbuF)
  | ksa (kew : Bool) (f : KsaF)
  | ktab (src : BitVec 16)
  | auto (f : AutoF)
  | rot (f : RotF)
  | trans (f : TransF)
  | mrot (f : MrotF)
  | gsx (desc : BitVec 10)
  | acct
  deriving DecidableEq, Repr

/-- Content that an instruction takes: a carriage, a tile of the tile queue with the instruction that pushed it, the partial sums of a
tile with their term counts, or a tile of the chain. -/
inductive Got where
  | row (v : Carriage)
  | tile (src : Nat) (t : List Carriage)
  | sums (t : Option (List Int × List Nat))
  | chain (t : Option ChainTile)
  deriving DecidableEq, Repr

/-- A data-path instruction of engines 0 to 4 under way (R111, R433): the command, the engine as it stood at the issue, the issue clk,
occupancy, the clk from which the results may be read, the number of its free values, the content it has taken or is expected
to take, by number, the rows it fills and the other places it writes, the indices a GSX has read, and whether its results are
undefined since it or the next one issued too early. -/
structure OpenEx where
  cmd : DataCmd
  eng : EngineS
  engine : Engine
  clk : Nat
  o : Nat
  due : Nat
  use : Nat
  given : SMap Got
  filled : List Nat
  made : List Nat
  idxs : Option (List Nat)
  spoiled : Bool
  deriving DecidableEq, Repr

/-- A debug access in progress (R81). -/
structure DbgReq where
  write : Bool
  addr : BitVec 22
  deriving DecidableEq, Repr

/-- A coach (R17 to R31, R74 to R107, R174 to R199, R250). `spadDue`, `vregDue` and `actDue` give, by row, by vector register and
for the activation table, the clk from which the content may be read (R111), `tileAt` the clk in which the KSA or the NTE last
wrote a row in scratchpad mode (R143); `accs` holds what instructions have still to do, in their order, and `opens` the
data-path instructions under way, the latest first; `inbound` holds amounts on their way to a door from another coach
(R185); the transpose tile `ttile` holds nothing between
instructions, since TRANS fills and empties it (R142). `early` is as in the device's State (R13). -/
structure Coach where
  -- scratchpad
  spad : SMap Carriage
  fill : SMap Bool
  ecc : SMap (Option EccErr)
  rowCorr : SMap Nat
  repairs : List Nat
  spares : SMap Nat
  degraded : Bool
  banks : SMap Bank
  headers : SMap Header
  hdrLate : List HdrWrite
  spadDue : SMap Nat
  vregDue : SMap Nat
  actDue : Nat
  tileAt : SMap Nat
  accs : List Acc
  opens : List OpenEx
  doors : SMap Door
  engines : SMap EngineS
  -- program slots: false is A
  slotA : ProgSlot
  slotB : ProgSlot
  active : Bool
  loadBusy : Bool
  -- task life
  phase : Phase
  task : Option Nat
  taskId : TaskId
  startTime : Word64
  hazardOn : Bool
  coupling : BitVec 2
  ctxList : List CtxTag
  modTable : List (BitVec 8)
  sigs : List Sig
  inbound : List Sig
  -- watchdog
  wdogLimit : BitVec 32
  wdogActive : Nat
  wdogCount : Nat
  deadlock : Bool
  deadlockSet : BitVec 8
  snaps : SMap Word64
  shutWait : SMap Nat
  stall : SMap Nat
  -- door status
  sat : Bool
  satSet : BitVec 8
  satDoor : BitVec 8
  satSeen : Bool
  -- error registers
  eccUncorr : Bool
  eccCorr : Bool
  eccUncorrSet : BitVec 8
  eccCorrSet : BitVec 8
  eccAddr : BitVec 32
  hazard : Bool
  hazardSet : BitVec 8
  hazardKind : BitVec 3
  hazardInfo : BitVec 32
  dbgAddr : BitVec 22
  dbgData : Slot
  dbgDenied : BitVec 2
  dbgReq : Option DbgReq
  -- power gating
  idleLimit : BitVec 16
  gated : Bool
  waking : Bool
  idleCount : Nat
  -- engine memories
  accMem : SMap AccRow
  actTable : Option Carriage
  chainIn : List ChainTile
  vregs : SMap Carriage
  ttile : SMap Carriage
  tileQueue : List QTile
  regionTags : SMap Word64
  tagLate : List TagWrite
  intake : List Delivery
  intakeAt : Nat
  intakeDone : Bool
  -- accounts of the current task
  mismatch : Nat
  mismatchRaised : Bool
  poisonCount : Nat
  first : Option Origin
  digest : Nat
  digestSlots : Nat
  early : SMap Nat
  deriving DecidableEq, Repr

/-- A coach at reset (R107, R181, R199, R250; header, accumulator and register contents by log entry 7). -/
def Coach.reset : Coach :=
  { spad := [], fill := [], ecc := [], rowCorr := [], repairs := [], spares := [], degraded := false, banks := [],
    headers := [], hdrLate := [], spadDue := [], vregDue := [], actDue := 0, tileAt := [], accs := [], opens := [], doors := [], engines := [], slotA := .empty, slotB := .empty, active := false, loadBusy := false,
    phase := .idle, task := none, taskId := 0, startTime := 0, hazardOn := false, coupling := 0, ctxList := [],
    modTable := [], sigs := [], inbound := [], wdogLimit := 0x01000000, wdogActive := 0x01000000, wdogCount := 0, deadlock := false,
    deadlockSet := 0, snaps := [], shutWait := [], stall := [], sat := false, satSet := 0, satDoor := 0,
    satSeen := false, eccUncorr := false, eccCorr := false, eccUncorrSet := 0, eccCorrSet := 0, eccAddr := 0,
    hazard := false, hazardSet := 0, hazardKind := 0, hazardInfo := 0, dbgAddr := 0, dbgData := 0, dbgDenied := 0,
    dbgReq := none, idleLimit := 0, gated := false, waking := false, idleCount := 0, accMem := [], actTable := none,
    chainIn := [], vregs := [], ttile := [], tileQueue := [], regionTags := [], tagLate := [], intake := [], intakeAt := 0, intakeDone := false,
    mismatch := 0, mismatchRaised := false, poisonCount := 0, first := none, digest := 0, digestSlots := 0, early := [] }

/-! ## Tasks -/

/-- An arrival of another device at a fabric-scope shutter (R191, R301): the use it names, its node, its F_d, and the
clk and the fabric time of its receipt. -/
structure Arrival where
  use : Nat
  node : Nat
  fd : Nat
  clkAt : Nat
  ftimeAt : Nat
  deriving DecidableEq, Repr

/-- A shutter of a task (R188 to R191): the participants of the present use that have arrived (8 · coach + engine), the
clk of the last of them, the uses released, this device's F_d once it has sent it, the arrivals of other devices. -/
structure ShutUse where
  arrived : List Nat
  lastAt : Nat
  uses : Nat
  sentFd : Option Nat
  remotes : List Arrival
  deriving DecidableEq, Repr

def ShutUse.zero : ShutUse := { arrived := [], lastAt := 0, uses := 0, sentFd := none, remotes := [] }

/-- A digest record that waits to be written (R319). -/
structure DigestRec where
  word : BitVec 256
  deriving DecidableEq, Repr

/-- The stages of a task on this device (R346). -/
inductive TaskSt where
  | queued | running | aborting | ended
  deriving DecidableEq, Repr

/-- A task in the task table (R340 to R344). `key` is its acceptance number. -/
structure Task where
  key : Nat
  id : TaskId
  hdr : CmdHdr
  f : TaskF
  contexts : List (BitVec 14)
  bindings : SMap Word64
  devices : List NodeId
  coachMask : BitVec 64
  keylist : List (BitVec 256)
  st : TaskSt
  t0 : Nat
  startTime : Word64
  queue : Option Nat
  abort : Option AbortCond
  shutters : SMap ShutUse
  layer : Nat
  recsWritten : Nat
  recsLost : Nat
  records : List DigestRec
  leftDigests : SMap (Nat × Nat)
  endedCoaches : List Nat
  wdogCount : Nat
  poison : Nat
  mismatch : Nat
  first : Option Origin
  noCompletion : Bool
  loadFailed : Bool
  scrubbed : List Nat
  wrote : List (Far × Nat × Nat)
  lostCh : List Nat
  endTime : Word64
  posted : Bool
  deriving DecidableEq, Repr

/-! ## Host interface -/

/-- A submission ring (R330, R348). `fetched` is the command fetched and not yet accepted. -/
structure Sq where
  base : BitVec 64
  cq : BitVec 6
  logSize : BitVec 5
  enable : Bool
  head : BitVec 16
  tail : BitVec 16
  fetched : Option (BitVec 16 × BitVec 1024)
  deriving DecidableEq, Repr

def Sq.reset : Sq := { base := 0, cq := 0, logSize := 0, enable := false, head := 0, tail := 0, fetched := none }

/-- A completion that waits to be written: its record (R335) and whether it counts for the interrupt (R333). -/
structure Completion where
  word : BitVec 512
  noIrq : Bool
  deriving DecidableEq, Repr

/-- A completion ring (R332, R333, R348). -/
structure Cq where
  base : BitVec 64
  logSize : BitVec 5
  enable : Bool
  phase : Bool
  head : BitVec 16
  tail : BitVec 16
  held : List Completion
  delay : BitVec 16
  count : BitVec 8
  unsignalled : Nat
  oldestAt : Nat
  deriving DecidableEq, Repr

def Cq.reset : Cq :=
  { base := 0, logSize := 0, enable := false, phase := false, head := 0, tail := 0, held := [], delay := 0, count := 1,
    unsignalled := 0, oldestAt := 0 }

/-- A command that has been fetched and waits for something before it completes (R53, R337, R345, R346). A load carries
what its checks found: none, or a refusal (DESC_ALIAS when true, else DESC_RANGE) with its DETAIL; an abort whether any
task was affected. -/
inductive Waiting where
  | fence (h : CmdHdr) (upTo : Nat) (ownRing : Bool)
  | abortOf (h : CmdHdr) (keys : List Nat) (found : Bool)
  | destroy (h : CmdHdr) (context : BitVec 14)
  | groupDelete (h : CmdHdr) (group : BitVec 12)
  | keyRegister (h : CmdHdr) (context : BitVec 14) (tag : Word64) (dirAddr : BitVec 40)
  | load (h : CmdHdr) (progId : BitVec 32) (mask : BitVec 64) (image : List (Nat × ProgSlot)) (fault : Option (Bool × Nat))
  | summary (h : CmdHdr)
  deriving DecidableEq, Repr

/-- An MSI-X table entry (R333, R348): message address, data, vector control. -/
structure Msix where
  addr : Word64
  data : BitVec 32
  ctrl : BitVec 32
  deriving DecidableEq, Repr

/-- An MSI-X entry at reset: masked, as the PCI Express base specification has it (PRESUMED, log entry 42). -/
def Msix.reset : Msix := { addr := 0, data := 0, ctrl := 1 }

/-- What the configuration space of the PCIe function holds of R323: the class code, the largest payload and read request in bytes,
the completion timeout range of Device Control 2, and the uncorrectable error status of Advanced Error Reporting. No row of
the table writes configuration space, so only errors and resets change it (log entry 102). -/
structure Pcie where
  classCode : BitVec 8
  maxPayload : Nat
  maxReadRequest : Nat
  timeoutRange : BitVec 4
  aerUncorr : BitVec 32
  deriving DecidableEq, Repr

/-- The configuration space at reset; all but the class code as the PCI Express base specification has it (PRESUMED, log entry
102). -/
def Pcie.reset : Pcie := { classCode := 0x12, maxPayload := 128, maxReadRequest := 512, timeoutRange := 0, aerUncorr := 0 }

/-- The host interface block (R323 to R348). -/
structure Hif where
  pcie : Pcie
  hostReady : Bool
  summaryBusy : Bool
  linkDegraded : Bool
  linkUp : Bool
  d3hot : Bool
  ringErr : Bool
  dbErr : Bool
  ringErrSet : BitVec 8
  dbErrSet : BitVec 8
  bar2Gib : BitVec 10
  ringErrInfo : BitVec 32
  sqs : SMap Sq
  cqs : SMap Cq
  nextSq : Nat
  waiting : List Waiting
  msix : SMap Msix
  pba : List Nat
  raised : SMap Nat
  acceptCount : Nat
  deriving DecidableEq, Repr

/-- The host interface at its reset values (R348). -/
def Hif.reset : Hif :=
  { pcie := .reset, hostReady := false, summaryBusy := false, linkDegraded := false, linkUp := true, d3hot := false, ringErr := false,
    dbErr := false, ringErrSet := 0, dbErrSet := 0, bar2Gib := 0, ringErrInfo := 0, sqs := [], cqs := [], nextSq := 0,
    waiting := [], msix := [], pba := [], raised := [], acceptCount := 0 }

/-! ## Events -/

/-- An event that waits at its source (R360). -/
structure EvWait where
  code : BitVec 16
  payload : BitVec 112
  deriving DecidableEq, Repr

/-- An event source (R357 to R360): next sequence number, events that wait, the clk and the timestamp of the last
record. -/
structure EvSource where
  seq : Nat
  waiting : List EvWait
  lastClk : Option Nat
  lastTs : Word64
  deriving DecidableEq, Repr

def EvSource.zero : EvSource := { seq := 0, waiting := [], lastClk := none, lastTs := 0 }

/-- The event block (R360 to R362). -/
structure Evt where
  sources : SMap EvSource
  held : List (BitVec 256)
  base : BitVec 64
  enable : Bool
  logSize : BitVec 5
  phase : Bool
  head : BitVec 16
  tail : BitVec 16
  dropped : Bool
  dropSet : BitVec 8
  delay : BitVec 16
  count : BitVec 8
  droppedCount : Nat
  aborts : Nat
  codeCount : SMap Nat
  unsignalled : Nat
  oldestAt : Nat
  replay : List (Nat × Nat × Nat)
  resetAborts : List EvWait
  sealDue : Bool
  deriving DecidableEq, Repr

/-- The event block at reset (R362). -/
def Evt.reset : Evt :=
  { sources := [], held := [], base := 0, enable := false, logSize := 0, phase := false, head := 0, tail := 0,
    dropped := false, dropSet := 0, delay := 0, count := 1, droppedCount := 0, aborts := 0, codeCount := [],
    unsignalled := 0, oldestAt := 0, replay := [], resetAborts := [], sealDue := false }

/-! ## Key streamer -/

/-- A group of the fabric (R240, R297). -/
structure Group where
  role : BitVec 2
  source : NodeId
  portMask : BitVec 16
  members : List NodeId
  deriving DecidableEq, Repr

/-- A key queue (R225 to R240). `next` is the first entry of the list not yet taken up; `set` holds the entries of the
interleave set being sent with the carts each has sent in this pass; `turn` is the place in `set` whose turn it is and
`burst` the carts sent in the turn; `entry` is the entry of the cart last started. `dirs` holds the directory entries read for
the set and `hdrs` the header granule last read with its address, both by list entry (R230, R240). `stage` says what has been
asked for the cart in hand (0 nothing, 1 its directory entry, 2 its granules), `void` that it is a void cart and `got` the
granules that have come, by their place (0 the headers, 1 to 32 the body's). Member devices are numbered 64 + node: `used` counts the
credits each has consumed and not regained; `timers` holds the clk of each receiver that holds back the cart in hand, coaches by
their ID. `groupBuf` is a member's group receive buffer, `assembly` the pieces of group carts that have come in, by group and sequence. -/
structure KeyQueue where
  task : Nat
  taskId : TaskId
  active : Bool
  next : Nat
  set : List (Nat × Nat)
  turn : Nat
  burst : Nat
  pass : Nat
  entry : Nat
  dirs : SMap (Option (BitVec 256))
  hdrs : SMap (Option (Nat × List Byte))
  stage : Nat
  void : Bool
  got : SMap (List Byte)
  used : SMap Nat
  timers : SMap Nat
  limit : Nat
  groupBuf : List (BitVec 12 × Cart)
  assembly : List (Nat × SMap (List Byte))
  deriving DecidableEq, Repr

def KeyQueue.idle : KeyQueue :=
  { task := 0, taskId := 0, active := false, next := 0, set := [], turn := 0, burst := 0, pass := 0, entry := 0, dirs := [],
    hdrs := [], stage := 0, void := false, got := [], used := [], timers := [], limit := 0, groupBuf := [], assembly := [] }

/-- A credit on its way back to the key streamer: the clk by which it arrives, the coach, and whether it
stands for all credits of a coach that has ended its part (R237, R239). -/
structure CreditBack where
  due : Nat
  recv : CoachId
  all : Bool
  deriving DecidableEq, Repr

/-- The key streamer (R225 to R249). `last` is the queue that started a cart last (R245). `used` counts by coach the credits consumed
and not regained (R237), `nextAt` is by coach the clk from which its next cart may start (R236). `flight` holds carts on their way to
a coach, `back` credits on their way back, `early` pieces of group carts for a task that holds no key queue yet. -/
structure Kst where
  queues : SMap KeyQueue
  last : Nat
  used : SMap Nat
  nextAt : SMap Nat
  flight : List Delivery
  back : List CreditBack
  early : List Packet
  groups : SMap (Option Group)
  shares : List Nat
  sharesPending : Option (List Nat)
  timeout : Bool
  timeoutSet : BitVec 8
  timeoutLimit : BitVec 32
  timeoutInfo : BitVec 32
  cartsRead : Nat
  cartsSent : Nat
  voidCarts : Nat
  stall : SMap Nat
  deriving DecidableEq, Repr

/-- The key streamer at reset under the shares of a configuration image (R245, R249). -/
def Kst.reset (shares : List Nat) : Kst :=
  { queues := [], last := 15, used := [], nextAt := [], flight := [], back := [], early := [], groups := [], shares := shares, sharesPending := none, timeout := false,
    timeoutSet := 0, timeoutLimit := 0x002625A0, timeoutInfo := 0, cartsRead := 0, cartsSent := 0, voidCarts := 0,
    stall := [] }

/-! ## HBM -/

/-- An HBM stack (R255 to R273). Interface errors, corrected errors and retrainings are kept with their channel and clk;
`rowErrs` holds physical channel, row and corrected count (R262), `spareTaken` the spare rows in use or retired by physical channel
(R264), `copies` the row copies that wait, each with its spare and whether it is a redirection, `copying` the active channels whose
refresh window of the present frame a row copy lengthens, `retired` the retired rows by physical channel (R265).
`chState` is MEM_STK_CHSTATE by physical channel, `retraining` the physical channel
retraining with the failures so far, `evac` the source channel and the watermark (a fill when `filling`), `poisoned`
the active channels whose every granule holds the poison pattern except the words written since (R270), `unserved`
those no physical channel serves (R271). -/
structure Stack where
  temp : BitVec 8
  trainTemp : SMap Nat
  hot : Bool
  chState : SMap (BitVec 2)
  spareFor : BitVec 5
  noSpare : Bool
  lost : Bool
  retrainWait : List Nat
  retrainHost : List Nat
  retraining : Option (Nat × Nat)
  retrainTimes : List (Nat × Nat)
  ifErrors : List (Nat × Nat)
  corrTimes : List (Nat × Nat)
  evac : Option (Nat × Nat)
  filling : Bool
  evacWait : List Nat
  unserved : List Nat
  poisoned : List Nat
  remaps : List Remap
  spareTaken : List (Nat × Nat)
  rowErrs : List (Nat × Nat × Nat)
  copies : List (Nat × Nat × Nat × Bool)
  copying : List Nat
  retired : List (Nat × Nat)
  deriving DecidableEq, Repr

def Stack.reset : Stack :=
  { temp := 0, trainTemp := [], hot := false, chState := [(31, 2)], spareFor := 31, noSpare := false, lost := false,
    retrainWait := [], retrainHost := [], retraining := none, retrainTimes := [], ifErrors := [], corrTimes := [],
    evac := none, filling := false, evacWait := [], unserved := [], poisoned := [], remaps := [], spareTaken := [], rowErrs := [],
    copies := [], copying := [], retired := [] }

/-- What a request of a privileged port or of the host is for: a granule of the cart in hand of a key queue, by its place, or its
directory entry (place 33) (R229, R230), nothing being read for a void cart (R232); data that the fabric writes, with the packet's
source, tag and number, or the host; a read for
another device, or for the host, with the bytes read so far and, for the host, how many follow that read as all ones (R282, R328). -/
inductive AskJob where
  | key (queue task place : Nat)
  | write (from_ : Option (NodeId × BitVec 16 × Nat)) (data : List Byte)
  | respond (k : Packet) (got : List Byte)
  | host (pad : Nat) (got : List Byte) (bad : Bool)
  deriving DecidableEq, Repr

/-- A request that waits at its channel for a grant (R242, R253): port 0 is the key streamer, 1 and 2 are the gateways, 3 is the host;
`addr` and `n` are the bytes it is still for, `chan` its channel, `clkAt` the clk it came. -/
structure Ask where
  port : Nat
  chan : Nat
  addr : Nat
  n : Nat
  clkAt : Nat
  job : AskJob
  deriving DecidableEq, Repr

/-- The HBM memory system (R251 to R273): contents, the error state of its 64-bit words, the words written since their
channel was filled with the poison pattern (`fresh`), the eight stacks, the frame
counter and the clk of the last frame boundary, the grant slots of the present frame that are over (40 times the channel + the slot), the
requests of the privileged ports and of the host, and the registers. -/
structure Hbm where
  data : SMap Byte
  ecc : SMap (Option EccErr)
  fresh : SMap Bool
  stackTable : SMap Stack
  frame : Nat
  frameAt : Nat
  slots : List Nat
  asks : List Ask
  uncorr : Bool
  retire : Bool
  journalFull : Bool
  retireSet : BitVec 8
  uncorrSet : BitVec 8
  uncorrInfo : Word64
  retireInfo : Word64
  corrCount : Nat
  uncorrCount : Nat
  deriving DecidableEq, Repr

def Hbm.reset : Hbm :=
  { data := [], ecc := [], fresh := [], stackTable := [], frame := 0, frameAt := 0, slots := [], asks := [], uncorr := false, retire := false,
    journalFull := false, retireSet := 0, uncorrSet := 0, uncorrInfo := 0, retireInfo := 0, corrCount := 0,
    uncorrCount := 0 }

/-! ## Fabric -/

/-- Packet types (R281). -/
inductive PktType where
  | write | readReq | readRsp | cart | cartCredit | shutArrive | abort | taskLost | unreach
  deriving DecidableEq, Repr

/-- What orders a coach's request in a gateway (R243): its urgency stamp, stream, coach, and the clk it left the coach. -/
structure Stamp where
  urg : Nat
  stream : Nat
  coach : Nat
  since : Nat
  deriving DecidableEq, Repr

/-- A packet the device has put on a port, the port it came in by when it only passes through, and the stamp of a coach's request. -/
structure OutPkt where
  ty : PktType
  k : Packet
  via : Option Nat
  stamp : Option Stamp := none
  deriving DecidableEq, Repr

/-- The states of a port (R287). -/
inductive PortSt where
  | disabled | down | training | negotiate | held | up | retrain
  deriving DecidableEq, Repr

/-- A fabric port (R274 to R297). `waiting` holds packets that lack credit or a link, `replay` the data flits sent and
not acknowledged, packet by packet with the SEQ of its flit, `tags` the fabric tags that passed, each with the 1 ms epoch it last
passed in and a node that its packet named (4,096 + a group for the members of that group). `flitAt` and `flitRoom` are the clk from
which the next data flit may leave, 4 clk after the last (R275), and the bytes of the last one's payload still free (R281), `replayUntil` the clk at which a replay ends, `replayDue` says that one is
still to be performed (R277). `rx0` and `rx1` are the credits that packets in the receive buffer hold, `ret0` and `ret1` those returned in
CRED_RET since the port came UP (R278); `corr` holds the symbols corrected by clk (R287), `capSent` the capability record last
sent (R293), `syncSent` the fabric time last sent to the neighbour (R299). -/
structure Port where
  st : PortSt
  disable : Bool
  expectAny : Bool
  expect : NodeId
  negMinor : BitVec 8
  neighbour : NodeId
  reason : BitVec 3
  txSeq : BitVec 12
  rxGood : BitVec 12
  discarding : Bool
  nakSent : Nat
  replay : List (BitVec 12 × OutPkt)
  waiting : List OutPkt
  resv0 : Nat
  resv1 : Nat
  shared : Nat
  retrainFails : Nat
  replayTimes : List Nat
  tags : List (Nat × Nat × Nat)
  fecCorr : Nat
  replays : Nat
  flits : Nat
  since : Nat
  flitAt : Nat
  flitRoom : Nat
  replayUntil : Nat
  replayDue : Bool
  rx0 : Nat
  rx1 : Nat
  ret0 : Nat
  ret1 : Nat
  corr : List (Nat × Nat)
  capSent : Option CapRecord
  syncSent : Option Word64
  deriving DecidableEq, Repr

/-- Who reads remotely: SIN of a coach, or a key queue for a place of its cart (0 the headers, 1 to 32 the body's
granules). -/
inductive Reader where
  | coach (c : CoachId)
  | queue (q : Nat) (place : Nat)
  deriving DecidableEq, Repr

/-- A remote read that awaits its response (R292). -/
structure Outstanding where
  rid : Nat
  task : Nat
  reader : Reader
  node : NodeId
  addr : Nat
  clkAt : Nat
  limit : Nat
  deriving DecidableEq, Repr

/-- The fabric block (R274 to R303). `switched` lists the destinations whose route runs on its alternate, `heldArrivals` the
SHUT_ARRIVE packets that wait for earlier writes of their source (R301). `stepped` says that fabric time has been set from a parent
since boot (R300), `drift` is the rate correction: one clk in every |drift|, forward where it is positive, none at 0 (R299). `writesIn`
numbers the WRITE packets received, and a held arrival waits for those numbered below its own number (R301). -/
structure Ehl where
  ports : SMap Port
  nodeId : NodeId
  fabricId : BitVec 32
  roots : NodeId × NodeId
  routes : SMap (BitVec 32)
  switched : List Nat
  unreachable : List (Nat × Option Nat)
  link : Bool
  unreachF : Bool
  time : Bool
  linkSet : BitVec 8
  unreachSet : BitVec 8
  timeSet : BitVec 8
  restorePending : Bool
  reqTimeout : BitVec 32
  ftime : Nat
  slew : Int
  lastAdj : Nat
  locked : Bool
  holdover : Bool
  stepped : Bool
  drift : Int
  goodSyncs : Nat
  lastSync : Nat
  stepDue : Option Int
  depth : BitVec 5
  parentPort : BitVec 4
  root : NodeId
  rootSelf : Bool
  unreachInfo : BitVec 32
  timeStepReg : Word64
  discards : Nat
  reads : List Outstanding
  nextRid : Nat
  heldArrivals : List (Packet × Nat)
  writesIn : Nat
  deriving DecidableEq, Repr

/-! ## Configuration NVM and boot -/

/-- The thermal area (R416). -/
structure Thermal where
  dieThrottle : Nat
  dieRelease : Nat
  dieShutdown : Nat
  hbmThrottle : Nat
  hbmRelease : Nat
  hbmShutdown : Nat
  powerCap : Nat
  deriving DecidableEq, Repr

/-- The configuration image that a boot takes (R373), with whether its policy table passes R370. `policy` lists the entries by
position, absent positions being all zero; `policyHash` is the hash of its payload as stored (R335); `hbmSettings` holds the
training parameters. -/
structure CfgImage where
  check : BitVec 256
  nodeId : NodeId
  fabricId : BitVec 32
  roots : NodeId × NodeId
  portEnable : BitVec 16
  shares : List Nat
  spread : Bool
  neighbours : SMap (Option NodeId)
  ownerKeyHash : BitVec 256
  thermal : Thermal
  routes : SMap (BitVec 32)
  factoryRemap : SMap (List Remap)
  hbmSettings : List Byte
  policy : SMap (Option PolicyEntry)
  policyHash : BitVec 256
  policyVerifies : Bool
  policySecVersion : BitVec 32
  deriving DecidableEq, Repr

/-- An update under way (R384): kind, the image as read and checked, the copy it writes. -/
structure Update where
  kind : BitVec 2
  bytes : List Byte
  copyB : Bool
  deriving DecidableEq, Repr

/-- The boot block and the management controller (R366 to R386). `rom` is the SHA-256 of the vendor root public key in the boot ROM
(R370), `sealPattern` the pattern last driven on SEAL_A (R381). -/
structure Boot where
  nvm : Nvm
  rom : BitVec 256
  running : Bool
  bootNumber : Nat
  restrictedBoots : Nat
  copies : BitVec 3
  trial : BitVec 3
  fallback : Bool
  cfgMissing : Bool
  mcFailed : Bool
  cfg : Option CfgImage
  sealOpen : Bool
  sealSet : BitVec 8
  sealClosed : Bool
  sealMiss : Nat
  sealPattern : BitVec 16
  restricted : Bool
  debug : Bool
  maintEn : Bool
  updAddr : BitVec 40
  updLen : BitVec 32
  updResult : BitVec 4
  updProgress : BitVec 8
  update : Option Update
  nvmToDebug : Bool
  deriving DecidableEq, Repr

/-! ## Security engine -/

/-- An operation of the security engine that runs (R390): OP, status, what it will write, and the session or the BAK with its
certificate that stand once it completes. `leaf` is the block and the next leaf once it has taken its bottom leaf, with the
cached top-level signature of the block (R401). -/
structure SecOp where
  op : BitVec 8
  status : BitVec 8
  output : List Byte
  session : Option (Nat × List Byte)
  openIndex : BitVec 4
  newBak : Option (Nat × Nat × Nat)
  newCert : List Byte
  leaf : Option (Nat × Nat × List Byte)
  deriving DecidableEq, Repr

/-- The key store (R387): identity seed, its generation, block in use, next bottom leaf, the cached top-level signature,
the BAK (private scalar and public point) and its certificate. -/
structure KeyStore where
  seed : Option (BitVec 256)
  block : Nat
  nextLeaf : Nat
  topSig : Option (Nat × List Byte)
  bak : Option (Nat × Nat × Nat)
  cert : List Byte
  deriving DecidableEq, Repr

/-- The security engine (R387 to R407). -/
structure Sec where
  noEngine : Bool
  done : Bool
  cmdErr : Bool
  doneSet : BitVec 8
  cmdErrSet : BitVec 8
  running : Option SecOp
  outBytes : BitVec 16
  resSession : BitVec 4
  status : BitVec 8
  store : KeyStore
  sessions : SMap (List Byte)
  generation : Nat
  publicKey : List Byte
  faults : BitVec 8
  bootFaults : Nat
  ops : Nat
  mboxIn : SMap (BitVec 32)
  mboxOut : SMap (BitVec 32)
  deriving DecidableEq, Repr

/-- The security engine at reset (R407). -/
def Sec.reset : Sec :=
  { noEngine := false, done := false, cmdErr := false, doneSet := 0, cmdErrSet := 0, running := none, outBytes := 0,
    resSession := 0, status := 0,
    store := { seed := none, block := 0, nextLeaf := 1024, topSig := none, bak := none, cert := [] }, sessions := [],
    generation := 0, publicKey := [], faults := 0, bootFaults := 0, ops := 0, mboxIn := [], mboxOut := [] }

/-! ## Module -/

/-- JTAG instructions (R423). -/
inductive Jtag where
  | bypass | idcode | samplePreload | extest
  deriving DecidableEq, Repr

/-- The module's power, thermal, strap, telemetry and debug pins (R408 to R426). `straps` are the levels the straps
settle to, `strapsStable` whether their eight samples agreed; `sealBack` is none where the seal loop returns what SEAL_A drives, else
what SEAL_B shows instead (R381); `cycled` says that PERST# or VIN has been cycled since a shutdown (R415); `powerLog` holds the
samples of the last 100 ms, newest first (R411); `uart` and `uartOut` are what the console has taken and printed (R424). -/
structure Module where
  railsOn : Bool
  vinGood : Bool
  perst : Bool
  pwrgd : Bool
  thermLow : Bool
  alertLow : Bool
  shutdown : Bool
  cycled : Bool
  straps : BitVec 7
  strapsStable : BitVec 7
  strapReg : BitVec 32
  maintPin : Bool
  sealBack : Option (BitVec 16)
  rootLocked : Bool
  phyLocked : Bool
  ssc : Bool
  throttle : Bool
  throttleSet : BitVec 8
  causePower : Bool
  causeTemp : Bool
  dieTemp : BitVec 32
  powerReg : BitVec 32
  powerLog : List (BitVec 16)
  withheld : Nat
  jtag : Jtag
  uart : List Byte
  uartOut : List Byte
  deriving DecidableEq, Repr

/-- What the device last answered on its buses (the model's own field: the answers have no place in a register). -/
structure Bus where
  readData : Word64
  bytes : List Byte
  ep : Bool
  acked : Bool
  addr : BitVec 8
  retryStatus : Bool
  jtagOut : BitVec 32
  deriving DecidableEq, Repr

/-- The state of the device. `clk` counts the arithmetic clock (R5, R34); `freeCtr` is the model's own counter for the
free values of Config; `early` holds what hardware has changed in the present clock cycle of each block of the fields that a host access
of the same cycle meets, by a number of each, with the value before (R13); `host` is host memory as the device reads and writes it. -/
structure State where
  clk : Nat
  freeCtr : Nat
  early : SMap Nat
  coaches : SMap Coach
  contexts : SMap (Option Context)
  policy : SMap (Option PolicyEntry)
  policyHash : Word64
  tasks : List Task
  hif : Hif
  evt : Evt
  kst : Kst
  hbm : Hbm
  ehl : Ehl
  boot : Boot
  sec : Sec
  board : Module
  bus : Bus
  host : SMap Byte
  pending : List Instr
  deriving DecidableEq, Repr

/-! ## Faults and refusals -/

/-- Reasons a step can stop with a fault. -/
inductive Fault where
  /-- Raised by no meaning: R349 gives every fault of the device an outcome after which the device goes on, so none of
  this block's steps stops. Safe. -/
  | none
  deriving DecidableEq, Repr

/-- Reasons a command has no meaning. -/
inductive Refusal where
  /-- Raised only by an arm of `exec` that has no meaning yet; safe, since nothing follows from a refusal. -/
  | notModelled (mnemonic : String)
  deriving DecidableEq, Repr

/-! ## Reset -/

/-- The thermal area as shipped (R416). -/
def shippedThermal : Thermal :=
  { dieThrottle := 100, dieRelease := 95, dieShutdown := 110, hbmThrottle := 95, hbmRelease := 90, hbmShutdown := 105,
    powerCap := 1650 }

/-- The boot block at reset, over a given NVM (R386). -/
def Boot.reset (n : Nvm) (rom : BitVec 256) (maint : Bool) : Boot :=
  { nvm := n, rom := rom, running := false, bootNumber := 0, restrictedBoots := 0, copies := 0, trial := 0, fallback := false,
    cfgMissing := false, mcFailed := false, cfg := none, sealOpen := false, sealSet := 0, sealClosed := true,
    sealMiss := 0, sealPattern := 0, restricted := false, debug := false, maintEn := maint, updAddr := 0, updLen := 0, updResult := 0,
    updProgress := 0, update := none, nvmToDebug := false }

/-- A port at reset (R287, R303). -/
def Port.reset : Port :=
  { st := .down, disable := false, expectAny := true, expect := 0, negMinor := 0, neighbour := 0, reason := 0,
    txSeq := 0, rxGood := BitVec.allOnes 12, discarding := false, nakSent := 0, replay := [], waiting := [], resv0 := 0,
    resv1 := 0, shared := 0, retrainFails := 0, replayTimes := [], tags := [], fecCorr := 0,
    replays := 0, flits := 0, since := 0, flitAt := 0, flitRoom := 0, replayUntil := 0, replayDue := false, rx0 := 0, rx1 := 0
    ret0 := 0, ret1 := 0, corr := [], capSent := none, syncSent := none }

/-- The fabric block at reset (R303). -/
def Ehl.reset : Ehl :=
  { ports := [], nodeId := 0, fabricId := 0, roots := (0, 0), routes := [], switched := [], unreachable := [],
    link := false, unreachF := false, time := false, linkSet := 0, unreachSet := 0, timeSet := 0,
    restorePending := false, reqTimeout := 0x000F4240, ftime := 0, slew := 0, lastAdj := 0, locked := false,
    holdover := false, stepped := false, drift := 0, goodSyncs := 0, lastSync := 0, stepDue := none, depth := 0,
    parentPort := 0, root := 0, rootSelf := false, unreachInfo := 0, timeStepReg := 0, discards := 0, reads := [],
    nextRid := 0, heldArrivals := [], writesIn := 0 }

/-- The module at reset: rails on, PERST# released, nothing else (R410, R426; strap levels by log entry 8). -/
def Module.reset : Module :=
  { railsOn := true, vinGood := true, perst := false, pwrgd := true, thermLow := false, alertLow := false,
    shutdown := false, cycled := false, straps := 0, strapsStable := BitVec.allOnes 7, strapReg := 0, maintPin := false, sealBack := none,
    rootLocked := true, phyLocked := true, ssc := true, throttle := false, throttleSet := 0, causePower := false,
    causeTemp := false, dieTemp := 0, powerReg := 0, powerLog := [], withheld := 0, jtag := .bypass, uart := [],
    uartOut := [] }

def Bus.reset : Bus :=
  { readData := 0, bytes := [], ep := false, acked := false, addr := 0, retryStatus := false, jtagOut := 0 }

/-- The device right after a fundamental reset, with every block at its reset values, before the boot sequence of R371
has run (HOST_READY is 0); POWER_GOOD runs that sequence (log entry 9). -/
def State.reset : State :=
  { clk := 0, freeCtr := 0, early := [], coaches := [], contexts := [], policy := [], policyHash := 0, tasks := [], hif := .reset,
    evt := .reset, kst := .reset [4, 2, 2], hbm := .reset, ehl := .reset, boot := .reset shippedNvm romRootHash false,
    sec := .reset, board := .reset, bus := .reset, host := [], pending := [] }

end Sys2Proof.Machine
end

