-- ==== Sys2Proof/Machine/Ops.lean ====
section
/-! DEFINITION. The named operations on the state that every family shares: access to coaches, engines, tasks and
blocks, doors, events and the free values. -/

namespace Sys2Proof.Machine

open Sys2Proof

/-- The answer of every meaning of this block. -/
abbrev Answer := Host.Outcome State Fault Refusal

/-! ## Bytes of memory -/

/-- A byte of HBM. -/
def State.hbmByte (s : State) (a : Nat) : Byte := look 0 s.hbm.data a

/-- A byte of host memory. -/
def State.hostByte (s : State) (a : Nat) : Byte := look 0 s.host a

/-! ## Engines and coaches -/

/-- The ID of an engine (the table before R27). -/
def eid : Engine → Nat
  | .nte => 0 | .ksa => 1 | .vec => 2 | .dbu => 3 | .pxu => 4 | .sin => 5 | .sout => 6 | .kin => 7

def allEngines : List Engine := [.nte, .ksa, .vec, .dbu, .pxu, .sin, .sout, .kin]

/-- Coach `c`. -/
def State.coach (s : State) (c : CoachId) : Coach := look Coach.reset s.coaches c.toNat

/-- The state with coach `c` replaced. -/
def State.setCoach (s : State) (c : CoachId) (v : Coach) : State :=
  { s with coaches := store Coach.reset s.coaches c.toNat v }

def State.onCoach (s : State) (c : CoachId) (f : Coach → Coach) : State := s.setCoach c (f (s.coach c))

/-- The coaches, by their ID (R17). -/
def allCoaches : List CoachId := (List.range 64).map (BitVec.ofNat 6)

/-- The coaches that the table lists; any other is as reset left it. -/
def State.listed (s : State) : List CoachId := allCoaches.filter fun c => (keys s.coaches).contains c.toNat

/-- Every coach that the table lists, changed alike. -/
def State.mapCoaches (s : State) (f : CoachId → Coach → Coach) : State :=
  s.listed.foldl (fun s c => s.onCoach c (f c)) s

/-- Engine `e` of a coach. -/
def Coach.engine (co : Coach) (e : Engine) : EngineS := look EngineS.zero co.engines (eid e)

def Coach.setEngine (co : Coach) (e : Engine) (v : EngineS) : Coach :=
  { co with engines := store EngineS.zero co.engines (eid e) v }

def Coach.onEngine (co : Coach) (e : Engine) (f : EngineS → EngineS) : Coach := co.setEngine e (f (co.engine e))

/-- The active program slot of a coach (R181). -/
def Coach.prog (co : Coach) : ProgSlot := if co.active then co.slotB else co.slotA

/-- Header slot `i`; slot 0 is the fixed plain header (R50), an unlisted slot the uninitialised value. -/
def Coach.headerRaw (co : Coach) (i : Nat) : Header :=
  if i = 0 then Header.fixedPlain else look Header.uninit co.headers i

/-- Writes a header slot; slot 0 never changes (R50). -/
def Coach.setHeader (co : Coach) (i : Nat) (h : Header) : Coach :=
  if i = 0 then co else { co with headers := store Header.uninit co.headers i h }

/-- The tag region `r` of the key window records (R61). -/
def Coach.regionTag (co : Coach) (r : Nat) : Word64 := look noKeyTag co.regionTags r

/-- The coaches of a mask, in ascending order. -/
def maskCoaches (m : BitVec 64) : List CoachId :=
  ((List.range 64).filter fun i => bitOf m.toNat i).map fun i => BitVec.ofNat 6 i

/-! ## Tasks -/

def State.task? (s : State) (key : Nat) : Option Task := s.tasks.find? fun t => t.key = key

def State.onTask (s : State) (key : Nat) (f : Task → Task) : State :=
  { s with tasks := s.tasks.map fun t => if t.key = key then f t else t }

/-- The task a coach runs. -/
def State.taskOf (s : State) (c : CoachId) : Option Task :=
  match (s.coach c).task with
  | some k => s.task? k
  | none => none

/-- A task that runs or aborts on this device. -/
def Task.onDevice (t : Task) : Bool := t.st = .running || t.st = .aborting

/-- Whether the device runs no task at all. -/
def State.noTask (s : State) : Bool := s.tasks.all fun t => !t.onDevice

/-- Whether the device runs no task with a non-zero fabric tag. -/
def State.noFabricTask (s : State) : Bool := s.tasks.all fun t => !(t.onDevice && t.f.ftag ≠ 0)

/-! ## Policy table -/

/-- N of a set (R65). -/
def PolicyEntry.ringSize (p : PolicyEntry) : Nat := 2 ^ p.logN

/-- The policy entry of a set, when one is present (R65). -/
def State.entry? (s : State) (set : BitVec 8) : Option PolicyEntry := look none s.policy set.toNat

/-- The entry of a set that is present and usable (R66). -/
def State.usable? (s : State) (set : BitVec 8) : Option PolicyEntry :=
  match s.entry? set with
  | some p => if p.usable then some p else none
  | none => none

/-! ## Free values -/

/-- A fresh open number, its place `i` of the next use (log entry 1). -/
def State.freeNat (s : State) (i : Nat) : Nat := Config.freeNat s.freeCtr i

def State.freed (s : State) : State := { s with freeCtr := s.freeCtr + 1 }

/-! ## Doors (R184 to R187) -/

def Coach.door (co : Coach) (d : BitVec 8) : Door := look Door.zero co.doors d.toNat

def Coach.setDoor (co : Coach) (d : BitVec 8) (v : Door) : Coach :=
  { co with doors := store Door.zero co.doors d.toNat v }

/-- An amount is to be added in clk `w`. -/
def Coach.addDoor (co : Coach) (d : BitVec 8) (amount w : Nat) : Coach :=
  let v := co.door d
  co.setDoor d { v with adds := v.adds ++ [(w, amount)] }

/-- The end of clk `t` for a door: the amounts of that clk are added to what its WAITs have left; a value above 65,535
saturates, sets SAT and records the first such door of the task (R186, R187). A door that has saturated counts on from 65,535 (DESIGN
CHOICE, log entry 109). -/
def Coach.settleDoor (t : Nat) (co : Coach) (d : BitVec 8) : Coach :=
  let v := co.door d
  let sum := v.adds.foldl (fun a r => if r.1 ≤ t then a + r.2 else a) v.value.toNat
  let sat := 65535 < sum
  let co := co.setDoor d { v with value := BitVec.ofNat 16 (min sum 65535), adds := v.adds.filter fun r => decide (t < r.1) }
  if sat then
    { co with sat := true, satSet := satInc co.satSet, satDoor := if co.satSeen then co.satDoor else d, satSeen := true }
  else co

/-- The doors of a coach at the end of clk `t`, in the order of their numbers, so that of two which saturate in one clk the lower is
named and both are counted (DESIGN CHOICE, log entry 109). -/
def Coach.settleDoors (t : Nat) (co : Coach) : Coach :=
  (keys co.doors).foldl (fun co k => co.settleDoor t (BitVec.ofNat 8 k)) co

/-! ## Hardware and host in one clk (R13) -/

/-- The clk in a clock cycle of the block that holds the field of this number (R13, R33): one fclk of 2 clk for the key streamer, the
memory and the fabric, one hclk of 4 for the host interface and the event ring, one mclk of 8 for boot, security engine and
module. -/
def blockCycle (k : Nat) : Nat :=
  if [9, 10, 11, 12, 13, 14, 15].contains k then 8
  else if [0, 1, 2, 22, 23].contains k ∨ 256 ≤ k then 4
  else 2

/-- What is still of the present cycle of its block after `d` clk from `clk`. -/
def sameCycle (m : SMap Nat) (clk d : Nat) : SMap Nat :=
  m.filter fun e => decide ((clk + d) / blockCycle e.1 = clk / blockCycle e.1)

/-- A field that hardware has changed in the present cycle keeps the value before. -/
def noted (m : SMap Nat) (k before : Nat) : SMap Nat := if m.any fun e => decide (e.1 = k) then m else insert m k before

def Coach.hit (co : Coach) (k before : Nat) : Coach := { co with early := noted co.early k before }

def State.hit (s : State) (k before : Nat) : State := { s with early := noted s.early k before }

/-- Hardware has set the bit, or changed the counter, in the present cycle. -/
def Coach.isEarly (co : Coach) (k : Nat) : Bool := co.early.any fun e => decide (e.1 = k)

def State.isEarly (s : State) (k : Nat) : Bool := s.early.any fun e => decide (e.1 = k)

/-- What a read of an RC field answers, and what stands in the field after it: what the present clk has added. -/
def rcRead (m : SMap Nat) (k now : Nat) : Nat × Nat :=
  match m.find? fun e => decide (e.1 = k) with
  | some e => (e.2, max 1 (now - e.2))
  | none => (now, 0)

/-- The RC field has been read: what it held before the clk is gone. -/
def rcSpent (m : SMap Nat) (k : Nat) : SMap Nat := m.map fun e => if e.1 = k then (k, 0) else e

/-! ## Stall counters (R247) -/

/-- Counter of cause `k` of engine `e`. -/
def Coach.addStall (co : Coach) (e : Engine) (k n : Nat) : Coach :=
  { co with stall := store 0 co.stall (8 * eid e + k) (count48 (look 0 co.stall (8 * eid e + k) + n)) }

/-- The shutter-wait counter of an engine; at 48 bits it saturates (R303; DESIGN CHOICE, log entry 89, as R199 doesn't say). -/
def Coach.addShutWait (co : Coach) (e : Engine) (n : Nat) : Coach :=
  { co with shutWait := store 0 co.shutWait (eid e) (count48 (look 0 co.shutWait (eid e) + n)) }

/-! ## Program counters and loops (R177, R178) -/

/-- The innermost loop comes round: back to its first instruction while iterations are left, else on to what follows,
which may end the next loop out. -/
def closeLoops : List LoopFrame → Nat → Nat × List LoopFrame
  | [], pc => (pc, [])
  | f :: outer, pc =>
    if pc = f.start + f.body then
      if 1 < f.left then (f.start, { f with left := f.left - 1, index := f.index + 1 } :: outer)
      else closeLoops outer pc
    else (pc, f :: outer)

/-- The engine after the instruction at its PC, going on at `pc`; a PC past 8,191 ends the engine (R178). -/
def EngineS.goto (e : EngineS) (pc : Nat) : EngineS :=
  let r := closeLoops e.loops pc
  if 8191 < r.1 then { e with pc := r.1, loops := r.2, st := .ended } else { e with pc := r.1, loops := r.2 }

/-- The engine goes on after a WAIT or a SHUTTER that resolved at clk `w` (R175). -/
def EngineS.resumeAt (v : EngineS) (w : Nat) : EngineS :=
  { v with st := .issuing, nextIssue := w + 1 + v.afterHold, shutAt := 0 }.goto (v.pc + 1)

/-- The value of loop index I_d: nesting depth d counts from the outermost loop (R177). -/
def EngineS.loopIndex (e : EngineS) (d : Nat) : Nat :=
  match e.loops.reverse[d]? with
  | some f => f.index
  | none => 0

/-- The stride sum of a position (R208). -/
def EngineS.strideSum (e : EngineS) (pos : Nat) : Int :=
  (List.range 4).foldl
    (fun a d => a + (e.loopIndex d : Int) * (look (0 : BitVec 16) e.strides (4 * pos + d)).toInt) 0

/-- A settings word (R207). -/
def EngineS.word (e : EngineS) (w : Nat) : Nat := (look (0 : BitVec 96) e.words w).toNat * 2 ^ 32

/-- The coach of completion signals with CS_REM 1 (R210). -/
def EngineS.remoteCoach (e : EngineS) : CoachId := BitVec.ofNat 6 (bits (e.word 3) 37 32)

/-! ## Events (R357 to R360) -/

/-- Source IDs (R358). -/
def srcKst : Nat := 0x40
def srcStack (k : Nat) : Nat := 0x48 + k
def srcPort (p : Nat) : Nat := 0x50 + p
def srcTime : Nat := 0x60
def srcHost : Nat := 0x70
def srcMc : Nat := 0x80
def srcSec : Nat := 0x81

/-- An event falls due at its source and waits there to be recorded. -/
def State.raise (s : State) (source code payload : Nat) : State :=
  let v := look EvSource.zero s.evt.sources source
  let w : EvWait := { code := BitVec.ofNat 16 code, payload := BitVec.ofNat 112 payload }
  { s with evt := { s.evt with sources := store EvSource.zero s.evt.sources source { v with waiting := v.waiting ++ [w] } } }

/-! ## Journal (R375 to R377) -/

def State.journal (s : State) (r : JRec) : State := { s with boot := { s.boot with nvm := s.boot.nvm.append r } }

/-! ## Host memory -/

def State.hostRead (s : State) (addr n : Nat) : List Byte := lookList 0 s.host addr n

def State.hostWrite (s : State) (addr : Nat) (bs : List Byte) : State :=
  { s with host := storeList 0 s.host addr bs }

/-! ## What the device answers on its buses -/

def State.answer (s : State) (v : Nat) : State := { s with bus := { s.bus with readData := BitVec.ofNat 64 v } }

end Sys2Proof.Machine
end

