-- ==== Sys2Proof/Machine/Net.lean ====
section
/-! DEFINITION. Sending packets: routes, ports, credits and the replay buffer (R277 to R291). -/

namespace Sys2Proof.Machine

open Sys2Proof

def State.port (s : State) (p : Nat) : Port := look Port.reset s.ehl.ports p

def State.setPort (s : State) (p : Nat) (v : Port) : State :=
  { s with ehl := { s.ehl with ports := store Port.reset s.ehl.ports p v } }

/-- The 1 ms epoch of a clk (R289): 2,500,000 clk at the nominal frequency. -/
def epochOf (clk : Nat) : Nat := clk / 2500000

/-- The nodes that a packet concerns (R289): its source, and its destination or, for a CART packet, the members of its group, which
the number 4,096 + the group stands for. -/
def OutPkt.ends (o : OutPkt) : List Nat := [o.k.src.toNat, if o.ty = .cart then 4096 + o.k.group.toNat else o.k.dst.toNat]

/-- A packet's tag passes through a port (R289), with the nodes the packet concerns. -/
def Port.pass (v : Port) (o : OutPkt) (clk : Nat) : Port :=
  if o.k.tag = 0 then v else
    let now : List (Nat × Nat × Nat) := o.ends.map fun n => (epochOf clk, o.k.tag.toNat, n)
    { v with tags := (v.tags.filter fun t =>
        decide (epochOf clk ≤ t.1 + 1) && now.all fun n => decide (n.2 ≠ t.2)) ++ now }

/-- Bytes of data of a packet by LEN (R281). -/
def lenBytes (len : BitVec 2) : Nat :=
  match len.toNat with
  | 0 => 0 | 1 => 32 | 2 => 288 | _ => 576

/-- Credits a packet consumes (R278). -/
def Packet.credits (k : Packet) : Nat := ceilDiv (24 + lenBytes k.len) 64

/-- The virtual channel of a packet type: true is VC1 (R281). -/
def PktType.vc1 (t : PktType) : Bool := match t with
  | .readRsp => true
  | _ => false

/-- A port pays the credits of a packet, the reserve of its VC first and then the shared pool (R278); none when it
holds too few. -/
def Port.pay (v : Port) (t : PktType) (n : Nat) : Option Port :=
  let r := if t.vc1 then v.resv1 else v.resv0
  if r + v.shared < n then none
  else
    let fromR := min r n
    let v := { v with shared := v.shared - (n - fromR) }
    some (if t.vc1 then { v with resv1 := r - fromR } else { v with resv0 := r - fromR })

/-- A TASK_LOST that goes out onto a link of minor level 1 carries no code (R295). -/
def OutPkt.atMinor (o : OutPkt) (v : Port) : OutPkt :=
  if o.ty = .taskLost ∧ v.negMinor = 1 then { o with k := { o.k with info := 0 } } else o

/-- The bytes of a packet (R281). -/
def OutPkt.size (o : OutPkt) : Nat := 24 + lenBytes o.k.len

/-- The data flits in the replay buffer (R277). -/
def Port.held (v : Port) : Nat := ((v.replay.map (·.1)).eraseDups).length

/-- A packet fits into the data flit that leaves in the present clk (R281; log entry 31). -/
def Port.shares (v : Port) (o : OutPkt) (clk : Nat) : Bool :=
  v.flitAt = clk + 4 && decide (o.size ≤ v.flitRoom) && v.replay.any fun f => decide (f.1 + 1 = v.txSeq)

/-- A packet may go into a flit: the port is UP and replays nothing, the last flit has left, which takes 4 clk, and the replay buffer
takes the flit (R275, R277, R287). -/
def Port.open_ (v : Port) (o : OutPkt) (clk : Nat) : Bool :=
  v.st = .up && decide (v.replayUntil ≤ clk) && (v.shares o clk || decide (v.flitAt ≤ clk ∧ v.held < 640))

/-- A packet leaves a port in a data flit (R276, R277, R281). -/
def Port.emit (v : Port) (o : OutPkt) (clk : Nat) : Port :=
  let o := o.atMinor v
  let w := v.pass o clk
  if v.shares o clk then { w with replay := v.replay ++ [(v.txSeq - 1, o)], flitRoom := v.flitRoom - o.size }
  else { w with
    replay := v.replay ++ [(v.txSeq, o)], txSeq := v.txSeq + 1, flits := count48 (v.flits + 1), flitAt := clk + 4
    flitRoom := 600 - o.size }

/-- No packet of the virtual channel waits at the port. -/
def Port.clear (v : Port) (t : PktType) : Bool := v.waiting.all fun w => decide (w.ty.vc1 ≠ t.vc1)

/-- A packet leaves the receive buffer of the port it came in by, which returns its credits (R278). -/
def Port.release (v : Port) (t : PktType) (n : Nat) : Port :=
  if t.vc1 then { v with rx1 := v.rx1 - n, ret1 := v.ret1 + min n v.rx1 }
  else { v with rx0 := v.rx0 - n, ret0 := v.ret0 + min n v.rx0 }

/-- The credits of a packet that has come in and has gone on or been consumed. -/
def State.release (s : State) (o : OutPkt) : State := match o.via with
  | some p => s.setPort p ((s.port p).release o.ty (Packet.credits o.k))
  | none => s

/-- A packet goes out of a port that may send it and holds its credits. -/
def State.emitAt (s : State) (p : Nat) (o : OutPkt) : Option State :=
  let v := s.port p
  if v.open_ o s.clk then match v.pay o.ty (Packet.credits o.k) with
    | some w =>
      some ((s.hit (96 + p) v.flits).setPort p (w.emit o s.clk))
    | none => none
  else none

/-- A packet is sent when its port may send it and no packet of its VC waits before it; else it waits (R278, R280). -/
def State.sendAt (s : State) (p : Nat) (o : OutPkt) : State :=
  let wait (s : State) : State := s.setPort p { (s.port p) with waiting := (s.port p).waiting ++ [o] }
  if (s.port p).clear o.ty then match s.emitAt p o with
    | some t => t.release o
    | none => wait s
  else wait s

/-- A request that has waited 2,048 fclk counts as urgency 0 (R243). -/
def Stamp.urgency (x : Stamp) (clk : Nat) : Nat := if x.since + 4096 ≤ clk then 0 else x.urg

/-- The order of R243 and R244: urgency, stream, coach. -/
def Stamp.before (a b : Stamp) (clk : Nat) : Bool :=
  decide (a.urgency clk < b.urgency clk) || (a.urgency clk = b.urgency clk && (decide (a.stream < b.stream) ||
    (a.stream = b.stream && decide (a.coach < b.coach))))

/-- A packet stands behind the coaches' requests next to it that go before it. -/
def placePkt (clk : Nat) (o : OutPkt) : List OutPkt → List OutPkt
  | [] => [o]
  | w :: rest => match w.stamp, o.stamp with
    | some x, some y => if x.before y clk then w :: placePkt clk o rest else o :: w :: rest
    | _, _ => o :: w :: rest

/-- The packets that wait at a port in the order in which they may go: responses first, which wait for no request (R280); requests of
coaches that follow one another by their stamps (R243), any other packet in its place (DESIGN CHOICE, log entry 31). -/
def inOrder (clk : Nat) (l : List OutPkt) : List OutPkt :=
  (l.filter fun o => o.ty.vc1) ++ (l.filter fun o => !o.ty.vc1).foldr (placePkt clk) []

/-- The packets that wait are sent in order as far as credits reach; copies of a CART packet go out all at once
(`State.sendCopies`) and hold back what follows them on their VC. -/
def State.flushOne (s : State) (p : Nat) : State :=
  (inOrder s.clk (s.port p).waiting).foldl (fun s o =>
    if o.ty = .cart then s.setPort p { (s.port p) with waiting := (s.port p).waiting ++ [o] } else s.sendAt p o)
    (s.setPort p { (s.port p) with waiting := [] })

/-- The route entry of a node (R284). -/
def State.route (s : State) (n : NodeId) : Nat := (look (0 : BitVec 32) s.ehl.routes n.toNat).toNat

/-- The port in use for a node: the alternate where the route has switched (R289). -/
def State.routePort (s : State) (n : NodeId) : Option Nat :=
  let e := s.route n
  if !bitOf e 20 then none
  else if s.ehl.switched.contains n.toNat then some (bits e 7 4) else some (bits e 3 0)

/-- A discarded packet is counted (R284). -/
def State.discard (s : State) : State :=
  { (s.hit 18 s.ehl.discards) with ehl := { s.ehl with discards := count48 (s.ehl.discards + 1) } }

/-- A packet of this device sets out, a coach's request with its stamp, or is discarded for want of a valid route. -/
def State.sendStamped (s : State) (t : PktType) (k : Packet) (x : Option Stamp) : State :=
  match s.routePort k.dst with
  | some p => s.sendAt p { ty := t, k := k, via := none, stamp := x }
  | none => s.discard

/-- A packet of this device that is no request of a coach sets out. -/
def State.sendPacket (s : State) (t : PktType) (k : Packet) : State := s.sendStamped t k none

/-- A packet with the header fields of R281 that this device originates. -/
def State.packetTo (s : State) (dst : NodeId) (tag : BitVec 16) (len : BitVec 2) (addr info : Nat) (data : List Byte) :
    Packet :=
  { tag := tag, dst := dst, src := s.ehl.nodeId, group := 0, ttl := 31, len := len, addr := BitVec.ofNat 40 addr,
    info := BitVec.ofNat 86 info, data := data }

/-- A packet that can go no further is discarded, and its source is told (R284). -/
def State.deadEnd (s : State) (k : Packet) : State :=
  s.discard.sendPacket .unreach (s.packetTo k.src 0 0 0 (k.dst.toNat * 2 ^ 74) [])

/-- A packet that only passes through: TTL falls by one, and a packet with no valid route or TTL 0 is discarded and
answered with UNREACH to its source (R284). -/
def State.forward (s : State) (via : Nat) (t : PktType) (k : Packet) : State :=
  let o : OutPkt := { ty := t, k := { k with ttl := k.ttl - 1 }, via := some via }
  match s.routePort k.dst with
  | some p => if k.ttl.toNat ≤ 1 then (s.deadEnd k).release o else s.sendAt p o
  | none => (s.deadEnd k).release o

/-- A port serves routes: it is UP, or it retrains (R288). -/
def Port.usable (v : Port) : Bool := v.st = .up || v.st = .retrain

/-- The first ports of the routes to a node: primary, and alternate where there is one (R284). -/
def State.firstPorts (s : State) (n : NodeId) : List Nat :=
  let e := s.route n
  if !bitOf e 20 then [] else if bitOf e 21 then [bits e 3 0, bits e 7 4] else [bits e 3 0]

/-- The route to a node has a usable port (R290). -/
def State.reachable (s : State) (n : NodeId) : Bool := (s.firstPorts n).any fun p => (s.port p).usable

/-! ## Copies of CART packets (R297) -/

/-- The first packet of VC0 that waits at a port is this one. -/
def Port.firstIs (v : Port) (o : OutPkt) : Bool :=
  match v.waiting.find? fun w => !w.ty.vc1 with
  | some w => decide (w = o)
  | none => false

/-- The ports at which a copy waits. -/
def State.copyPorts (s : State) (o : OutPkt) : List Nat :=
  (List.range 16).filter fun p => (s.port p).waiting.contains o

/-- The copies of a packet go out when each of their ports may send it and holds the credit for it. -/
def State.sendCopies (s : State) (o : OutPkt) : State :=
  let ps := s.copyPorts o
  let ready (p : Nat) : Bool := (s.port p).firstIs o && (s.emitAt p o).isSome
  if ps.isEmpty ∨ !(ps.all ready) then s
  else
    let s := ps.foldl (fun s p =>
      match (s.setPort p { (s.port p) with waiting := (s.port p).waiting.erase o }).emitAt p o with
      | some t => t
      | none => s) s
    s.release o

/-- The ports that a copy leaves by: those of a mask that are UP or retraining, other than the port it arrived on. -/
def State.copiesTo (s : State) (mask : BitVec 16) (via : Option Nat) : List Nat :=
  (List.range 16).filter fun p => bitOf mask.toNat p && via ≠ some p && (s.port p).usable

/-- One copy goes out of each of them. -/
def State.multicast (s : State) (mask : BitVec 16) (via : Option Nat) (k : Packet) : State :=
  let o : OutPkt := { ty := .cart, k := k, via := via }
  let ps := s.copiesTo mask via
  if ps.isEmpty then s.release o
  else (ps.foldl (fun s p => s.setPort p { (s.port p) with waiting := (s.port p).waiting ++ [o] }) s).sendCopies o

/-- What waits at a port goes out as far as it can, copies of CART packets together with those at other ports; at most
`fuel` rounds. -/
def State.flushPort (s : State) (p : Nat) : Nat → State
  | 0 => s
  | fuel + 1 =>
    let s := s.flushOne p
    match (s.port p).waiting.find? fun w => !w.ty.vc1 with
    | some o =>
      if o.ty = .cart then
        let t := s.sendCopies o
        if (t.port p).waiting = (s.port p).waiting then s
        else ((s.copyPorts o).foldl State.flushOne t).flushPort p fuel
      else s
    | none => s

/-! ## Replays (R277) -/

/-- The sender begins a replay of what its buffer holds: it takes the time of its flits, after which new flits follow. -/
def Port.replayFrom (v : Port) (clk : Nat) : Port :=
  { v with replayUntil := clk + 4 * v.held, replayDue := false, flits := count48 (v.flits + v.held) }

/-- A retraining begins in clk `clk` of a replay: what the replay has still to send follows after it, from the first flit not
acknowledged on (R288, R292; DESIGN CHOICE, log entry 31, for a replay that has begun in an earlier fclk). -/
def Port.holdReplay (v : Port) (clk : Nat) : Port :=
  if v.replayUntil ≤ clk then v
  else { v with replayUntil := 0, replayDue := true, flits := v.flits - ceilDiv (v.replayUntil - clk) 4 }

/-- The clk from which a port that takes no flit at present takes the next (R275, R277). -/
def Port.freeAt (v : Port) : Nat := max v.replayUntil v.flitAt

/-- The ports that have packets waiting for the end of a flit or of a replay, each with the clk of that end. -/
def State.portTimes (s : State) : List (Nat × Nat) :=
  (s.ehl.ports.filter fun p => !p.2.waiting.isEmpty && decide (s.clk ≤ p.2.freeAt)).map fun p => (p.1, p.2.freeAt)

/-- The ports that take a flit again from the present clk on send what waits. -/
def State.portsGoOn (s : State) : State :=
  (s.portTimes.filter fun p => decide (p.2 ≤ s.clk)).foldl (fun s p => s.flushPort p.1 64) s

end Sys2Proof.Machine
end

