-- ==== Sys2Proof/Machine/Abort.lean ====
section
/-! DEFINITION. Latching an abort condition (R350 to R352, R302): its rank, its event and its ABORT packets. -/

namespace Sys2Proof.Machine

open Sys2Proof

/-- Abort code values (R350). -/
def AbortCode.value : AbortCode → Nat
  | .deadlock => 1 | .mcastTimeout => 2 | .gatherRange => 3 | .bankOff => 4 | .hazard => 5 | .memUncorr => 6
  | .linkLost => 7 | .wdog => 8 | .hostAbort => 9 | .hostFault => 10

/-- A condition that names a coach: its rank is the coach's ID (R351). -/
def coachCond (clk : Nat) (c : CoachId) (code : AbortCode) (payload : Nat) : AbortCond :=
  { code := BitVec.ofNat 8 code.value, rank := c.toNat, coach := some c, source := c.toNat,
    payload := BitVec.ofNat 64 payload, remote := none, clkAt := clk }

/-- A condition from the key streamer without a coach, the host interface or another device: rank 64 (R351). -/
def deviceCond (clk source : Nat) (code : BitVec 8) (payload : Nat) (remote : Option NodeId) : AbortCond :=
  { code := code, rank := 64, coach := none, source := source, payload := BitVec.ofNat 64 payload, remote := remote,
    clkAt := clk }

/-- A condition about a cart ranks as its lowest coach receiver (R351). -/
def rankedAs (c : Option CoachId) (a : AbortCond) : AbortCond :=
  match c with
  | some c => { a with rank := c.toNat }
  | none => a

/-- The payload of TASK_ABORTED (R359). -/
def abortedPayload (id : TaskId) (a : AbortCond) : Nat :=
  id.toNat * 2 ^ 80 + a.code.toNat * 2 ^ 72 + (match a.coach with | some c => c.toNat * 2 ^ 66 + 2 ^ 64 | none => 0) +
    (match a.remote with | some n => 2 ^ 65 + n.toNat | none => a.payload.toNat)

/-- ABORT packets to every other device of a fabric task (R302). -/
def State.sendAborts (s : State) (t : Task) (code : BitVec 8) : State :=
  if t.f.ftag = 0 then s
  else (t.devices.filter fun n => decide (n ≠ s.ehl.nodeId)).foldl
    (fun s n => s.sendPacket .abort (s.packetTo n t.f.ftag 0 0 (code.toNat * 2 ^ 78) [])) s

/-- An abort condition applies to a task: the first decides the code; among those of one clk the lowest rank and then
the lowest code wins; later ones are ignored (R351). TASK_ABORTED falls due and the ABORT packets go out at the end of the clk
(`State.tellAborts`). -/
def State.latch (s : State) (key : Nat) (a : AbortCond) : State :=
  match s.task? key with
  | none => s
  | some t =>
    match t.abort with
    | none =>
      if t.st = .running then
        s.onTask key fun t => { t with abort := some a, st := .aborting }
      else s
    | some b =>
      if b.clkAt = a.clkAt ∧ (a.rank < b.rank ∨ (a.rank = b.rank ∧ a.code < b.code)) then
        s.onTask key fun t => { t with abort := some a }
      else s

/-- The TASK_ABORTED of a task that an event of R347 ended is held until the event ring is enabled again (R359). -/
def State.holdAbort (s : State) (t : Task) (a : AbortCond) : State :=
  let w : EvWait := { code := 1, payload := BitVec.ofNat 112 (abortedPayload t.id a) }
  { s with evt := { s.evt with resetAborts := s.evt.resetAborts ++ [w] } }

/-- The abort condition of a task has stood since the present clk: it has still to be told. -/
def Task.tells (clk : Nat) (t : Task) : Bool := t.abort.any fun a => decide (a.clkAt = clk)

/-- The abort of a task is told: its one TASK_ABORTED, with the condition that won, and the ABORT packets to the other devices, which
a task that a packet told to abort sends none of (R302, R351, R359). -/
def State.announce (s : State) (t : Task) : State :=
  match t.abort with
  | none => s
  | some a =>
    let s := if t.noCompletion && !s.evt.enable then s.holdAbort t a else s.raise a.source 1 (abortedPayload t.id a)
    if a.remote.isNone then s.sendAborts t a.code else s

/-- The aborts of the present clk are told. -/
def State.tellAborts (s : State) : State := (s.tasks.filter (Task.tells s.clk)).foldl State.announce s

/-- A task leaves the table; an abort that has still to be told is told. -/
def State.removeTask (s : State) (key : Nat) : State :=
  let s := (s.tasks.filter fun t => t.key = key && t.tells s.clk).foldl State.announce s
  { s with tasks := s.tasks.filter fun x => decide (x.key ≠ key) }

/-- A condition that coach `c` detects applies to the task it runs. -/
def State.latchCoach (s : State) (c : CoachId) (code : AbortCode) (payload : Nat) : State :=
  match (s.coach c).task with
  | some k => s.latch k (coachCond s.clk c code payload)
  | none => s

/-- A hazard of coach `c` is recorded, while its task has no abort condition yet (R105, R107), and latched (R351). -/
def State.hazardCoach (s : State) (c : CoachId) (kind info payload : Nat) : State :=
  let live : Bool := match s.taskOf c with
    | some t => t.abort.isNone && t.st = .running
    | none => false
  let s := if live then s.onCoach c fun co => { (co.hit 4 co.hazardSet.toNat) with
      hazard := true, hazardSet := satInc co.hazardSet, hazardKind := BitVec.ofNat 3 kind
      hazardInfo := BitVec.ofNat 32 info }
    else s
  s.latchCoach c .hazard payload

/-- The keys of the tasks that satisfy `p` and run on the device. -/
def State.runningKeys (s : State) (p : Task → Bool) : List Nat :=
  (s.tasks.filter fun t => t.onDevice && p t).map (·.key)

end Sys2Proof.Machine
end

