-- ==== Sys2Proof/Machine/HbmMem.lean ====
section
/-! DEFINITION. HBM contents: the interleave, reads and writes with their check bits, and what a bad row leads to
(R251 to R271). -/

namespace Sys2Proof.Machine

open Sys2Proof

/-- The addressable end of HBM: 992 GiB (R32, R430). -/
def hbmEnd : Nat := 0xF800000000

/-- The granule that holds an address, and its place (R251). -/
def granuleOf (addr : Nat) : Nat := addr / 576

def stripeOf (g : Nat) : Nat := g / 248

def channelOf (g : Nat) : Nat := (g % 248 + 157 * stripeOf g % 248) % 248

def stackOf (lam : Nat) : Nat := lam % 8

def activeOf (lam : Nat) : Nat := lam / 8

def rowOf (g : Nat) : Nat := stripeOf g / 4

/-- The granule of a logical channel and slot: the inverse of R251. -/
def granuleAt (lam j : Nat) : Nat := 248 * j + (lam + 248 - 157 * j % 248) % 248

def State.stk (s : State) (k : Nat) : Stack := look Stack.reset s.hbm.stackTable k

def State.setStk (s : State) (k : Nat) (v : Stack) : State :=
  { s with hbm := { s.hbm with stackTable := store Stack.reset s.hbm.stackTable k v } }

/-- The physical channel that serves active channel `a` of a stack (R255, R269). -/
def Stack.phys (v : Stack) (a : Nat) : Nat := if v.spareFor.toNat = a then 31 else a

/-! ## Error state of words -/

/-- The error state of 64-bit word `w`: that its channel is served by nothing, or the poison pattern of a filled channel,
or what was recorded (R261, R270, R271). -/
def State.wordErr (s : State) (w : Nat) : Option EccErr :=
  let lam := channelOf (granuleOf (8 * w))
  let v := s.stk (stackOf lam)
  if v.unserved.contains (activeOf lam) then some .double
  else if v.filling && v.evac.any (fun e => decide (e.1 = activeOf lam)) && !(look false s.hbm.fresh w) then some .double
  else if v.poisoned.contains (activeOf lam) && !(look false s.hbm.fresh w) then some .double
  else look none s.hbm.ecc w

/-- The words a byte range touches. -/
def wordsOf (addr n : Nat) : List Nat :=
  if n = 0 then [] else (List.range ((addr + n - 1) / 8 - addr / 8 + 1)).map fun i => addr / 8 + i

/-- Requesters of MEM_UNCORR_INFO (R273). -/
inductive Requester where
  | coach (c : CoachId) | keyStreamer | gateway0 | gateway1 | host | evacuation | rowCopy
  deriving DecidableEq, Repr

def Requester.code : Requester → Nat
  | .coach _ => 0 | .keyStreamer => 1 | .gateway0 => 2 | .gateway1 => 3 | .host => 4 | .evacuation => 5 | .rowCopy => 6

/-! ## Retirement, remap and evacuation -/

/-- The 64 KiB pages that hold a byte of a channel row's four granules (R265). -/
def rowPages (lam row : Nat) : List Nat :=
  (((List.range 4).flatMap fun i =>
      let b := 576 * granuleAt lam (4 * row + i)
      if 4 * row + i ≤ 7456540 then [b / 65536, min (b + 575) (hbmEnd - 1) / 65536] else []).eraseDups)

/-- Raises the PAGE_RETIRE events of a row (R265, R359). -/
def State.raiseRetire (s : State) (k a row : Nat) (replay : Bool) : State :=
  (rowPages (8 * a + k) row).foldl (fun s page =>
    let info := k * 2 ^ 50 + a * 2 ^ 45 + row * 2 ^ 24 + page
    let s := s.raise (srcStack k) 3 (flag replay * 2 ^ 53 + info)
    { (s.hit 5 s.hbm.retireSet.toNat) with hbm := { s.hbm with retire := true, retireSet := satInc s.hbm.retireSet, retireInfo := BitVec.ofNat 64 info } })
    s

/-- Retired-row records in the journal. -/
def State.retiredRows (s : State) : Nat :=
  (s.boot.nvm.journal.filter fun r => match r with
    | .rowRetire _ _ _ => true
    | _ => false).length

/-- The journal has no place left for a retired row (R265). -/
def State.retireFull (s : State) : Bool := decide (16384 ≤ s.retiredRows)

/-- A row that cannot be remapped is retired, once (R265). -/
def State.retireRow (s : State) (k a row : Nat) : State :=
  let v := s.stk k
  let s := (s.setStk k { v with retired := v.retired ++ [(v.phys a, row)] }).raiseRetire k a row false
  let s := if s.retireFull then s else s.journal (.rowRetire k (8 * a + k) row)
  { s with hbm := { s.hbm with journalFull := s.hbm.journalFull || s.retireFull } }

/-- A failing channel is evacuated to the unused spare of its stack; while another evacuation runs it waits (R267,
R271). -/
def State.startEvac (s : State) (k a : Nat) : State :=
  let v := s.stk k
  if v.evac.isSome then
    if v.evacWait.contains a || v.evac.any (fun e => decide (e.1 = a)) then s
    else s.setStk k { v with evacWait := v.evacWait ++ [a] }
  else if v.spareFor.toNat ≠ 31 ∨ v.noSpare then s
  else
    ((s.setStk k { v with evac := some (a, 0), filling := false, evacWait := v.evacWait.filter fun x => decide (x ≠ a) }).journal (.channel k a false false)).raise
      (srcStack k) 8 (k * 2 ^ 6 + a)

/-- The lowest spare row of a physical channel that is neither in use nor retired (R262, R264). -/
def Stack.freeSpare (v : Stack) (ph : Nat) : Option Nat := (List.range 128).find? fun x => !(v.spareTaken.contains (ph, x))

/-- The grant slot of a clk within its frame (R242). -/
def State.slotNow (s : State) : Nat := (s.clk - s.hbm.frameAt) / 18 % 40

/-- Logical channel `lam` retrains (R259). -/
def State.channelRetrains (s : State) (lam : Nat) : Bool :=
  match (s.stk (stackOf lam)).retraining with
  | some (a, _) => a = activeOf lam
  | none => false

/-- A row that is detected in its channel's refresh frame before the lengthened window would begin is copied in that window (R262). -/
def State.copySoon (s : State) (k a : Nat) : State :=
  let v := s.stk k
  if s.hbm.frame % 13 = (8 * a + k) % 13 ∧ s.channelRetrains (8 * a + k) = false ∧ s.slotNow < (if v.hot then 24 else 28) ∧
      v.copying.contains a = false then
    s.setStk k { v with copying := v.copying ++ [a] }
  else s

/-- A row that reached a threshold gets a spare row, a new one where it has one already, or is retired (R262, R264,
R265); during the evacuation of its channel it gets nothing, and a channel whose last spare row is taken is failing (R267, R271). -/
def State.remapRow (s : State) (k a row : Nat) : State :=
  let v := s.stk k
  let ph := v.phys a
  if v.evac.any (fun e => decide (e.1 = a)) || v.copies.any (fun c => decide (c.1 = ph ∧ c.2.1 = row)) ||
      v.retired.contains (ph, row) then s
  else
    let redirect := v.remaps.any fun r => decide (r.phys = ph ∧ r.row = row)
    let full := !redirect && decide (2048 ≤ v.remaps.length + (v.copies.filter fun c => !c.2.2.2).length)
    match v.freeSpare ph with
    | none => s.retireRow k a row
    | some x =>
      if full then s.retireRow k a row
      else
        let v := { v with spareTaken := v.spareTaken ++ [(ph, x)], copies := v.copies ++ [(ph, row, x, redirect)] }
        let s := (s.setStk k v).copySoon k a
        if (v.freeSpare ph).isNone then s.startEvac k a else s

/-- The row table counts a corrected error; when full it replaces the row with the lowest count (R262). -/
def countRow (t : List (Nat × Nat × Nat)) (ph row : Nat) : Nat × List (Nat × Nat × Nat) :=
  match t.find? fun e => e.1 = ph ∧ e.2.1 = row with
  | some e => (e.2.2 + 1, t.map fun x => if x.1 = ph ∧ x.2.1 = row then (ph, row, e.2.2 + 1) else x)
  | none =>
    if t.length < 256 then (1, t ++ [(ph, row, 1)])
    else
      let low := t.foldl (fun a x => min a x.2.2) (t.foldl (fun a x => max a x.2.2) 0)
      match findAt (fun x => decide (x.2.2 = low)) t 0 with
      | some (i, _) => (1, setNth t i (ph, row, 1))
      | none => (1, t)

/-- One hour and one second in clk. -/
def clkHour : Nat := 2500000000 * 3600
def clkSecond : Nat := 2500000000

/-- A corrected word: counted by channel and row, and the eighth of a row remaps it (R254, R262, R267). -/
def State.corrected (s : State) (g : Nat) : State :=
  let lam := channelOf g
  let k := stackOf lam
  let a := activeOf lam
  let v := s.stk k
  let r := countRow v.rowErrs (v.phys a) (rowOf g)
  let times := (v.corrTimes.filter fun t => decide (s.clk < t.2 + clkHour)) ++ [(a, s.clk)]
  let s := s.setStk k { v with rowErrs := r.2, corrTimes := times }
  let s := { (s.hit 16 s.hbm.corrCount) with hbm := { s.hbm with corrCount := count48 (s.hbm.corrCount + 1) } }
  let s := if 8 ≤ r.1 then s.remapRow k a (rowOf g) else s
  if 4096 ≤ (times.filter fun t => decide (t.1 = a)).length then s.startEvac k a else s

/-- An uncorrectable granule read: recorded, and the row is remapped (R260, R262). -/
def State.uncorrected (s : State) (g : Nat) (q : Requester) : State :=
  let lam := channelOf g
  let k := stackOf lam
  let a := activeOf lam
  let info := q.code * 2 ^ 59 + k * 2 ^ 56 + a * 2 ^ 51 +
    (match q with | .coach c => c.toNat * 2 ^ 40 | _ => 0) + 576 * g
  let s := { ((s.hit 4 s.hbm.uncorrSet.toNat).hit 17 s.hbm.uncorrCount) with hbm := { s.hbm with
    uncorr := true, uncorrSet := satInc s.hbm.uncorrSet, uncorrInfo := BitVec.ofNat 64 info,
    uncorrCount := count48 (s.hbm.uncorrCount + 1) } }
  s.remapRow k a (rowOf g)

/-! ## Reads and writes -/

/-- One granule's part of a read: the words touched, corrected errors in passing, uncorrectable ones recorded. -/
def State.readCheck (s : State) (g addr n : Nat) (q : Requester) : Bool × State :=
  let errs := (wordsOf addr n).map fun w => s.wordErr w
  let s := (errs.filter fun e => decide (e = some .single)).foldl (fun s _ => s.corrected g) s
  if errs.any fun e => decide (e = some .double) then (true, s.uncorrected g q) else (false, s)

/-- Reads `n` bytes at a device address below 992 GiB: the bytes and whether a word was uncorrectable. -/
def State.hbmRead (s : State) (addr n : Nat) (q : Requester) : List Byte × Bool × State :=
  let gs := (List.range (granuleOf (addr + n - 1) - granuleOf addr + 1)).map fun i => granuleOf addr + i
  let r := gs.foldl (fun (p : Bool × State) g =>
    let lo := max addr (576 * g)
    let hi := min (addr + n) (576 * g + 576)
    let q := p.2.readCheck g lo (hi - lo) q
    (p.1 || q.1, q.2)) (false, s)
  (lookList 0 s.hbm.data addr n, r.1, r.2)

/-- Writes bytes: fresh check bits end the errors of the words written (R260); an unserved channel takes nothing
(R271). -/
def State.hbmWrite (s : State) (addr : Nat) (bs : List Byte) : State :=
  let lam := channelOf (granuleOf addr)
  let v := s.stk (stackOf lam)
  let a := activeOf lam
  let filling := v.filling && v.evac.any fun e => decide (e.1 = a)
  let marks := if filling then v.evac.any fun e => decide (stripeOf (granuleOf addr) < e.2) else v.poisoned.contains a
  if v.unserved.contains (activeOf lam) then s
  else
    let ws := wordsOf addr bs.length
    { s with hbm := { s.hbm with
      data := storeList 0 s.hbm.data addr bs
      ecc := ws.foldl (fun m w => store none m w none) s.hbm.ecc
      fresh := if marks then ws.foldl (fun m w => store false m w true) s.hbm.fresh
        else s.hbm.fresh } }

/-- A write that may span granules. -/
def State.hbmWriteAll (s : State) (addr : Nat) (bs : List Byte) : State :=
  let n := bs.length
  let gs := (List.range (granuleOf (addr + n - 1) - granuleOf addr + 1)).map fun i => granuleOf addr + i
  if n = 0 then s
  else gs.foldl (fun s g =>
    let lo := max addr (576 * g)
    let hi := min (addr + n) (576 * g + 576)
    s.hbmWrite lo ((bs.drop (lo - addr)).take (hi - lo))) s

/-! ## Requests of the privileged ports and of the host (R242, R253) -/

/-- A request for bytes comes to the channels of its granules, the first of them first; it waits there for a grant. -/
def State.ask (s : State) (port addr n clkAt : Nat) (job : AskJob) : State :=
  let a : Ask := { port := port, chan := channelOf (granuleOf addr), addr := addr, n := n, clkAt := clkAt, job := job }
  { s with hbm := { s.hbm with asks := s.hbm.asks ++ [a] } }

/-- A slot that a void cart spends is asked for at the channel that the real granule names, or at an open one where its address
is none of HBM (R232; log entry 1). -/
def State.askSpent (s : State) (addr place clkAt : Nat) (job : AskJob) : State :=
  let lam := if addr + 576 ≤ hbmEnd then channelOf (granuleOf addr) else Config.freeNat s.freeCtr (300 + place) % 248
  { s with hbm := { s.hbm with asks := s.hbm.asks ++ [{ port := 0, chan := lam, addr := 0, n := 0, clkAt := clkAt, job := job }] } }

/-- The bytes of a request that lie in its first granule. -/
def Ask.part (a : Ask) : Nat := min a.n (576 * (granuleOf a.addr + 1) - a.addr)

/-- What is left of a request once its first granule has been served; none when that was all. -/
def Ask.rest (a : Ask) (job : AskJob) : Option Ask :=
  if a.n ≤ a.part then none
  else some { a with
    chan := channelOf (granuleOf (a.addr + a.part)), addr := a.addr + a.part, n := a.n - a.part, job := job }

end Sys2Proof.Machine
end

