-- ==== Sys2Proof/Machine/Keys.lean ====
section
/-! DEFINITION. Key stream lists: their entries, which carts an entry names and where each goes, the cart a queue has in
hand and what it waits for (R225 to R240, R247, R297, R435). -/

namespace Sys2Proof.Machine

open Sys2Proof

/-! ## Entries (R227) -/

structure KeyEntry where
  mask : BitVec 64
  group : BitVec 12
  groupEn : Bool
  ilv : Bool
  shift : Nat
  limbs : Nat
  reservedOk : Bool
  spread : Nat
  passes : Nat
  carts : Nat
  first : Nat
  keyIndex : Nat
  context : BitVec 14
  burst : Nat

def KeyEntry.ofWord (x : Nat) : KeyEntry :=
  { mask := BitVec.ofNat 64 (bits x 255 192), group := BitVec.ofNat 12 (bits x 191 180), groupEn := bitOf x 179,
    ilv := bitOf x 178, shift := bits x 177 174, limbs := bits x 173 168,
    reservedOk := bits x 167 160 = 0 && bits x 17 0 = 0, spread := bits x 159 144, passes := bits x 143 128,
    carts := bits x 127 96, first := bits x 95 64, keyIndex := bits x 63 48, context := BitVec.ofNat 14 (bits x 47 34),
    burst := bits x 33 18 }

/-- Cart `k` of a pass (R233): its sequence within the key. -/
def KeyEntry.seqAt (e : KeyEntry) (set : Option PolicyEntry) (k : Nat) : Nat :=
  match set with
  | some p =>
    if e.limbs = 0 then e.first + k
    else
      let w := p.ringSize / 4096
      let block := (e.limbs + p.special) * w
      let r := k % block
      let limb := r / w
      let stored := if limb < e.limbs then limb else p.limbs + (limb - e.limbs)
      ((k / block) * (p.limbs + p.special) + stored) * w + r % w
  | none => e.first + k

/-- A 16-bit segment rotated left. -/
def rotate16 (x m : Nat) : Nat := (x * 2 ^ (m % 16) + x / 2 ^ (16 - m % 16)) % 65536

/-- The coaches that receive the cart of sequence `seq` (R234). -/
def KeyEntry.receivers (e : KeyEntry) (seq : Nat) : List CoachId :=
  let m := if e.spread = 0 then 0 else (seq - e.first) / e.spread * e.shift
  maskCoaches (BitVec.ofNat 64 ((List.range 4).foldl (fun a q =>
    a + rotate16 (bits e.mask.toNat (16 * q + 15) (16 * q)) m * 2 ^ (16 * q)) 0))

/-! ## The place of a queue in its list (R235) -/

/-- The entries of the interleave set that begins at entry `i`: up to the first with ILV 0. -/
def ilvSet : List KeyEntry → Nat → List (Nat × Nat)
  | [], _ => []
  | e :: rest, i => if e.ilv then (i, 0) :: ilvSet rest (i + 1) else [(i, 0)]

/-- A queue with nothing in hand takes up the next set of its list. -/
def KeyQueue.load (v : KeyQueue) (list : List KeyEntry) : KeyQueue :=
  if v.set.isEmpty ∧ v.next < list.length then
    let l := ilvSet (list.drop v.next) v.next
    { v with set := l, next := v.next + l.length, turn := 0, burst := 0, pass := 0, hdrs := [], dirs := [] }
  else v

/-- The next place of the set, from `turn` on in list order, whose entry has carts left. -/
def nextTurn (list : List KeyEntry) (set : List (Nat × Nat)) (turn : Nat) : Option Nat :=
  ((List.range set.length).map fun i => (turn + i) % set.length).find? fun i =>
    match set[i]? with
    | some x => match list[x.1]? with
      | some e => decide (x.2 < e.carts)
      | none => false
    | none => false

/-- The queue after the cart it had in hand: the entry's count, the turn, the pass. -/
def KeyQueue.sent (v : KeyQueue) (list : List KeyEntry) (e : KeyEntry) (entry k : Nat) : KeyQueue :=
  let set := setNth v.set v.turn (entry, k + 1)
  let spent := e.carts ≤ k + 1 ∨ (e.burst ≠ 0 ∧ e.burst ≤ v.burst + 1)
  let v := { v with stage := 0, void := false, got := [], timers := [], entry := entry }
  if !spent then { v with set := set, burst := v.burst + 1 }
  else match nextTurn list set ((v.turn + 1) % set.length) with
    | some t => { v with set := set, turn := t, burst := 0 }
    | none =>
      let first := match set.head? with
        | some x => match list[x.1]? with
          | some f => f.passes
          | none => 0
        | none => 0
      if v.pass + 1 < first then
        { v with set := set.map fun x => (x.1, 0), turn := 0, burst := 0, pass := v.pass + 1, hdrs := [] }
      else ({ v with set := [], turn := 0, burst := 0, pass := 0 }).load list

/-! ## The cart in hand -/

def State.keyQueue (s : State) (q : Nat) : KeyQueue := look KeyQueue.idle s.kst.queues q

def State.setQueue (s : State) (q : Nat) (v : KeyQueue) : State :=
  { s with kst := { s.kst with queues := store KeyQueue.idle s.kst.queues q v } }

/-- What a queue has in hand: its task, the list, the entry with its place, the carts of the entry sent before in this pass, and the
cart's sequence. -/
structure InHand where
  task : Task
  list : List KeyEntry
  e : KeyEntry
  entry : Nat
  n : Nat
  seq : Nat

/-- The cart in hand of a queue whose task runs; the queue of an aborting task has stopped (R239). -/
def State.inHand (s : State) (v : KeyQueue) : Option InHand :=
  match s.task? v.task, v.set[v.turn]? with
  | some t, some (i, n) =>
    let list := t.keylist.map fun x => KeyEntry.ofWord x.toNat
    match list[i]? with
    | some e =>
      let set := (look none s.contexts e.context.toNat).bind fun x => s.entry? x.paramSet
      if v.active && t.st = .running then
        some { task := t, list := list, e := e, entry := i, n := n, seq := e.seqAt set n } else none
    | none => none
  | _, _ => none

/-- The roles a queue can have for an entry: it reads the key, it sends void carts, or it takes the group's carts. -/
inductive KeyRole where
  | read (members : List NodeId)
  | void
  | member
  deriving DecidableEq, Repr

/-- The role for an entry (R240). -/
def State.keyRole (s : State) (e : KeyEntry) : KeyRole :=
  if !e.groupEn then .read []
  else match look none s.kst.groups e.group.toNat with
    | none => .void
    | some g =>
      match g.role.toNat with
      | 0 => .read g.members
      | 1 => .member
      | _ => .void

/-- A directory entry (R229). -/
structure KeyDir where
  kind : Nat
  keyIndex : Nat
  carts : Nat
  hdrNode : NodeId
  hdrAddr : Nat
  bodyNode : NodeId
  bodyAddr : Nat

def KeyDir.ofWord (x : Nat) : KeyDir :=
  { kind := bits x 191 184, keyIndex := bits x 175 160, carts := bits x 159 128, hdrNode := BitVec.ofNat 12 (bits x 115 104),
    hdrAddr := bits x 103 64, bodyNode := BitVec.ofNat 12 (bits x 51 40), bodyAddr := bits x 39 0 }

/-- The directory entry of the cart in hand has been asked for: it has been read, or it cannot be, lying beyond HBM or belonging to
a destroyed context (R232). -/
def KeyQueue.asked (v : KeyQueue) (h : InHand) : Bool := v.dirs.any fun d => decide (d.1 = h.entry)

/-- The directory entry read for the cart in hand. -/
def KeyQueue.dir (v : KeyQueue) (h : InHand) : Option KeyDir :=
  (look none v.dirs h.entry).map fun x => KeyDir.ofWord x.toNat

/-- The address of the header granule of the cart in hand, which a void cart shares with the carts around it as a real cart would;
one that no directory entry names shares it with those of the 18 sequences around (R230, R232; log entry 79). -/
def KeyQueue.hdrGranule (v : KeyQueue) (h : InHand) : Nat :=
  match v.dir h with
  | some d => (d.hdrAddr + 32 * h.seq) / 576 * 576
  | none => 2 ^ 41 + h.seq / 18

/-- All granules of the cart in hand have come, or the cart stands in the group receive buffer. -/
def State.cartReady (s : State) (v : KeyQueue) (h : InHand) : Bool :=
  match s.keyRole h.e with
  | .member => v.groupBuf.any fun g => g.1 = h.e.group
  | _ => v.stage = 2 && v.got.length = 32 && (look none v.hdrs h.entry).any fun x => decide (x.1 = v.hdrGranule h)

/-! ## Credits (R237, R239) -/

/-- A coach spends credits on the carts of a task's queue: it runs the task, or the credits that it returned at its end have not
arrived yet; from then on it discards the carts sent to it and spends no credit on them (R239; log entry 100). -/
def State.takesCarts (s : State) (key : Nat) (c : CoachId) : Bool :=
  ((s.coach c).phase = .running && (s.coach c).task = some key) || s.kst.back.any fun b => b.all && decide (b.recv = c)

/-- The member devices that receive the cart in hand. -/
def State.membersOf (s : State) (h : InHand) : List NodeId :=
  match s.keyRole h.e with
  | .read ms => ms.filter fun m => decide (m ≠ s.ehl.nodeId)
  | _ => []

/-- The receivers of the cart in hand that hold no credit: a coach has two, a member device eight. -/
def State.lacking (s : State) (v : KeyQueue) (h : InHand) : List Nat :=
  (((h.e.receivers h.seq).filter (s.takesCarts h.task.key)).map fun c => c.toNat).filter (fun r => decide (2 ≤ look 0 s.kst.used r)) ++
    ((s.membersOf h).map fun n => 64 + n.toNat).filter fun r => decide (8 ≤ look 0 v.used r)

/-- The receivers for which a queue holds back a ready cart. -/
def State.heldFor (s : State) (v : KeyQueue) : List Nat :=
  match s.inHand v with
  | some h => if s.cartReady v h then s.lacking v h else []
  | none => []

/-- A queue holds a ready cart and every credit for it. -/
def State.sendable (s : State) (v : KeyQueue) : Bool :=
  match s.inHand v with
  | some h => s.cartReady v h && (s.lacking v h).isEmpty
  | none => false

/-- The queue whose turn it is: the first that can send, in ascending number from the one after the last (R245). -/
def State.turnQueue (s : State) : Option Nat :=
  ((List.range 16).map fun i => (s.kst.last + 1 + i) % 16).find? fun q => s.sendable (s.keyQueue q)

/-! ## The clk of the key streamer (R238, R247, R435) -/

/-- A source is held for link credit: a copy of a cart, or a read of a key queue, waits at a port (R247, R297, R435). -/
def State.keysHeldByLink (s : State) : Bool :=
  s.ehl.ports.any fun p => p.2.waiting.any fun o => o.ty = .cart ||
    (o.ty = .readReq && o.k.src = s.ehl.nodeId && s.ehl.reads.any fun r => r.rid = bits o.k.info.toNat 85 70 && (match r.reader with
      | .queue _ _ => true
      | _ => false))

/-- The key streamer over `d` clk: the timers of receivers that hold back a cart advance (R238), MCAST_BP counts while a queue
holds one, LINK_CREDIT while a source is held (R237, R247). -/
def State.tickKst (s : State) (d : Nat) : Kst :=
  let k := s.kst
  let count (on : Bool) (i : Nat) (m : SMap Nat) : SMap Nat := if on then store 0 m i (count48 (look 0 m i + d)) else m
  let held := k.queues.any fun q => !(s.heldFor q.2).isEmpty
  { k with
    queues := if held then k.queues.map fun q =>
        (q.1, { q.2 with timers := (s.heldFor q.2).foldl (fun m r => store 0 m r (look 0 m r + d)) q.2.timers })
      else k.queues
    stall := count s.keysHeldByLink 4 (count held 3 k.stall) }

end Sys2Proof.Machine
end

