-- ==== Sys2Proof/Machine/Far.lean ====
section
/-! DEFINITION. What stands between a coach and the far side of its streams: the scratchpad map, header images, and the
requests of SIN and SOUT on their way to HBM, host memory and the fabric (R49 to R52, R85, R86, R91, R93, R176, R243,
R281, R292). -/

namespace Sys2Proof.Machine

open Sys2Proof

/-! ## The scratchpad map (R85, R86) -/

structure MapEntry where
  kind : Nat
  stream : Nat
  rows : Nat
  base : Nat
  mask : Nat

def MapEntry.ofWord (x : Nat) : MapEntry :=
  { kind := bits x 71 69, stream := bits x 68 63, rows := bits x 62 52, base := bits x 51 41, mask := bits x 31 0 }

def MapEntry.banks (m : MapEntry) : List Nat := (List.range 32).filter fun b => bitOf m.mask b

/-- Carriages of an entry. -/
def MapEntry.size (m : MapEntry) : Nat := m.banks.length * m.rows

/-- The row address of carriage `k` of an entry (R31, R86). -/
def MapEntry.rowAt (m : MapEntry) (k : Nat) : Nat :=
  m.banks.getD (k % m.banks.length) 0 * 2048 + m.base + k / m.banks.length

/-- The carriage of an entry that a row address names. -/
def MapEntry.carriage? (m : MapEntry) (row : Nat) : Option Nat :=
  let r := row % 2048
  match findAt (fun b => decide (b = row / 2048)) m.banks 0 with
  | some (p, _) => if m.base ≤ r ∧ r < m.base + m.rows then some ((r - m.base) * m.banks.length + p) else none
  | none => none

/-- Map entry `i` of the active slot. -/
def Coach.mapEntry (co : Coach) (i : Nat) : MapEntry := MapEntry.ofWord (look (0 : BitVec 128) co.prog.map i).toNat

/-! ## Header images -/

def Scheme.code : Scheme → Nat
  | .plain => 0 | .packed => 1 | .lwe => 2 | .glwe => 3

def Scheme.ofCode (n : Nat) : Scheme :=
  match n with
  | 0 => .plain | 1 => .packed | 2 => .lwe | _ => .glwe

/-- The 128 bits of a header (R49). -/
def Header.image (h : Header) : Nat :=
  h.context.toNat + Scheme.code h.scheme * 2 ^ 14 + h.paramSet.toNat * 2 ^ 16 + h.level.toNat * 2 ^ 24 +
    h.budget.toNat * 2 ^ 30 + h.scaleExp.toNat * 2 ^ 46 + flag h.poison * 2 ^ 54 + h.originIndex.toNat * 2 ^ 55 +
    h.originEngine.toNat * 2 ^ 68

/-- The header an image holds; reserved bits are dropped (R49, R52). -/
def Header.ofImage (x : Nat) : Header :=
  { context := BitVec.ofNat 14 (bits x 13 0), scheme := Scheme.ofCode (bits x 15 14),
    paramSet := BitVec.ofNat 8 (bits x 23 16), level := BitVec.ofNat 6 (bits x 29 24),
    budget := BitVec.ofNat 16 (bits x 45 30), scaleExp := BitVec.ofNat 8 (bits x 53 46), poison := bitOf x 54,
    originIndex := BitVec.ofNat 13 (bits x 67 55), originEngine := BitVec.ofNat 3 (bits x 70 68) }

def Header.isCt (h : Header) : Bool := h.scheme ≠ .plain

/-- The header that slot `i` shows in clk `t`: the last written by then, or what the table holds. -/
def Coach.headerAt (co : Coach) (i t : Nat) : Header :=
  match (co.hdrLate.filter fun w => decide (w.due ≤ t ∧ w.slot = i)).getLast? with
  | some w => w.value
  | none => co.headerRaw i

/-- Order of the writes that wait: by clk, and within one clk the lower engine ID last, so that it stands (R70). -/
def insertWrite (w : HdrWrite) : List HdrWrite → List HdrWrite
  | [] => [w]
  | v :: rest => if v.due < w.due ∨ (v.due = w.due ∧ w.engine ≤ v.engine) then v :: insertWrite w rest else w :: v :: rest

/-- A write of SOUT takes a header image at its byte of the granule. -/
def imageBytes (image place : Nat) : SMap (Byte × Byte) :=
  (leBytes 16 image).zipIdx.foldl (fun m b => insert m (place + b.2) (0xFF, b.1)) []

/-- SOUT takes the header images of the objects whose last carriage has left by `clk`, each as it stood then (R52, R93). -/
def Coach.takeImages (co : Coach) (clk : Nat) : Coach :=
  let v := co.engine .sout
  match v.transfer with
  | none => co
  | some t =>
    let now := t.images.filter fun i => decide (i.1 ≤ clk)
    if now.isEmpty then co
    else
      let reqs := now.foldl (fun l i => l.map fun (r : Req) =>
        if r.first = i.2.2.1 then { r with wr := imageBytes (co.headerAt i.2.1 i.1).image i.2.2.2 } else r) t.reqs
      co.setEngine .sout { v with
        transfer := some { t with reqs := reqs, images := t.images.filter fun i => decide (clk < i.1) } }

/-! ## Requests (R243) -/

/-- The urgency stamp (R243). -/
def Coach.urgency (co : Coach) (entry : Nat) : Nat :=
  let m := co.mapEntry entry
  let full := ((List.range m.size).filter fun k => look false co.fill (m.rowAt k)).length
  if m.kind = 2 then min full 4095 else if m.kind = 3 then min (m.size - full) 4095 else 4095

/-- A new request ID of a remote read (R281). -/
def State.newRid (s : State) : Nat × State :=
  (s.ehl.nextRid, { s with ehl := { s.ehl with nextRid := (s.ehl.nextRid + 1) % 2 ^ 16 } })

/-- A READ_REQ of granule length sets out (R281, R292); a timeout below 250 µs acts as 250 µs (R303). -/
def State.readRemote (s : State) (who : Reader) (tkey : Nat) (tag : BitVec 16) (n : NodeId) (addr : Nat)
    (x : Option Stamp) : Nat × State :=
  let r := s.newRid
  let s := r.2.sendStamped .readReq (r.2.packetTo n tag 0 addr (r.1 * 2 ^ 70 + 3 * 2 ^ 68) []) x
  let o : Outstanding :=
    { rid := r.1, task := tkey, reader := who, node := n, addr := addr, clkAt := s.clk,
      limit := max s.ehl.reqTimeout.toNat 0x98968 }
  (r.1, { s with ehl := { s.ehl with reads := s.ehl.reads ++ [o] } })

/-- A byte under a mask. -/
def maskByte (old : Byte) (w : Byte × Byte) : Byte := (old &&& ~~~w.1) ||| (w.2 &&& w.1)

/-- A write reaches HBM. -/
def State.applyHbm (s : State) (addr : Nat) (wr : SMap (Byte × Byte)) : State :=
  wr.foldl (fun s e => s.hbmWrite (addr + e.1) [maskByte (look 0 s.hbm.data (addr + e.1)) e.2]) s

/-- A write of a coach's SOUT reaches HBM; one to a channel that was lost while the task ran is discarded (R353). -/
def State.writeHbm (s : State) (c : CoachId) (q : Req) : State :=
  if (s.taskOf c).any fun t => t.lostCh.contains (channelOf (granuleOf q.addr)) then s else s.applyHbm q.addr q.wr

/-- A write reaches host memory. -/
def State.applyHost (s : State) (addr : Nat) (wr : SMap (Byte × Byte)) : State :=
  wr.foldl (fun s e => s.hostWrite (addr + e.1) [maskByte (look 0 s.host (addr + e.1)) e.2]) s

/-- A write sets out as WRITE packets, one to each carriage it touches or one to a whole granule; the bytes of a carriage
that it does not cover are open (log entry 36). -/
def State.applyFabric (s : State) (n : NodeId) (tag : BitVec 16) (addr : Nat) (wr : SMap (Byte × Byte)) (x : Option Stamp) : State :=
  let free (h : Nat) : List Byte := leBytes 288 (Config.freeCarriage s.freeCtr h).toNat
  let half (h : Nat) : List Byte := (free h).zipIdx.map fun b => maskByte b.1 (look ((0 : Byte), (0 : Byte)) wr (288 * h + b.2))
  let touched (h : Nat) : Bool := wr.any fun e => decide (e.1 / 288 = h)
  let s := if touched 0 && touched 1 then s.sendStamped .write (s.packetTo n tag 3 addr 0 (half 0 ++ half 1)) x
    else if touched 0 then s.sendStamped .write (s.packetTo n tag 2 addr 0 (half 0)) x
    else s.sendStamped .write (s.packetTo n tag 2 (addr + 288) 0 (half 1)) x
  s.freed

/-- The engine of a coach with its transfer changed. -/
def Coach.onTransfer (co : Coach) (e : Engine) (f : Transfer → Transfer) : Coach :=
  co.onEngine e fun v => { v with transfer := v.transfer.map f }

/-- A request has left its coach. -/
def Req.left (q : Req) : Bool := q.rid ≠ 0

/-- A packet of the request waits at a port for credit or a link. -/
def State.heldByLink (s : State) (n : NodeId) (q : Req) : Bool :=
  q.left && s.ehl.ports.any fun p => p.2.waiting.any fun o =>
    (o.ty = .readReq && q.wr.isEmpty && o.k.src = s.ehl.nodeId && bits o.k.info.toNat 85 70 + 1 = q.rid) ||
    (o.ty = .write && !q.wr.isEmpty && o.k.src = s.ehl.nodeId && o.k.dst = n && o.k.addr.toNat / 576 = q.addr / 576)

/-- The near map entry of a transfer. -/
def Transfer.near (t : Transfer) : Nat := bits t.desc.toNat 201 196

/-- The requests of an engine that leave its coach by clk `t`. -/
def Coach.leavers (co : Coach) (t : Nat) (e : Engine) : List Req :=
  match (co.engine e).transfer with
  | some v => v.reqs.filter fun q => !q.left && decide (q.clkAt ≤ t)
  | none => []

/-- They take their stamp, by the fill bits as they stood before the clk (R243); for SOUT the header images come with them (R52). -/
def Coach.stamp (t : Nat) (fill : SMap Bool) (co : Coach) : Coach :=
  let co := co.takeImages t
  [Engine.sin, Engine.sout].foldl (fun (co : Coach) e =>
    let go (n : Nat) (q : Req) : Req := if !q.left && decide (q.clkAt ≤ t) then { q with rid := 1, urg := { co with fill := fill }.urgency n } else q
    co.onTransfer e fun v => { v with reqs := v.reqs.map (go v.near) }) co

/-- A request on its way to the PCIe controller or a gateway: urgency, stream, coach, engine and the request. -/
structure OnWay where
  urg : Nat
  stream : Nat
  coach : CoachId
  eng : Engine
  req : Req

def OnWay.before (a b : OnWay) : Bool :=
  decide (a.urg < b.urg ∨ (a.urg = b.urg ∧ (a.stream < b.stream ∨ (a.stream = b.stream ∧ a.coach.toNat ≤ b.coach.toNat))))

/-- By urgency stamp, then stream index, then coach (R243, R244). -/
def insertWay (w : OnWay) : List OnWay → List OnWay
  | [] => [w]
  | v :: rest => if v.before w then v :: insertWay w rest else w :: v :: rest

/-- A request of SOUT has been accepted in the present clk (R176). -/
def Coach.accepted (co : Coach) (clk : Nat) (q : Req) : Coach :=
  co.onTransfer .sout fun v =>
    { v with reqs := v.reqs.filter fun r => decide (r.first ≠ q.first), free := max v.free (clk + 1) }

/-- The writes of SOUT whose packets have all left their ports are accepted (R176, R280). -/
def State.reapWrites (s : State) : State :=
  s.mapCoaches fun _ co => match (co.engine .sout).transfer with
    | some v => (v.reqs.filter fun q => match q.far with
        | .fabric n => q.left && !(s.heldByLink n q)
        | _ => false).foldl (fun co q => co.accepted s.clk q) co
    | none => co

/-- A request to host memory or to the fabric goes out; a read of host memory waits for its completion. -/
def State.sendOut (s : State) (w : OnWay) : State :=
  let tag : BitVec 16 := match s.taskOf w.coach with
    | some t => t.f.ftag
    | none => 0
  let x : Option Stamp := some { urg := w.urg, stream := w.stream, coach := w.coach.toNat, since := s.clk }
  match w.req.far, w.eng with
  | .host, .sout => (s.applyHost w.req.addr w.req.wr).onCoach w.coach fun co => co.accepted s.clk w.req
  | .fabric n, .sout => s.applyFabric n tag w.req.addr w.req.wr x
  | .fabric n, _ =>
    let r := s.readRemote (.coach w.coach) (((s.coach w.coach).task).getD 0) tag n w.req.addr x
    r.2.onCoach w.coach fun co => co.onTransfer w.eng fun v =>
      { v with reqs := v.reqs.map fun q => if q.first = w.req.first then { q with rid := r.1 + 1 } else q }
  | _, _ => s

/-- The requests that leave in clk `t`: each takes its stamp, and those to the PCIe controller and the gateways go out in the
order of the stamps. -/
def State.leave (s : State) (fill : CoachId → SMap Bool) (t : Nat) : State :=
  let cs := s.listed.filter fun c =>
    (s.coach c).phase = .running && [Engine.sin, Engine.sout].any fun e => !((s.coach c).leavers t e).isEmpty
  if cs.isEmpty then s
  else
    let s' := cs.foldl (fun s c => s.onCoach c (Coach.stamp t (fill c))) s
    let ways := cs.flatMap fun c => [Engine.sin, Engine.sout].flatMap fun e =>
      let firsts := ((s.coach c).leavers t e).map (·.first)
      match ((s'.coach c).engine e).transfer with
      | some v => (v.reqs.filter fun q => firsts.contains q.first).map fun q =>
          ({ urg := q.urg, stream := ((s'.coach c).mapEntry v.near).stream, coach := c, eng := e, req := q } : OnWay)
      | none => []
    ((ways.foldl (fun l w => insertWay w l) []).foldl State.sendOut s').reapWrites

end Sys2Proof.Machine
end

