-- ==== Sys2Proof/Machine/Ex.lean ====
section
/-! DEFINITION. Executions: the operands of an instruction in the scratchpad, the registers and the tile queue, with the bank
accesses they make (R30, R61, R74, R75, R85 to R87, R103, R105, R111, R112, R143, R180, R203, R204, R208,
R431, R433). -/

namespace Sys2Proof.Machine

open Sys2Proof

/-- The instruction word at an engine's PC. -/
def Coach.wordAt (co : Coach) (e : Engine) (pc : Nat) : Nat :=
  (look (0 : BitVec 128) co.prog.imem (8192 * eid e + pc)).toNat

/-- Who may read the rows of an entry of a kind (R87). -/
def mayRead (kind : Nat) (e : Engine) : Bool :=
  match kind with
  | 1 => eid e ≤ 4 || e = .sout
  | 2 => eid e ≤ 4
  | 3 => e = .sout
  | 4 => e = .ksa || e = .dbu || e = .nte
  | _ => false

/-- Who may write them (R87, R28). -/
def mayWrite (kind : Nat) (e : Engine) : Bool :=
  match kind with
  | 1 => eid e ≤ 4
  | 2 => e = .sin
  | 3 => eid e ≤ 4
  | 4 => e = .kin
  | _ => false

/-! ## Places in the map (R85, R86) -/

/-- A place in the map: the entry and the carriage within it. -/
structure Place where
  entry : MapEntry
  carriage : Nat

/-- The place a row address names: it belongs to at most one entry (R203). -/
def Coach.place? (co : Coach) (row : Nat) : Option Place :=
  (co.prog.map.findSome? fun kv =>
    let m := MapEntry.ofWord kv.2.toNat
    if m.kind = 0 then none
    else match m.carriage? row with
      | some k => some { entry := m, carriage := k }
      | none => none)

/-- The place `off` carriages further along the entry, none beyond its bounds (R203). -/
def Place.along (p : Place) (off : Int) : Option Place :=
  let k := (p.carriage : Int) + off
  if 0 ≤ k ∧ k < p.entry.size then some { p with carriage := k.toNat } else none

def Place.row (p : Place) : Nat := p.entry.rowAt p.carriage

/-! ## An execution -/

/-- One execution of a data-path instruction on a coach: the coach, of which the execution changes a copy as if everything were
done at once, the instruction and its word, its clk, its occupancy and the clk from which its results may be read, the free
values used, the content it takes by number and the next number, the rows it has filled (R431), the other places it has written
(`made`: 2^16 + a vector register, 2^17 + an accumulator entry, 2^18 the activation table), the key regions it has read, what
it does in planned clk (`accs`), where `pace` gives the clk of the next access and how many clk later each further one comes,
`floor` the clk before which no access comes, the indices of a GSX, and whether it has written outside the map. -/
structure Ex where
  co : Coach
  eng : Engine
  idx : BitVec 13
  word : Nat
  clk : Nat
  o : Nat
  due : Nat
  use : Nat
  place : Nat
  given : SMap Got
  ords : Nat
  filled : List Nat
  made : List Nat
  regions : List Nat
  accs : List Acc
  pace : Option (Nat × Nat)
  floor : Nat
  idxs : Option (List Nat)
  wild : Bool

/-- The next free carriage. -/
def Ex.free (x : Ex) : Carriage × Ex := (Config.freeCarriage x.use x.place, { x with place := x.place + 1 })

def Ex.freeNum (x : Ex) : Nat × Ex := (Config.freeNat x.use x.place, { x with place := x.place + 1 })

/-- Four free carriages. -/
def freeTile (use place : Nat) : List Carriage := (List.range 4).map fun k => Config.freeCarriage use (4 * place + k)

/-- Instruction index, engine and row as CCH_HAZARD_INFO lays them out. -/
def Ex.info (x : Ex) (row : Nat) : Nat := x.idx.toNat * 2 ^ 19 + eid x.eng * 2 ^ 16 + row

/-- The content taken under the next number: what the execution has been given, else `g`. -/
def Ex.recall (x : Ex) (g : Got) : Got × Ex :=
  let h := look g x.given x.ords
  (h, { x with given := insert x.given x.ords h, ords := x.ords + 1 })

/-- A carriage taken under the next number. -/
def Ex.recallRow (x : Ex) (v : Carriage) : Carriage × Ex :=
  let r := x.recall (.row v)
  (match r.1 with
    | .row w => w
    | _ => v, r.2)

/-! ## The clk of an access (R74, R80, R433) -/

/-- The first clk from `t` on in which the bank makes no other access of the engine; `fuel` is at least the number of these. -/
def firstFree (busy : List Nat) : Nat → Nat → Nat
  | 0, t => t
  | fuel + 1, t => if busy.contains t then firstFree busy fuel (t + 1) else t

/-- The clk in which the engine accesses the bank of a row: a bank makes one access a clk (R74). -/
def Ex.busy (x : Ex) (row : Nat) : List Nat :=
  ((x.co.accs ++ x.accs).filter fun a => a.act = .bank && decide (a.engine = x.eng ∧ a.row / 2048 = row / 2048)).map (·.clk)

/-- The clk before which an access does not come: it follows its execution's accesses of the row, and the VEC reads a row that the
KSA or the NTE has written in scratchpad mode no earlier than four clk after the write (R143; log entry 103). -/
def Ex.earliest (x : Ex) (row : Nat) (write : Bool) : Nat :=
  let t := (x.accs.filter fun a => decide (a.row = row)).foldl (fun t a => max t a.clk) x.floor
  if write || x.eng ≠ .vec || x.co.coupling ≠ 0 then t
  else
    let late := x.co.accs.filter fun a => a.write && decide (a.row = row) && (a.engine = .ksa || a.engine = .nte)
    late.foldl (fun t a => max t (a.clk + 4)) (match x.co.tileAt.find? fun e => e.1 = row with
      | some e => max t (e.2 + 4)
      | none => t)

/-- The clk of the next access (R433): the one its pace gives, else one within the bounds of a read or of a write, of those in which
the bank makes no other access of the engine; where there is none within the bounds, the first after them (log entry 14). -/
def Ex.accClk (x : Ex) (row : Nat) (write : Bool) : Nat :=
  let busy := x.busy row
  let lo := x.earliest row write
  match x.pace with
  | some (t, _) => firstFree busy busy.length (max lo t)
  | none =>
    let a := if write then x.clk + 1 else x.clk
    let b := if write then x.due else x.clk + x.o
    let t := firstFree busy busy.length (max lo (a + Config.accessClk x.word x.ords % max 1 (b - a)))
    let u := firstFree busy busy.length (max lo a)
    if t < b ∨ b ≤ u then t else u

/-! ## Reads and writes -/

/-- The execution does something in clk `t`. -/
def Ex.act (x : Ex) (t : Nat) (act : Act) (data : List Carriage) (tile : Option ChainTile) : Ex :=
  let a : Acc := { clk := t, engine := x.eng, issued := x.clk, info := BitVec.ofNat 32 (x.info 0), row := 0, kind := 0, write := false, clears := false,
                   own := false, checked := false, ord := x.ords, act := act, want := .nothing, slots := [], data := data, tile := tile
                   full := none }
  { x with accs := x.accs ++ [a] }

/-- An access of a row of an entry of a kind (0 outside every entry) joins the execution. -/
def Ex.touch (x : Ex) (row kind : Nat) (write clears checked : Bool) (want : Want) (slots : List Nat) (data : List Carriage) : Ex :=
  let a : Acc := { clk := x.accClk row write, engine := x.eng, issued := x.clk, info := BitVec.ofNat 32 (x.info row), row := row, kind := kind,
                   write := write, clears := clears, own := x.filled.contains row, checked := checked, ord := x.ords, act := .bank
                   want := want, slots := slots, data := data, tile := none, full := none }
  { x with accs := x.accs ++ [a], pace := x.pace.map fun p => (p.1 + p.2, p.2) }

/-- The next number passes without content. -/
def Ex.skipOrd (x : Ex) : Ex := { x with ords := x.ords + 1 }

/-- Whether a read clears the fill bit: with its DRAIN bit that of an in-window or key-window row, and SOUT's read that of an
out-window row (R87, R204); what DRAIN does on a read that R87 doesn't allow is open. -/
def Place.clears (p : Place) (e : Engine) (drain open_ : Bool) : Bool :=
  if mayRead p.entry.kind e then (drain && (p.entry.kind = 2 || p.entry.kind = 4)) || (e = .sout && p.entry.kind = 3)
  else drain && open_

/-- A read of a row of the key window adds its region (R61). -/
def Ex.noteRegion (x : Ex) (p : Place) : Ex :=
  if p.entry.kind = 4 then { x with regions := x.regions ++ [p.carriage / 64] } else x

/-- The latency of the row's producer has passed, or the execution has written the row itself (R103, R111). -/
def Ex.settled (x : Ex) (row : Nat) : Bool := look 0 x.co.spadDue row ≤ x.clk || x.filled.contains row

/-- Reads one carriage for a use; its bank, its fill bit and its reader are checked in the clk of the access, and content that
has changed by then replaces what the execution expected (R79, R433; `State.learn`). `named` is the row an out-of-map access is
reported under (R87, R105). What a reader that R87 doesn't name gets is undefined, and so is a row whose producer's latency has
not passed (R111). A read of a row that its execution has drained before, `again`, is unchecked and clears nothing. -/
def Ex.readFor (want : Want) (again : Bool) (x : Ex) (p : Option Place) (named : Nat) (drain : Bool) : Carriage × Ex :=
  let q := x.free
  match p with
  | none => (q.2.touch named 0 false false true .nothing [] []).recallRow q.1
  | some p =>
    let ok := mayRead p.entry.kind x.eng && x.settled p.row
    let clears := !again && p.clears x.eng drain (Config.freeNat x.use x.place % 2 = 1)
    ((q.2.touch p.row p.entry.kind false clears (!again) (if ok then want else .nothing) [] []).noteRegion p).recallRow
      (if ok then look 0 x.co.spad p.row else q.1)

/-- Reads one carriage. -/
def Ex.read (x : Ex) (p : Option Place) (named : Nat) (drain : Bool) : Carriage × Ex := x.readFor .data false p named drain

/-- A row of the copy takes new content, which other instructions may read from clk `due` on when an engine that R111 speaks of has
written it. -/
def Ex.setRow (x : Ex) (row : Nat) (new : Carriage) : Ex :=
  let co := { x.co with
    spad := store 0 x.co.spad row new
    spadDue := if eid x.eng ≤ 4 then store 0 x.co.spadDue row x.due else x.co.spadDue }
  { x with co := co, filled := if x.filled.contains row then x.filled else x.filled ++ [row] }

/-- The slots that `f` selects. -/
def slotsOf (f : Nat → Bool) : List Nat := (List.range 64).filter f

/-- Writes the slots of one carriage that `f` selects (R74, R75, R87); what a write that R87 doesn't allow leaves is
undefined, and one outside the map makes the instruction's result undefined (`Ex.ended`). -/
def Ex.write (x : Ex) (p : Option Place) (named : Nat) (f : Nat → Bool) (v : Carriage) : Ex :=
  match p with
  | none => { (x.touch named 0 true false true .nothing [] []).skipOrd with wild := true }
  | some p =>
    let q := x.free
    let v := if mayWrite p.entry.kind x.eng then v else q.1
    (q.2.touch p.row p.entry.kind true false true .nothing (slotsOf f) [v]).skipOrd.setRow p.row
      (mergeSlots (look 0 x.co.spad p.row) v f)

/-- All slots. -/
def allSlots : Nat → Bool := fun _ => true

/-- A run named by a row field: the place the field names and the carriages from it to the run's first (R203, R208). -/
structure Run where
  named : Nat
  start : Option Place
  base : Int

/-- The run whose first carriage lies `off` carriages along the entry from the one a field names. -/
def Coach.run (co : Coach) (row : Nat) (off : Int) : Run := { named := row, start := co.place? row, base := off }

/-- The place of a run's carriage at an offset. -/
def Run.place (r : Run) (off : Int) : Option Place := r.start.bind fun p => p.along (r.base + off)

def Ex.readAt (x : Ex) (r : Run) (off : Int) (drain : Bool) : Carriage × Ex := x.read (r.place off) r.named drain

def Ex.writeAt (x : Ex) (r : Run) (off : Int) (v : Carriage) : Ex := x.write (r.place off) r.named allSlots v

/-- Reads carriages at a list of offsets. -/
def Ex.readAll (x : Ex) (r : Run) (offs : List Int) (drain : Bool) : List Carriage × Ex :=
  offs.foldl (fun (a : List Carriage × Ex) o =>
    let q := a.2.readAt r o drain
    (a.1 ++ [q.1], q.2)) ([], x)

/-- Offsets 0, s, 2s and onward. -/
def offsets (n : Nat) (s : Int) : List Int := (List.range n).map fun (i : Nat) => Int.ofNat i * s

/-- `n` successive offsets from `start`. -/
def span (start n : Nat) : List Int := (List.range n).map fun (i : Nat) => Int.ofNat (start + i)

/-- Writes values at offsets. -/
def Ex.writeAll (x : Ex) (r : Run) (l : List (Int × Carriage)) : Ex := l.foldl (fun x e => x.writeAt r e.1 e.2) x

/-- Undefined content at offsets (R111, R112, R180). -/
def Ex.undefAll (x : Ex) (r : Run) (offs : List Int) : Ex :=
  offs.foldl (fun x o =>
    let q := x.free
    q.2.writeAt r o q.1) x

/-- Rows of a run. -/
def Run.rows (r : Run) (offs : List Int) : List Nat := offs.filterMap fun o => (r.place o).map Place.row

/-- Source and destination overlap in a way R112 does not allow: they share a row and are not the same run. -/
def badOverlap (src dst : List Nat) (inPlace : Bool) : Bool :=
  (src.any fun r => dst.contains r) && !(inPlace && src = dst)

/-- Undefined content for rows of the map entries of the given kinds, no more than the engine may write: each row takes a free
carriage or stays as it is (R180; log entry 35). -/
def Ex.undefMap (x : Ex) (kinds : List Nat) : Ex :=
  (x.co.prog.map.filter fun kv => kinds.contains (MapEntry.ofWord kv.2.toNat).kind).foldl (fun (x : Ex) kv =>
    let m := MapEntry.ofWord kv.2.toNat
    (List.range m.size).foldl (fun (x : Ex) k =>
      let n := x.freeNum
      if n.1 % 2 = 0 then n.2
      else
        let q := n.2.free
        q.2.write (some { entry := m, carriage := k }) 0 allSlots q.1) x) x

/-- An execution at its end: a write outside the map makes its result undefined, unless the hazard check aborts the task: rows of the
kinds that the engine may write (R87, R203; log entry 35). -/
def Ex.ended (x : Ex) (kinds : List Nat) : Ex :=
  if x.wild && !x.co.hazardOn then { x with pace := none, floor := 0 }.undefMap kinds else x

/-! ## Beginning and leaving -/

/-- An execution begins in the present clk. -/
def State.startEx (s : State) (c : CoachId) (e : Engine) (due : Nat) : Ex :=
  let co := s.coach c
  { co := co, eng := e, idx := BitVec.ofNat 13 (co.engine e).pc, word := co.wordAt e (co.engine e).pc, clk := s.clk,
    o := due - s.clk, due := due, use := s.freeCtr, place := 1000, given := [], ords := 0, filled := [], made := [], regions := []
    accs := [], pace := none, floor := 0, idxs := none, wild := false }

/-- The coach an execution leaves: registers are written, with the clk from which they may be read, and rows, tiles and chain tiles
wait for their clk. -/
def Ex.left (x : Ex) (co : Coach) : Coach :=
  { co with
    accs := co.accs ++ x.accs, spadDue := x.co.spadDue, vregs := x.co.vregs, vregDue := x.co.vregDue, accMem := x.co.accMem
    actTable := x.co.actTable, actDue := x.co.actDue }

/-- The content of a row after a write of some of its slots. -/
def Acc.put (a : Acc) (old : Carriage) : Carriage := mergeSlots old (a.data.headD 0) fun s => a.slots.contains s

/-- The rows once the writes under way have been made, in the order of their instructions. -/
def Coach.landed (co : Coach) : SMap Carriage :=
  (co.accs.filter fun a => a.act = .bank && a.write && a.kind ≠ 0).foldl (fun m a => store 0 m a.row (a.put (look 0 m a.row))) co.spad

/-! ## Indexed fields (R208) -/

/-- A header field with its index sum, modulo 4,096. -/
def EngineS.hdrField (v : EngineS) (slot : BitVec 12) (pos : Nat) : Nat :=
  unsigned 12 ((slot.toNat : Int) + v.strideSum pos)

/-- A descriptor field with its index sum, modulo 1,024. -/
def EngineS.descField (v : EngineS) (d : BitVec 10) (pos : Nat) : Nat :=
  unsigned 10 ((d.toNat : Int) + v.strideSum pos)

/-! ## The tile queue (R29, R30, R143) -/

/-- The clk in which the NTE pushes its next tile: that of the write of the tile's first carriage, in output order, within the bounds of
a write (R121, R143, R433; log entry 14). -/
def Ex.pushClk (x : Ex) : Nat :=
  let mine := x.accs.filter fun a => a.act = .push
  mine.foldl (fun t a => max t a.clk) (x.clk + 1 + Config.accessClk x.word (2 ^ 20 + mine.length) % max 1 (x.due - x.clk - 1))

/-- A producer pushes a tile in a clk; in another coupling mode its result is undefined (R29). -/
def Ex.pushTile (x : Ex) (coupling clk : Nat) (tile : List Carriage) : Ex :=
  if x.co.coupling.toNat = coupling then (x.act clk .push tile none).skipOrd else x.undefMap [1, 3]

/-- Pops a tile in clk `t`: the oldest of the queue as far as it is known (R30, R143). -/
def Ex.popTile (x : Ex) (t : Nat) : List Carriage × Ex :=
  let q := x.act t .pop [] none
  let known : Got × List QTile := match x.co.tileQueue with
    | e :: rest => (.tile e.src e.data, rest)
    | [] => (.tile 0 (freeTile x.use (2 ^ 20 + x.ords)), [])
  let r := { q with co := { q.co with tileQueue := known.2 } }.recall known.1
  (match r.1 with
    | .tile _ l => l
    | _ => [], r.2)

/-- The next coach of a chain in its quarter (R21). -/
def nextInQuarter (c : CoachId) : CoachId := BitVec.ofNat 6 (c.toNat / 16 * 16 + (c.toNat + 1) % 16)

end Sys2Proof.Machine
end

