-- ==== Sys2Proof/Machine/Float.lean ====
section
/-! DEFINITION. The nine plain formats: floating-point values held exactly, rounding to nearest even, and conversion
(R38, R103, R113, R114). -/

namespace Sys2Proof.Machine

open Sys2Proof

/-- A floating-point format: exponent bits, fraction bits, and whether it is FP8-E4M3 (R38). -/
structure FloatFmt where
  eb : Nat
  fb : Nat
  e4m3 : Bool
  deriving DecidableEq, Repr

def FloatFmt.width (f : FloatFmt) : Nat := 1 + f.eb + f.fb

def FloatFmt.bias (f : FloatFmt) : Nat := 2 ^ (f.eb - 1) - 1

/-- A plain format by its code (R38). -/
inductive PlainFmt where
  | int (w : Nat)
  | float (f : FloatFmt)
  deriving DecidableEq, Repr

def fp32 : FloatFmt := ⟨8, 23, false⟩
def fp8e4m3 : FloatFmt := ⟨4, 3, true⟩
def fp8e5m2 : FloatFmt := ⟨5, 2, false⟩

def plainFmt? (code : Nat) : Option PlainFmt :=
  match code with
  | 0 => some (.int 4) | 1 => some (.int 8) | 2 => some (.int 16) | 3 => some (.int 32)
  | 4 => some (.float fp8e4m3) | 5 => some (.float fp8e5m2) | 6 => some (.float ⟨5, 10, false⟩)
  | 7 => some (.float ⟨8, 7, false⟩) | 8 => some (.float fp32)
  | _ => none

def PlainFmt.width : PlainFmt → Nat
  | .int w => w
  | .float f => f.width

/-- A floating-point value: NaN, an infinity, or (-1)^neg · m · 2^e exactly. -/
inductive FVal where
  | nan
  | inf (neg : Bool)
  | fin (neg : Bool) (m : Nat) (e : Int)
  deriving DecidableEq, Repr

/-- The value a bit pattern encodes (R38). -/
def FloatFmt.decode (f : FloatFmt) (x : Nat) : FVal :=
  let neg := bitOf x (f.eb + f.fb)
  let ex := bits x (f.eb + f.fb - 1) f.fb
  let fr := x % 2 ^ f.fb
  if f.e4m3 ∧ ex = 15 ∧ fr = 7 then .nan
  else if ¬f.e4m3 ∧ ex = 2 ^ f.eb - 1 then if fr = 0 then .inf neg else .nan
  else if ex = 0 then .fin neg fr (1 - (f.bias : Int) - f.fb)
  else .fin neg (2 ^ f.fb + fr) ((ex : Int) - f.bias - f.fb)

/-- The canonical NaN (R113). -/
def FloatFmt.nanBits (f : FloatFmt) : Nat :=
  if f.e4m3 then 0x7F else (2 ^ f.eb - 1) * 2 ^ f.fb + 2 ^ (f.fb - 1)

/-- The largest finite magnitude (R38). -/
def FloatFmt.maxBits (f : FloatFmt) : Nat :=
  if f.e4m3 then 0x7E else (2 ^ f.eb - 1) * 2 ^ f.fb - 1

/-- The infinity of a sign; ±448 in FP8-E4M3, which has none (R114). -/
def FloatFmt.infBits (f : FloatFmt) (neg : Bool) : Nat :=
  flag neg * 2 ^ (f.eb + f.fb) + (if f.e4m3 then f.maxBits else (2 ^ f.eb - 1) * 2 ^ f.fb)

/-- m · 2^sh rounded to an integer, to nearest even. -/
def roundShift (m : Nat) (sh : Int) : Nat :=
  if 0 ≤ sh then m * 2 ^ sh.toNat
  else
    let k := (-sh).toNat
    let q := m / 2 ^ k
    let r := m % 2 ^ k
    let h := 2 ^ (k - 1)
    if r > h ∨ (r = h ∧ q % 2 = 1) then q + 1 else q

/-- A finite value rounded to a format; `sat` saturates an overflow where arithmetic gives an infinity (R113, R114). -/
def FloatFmt.round (f : FloatFmt) (neg : Bool) (m : Nat) (e : Int) (sat : Bool) : Nat :=
  let s := flag neg * 2 ^ (f.eb + f.fb)
  if m = 0 then s
  else
    let qe := max ((Nat.log2 m : Int) + e) (1 - f.bias) - f.fb
    let n := roundShift m (e - qe)
    let r := if n = 2 ^ (f.fb + 1) then (2 ^ f.fb, qe + 1) else (n, qe)
    let x := if r.1 < 2 ^ f.fb then r.1 else (r.2 + f.fb + f.bias).toNat * 2 ^ f.fb + (r.1 - 2 ^ f.fb)
    if x ≤ f.maxBits then s + x
    else if sat ∨ f.e4m3 then s + f.maxBits else f.infBits neg

/-- Any value in a format. -/
def FloatFmt.encode (f : FloatFmt) (v : FVal) (sat : Bool) : Nat :=
  match v with
  | .nan => f.nanBits
  | .inf neg => f.infBits neg
  | .fin neg m e => f.round neg m e sat

/-- The integer numerator of a finite value over 2^e. -/
def alignTo (neg : Bool) (m : Nat) (e lo : Int) : Int :=
  let v : Int := m * 2 ^ (e - lo).toNat
  if neg then -v else v

/-- Exact sum; a zero sum of nonzero terms, or of zeros of unlike sign, is +0. -/
def FVal.add (a b : FVal) : FVal :=
  match a, b with
  | .nan, _ => .nan
  | _, .nan => .nan
  | .inf s, .inf t => if s = t then .inf s else .nan
  | .inf s, _ => .inf s
  | _, .inf t => .inf t
  | .fin s m e, .fin t n g =>
    let lo := min e g
    let v := alignTo s m e lo + alignTo t n g lo
    if v = 0 then .fin (m = 0 ∧ n = 0 ∧ s ∧ t) 0 lo else .fin (v < 0) v.natAbs lo

/-- Exact product. -/
def FVal.mul (a b : FVal) : FVal :=
  match a, b with
  | .nan, _ => .nan
  | _, .nan => .nan
  | .inf s, .inf t => .inf (s != t)
  | .inf s, .fin t n _ => if n = 0 then .nan else .inf (s != t)
  | .fin s m _, .inf t => if m = 0 then .nan else .inf (s != t)
  | .fin s m e, .fin t n g => .fin (s != t) (m * n) (e + g)

def FVal.neg : FVal → FVal
  | .nan => .nan
  | .inf s => .inf (!s)
  | .fin s m e => .fin (!s) m e

/-- a < b as numbers; false with a NaN, and -0 = +0. -/
def FVal.lt (a b : FVal) : Bool :=
  match a, b with
  | .nan, _ => false
  | _, .nan => false
  | .inf s, .inf t => s && !t
  | .inf s, .fin _ _ _ => s
  | .fin _ _ _, .inf t => !t
  | .fin s m e, .fin t n g =>
    let lo := min e g
    alignTo s m e lo < alignTo t n g lo

def FVal.eq (a b : FVal) : Bool :=
  match a, b with
  | .nan, _ => false
  | _, .nan => false
  | a, b => !(a.lt b) && !(b.lt a)

def FVal.isNeg : FVal → Bool
  | .nan => false
  | .inf s => s
  | .fin s _ _ => s

/-- Maximum and minimum of R103: a NaN operand gives NaN, and -0 < +0. -/
def FloatFmt.maxMin (f : FloatFmt) (wantMax : Bool) (x y : Nat) : Nat :=
  let a := f.decode x
  let b := f.decode y
  if a = .nan ∨ b = .nan then f.nanBits
  else
    let less := a.lt b || (a.eq b && a.isNeg && !b.isNeg)
    if less = wantMax then y else x

/-- A value converted to a plain format after multiplication by 2^shift (R114). -/
def PlainFmt.ofVal (t : PlainFmt) (v : FVal) (shift : Int) : Nat :=
  match t, v with
  | .float f, .fin s m e => f.round s m (e + shift) true
  | .float f, v => f.encode v true
  | .int _, .nan => 0
  | .int w, .inf neg => if neg then 2 ^ (w - 1) else 2 ^ (w - 1) - 1
  | .int w, .fin s m e =>
    let n : Int := roundShift m (e + shift)
    let v := if s then -n else n
    unsigned w (max (-(2 ^ (w - 1) : Nat)) (min v (2 ^ (w - 1) - 1 : Nat)))

/-- The value of an element of a plain format. -/
def PlainFmt.val (f : PlainFmt) (x : Nat) : FVal :=
  match f with
  | .float g => g.decode x
  | .int w => let v := signed w x; .fin (v < 0) v.natAbs 0

/-- Conversion between plain formats (R114). -/
def convertPlain (src dst : PlainFmt) (shift : Int) (x : Nat) : Nat := dst.ofVal (src.val x) shift

/-- Arithmetic of R113 on two elements. -/
def PlainFmt.addP (f : PlainFmt) (x y : Nat) : Nat :=
  match f with
  | .int w => (x + y) % 2 ^ w
  | .float g => g.encode ((g.decode x).add (g.decode y)) false

def PlainFmt.subP (f : PlainFmt) (x y : Nat) : Nat :=
  match f with
  | .int w => unsigned w ((x : Int) - y)
  | .float g => g.encode ((g.decode x).add (g.decode y).neg) false

def PlainFmt.mulP (f : PlainFmt) (x y : Nat) : Nat :=
  match f with
  | .int w => x * y % 2 ^ w
  | .float g => g.encode ((g.decode x).mul (g.decode y)) false

def PlainFmt.fmaP (f : PlainFmt) (x y z : Nat) : Nat :=
  match f with
  | .int w => (x * y + z) % 2 ^ w
  | .float g => g.encode (((g.decode x).mul (g.decode y)).add (g.decode z)) false

def PlainFmt.maxMinP (f : PlainFmt) (wantMax : Bool) (x y : Nat) : Nat :=
  match f with
  | .int w => if (signed w x < signed w y) = wantMax then y else x
  | .float g => g.maxMin wantMax x y

/-- The conditions of CMP: equal, not equal, less, less or equal (R136). -/
def PlainFmt.cmpP (f : PlainFmt) (cond x y : Nat) : Bool :=
  let r : Bool × Bool := match f with
    | .int w => (x = y, signed w x < signed w y)
    | .float g => ((g.decode x).eq (g.decode y), (g.decode x).lt (g.decode y))
  match cond with
  | 0 => r.1 | 1 => !r.1 | 2 => r.2 | _ => r.1 || r.2

end Sys2Proof.Machine
end

