-- ==== Sys2Proof/Machine/Arith.lean ====
section
/-! DEFINITION. Moduli, prime sequences, torus elements and the transforms of the NTE as arithmetic (R41, R108, R115 to
R119, R138, R139, R168, R206). -/

namespace Sys2Proof.Machine

open Sys2Proof

/-! ## Moduli (R108) -/

/-- The prime of a policy entry at a prime index; none above 57 or where the field is zero. -/
def PolicyEntry.prime? (p : PolicyEntry) (i : Nat) : Option Nat :=
  let q := if i ≤ 55 then p.primes.getD i 0 else if i = 56 then p.torusPa else if i = 57 then p.torusPb else 0
  if q = 0 then none else some q

/-- The entry of a set that the coach's modulus table holds (R108). -/
def State.tableEntry? (s : State) (co : Coach) (set : BitVec 8) : Option PolicyEntry :=
  if co.modTable.contains set then s.entry? set else none

/-- The modulus an instruction names: none gives an undefined result. -/
def State.modulus? (s : State) (co : Coach) (set : BitVec 8) (i : Nat) : Option Nat :=
  (s.tableEntry? co set).bind fun p => p.prime? i

/-- The prime index of limb `j` under PSEQ (R206); none where the sequence runs out or PSEQ is reserved. -/
def PolicyEntry.seqPrime (p : PolicyEntry) (pseq prime j : Nat) : Option Nat :=
  match pseq with
  | 0 => some prime
  | 1 =>
    let order := List.range p.limbs ++ (List.range p.special).map fun i => 48 + i
    match findAt (fun i => decide (i = prime)) order 0 with
    | some (k, _) => order[k + j]?
    | none => none
  | 2 => if prime = 56 ∨ prime = 57 then some (56 + (prime - 56 + j) % 2) else none
  | _ => none

/-! ## Torus elements (R41) -/

/-- The element t below pa · pb with the two residues given. -/
def crt (pa pb a b : Nat) : Nat :=
  let a := a % pa
  a + pa * (subMod b a pb * invMod pa pb % pb)

/-- The centred representative of v modulo q (R115, R127). -/
def centred (v q : Nat) : Int := if v ≤ (q - 1) / 2 then v else (v : Int) - q

/-- An integer modulo q. -/
def intMod (x : Int) (q : Nat) : Nat := (x % (q : Int)).toNat

/-- log₂ N of a 4-bit field whose range reaches 16: 0 stands for 16 (R212, R223; log entry 20). -/
def logField (w : BitVec 4) : Nat := if w = 0 then 16 else w.toNat

/-- ⌊t · m / Q + 1/2⌋ exactly. -/
def roundScale (t m bigQ : Nat) : Nat := (2 * t * m + bigQ) / (2 * bigQ)

/-- The balanced digits of R138, digit 1 first: found from the lowest upward, with a carry where one is B/2 or more. -/
def digits (beta l t : Nat) : List Int :=
  ((List.range l).foldl (fun (a : List Int × Nat) i =>
    let d := t / 2 ^ (beta * i) % 2 ^ beta + a.2
    if 2 ^ (beta - 1) ≤ d then (((d : Int) - 2 ^ beta) :: a.1, 1) else ((d : Int) :: a.1, 0)) ([], 0)).1

/-- The digits of a torus element (R138). -/
def gadget (beta l bigQ t : Nat) : List Int := digits beta l (roundScale t (2 ^ (beta * l)) bigQ % 2 ^ (beta * l))

/-! ## Transforms (R116 to R119) -/

/-- The smallest positive integer that is a primitive 2N-th root of unity modulo q: its N-th power is -1 (R116). -/
def findRoot (n q : Nat) : Nat → Nat → Nat
  | 0, _ => 0
  | fuel + 1, g => if powMod g n q = q - 1 then g else findRoot n q fuel (g + 1)

def psiOf (n q : Nat) : Nat := findRoot n q q 1

/-- Σ a_i x^i mod q. -/
def evalPoly (a : List Nat) (x q : Nat) : Nat := a.foldr (fun c acc => (acc * x + c) % q) 0

/-- The negacyclic evaluations X[k] of a limb (R116). -/
def nttForward (a : List Nat) (psi q : Nat) : List Nat :=
  (List.range a.length).map fun k => evalPoly a (powMod psi (2 * k + 1) q) q

/-- The coefficients from the evaluations, with the factor 1/N. -/
def nttInverse (x : List Nat) (psi q : Nat) : List Nat :=
  let n := x.length
  let inv := invMod psi q
  (List.range n).map fun i =>
    evalPoly x (powMod inv (2 * i) q) q * powMod inv i q % q * invMod n q % q

/-- Places in bit-reversed order: element k of the result is element bitrev(k). -/
def permuteRev (l : List Nat) (w : Nat) : List Nat := (List.range l.length).map fun k => l.getD (bitrev w k) 0

/-- The cyclic transform Σ a_t root^{tk}, k in bit-reversed order. -/
def cyclicRev (a : List Nat) (root q w : Nat) : List Nat :=
  (List.range a.length).map fun c => evalPoly a (powMod root (bitrev w c) q) q

/-- Its inverse without the factor: input in bit-reversed order, output natural. -/
def cyclicBack (x : List Nat) (root q w : Nat) : List Nat :=
  let y := permuteRev x w
  (List.range x.length).map fun t => evalPoly y (powMod (invMod root q) t q) q

/-- The limb held by carriages, as residues modulo q (R40, R43). -/
def limbOf (cs : List Carriage) (q : Nat) : List Nat :=
  cs.flatMap fun v => (List.range 64).map fun s => (slotOf v s).toNat % q

/-- Carriages from a limb. -/
def toCarriages (l : List Nat) : List Carriage :=
  (List.range (ceilDiv l.length 64)).map fun t => ofSlots fun s => l.getD (64 * t + s) 0

end Sys2Proof.Machine
end

