-- ==== Sys2Proof/Machine/DbuOps.lean ====
section
/-! DEFINITION. What the decompose and base-conversion unit computes: DECG, DECK, PRESC, BEXT, BDROP, MSWB, EXTR, RAISE, LOWER
(R112, R137 to R139, R168, R221, R222, R434). -/

namespace Sys2Proof.Machine

open Sys2Proof

/-- λ of R137 and R168. -/
def DbuOp.lambda : DbuOp → Nat
  | .decg | .deck => 14
  | .presc => 8
  | .bext => 12
  | .bdrop => 10
  | .mswb => 12
  | .extr => 6
  | .raise | .lower => 12

/-- The unnamed fields of an opcode are zero and the named ones in range (R222). -/
def DbuOp.fieldsOk (op : DbuOp) (f : DbuF) (p : PolicyEntry) : Bool :=
  match op with
  | .decg | .deck => f.pa = 0 && f.pb = 0 && f.pc.toNat ≤ 1
  | .presc => f.aux = 0
  | .bext => f.aux.toNat < 64
  | .bdrop => true
  | .mswb => f.pa = 0 && f.pb = 0 && f.pc = 0 && f.aux = 0
  | .extr => f.pa = 0 && f.pb = 0 && f.pc = 0 && f.aux.toNat < 2 ^ p.glweLogN
  | .raise | .lower => f.pb = 0 && f.pc = 0 && f.aux = 0

/-- N_g of a set (R65). -/
def PolicyEntry.ng (p : PolicyEntry) : Nat := 2 ^ p.glweLogN

/-- The occupancy (R222): none where it depends on a set the coach does not hold. -/
def DbuOp.occupancy (op : DbuOp) (f : DbuF) (p : Option PolicyEntry) : Option Nat :=
  let u := f.count.toNat + 1
  match op with
  | .decg | .deck | .mswb | .raise => some (u + 8)
  | .presc | .bdrop => some (2 * u + 8)
  | .bext => some (2 * f.pc.toNat * (f.aux.toNat % 64 + 1) * u + 8)
  | .extr => p.map fun p => u * ceilDiv (p.glweK * p.ng + 1) 32 + 8
  | .lower => p.map fun p => u * max (ceilDiv (p.lweN + 1) 16) (2 * p.ringSize / 64) + 8

/-! ## Reading and writing by slot -/

/-- A value for a slot of a carriage of a run; none is undefined. -/
structure SlotVal where
  off : Nat
  slot : Nat
  val : Option Nat

/-- Writes slots, each carriage once, and no slot that has no value (R74). -/
def Ex.putSlots (x : Ex) (r : Run) (vs : List SlotVal) : Ex :=
  ((vs.map (·.off)).eraseDups).foldl (fun (x : Ex) (off : Nat) =>
    let mine := vs.filter fun v => decide (v.off = off)
    let q := x.free
    q.2.write (r.place (Int.ofNat off)) r.named (fun s => mine.any fun v => decide (v.slot = s))
      (ofSlots fun s => match mine.find? fun v => v.slot = s with
        | some { val := some n, .. } => n
        | _ => (slotOf q.1 s).toNat)) x

/-- Carriages read once each, found by offset. -/
def Ex.getSlots (x : Ex) (r : Run) (offs : List Nat) (drain : Bool) : (Nat → Nat → Nat) × Ex :=
  let o := offs.eraseDups
  let q := x.readAll r (o.map Int.ofNat) drain
  let l := o.zip q.1
  ((fun off s => match l.find? fun e => e.1 = off with
    | some e => (slotOf e.2 s).toNat
    | none => 0), q.2)

/-- The residue pair of T64 element `e` of a run laid out as R45. -/
def torusAt (g : Nat → Nat → Nat) (e : Nat) : Nat × Nat :=
  (g (e / 32) (2 * (e % 32)) % 2 ^ 32, g (e / 32) (2 * (e % 32) + 1) % 2 ^ 32)

/-- Where coefficient `i` of limb `m` of polynomial `q` of a GLWE layout lies (R46). -/
def glweAt (ng q m i : Nat) : Nat × Nat := ((q * 2 + m) * ng / 64 + i / 64, i % 64)

/-- Two slots of T64 element `e` at an offset. -/
def torusVals (base e : Nat) (v : Option (Nat × Nat)) : List SlotVal :=
  [⟨base + e / 32, 2 * (e % 32), v.map (·.1)⟩, ⟨base + e / 32, 2 * (e % 32) + 1, v.map (·.2)⟩]

/-- The two residues of coefficient `i` of polynomial `q` in GLWE layout. -/
def glweVals (base ng q i : Nat) (v : Option (Nat × Nat)) : List SlotVal :=
  [⟨base + (glweAt ng q 0 i).1, (glweAt ng q 0 i).2, v.map (·.1)⟩, ⟨base + (glweAt ng q 1 i).1, (glweAt ng q 1 i).2, v.map (·.2)⟩]

/-- A value of a torus element, none where the instruction is undefined. -/
def definedIf (bad : Bool) {α : Type} (v : α) : Option α := if bad then none else some v

/-! ## The operations (R434) -/

/-- A set of primes in layout order: `n` of them from `first` (R206, R222). -/
def PolicyEntry.primeSet (p : PolicyEntry) (first n : Nat) : Option (List (Nat × Nat)) :=
  (List.range n).foldr (fun j acc => match acc, (p.seqPrime 1 first j) with
    | some l, some i => (p.prime? i).map fun q => (i, q) :: l
    | _, _ => none) (some [])

def product (l : List Nat) : Nat := l.foldl (· * ·) 1

/-- Q_D / q_j as the product of the other primes of the set (R137). -/
def othersOf (l : List (Nat × Nat)) (i : Nat) : Nat := product ((l.filter fun e => decide (e.1 ≠ i)).map (·.2))

/-- What an operation reads and writes: the data, the values written, and the execution after the reads. -/
abbrev DbuData := List SlotVal × Ex

/-- DECG and DECK: digits of `l` levels of base 2^beta. -/
def dbuDecompose (f : DbuF) (p : PolicyEntry) (beta l : Nat) (src : Run) (bad : Bool) (x : Ex) : DbuData :=
  let n := 16 * (f.count.toNat + 1)
  let aux := f.aux.toNat
  let dig (t : Nat × Nat) : List Int := gadget beta l (p.torusPa * p.torusPb) (crt p.torusPa p.torusPb t.1 t.2)
  let val (t : Nat × Nat) (r : Nat) : Option (Nat × Nat) :=
    definedIf bad (let d := (dig t).getD r 0; (intMod d p.torusPa, intMod d p.torusPb))
  if f.pc.toNat % 2 = 0 then
    let g := x.getSlots src ((List.range n).map (· / 32)) f.drain
    ((List.range n).flatMap fun e => (List.range l).flatMap fun r => torusVals (r * aux) e (val (torusAt g.1 e) r), g.2)
  else
    let ng := p.ng
    let offs := (List.range n).flatMap fun e => [(glweAt ng (e / ng) 0 (e % ng)).1, (glweAt ng (e / ng) 1 (e % ng)).1]
    let g := x.getSlots src offs f.drain
    let elem (e : Nat) : Nat × Nat :=
      let a := glweAt ng (e / ng) 0 (e % ng)
      let b := glweAt ng (e / ng) 1 (e % ng)
      (g.1 a.1 a.2, g.1 b.1 b.2)
    ((List.range n).flatMap fun e => (List.range l).flatMap fun r =>
      glweVals ((e / ng * l + r) * aux) ng 0 (e % ng) (val (elem e) r), g.2)

/-- Carriage for carriage: value of each slot from one or two sources. -/
def dbuSlots (u : Nat) (h : Nat → Nat → Option Nat) : List SlotVal :=
  (List.range u).flatMap fun t => (List.range 64).map fun s => ⟨t, s, h t s⟩

/-- PRESC. -/
def dbuPresc (f : DbuF) (p : PolicyEntry) (src : Run) (bad : Bool) (x : Ex) : DbuData :=
  let u := f.count.toNat + 1
  let g := x.getSlots src (List.range u) f.drain
  let k : Option (Nat × Nat) := match p.primeSet f.pb.toNat f.pc.toNat, p.prime? f.pa.toNat with
    | some l, some q => if l.any fun e => e.1 = f.pa.toNat then some (invMod (othersOf l f.pa.toNat % q) q, q) else none
    | _, _ => none
  (dbuSlots u fun t s => if bad then none else k.map fun k => g.1 t s % k.2 * k.1 % k.2, g.2)

/-- BEXT: pre-scale and sum over the source limbs, without correction. -/
def dbuBext (f : DbuF) (p : PolicyEntry) (src : Run) (bad : Bool) (x : Ex) : DbuData :=
  let u := f.count.toNat + 1
  let n64 := p.ringSize / 64
  let t := f.aux.toNat % 64
  let ss := p.primeSet f.pa.toNat f.pc.toNat
  let ts := p.primeSet f.pb.toNat t
  let g := x.getSlots src ((List.range f.pc.toNat).flatMap fun j => (List.range u).map fun i => j * n64 + i) f.drain
  ((List.range t).flatMap fun j => (dbuSlots u fun i s =>
      match ss, ts with
      | some ss, some ts =>
        let pj := (ts.getD j (0, 1)).2
        definedIf bad (ss.zipIdx.foldl (fun acc e =>
          let q := e.1.2
          let others := othersOf ss e.1.1
          (acc + g.1 (e.2 * n64 + i) s % q * invMod (others % q) q % q * (others % pj)) % pj) 0)
      | _, _ => none).map fun v => { v with off := v.off + j * n64 }, g.2)

/-- BDROP: (x_j - y_j) / P modulo q_j. -/
def dbuBdrop (f : DbuF) (p : PolicyEntry) (src aux : Run) (bad : Bool) (x : Ex) : DbuData :=
  let u := f.count.toNat + 1
  let a := x.getSlots src (List.range u) f.drain
  let b := a.2.getSlots aux (List.range u) false
  let k : Option (Nat × Nat) := match p.primeSet f.pb.toNat f.pc.toNat, p.prime? f.pa.toNat with
    | some l, some q => some (invMod (product (l.map (·.2)) % q) q, q)
    | _, _ => none
  (dbuSlots u fun t s => if bad then none else k.map fun k => subMod (a.1 t s) (b.1 t s) k.2 * k.1 % k.2, b.2)

/-- MSWB (R139). -/
def dbuMswb (f : DbuF) (p : PolicyEntry) (src : Run) (bad : Bool) (x : Ex) : DbuData :=
  let n := 16 * (f.count.toNat + 1)
  let g := x.getSlots src ((List.range n).map (· / 32)) f.drain
  ((List.range n).map fun e =>
    let t := torusAt g.1 e
    ⟨e / 64, e % 64, definedIf bad (roundScale (crt p.torusPa p.torusPb t.1 t.2) (2 * p.ng) (p.torusPa * p.torusPb) % (2 * p.ng))⟩,
    g.2)

/-- EXTR: coefficient h of each GLWE ciphertext as an LWE ciphertext; a_j is coefficient h - j of the mask, negated where
it wraps (log entry 24). -/
def dbuExtr (f : DbuF) (p : PolicyEntry) (src : Run) (bad : Bool) (x : Ex) : DbuData :=
  let u := f.count.toNat + 1
  let ng := p.ng
  let k := p.glweK
  let h := f.aux.toNat
  let size := 2 * (k + 1) * ng / 64
  let out := ceilDiv (k * ng + 1) 32
  let g := x.getSlots src ((List.range u).flatMap fun i => (List.range size).map fun o => i * size + o) f.drain
  let coef (i q j : Nat) : Nat × Nat :=
    let a := glweAt ng q 0 j
    let b := glweAt ng q 1 j
    (g.1 (i * size + a.1) a.2, g.1 (i * size + b.1) b.2)
  let neg (v : Nat × Nat) : Nat × Nat := (subMod 0 v.1 p.torusPa, subMod 0 v.2 p.torusPb)
  let can (v : Nat × Nat) : Nat × Nat := (v.1 % p.torusPa, v.2 % p.torusPb)
  ((List.range u).flatMap fun i =>
    ((List.range (32 * out)).flatMap fun e =>
      let v : Nat × Nat :=
        if e < k * ng then
          let j := e % ng
          if j ≤ h then can (coef i (e / ng) (h - j)) else neg (coef i (e / ng) (ng + h - j))
        else if e = k * ng then can (coef i k h) else (0, 0)
      torusVals (i * out) e (definedIf bad v)), g.2)

/-- RAISE (R168). -/
def dbuRaise (f : DbuF) (p : PolicyEntry) (src : Run) (bad : Bool) (x : Ex) : DbuData :=
  let n := 16 * (f.count.toNat + 1)
  let bigQ := p.torusPa * p.torusPb
  let g := x.getSlots src ((List.range n).map (· / 64)) f.drain
  ((List.range n).flatMap fun e =>
    let v : Option (Nat × Nat) := if bad then none else (p.prime? f.pa.toNat).map fun q0 =>
      let t : Int := (2 * centred (g.1 (e / 64) (e % 64) % q0) q0 * bigQ + q0) / (2 * q0)
      (intMod t p.torusPa, intMod t p.torusPb)
    glweVals 0 p.ng (e / p.ng) (e % p.ng) v, g.2)

/-- LOWER (R168). -/
def dbuLower (f : DbuF) (p : PolicyEntry) (src : Run) (bad : Bool) (x : Ex) : DbuData :=
  let u := f.count.toNat + 1
  let n := p.lweN
  let size := ceilDiv (n + 1) 32
  let bigN := p.ringSize
  let g := x.getSlots src ((List.range u).flatMap fun i => (List.range size).map fun o => i * size + o) f.drain
  ((List.range u).flatMap fun i =>
    let val (e : Nat) : Option Nat := if bad then none else (p.prime? f.pa.toNat).map fun q0 =>
      let t := torusAt (fun o s => g.1 (i * size + o) s) e
      roundScale (crt p.torusPa p.torusPb t.1 t.2) q0 (p.torusPa * p.torusPb) % q0 * invMod (bigN % q0) q0 % q0
    let q0 := (p.prime? f.pa.toNat).getD 1
    let base := i * (2 * bigN / 64)
    (List.range bigN).flatMap fun j =>
      let p0 : Option Nat := if j = 0 then val n else definedIf bad 0
      let p1 : Option Nat := if j = 0 then (val 0).map (subMod 0 · q0) else if bigN - j < n then val (bigN - j) else definedIf bad 0
      [⟨base + j / 64, j % 64, p0⟩, ⟨base + bigN / 64 + j / 64, j % 64, p1⟩], g.2)

/-- The data of an operation. -/
def DbuOp.data (op : DbuOp) (f : DbuF) (p : PolicyEntry) (src aux : Run) (bad : Bool) (x : Ex) : DbuData :=
  match op with
  | .decg => dbuDecompose f p p.gadgetLogB p.gadgetL src bad x
  | .deck => dbuDecompose f p p.ksLogB p.ksL src bad x
  | .presc => dbuPresc f p src bad x
  | .bext => dbuBext f p src bad x
  | .bdrop => dbuBdrop f p src aux bad x
  | .mswb => dbuMswb f p src bad x
  | .extr => dbuExtr f p src bad x
  | .raise => dbuRaise f p src bad x
  | .lower => dbuLower f p src bad x

/-- The parts of its set that an operation needs: without them the result is undefined (R108). -/
def DbuOp.partsOk (op : DbuOp) (p : PolicyEntry) : Bool :=
  match op with
  | .decg | .deck | .mswb | .extr => p.bitwise
  | .presc | .bext | .bdrop => p.packed
  | .raise | .lower => p.bitwise && p.packed

/-- The rows that an execution has read since it stood at `y`. -/
def Ex.readRows (x y : Ex) : List Nat := ((x.accs.drop y.accs.length).filter fun a => !a.write).map Acc.row

/-- What a DBU instruction does, `v` being the engine at its issue: the carriages it reads and writes must not overlap (R112, R434). A
set outside the modulus table leaves the result undefined, over a run of COUNT carriages at DST (R108; log entry 1). -/
def State.dbuRun (s : State) (op : DbuOp) (f : DbuF) (v : EngineS) (x : Ex) : Ex :=
  let co := x.co
  let src := co.run f.src.toNat (v.strideSum 0)
  let dst := co.run f.dst.toNat (v.strideSum 1)
  let aux := co.run f.aux.toNat (v.strideSum 2)
  match s.tableEntry? co f.pset with
  | none => x.undefAll dst (span 0 (f.count.toNat + 1))
  | some p =>
    let bad := !(op.fieldsOk f p) || !(op.partsOk p)
    let d := op.data f p src aux bad x
    let wrote := dst.rows ((d.1.map (·.off)).eraseDups.map Int.ofNat)
    let vals := if badOverlap (d.2.readRows x) wrote false then d.1.map fun v => { v with val := none } else d.1
    d.2.putSlots dst vals

/-- The command of an operation. -/
def DbuOp.command (op : DbuOp) (c : CoachId) (f : DbuF) : Instr :=
  match op with
  | .decg => .decg c f | .deck => .deck c f | .presc => .presc c f | .bext => .bext c f | .bdrop => .bdrop c f
  | .mswb => .mswb c f | .extr => .extr c f | .raise => .raise c f | .lower => .lower c f

end Sys2Proof.Machine
end

