-- ==== Sys2Proof/Machine/KsaOps.lean ====
section
/-! DEFINITION. What the key-switch array computes: KMM, KEW and KTAB (R122 to R132, R143, R213 to R215). -/

namespace Sys2Proof.Machine

open Sys2Proof

/-! ## Settings (R214) -/

structure KsaCfg where
  w0 : Nat
  accRow : Nat
  terms : Nat
  pairSel : Nat
  chain : Nat
  modStep : Nat
  modBase : Nat
  plain : Bool
  pset : BitVec 8
  bT : Nat
  aTiles : Nat
  yS : Nat
  xS : Nat
  lS : Nat
  slot0 : Nat
  aLimb : Bool
  outLimb : Bool
  outFmt : Nat
  top : Nat
  dropPrime : Nat
  auxRow : Nat
  biasRow : Nat
  scaleRow : Nat
  act : Nat
  biasBc : Bool
  scaleBc : Bool
  en : Nat
  reservedOk : Bool

def EngineS.ksaCfg (v : EngineS) : KsaCfg :=
  let w0 := v.word 0
  let w1 := v.word 1
  let w2 := v.word 2
  { w0 := w0, accRow := bits w0 73 65, terms := bits w0 64 52, pairSel := bits w0 51 50, chain := bits w0 49 48,
    modStep := bits w0 47 47, modBase := bits w0 46 41, plain := bitOf w0 40, pset := BitVec.ofNat 8 (bits w0 39 32),
    bT := bits w1 113 98, aTiles := bits w1 97 88 + 1, yS := bits w1 87 72, xS := bits w1 71 56, lS := bits w1 55 40,
    slot0 := bits w1 39 38, aLimb := bitOf w1 37, outLimb := bitOf w1 36, outFmt := bits w1 35 32,
    top := bits w2 99 94, dropPrime := bits w2 93 88, auxRow := bits w2 87 72, biasRow := bits w2 71 56,
    scaleRow := bits w2 55 40, act := bits w2 39 38, biasBc := bitOf w2 37, scaleBc := bitOf w2 36, en := bits w2 35 32,
    reservedOk := bits w0 127 74 = 0 && bits w1 127 114 = 0 && bits w2 127 100 = 0 }

/-- Term groups: four terms to one in plain mode (R215). -/
def KsaCfg.groups (g : KsaCfg) : Nat := if g.plain then ceilDiv g.terms 4 else g.terms

def KsaCfg.enabled (g : KsaCfg) (k : Nat) : Bool := bitOf g.en k

/-- The tile is passed on along the chain rather than out (R132). -/
def KsaCfg.passesOn (g : KsaCfg) : Bool := g.chain = 1 || g.chain = 2

/-- Tiles go through the fused stage. -/
def KsaCfg.exits (g : KsaCfg) (f : KsaF) : Bool := f.exit && !g.passesOn

/-- Prime index of column `c` of B block `b` (R122, R215). -/
def KsaCfg.primeIdx (g : KsaCfg) (b c : Nat) : Nat := g.modBase + (16 * b + c) * g.modStep

/-- A column that the rescale or the modulus switch leaves unwritten (R126, R127). -/
def KsaCfg.excluded (g : KsaCfg) (b c : Nat) : Bool :=
  !g.plain && ((g.enabled 3 && g.top ≤ g.primeIdx b c) || (g.enabled 2 && g.primeIdx b c = g.dropPrime))

/-- Enabled multiplying steps X (R133, R215). -/
def KsaCfg.mulSteps (g : KsaCfg) (f : KsaF) : Nat :=
  if !g.exits f then 0 else if g.plain then flag (g.enabled 0) else flag (g.enabled 0) + flag (g.enabled 2)

/-- A B operand at half rate (R78, R215). -/
def KsaCfg.halfRate (g : KsaCfg) (blocks : Nat) : Bool :=
  g.pairSel ≠ 0 && (g.yS % 32 ≠ 0 || (1 < blocks && g.bT % 32 ≠ 0))

/-- Write clk of tile t (R133). -/
def KsaCfg.writeClk (g : KsaCfg) (f : KsaF) (b : Nat) : Nat :=
  if !g.exits f then 0
  else if g.outLimb then ceilDiv ((List.range 16).filter fun c => !g.excluded b c).length 4 else 1

/-! ## Timing (R133) -/

/-- Clk of each tile of KMM: max(K + X, W_t), with K doubled at half rate. -/
def KsaCfg.tileClks (g : KsaCfg) (f : KsaF) : List Nat :=
  let t := f.t.toNat + 1
  let k := g.groups * (if g.halfRate (t / g.aTiles) then 2 else 1)
  (List.range t).map fun i => max (k + g.mulSteps f) (g.writeClk f (i / g.aTiles))

def sumNat (l : List Nat) : Nat := l.foldl (· + ·) 0

def KsaCfg.kmmO (g : KsaCfg) (f : KsaF) : Nat := 8 + sumNat (g.tileClks f)

def KsaCfg.kmmL (g : KsaCfg) (f : KsaF) : Nat := g.kmmO f + g.writeClk f (f.t.toNat / g.aTiles) + 4

def KsaCfg.kewO (g : KsaCfg) (f : KsaF) : Nat := 8 + (f.t.toNat + 1) * max (g.groups + g.mulSteps f) 1

/-! ## Partial sums (R124, R125) -/

/-- The operand formats of plain mode (log entry 5): none is INT8. -/
def KsaCfg.fp8 (g : KsaCfg) : Option (FloatFmt × FloatFmt) :=
  match Config.plainOperands g.w0 % 5 with
  | 0 => none
  | 1 => some (fp8e4m3, fp8e4m3)
  | 2 => some (fp8e4m3, fp8e5m2)
  | 3 => some (fp8e5m2, fp8e4m3)
  | _ => some (fp8e5m2, fp8e5m2)

def KsaCfg.kind (g : KsaCfg) : AccKind := if !g.plain then .residue else if g.fp8.isSome then .float else .int

/-- The sum of a group of up to 16 FP8 products, each aligned to the largest product exponent with that product's leading
bit at bit 14 and truncated towards zero (R125). -/
def groupSum (ps : List FVal) : FVal :=
  let special := ps.foldl (fun (a : FVal) p => match p with
    | .fin _ _ _ => a
    | v => a.add v) (FVal.fin false 0 0)
  match special with
  | .fin _ _ _ =>
    let tops := ps.filterMap fun p => match p with
      | .fin _ m e => if m = 0 then none else some ((Nat.log2 m : Int) + e)
      | _ => none
    match tops with
    | [] => .fin false 0 0
    | t :: ts =>
      let lo := ts.foldl max t - 14
      let v : Int := ps.foldl (fun a p => match p with
        | .fin neg m e =>
          let k : Int := if lo ≤ e then (m * 2 ^ (e - lo).toNat : Nat) else (m / 2 ^ (lo - e).toNat : Nat)
          if neg then a - k else a + k
        | _ => a) 0
      .fin (v < 0) v.natAbs lo
  | v => v

/-- Lists of at most 16. -/
def groups16 : Nat → List FVal → List (List FVal)
  | 0, _ => []
  | n + 1, l => if l.isEmpty then [] else l.take 16 :: groups16 n (l.drop 16)

/-- The term count of a partial sum after `k` further terms: the reducer starts it anew after every 4,096th (R124). -/
def termCount (n k : Nat) : Nat := if k = 0 then n else (n + k - 1) % 4096 + 1

/-- A residue sum and its term count take a further term: the product enters partially reduced, and the reducer works before the term
that follows a 4,096th (R124, R132). A column under no prime sums nothing. -/
def residueTerm (q : Option Nat) (p : Int × Nat) (ab : Nat × Nat) : Int × Nat :=
  match q with
  | some q =>
    let start := if p.2 = 4096 then (p.1 % (q : Int), 0) else p
    (start.1 + (ab.1 * ab.2 % q : Nat), start.2 + 1)
  | none => p

/-- A cell's partial sum after the products of its terms, from a sum that holds `n` terms. A residue sum that goes on under another
prime is taken as the integer that it stands as (DESIGN CHOICE, log entry 108). -/
def KsaCfg.cell (g : KsaCfg) (q : Option Nat) (start : Int) (n : Nat) (terms : List (Nat × Nat)) : Int :=
  match g.plain, g.fp8 with
  | false, _ => (terms.foldl (residueTerm q) (start, n)).1
  | true, none =>
    let v := terms.foldl (fun a p => a + signed 8 p.1 * signed 8 p.2) start
    signed 32 (unsigned 32 v)
  | true, some (fa, fb) =>
    let ps := terms.map fun p => (fa.decode p.1).mul (fb.decode p.2)
    (groups16 (terms.length + 1) ps).foldl
      (fun (a : Int) grp => (fp32.encode ((fp32.decode a.toNat).add (groupSum grp)) false : Nat)) start

/-- The terms of a pair of slots: elements 0 to 3 in plain mode, as far as the terms reach (R215); of a T64 slot the low 32 bits (R41). -/
def KsaCfg.slotTerms (g : KsaCfg) (k : Nat) (x y : Slot) : List (Nat × Nat) :=
  if g.plain then
    (List.range (min 4 (g.terms - 4 * k))).map fun e => (elemOf 8 x e, elemOf 8 y e)
  else if g.pairSel = 0 then [(x.toNat, y.toNat)] else [(x.toNat, y.toNat % 2 ^ 32)]

/-! ## Operands (R215) -/

/-- Carriages read once each, found by offset. -/
structure Fetched where
  vals : List (Int × Carriage)

def Fetched.slot (f : Fetched) (off : Nat) (s : Nat) : Slot :=
  match f.vals.find? fun e => e.1 = (off : Int) with
  | some e => slotOf e.2 s
  | none => 0

def Ex.fetch (x : Ex) (r : Run) (offs : List Nat) (drain : Bool) : Fetched × Ex :=
  let o := (offs.eraseDups).map Int.ofNat
  let q := x.readAll r o drain
  ({ vals := o.zip q.1 }, q.2)

/-- Carriage and slot of A[r, k] of A block `a`. -/
def KsaCfg.aAt (g : KsaCfg) (a r k : Nat) : Nat × Nat :=
  if g.aLimb then (k * g.xS + a / 4, 16 * (a % 4) + r) else (a * ceilDiv g.groups 4 + k / 4, 16 * (k % 4) + r)

/-- Carriage and slot of B[k, c] of B block `b`. -/
def KsaCfg.bAt (g : KsaCfg) (b k c : Nat) : Nat × Nat :=
  if g.pairSel = 0 then (b * g.bT + k / 4 * g.yS, 16 * (k % 4) + c)
  else
    let e := k * g.yS + b * g.bT + c
    (e / 32, 2 * (e % 32) + (g.pairSel - 1))

/-- Carriage and slot of output (r, c) of tile (a, b), tile number t. -/
def KsaCfg.outAt (g : KsaCfg) (t a b r c : Nat) : Nat × Nat :=
  if g.outLimb then
    let v := g.slot0 + a
    ((16 * b + c) * g.lS + v / 4, 16 * (v % 4) + r)
  else (4 * t + (16 * r + c) / 64, (16 * r + c) % 64)

/-- The 256 cells of a tile in lane order 16 r + c. -/
def cells : List (Nat × Nat) := (List.range 256).map fun l => (l / 16, l % 16)

/-! ## The fused stage (R126 to R129) -/

/-- Entry `e` of the activation table as an element of the destination format (R129). -/
def tableElem (table : Carriage) (dst : PlainFmt) (x : Nat) : Nat :=
  let t := elemOf 8 (slotOf table (x / 4)) (x % 4)
  if dst.width = 8 then t
  else if dst.width = 4 then t % 16
  else convertPlain (.int 8) dst 0 t

/-- The destination format of plain mode: the narrowing format, else FP32, or INT32 left as it is (R128). -/
def KsaCfg.outPlain (g : KsaCfg) : Option PlainFmt :=
  if g.enabled 3 then plainFmt? g.outFmt
  else if g.kind = .int && !g.enabled 0 && !g.enabled 1 then some (.int 32)
  else some (.float fp32)

/-- The plain stage on an accumulator value; none is undefined. -/
def KsaCfg.fusePlain (g : KsaCfg) (table : Option Carriage) (acc : Int) (scale bias : Nat) : Option Nat :=
  let asInt := g.kind = .int && !g.enabled 0 && !g.enabled 1
  let src : PlainFmt := if asInt then .int 32 else .float fp32
  let v := if asInt then unsigned 32 acc
    else if g.kind = .int then convertPlain (.int 32) (.float fp32) 0 (unsigned 32 acc) else acc.toNat
  let v := if g.enabled 0 then (PlainFmt.float fp32).mulP v scale else v
  let v := if g.enabled 1 then (PlainFmt.float fp32).addP v bias else v
  match g.outPlain with
  | none => none
  | some dst =>
    if g.enabled 2 ∧ g.act = 2 then
      match table with
      | none => none
      | some t => some (tableElem t dst (convertPlain src (.int 8) 0 v))
    else if g.enabled 2 ∧ g.act = 3 then none
    else
      let v := if g.enabled 2 ∧ g.act = 1 then src.maxMinP true v 0 else v
      some (if dst = src then v else convertPlain src dst 0 v)

/-- The residue stage on a partial sum modulo q; none is undefined. -/
def KsaCfg.fuseResidue (g : KsaCfg) (q qd : Option Nat) (acc : Int) (scale bias y : Nat) : Option Nat :=
  match q with
  | none => none
  | some q =>
    let v := intMod acc q
    let v := if g.enabled 0 then v * (scale % q) % q else v
    let v := if g.enabled 1 then (v + bias) % q else v
    if !g.enabled 2 then some v
    else match qd with
      | none => none
      | some d => some (subMod v (intMod (centred (y % d) d) q) q * invMod (d % q) q % q)

/-! ## One tile out -/

/-- What every tile of an instruction shares. -/
structure KsaRun where
  g : KsaCfg
  f : KsaF
  entry : Option PolicyEntry
  dst : Run
  biasRun : Run
  auxRun : Run
  scale : Fetched
  bad : Bool

def KsaRun.prime (k : KsaRun) (b c : Nat) : Option Nat := k.entry.bind fun p => p.prime? (k.g.primeIdx b c)

/-- The columns whose terms an instruction does not sum: those that a modulus switch of its own fused stage excludes, and those that the
switch at a chain's end or a later instruction's will exclude and that are under no prime (R126, R131, R132, R215). -/
def KsaRun.skips (k : KsaRun) (b c : Nat) : Bool :=
  !k.g.plain && k.g.enabled 3 && decide (k.g.top ≤ k.g.primeIdx b c) && (k.g.exits k.f || (k.prime b c).isNone)

/-- The offsets of a tile's output carriages, less the columns left unwritten. -/
def KsaRun.outCarriages (k : KsaRun) (t a b : Nat) : List Nat :=
  (cells.filterMap fun rc => if k.g.excluded b rc.2 then none else some (k.g.outAt t a b rc.1 rc.2).1).eraseDups

/-- The results of a tile, cell by cell: none is undefined. -/
def KsaRun.results (k : KsaRun) (table : Option Carriage) (bias aux : Fetched) (t a b : Nat) (acc : List Int) :
    List (Option Nat) :=
  cells.map fun rc =>
    let c := rc.2
    let v := acc.getD (16 * rc.1 + c) 0
    let o := k.g.outAt t a b rc.1 c
    if k.bad then none
    else if k.g.plain then
      k.g.fusePlain table v (((k.scale.slot 0 (if k.g.scaleBc then 0 else c)).toNat) % 2 ^ 32)
        (((bias.slot 0 (if k.g.biasBc then 0 else c)).toNat) % 2 ^ 32)
    else
      k.g.fuseResidue (k.prime b c) (k.entry.bind fun p => p.prime? k.g.dropPrime) v
        (k.scale.slot 0 c).toNat (bias.slot o.1 o.2).toNat (aux.slot o.1 o.2).toNat

/-- A carriage of results: undefined cells take free slots. -/
def tileCarriage (f : Nat → Option Nat) (free : Carriage) : Carriage :=
  ofSlots fun s => match f s with
    | some v => v
    | none => (slotOf free s).toNat

/-- A tile leaves through the fused stage: pushed in clk `clk`, or written in its output form, a row-form tile in that clk and a
limb-form tile from then on, four columns a clk (R126 to R130, R133, R143, R161). A pushed tile holds what its excluded columns
would have taken (DESIGN CHOICE, log entry 97). -/
def KsaRun.tileOut (k : KsaRun) (x : Ex) (t a b clk : Nat) (acc : List Int) : Ex :=
  let outs := k.outCarriages t a b
  let bias := if k.g.enabled 1 then (if k.g.plain then x.fetch k.biasRun [0] false else x.fetch k.biasRun outs false)
    else (⟨[]⟩, x)
  let aux := if k.g.enabled 2 && !k.g.plain then bias.2.fetch k.auxRun outs false else (⟨[]⟩, bias.2)
  let x := aux.2
  let res := k.results (if x.clk < x.co.actDue then none else x.co.actTable) bias.1 aux.1 t a b acc
  let at' (off s : Nat) : Option (Option Nat) :=
    (cells.zip res).findSome? fun e =>
      if k.g.outAt t a b e.1.1 e.1.2 = (off, s) ∧ !k.g.excluded b e.1.2 then some e.2 else none
  if k.f.push then
    let q := x.free
    q.2.pushTile 1 clk ((List.range 4).map fun i => tileCarriage (fun s => res.getD (64 * i + s) none) q.1)
  else
    let y := outs.zipIdx.foldl (fun (x : Ex) (off : Nat × Nat) =>
      let q := x.free
      { q.2 with pace := some (if k.g.outLimb then clk + off.2 / 4 else clk, 0) }.write
        (k.dst.place (Int.ofNat off.1)) k.dst.named (fun s => (at' off.1 s).isSome)
        (tileCarriage (fun s => (at' off.1 s).getD none) q.1)) x
    { y with pace := none }

/-- The 16 accumulator entries of a tile (R131). -/
def accEntry (g : KsaCfg) (t r : Nat) : Nat := (g.accRow + 16 * t + r) % 512

def accDefault : AccRow := { kind := .undefined, sums := [], terms := 0 }

/-- The partial sums of a tile and the term count of each of its rows, where every entry holds sums of the kind in use. -/
def Coach.accTile (co : Coach) (g : KsaCfg) (t : Nat) : Option (List Int × List Nat) :=
  let rows := (List.range 16).map fun r => look accDefault co.accMem (accEntry g t r)
  if rows.all fun r => r.kind = g.kind then some (rows.flatMap (·.sums), rows.map (·.terms)) else none

/-- A tile's partial sums go to its accumulator entries. -/
def Ex.setAccTile (x : Ex) (g : KsaCfg) (t : Nat) (acc : List Int) (terms : List Nat) (undef : Bool) : Ex :=
  (List.range 16).foldl (fun (x : Ex) r =>
    let row : AccRow :=
      { kind := if undef then .undefined else g.kind, sums := (acc.drop (16 * r)).take 16, terms := terms.getD r 0 }
    let e := accEntry g t r
    { x with
      co := { x.co with accMem := store accDefault x.co.accMem e row }
      made := if x.made.contains (2 ^ 17 + e) then x.made else x.made ++ [2 ^ 17 + e] }) x

/-- The tiles of a chain input buffer once a third has arrived by clk `t` while two waited: all that have arrived are undefined
(R132). -/
def overrun (t : Nat) (l : List ChainTile) : List ChainTile :=
  let here := l.takeWhile fun x => decide (x.arrived < t)
  if 2 < here.length then here.map (fun x => { x with kind := .undefined }) ++ l.drop here.length else l

/-- The tile that a member takes in clk `t` of a chain input buffer: it must have arrived before (R132). -/
def chainTake (t : Nat) (l : List ChainTile) : Option ChainTile × List ChainTile :=
  match overrun t l with
  | [] => (none, [])
  | h :: rest => (if t ≤ h.arrived then none else some h, rest)

/-- Takes the next tile of the chain input buffer in clk `t`, as far as it is known. -/
def Ex.takeChain (x : Ex) (t : Nat) : Option ChainTile × Ex :=
  let q := x.act t .take [] none
  let k := chainTake t x.co.chainIn
  let r := { q with co := { q.co with chainIn := k.2 } }.recall (.chain k.1)
  (match r.1 with
    | .chain h => h
    | _ => none, r.2)

/-- Where a tile starts from, with the term count of each row: zero, its accumulator entries, or the tile that arrived along the
chain (R131, R132). A member that takes its tiles from the chain ignores ACC_IN, and so does the first of a chain (DESIGN
CHOICE, log entry 98). -/
def Ex.tileStart (x : Ex) (g : KsaCfg) (f : KsaF) (t startClk : Nat) : Option (List Int × List Nat) × Ex :=
  let zero : List Int × List Nat := (List.replicate 256 0, List.replicate 16 0)
  if g.chain = 2 ∨ g.chain = 3 then
    let r := x.takeChain startClk
    (r.1.bind fun h => if h.kind = g.kind then some (h.sums, List.replicate 16 h.terms) else none, r.2)
  else if f.accIn ∧ g.chain = 0 then
    let r := x.recall (.sums (x.co.accTile g t))
    (match r.1 with
      | .sums l => l
      | _ => none, r.2)
  else (some zero, x)

/-- A finished tile goes on: along the chain, or out, or with EXIT clear to the accumulator memory, also on the last member of a
chain (DESIGN CHOICE, log entry 98). -/
def KsaRun.finish (k : KsaRun) (x : Ex) (t a b endClk : Nat) (undef : Bool) (acc : List Int) (terms : List Nat) : Ex :=
  let undef := undef || k.bad
  if k.g.passesOn then
    (x.act endClk .send [] (some { kind := if undef then .undefined else k.g.kind, sums := acc, terms := terms.getD 0 0, arrived := endClk + 19
                                   src := x.use })).skipOrd
  else if k.f.exit then { k with bad := undef }.tileOut x t a b (endClk + 4) acc
  else x.setAccTile k.g t acc terms undef

/-- One tile: where it starts from, its 256 sums of the terms that `terms` gives each cell, and where it goes. A column under no prime
leaves the tile undefined (R108). -/
def KsaRun.tile (k : KsaRun) (x : Ex) (t a b startClk endClk : Nat) (terms : Nat × Nat → List (Nat × Nat)) : Ex :=
  let st := x.tileStart k.g k.f t startClk
  let from_ := st.1.getD ([], [])
  let acc := cells.map fun rc =>
    k.g.cell (if k.skips b rc.2 then none else k.prime b rc.2) (from_.1.getD (16 * rc.1 + rc.2) 0) (from_.2.getD rc.1 0) (terms rc)
  let open_ := !k.g.plain && (List.range 16).any fun c => !(k.skips b c) && (k.prime b c).isNone
  k.finish st.2 t a b endClk (st.1.isNone || open_) acc (from_.2.map fun n => termCount n k.g.terms)

/-! ## The instructions -/

/-- Settings and fields that give a defined KMM or KEW. PAIR_SEL other than 0 in plain mode, of which the spec says nothing, gives
none (DESIGN CHOICE, log entry 110). -/
def KsaCfg.ok (g : KsaCfg) (f : KsaF) (kew : Bool) : Bool :=
  g.reservedOk && 1 ≤ g.terms && g.terms ≤ 4096 && f.cls ≠ 14 && g.pairSel ≠ 3 &&
    (kew || (f.t.toNat + 1) % g.aTiles = 0) && !(kew && (g.pairSel ≠ 0 || g.outLimb)) &&
    !(g.plain && g.pairSel ≠ 0) && !(f.push && (g.outLimb || !f.exit))

/-- The class that CLASS names (R213). -/
def ksaClass (f : KsaF) : Option Nat := if f.cls = 15 ∨ f.cls = 14 then none else some f.cls.toNat

/-- The rows of the fused stage's operands against those of the output (R112): the bias tile of a matrix product with row-form
output may lie at the destination (R161). -/
def KsaCfg.stageOverlap (g : KsaCfg) (co : Coach) (v : EngineS) (f : KsaF) (kew : Bool) (outs : List Int) (dst : List Nat) : Bool :=
  g.exits f &&
    ((g.enabled 0 && badOverlap ((co.run g.scaleRow 0).rows [0]) dst false) ||
     (g.enabled 1 && badOverlap ((co.run g.biasRow (v.strideSum 3)).rows (if g.plain then [0] else outs)) dst
       (!kew && !g.outLimb && !g.plain)) ||
     (g.enabled 2 && !g.plain && badOverlap ((co.run g.auxRow (v.strideSum 6)).rows outs) dst false))

/-- What the tiles of an instruction share, with the scale row read. -/
def ksaShared (s : State) (v : EngineS) (g : KsaCfg) (f : KsaF) (bad : Bool) (x : Ex) : KsaRun × Ex :=
  let co := x.co
  let sc := if g.enabled 0 && g.exits f then x.fetch (co.run g.scaleRow 0) [0] false else (⟨[]⟩, x)
  ({ g := g, f := f, entry := s.tableEntry? co g.pset, dst := co.run f.dst.toNat (v.strideSum 2),
     biasRun := co.run g.biasRow (v.strideSum 3), auxRun := co.run g.auxRow (v.strideSum 6), scale := sc.1, bad := bad },
   sc.2)

/-- KMM moves its data (R123, R215). -/
def kmmBody (s : State) (v : EngineS) (g : KsaCfg) (f : KsaF) (x : Ex) : Ex :=
  let co := x.co
  let tiles := f.t.toNat + 1
  let ar := co.run f.a.toNat (v.strideSum 0)
  let br := co.run f.b.toNat (v.strideSum 1)
  let ks := List.range g.groups
  let aBlocks := List.range (min g.aTiles tiles)
  let bBlocks := List.range (ceilDiv tiles g.aTiles)
  let a := x.fetch ar (aBlocks.flatMap fun a => ks.map fun k => (g.aAt a 0 k).1) f.drainA
  let b := a.2.fetch br (bBlocks.flatMap fun b => ks.flatMap fun k => [(g.bAt b k 0).1, (g.bAt b k 15).1]) f.drainB
  let outs := if !g.exits f || f.push then []
    else (List.range tiles).flatMap fun t => cells.map fun rc => (((g.outAt t (t % g.aTiles) (t / g.aTiles) rc.1 rc.2).1 : Nat) : Int)
  let outs := outs.eraseDups
  let srcRows := ar.rows (a.1.vals.map (·.1)) ++ br.rows (b.1.vals.map (·.1))
  let dstRows := (co.run f.dst.toNat (v.strideSum 2)).rows outs
  let bad := !g.ok f false || badOverlap srcRows dstRows false || g.stageOverlap co v f false outs dstRows
  let r := ksaShared s v g f bad b.2
  let clks := g.tileClks f
  (List.range tiles).foldl (fun x t =>
    let ta := t % g.aTiles
    let tb := t / g.aTiles
    r.1.tile x t ta tb (x.clk + 8 + sumNat (clks.take t)) (x.clk + 8 + sumNat (clks.take (t + 1))) fun rc =>
      ks.flatMap fun k =>
        g.slotTerms k (a.1.slot (g.aAt ta rc.1 k).1 (g.aAt ta rc.1 k).2) (b.1.slot (g.bAt tb k rc.2).1 (g.bAt tb k rc.2).2)) r.2

/-- KEW moves its data (R123, R215): lane l = 16 r + c of group g over D terms. -/
def kewBody (s : State) (v : EngineS) (g : KsaCfg) (f : KsaF) (x : Ex) : Ex :=
  let co := x.co
  let n := f.t.toNat + 1
  let g := { g with outLimb := false, aTiles := n }
  let ar := co.run f.a.toNat (v.strideSum 0)
  let br := co.run f.b.toNat (v.strideSum 1)
  let ds := List.range g.groups
  let places (str : Nat) := ds.flatMap fun d => (List.range (4 * n)).map fun i => d * str + i
  let a := x.fetch ar (places g.xS) f.drainA
  let b := a.2.fetch br (places g.yS) f.drainB
  let outs := if !g.exits f || f.push then [] else span 0 (4 * n)
  let srcRows := ar.rows (a.1.vals.map (·.1)) ++ br.rows (b.1.vals.map (·.1))
  let dstRows := (co.run f.dst.toNat (v.strideSum 2)).rows outs
  let bad := !g.ok f true || badOverlap srcRows dstRows false || g.stageOverlap co v f true outs dstRows
  let r := ksaShared s v g f bad b.2
  let per := max (g.groups + g.mulSteps f) 1
  (List.range n).foldl (fun x t =>
    r.1.tile x t t 0 (x.clk + 8 + t * per) (x.clk + 8 + (t + 1) * per) fun rc =>
      let l := 16 * rc.1 + rc.2
      ds.flatMap fun d =>
        g.slotTerms d (a.1.slot (d * g.xS + 4 * t + l / 64) (l % 64)) (b.1.slot (d * g.yS + 4 * t + l / 64) (l % 64))) r.2

/-- What a KMM or a KEW does, `v` being the engine at its issue. -/
def State.ksaRun (s : State) (kew : Bool) (f : KsaF) (v : EngineS) (x : Ex) : Ex :=
  if kew then kewBody s v v.ksaCfg f x else kmmBody s v v.ksaCfg f x

/-- KTAB loads the activation table, which an instruction may use from clk `due` on (R111, R129). -/
def ktabBody (src : BitVec 16) (x : Ex) : Ex :=
  let r := x.readAt (x.co.run src.toNat 0) 0 false
  { r.2 with co := { r.2.co with actTable := some r.1, actDue := x.due }, made := r.2.made ++ [2 ^ 18] }

end Sys2Proof.Machine
end

