-- ==== Sys2Proof/Machine/NteOps.lean ====
section
/-! DEFINITION. What the NTT engine computes: the six transforms, their twiddle tables, rows and tiles (R116 to R121, R143, R212). -/

namespace Sys2Proof.Machine

open Sys2Proof

def NteOp.direct : NteOp → Bool
  | .fwd | .inv => true
  | _ => false

def NteOp.column : NteOp → Bool
  | .fcol | .icol => true
  | _ => false

/-- The per-limb figure P (R120): log₂ N · N / 512 on the direct path, M (log₂ M + 4) / 8 for a column pass, 6 M / 8 for a
row pass, with M = N / 64. -/
def NteOp.perLimb (op : NteOp) (logN : Nat) : Nat :=
  let m := 2 ^ logN / 64
  if op.direct then logN * 2 ^ logN / 512 else if op.column then m * (logN - 6 + 4) / 8 else 6 * m / 8

/-- log₂ N of an instruction (R212). -/
def NteOp.logN (op : NteOp) (f : NteF) : Nat := if op.direct then f.logN.toNat else logField f.logN

/-- LOG_N within the range of the path (R117, R212). -/
def NteOp.logOk (op : NteOp) (logN : Nat) : Bool :=
  if op.direct then 9 ≤ logN && logN ≤ 12 else 13 ≤ logN && logN ≤ 16

/-- Carriages of a twiddle table (R119). -/
def NteOp.tableSize (op : NteOp) (logN : Nat) : Nat :=
  let m := 2 ^ logN / 64
  if op.direct then m else 2 * m + m / 128 + 1

/-- The carriages of the table that an instruction uses, by their place in it. -/
def NteOp.tableUsed (op : NteOp) (logN : Nat) : List Nat :=
  let m := 2 ^ logN / 64
  if op.direct then List.range m
  else if op.column then List.range (2 * m + m / 128)
  else [2 * m + m / 128]

/-- The contents R119 prescribes for slot `s` of carriage `t` of the table; none where it prescribes nothing. -/
def NteOp.tableEntry (op : NteOp) (logN : Nat) (psi q t s : Nat) : Option Nat :=
  let n := 2 ^ logN
  let m := n / 64
  let back := op = .inv ∨ op = .irow ∨ op = .icol
  let root := if back then invMod psi q else psi
  let omega := root * root % q
  if op.direct then some (powMod root (bitrev logN (64 * t + s)) q)
  else if t < m then some (powMod root (64 * t + s) q * (if back then invMod n q else 1) % q)
  else if t < 2 * m then some (powMod omega (s * bitrev (logN - 6) (t - m)) q)
  else if t < 2 * m + m / 128 then some (powMod (powMod omega 64 q) (64 * (t - 2 * m) + s) q)
  else if s < 32 then some (powMod (powMod omega m q) s q)
  else none

/-- Whether the table read holds the prescribed contents. -/
def NteOp.tableOk (op : NteOp) (logN psi q : Nat) (t : List (Nat × Carriage)) : Bool :=
  t.all fun e => (List.range 64).all fun s =>
    match op.tableEntry logN psi q e.1 s with
    | some v => decide ((slotOf e.2 s).toNat % q = v)
    | none => true

/-- Column `s` of a limb seen as M rows of 64 slots (R118). -/
def columnOf (a : List Nat) (m s : Nat) : List Nat := (List.range m).map fun t => a.getD (64 * t + s) 0

/-- A limb from its 64 columns. -/
def fromColumns (m : Nat) (cols : List (List Nat)) : List Nat :=
  (List.range m).flatMap fun t => (List.range 64).map fun s => (cols.getD s []).getD t 0

/-- The transform of one limb (R116 to R118), with psi the root of R116. -/
def NteOp.transform (op : NteOp) (logN psi q : Nat) (a : List Nat) : List Nat :=
  let n := 2 ^ logN
  let m := n / 64
  let w := logN - 6
  let omega := psi * psi % q
  match op with
  | .fwd => permuteRev (nttForward a psi q) logN
  | .inv => nttInverse (permuteRev a logN) psi q
  | .fcol =>
    fromColumns m ((List.range 64).map fun s =>
      let b := (columnOf a m s).zipIdx.map fun x => x.1 * powMod psi (64 * x.2 + s) q % q
      (cyclicRev b (powMod omega 64 q) q w).zipIdx.map fun x => x.1 * powMod omega (s * bitrev w x.2) q % q)
  | .icol =>
    fromColumns m ((List.range 64).map fun s =>
      let b := (columnOf a m s).zipIdx.map fun x => x.1 * powMod (invMod omega q) (s * bitrev w x.2) q % q
      (cyclicBack b (powMod omega 64 q) q w).zipIdx.map fun x =>
        x.1 * powMod (invMod psi q) (64 * x.2 + s) q % q * invMod n q % q)
  | .frow =>
    fromColumns m ((List.range 64).map fun s =>
      (List.range (m / 64)).flatMap fun b => cyclicRev (((columnOf a m s).drop (64 * b)).take 64) (powMod omega m q) q 6)
  | .irow =>
    fromColumns m ((List.range 64).map fun s =>
      (List.range (m / 64)).flatMap fun b => cyclicBack (((columnOf a m s).drop (64 * b)).take 64) (powMod omega m q) q 6)

/-- Groups of four successive carriages: the tiles of a pushed output (R121). -/
def tilesOf (cs : List Carriage) : List (List Carriage) :=
  (List.range (cs.length / 4)).map fun i => (cs.drop (4 * i)).take 4

/-- One limb: source, table, transform, destination rows or tiles. `prime` is none where the instruction names no valid
modulus: the result is then undefined (R108). -/
def NteOp.limb (op : NteOp) (f : NteF) (logN : Nat) (src dst tw : Run) (prime : Option Nat) (bad : Bool) (x : Ex) (j : Nat) :
    Ex :=
  let n64 := 2 ^ logN / 64
  let offs := span (j * n64) n64
  let a := x.readAll src offs f.drain
  let used := op.tableUsed logN
  let t := a.2.readAll tw (used.map fun (k : Nat) => Int.ofNat (j * op.tableSize logN + k)) false
  let x := t.2
  let good : Option (List Carriage) :=
    match prime with
    | some q =>
      let psi := psiOf (2 ^ logN) q
      if !bad && op.tableOk logN psi q (used.zip t.1) then some (toCarriages (op.transform logN psi q (limbOf a.1 q))) else none
    | none => none
  if f.push && !op.column then
    let r : List Carriage × Ex := match good with
      | some l => (l, x)
      | none => (offs.map (fun o => Config.freeCarriage x.use (x.place + o.toNat)), { x with place := x.place + n64 * 64 })
    (tilesOf r.1).foldl (fun x tile => x.pushTile 2 x.pushClk tile) r.2
  else
    match good with
    | some l => x.writeAll dst (offs.zip l)
    | none => x.undefAll dst offs

/-- What an NTE instruction does, `v` being the engine at its issue; a LOG_N outside the range of its path gives an undefined result: any
row that the NTE may write (R202; log entry 35). -/
def State.nteRun (s : State) (op : NteOp) (f : NteF) (v : EngineS) (x : Ex) : Ex :=
  let co := x.co
  let logN := op.logN f
  let count := f.count.toNat + 1
  let entry := s.tableEntry? co f.pset
  let src := co.run f.src.toNat (v.strideSum 0)
  let dst := co.run f.dst.toNat (v.strideSum 1)
  let tw := co.run f.tw.toNat (v.strideSum 2)
  let all := span 0 (count * (2 ^ logN / 64))
  let table : List Int := (List.range count).flatMap fun j =>
    (op.tableUsed logN).map fun (k : Nat) => Int.ofNat (j * op.tableSize logN + k)
  let bad := (f.push && op.column) ||
    (!f.push && (badOverlap (src.rows all) (dst.rows all) true || badOverlap (tw.rows table) (dst.rows all) false))
  if !(op.logOk logN) then x.undefMap [1, 3]
  else (List.range count).foldl (fun x j =>
    let prime := entry.bind fun p => (p.seqPrime f.pseq.toNat f.prime.toNat j).bind p.prime?
    op.limb f logN src dst tw prime bad x j) x

/-- The command of an operation. -/
def NteOp.command (op : NteOp) (c : CoachId) (f : NteF) : Instr :=
  match op with
  | .fwd => .fwd c f | .inv => .inv c f | .fcol => .fcol c f | .frow => .frow c f | .irow => .irow c f | .icol => .icol c f

end Sys2Proof.Machine
end

