-- ==== Sys2Proof/Machine/Desc.lean ====
section
/-! DEFINITION. Tensor descriptors: their fields, the order of visits, and the reduce operations (R90 to R95, R103). -/

namespace Sys2Proof.Machine

open Sys2Proof

/-- A transfer descriptor (R90). -/
structure XDesc where
  farStride2 : Int
  farStride1 : Int
  nearStride2 : Int
  nearStride1 : Int
  count2 : Nat
  count1 : Nat
  len : Nat
  farOffset : Nat
  farRegion : Nat
  hdrOffset : Nat
  hdrSlot : Nat
  hdrCount : Nat
  nearOffset : Nat
  nearEntry : Nat
  paramSet : Nat
  modIndex : Nat
  fmt : Nat
  reduce : Nat
  dir : Bool
  mode : Nat
  reservedOk : Bool

def XDesc.ofWord (x : Nat) : XDesc :=
  { farStride2 := signed 32 (bits x 511 480), farStride1 := signed 32 (bits x 479 448),
    nearStride2 := signed 32 (bits x 447 416), nearStride1 := signed 32 (bits x 415 384), count2 := bits x 383 368,
    count1 := bits x 367 352, len := bits x 351 336, farOffset := bits x 335 296, farRegion := bits x 295 288,
    hdrOffset := bits x 287 252, hdrSlot := bits x 251 240, hdrCount := bits x 239 224, nearOffset := bits x 223 202,
    nearEntry := bits x 201 196, paramSet := bits x 195 188, modIndex := bits x 187 182, fmt := bits x 181 178,
    reduce := bits x 177 176, dir := bitOf x 2, mode := bits x 1 0, reservedOk := bits x 175 3 = 0 }

/-! ## Cart headers (R231) -/

def Cart.kind (k : Cart) : BitVec 8 := k.hdr.extractLsb' 128 8
def Cart.format (k : Cart) : BitVec 8 := k.hdr.extractLsb' 112 8
def Cart.seq (k : Cart) : BitVec 32 := k.hdr.extractLsb' 80 32
def Cart.keyIndex (k : Cart) : BitVec 16 := k.hdr.extractLsb' 64 16
def Cart.tag (k : Cart) : Word64 := k.hdr.extractLsb' 0 64

/-- An index descriptor (R95). -/
structure IDesc where
  extent : Nat
  count : Nat
  tableOffset : Nat
  tableEntry : Nat
  indexOffset : Nat
  indexEntry : Nat
  denseOffset : Nat
  denseEntry : Nat
  elem : Nat
  paramSet : Nat
  modIndex : Nat
  fmt : Nat
  reduce : Nat
  mode : Nat
  reservedOk : Bool

def IDesc.ofWord (x : Nat) : IDesc :=
  { extent := bits x 511 480, count := bits x 479 456, tableOffset := bits x 455 434, tableEntry := bits x 433 428,
    indexOffset := bits x 427 406, indexEntry := bits x 405 400, denseOffset := bits x 399 378,
    denseEntry := bits x 377 372, elem := bits x 371 370, paramSet := bits x 195 188, modIndex := bits x 187 182,
    fmt := bits x 181 178, reduce := bits x 177 176, mode := bits x 1 0,
    reservedOk := bits x 369 196 = 0 && bits x 175 2 = 0 }

/-- Slots of an element (R95). -/
def IDesc.width (d : IDesc) : Nat := d.elem + 1

/-- Descriptor `i` of the active slot. -/
def Coach.descriptor (co : Coach) (i : Nat) : Nat := (look (0 : BitVec 512) co.prog.desc i).toNat

/-- Visits of a transfer: LEN × COUNT1 × COUNT2 (R91, R93). -/
def XDesc.visits (d : XDesc) : Nat := d.len * d.count1 * d.count2

/-- Near and far slot of visit `v` (R91). -/
def XDesc.nearAt (d : XDesc) (v : Nat) : Int :=
  d.nearOffset + (v / d.len / d.count1 : Nat) * d.nearStride2 + (v / d.len % d.count1 : Nat) * d.nearStride1 + (v % d.len : Nat)

def XDesc.farAt (d : XDesc) (v : Nat) : Int :=
  d.farOffset + (v / d.len / d.count1 : Nat) * d.farStride2 + (v / d.len % d.count1 : Nat) * d.farStride1 + (v % d.len : Nat)

/-- A transfer is aligned (R94). -/
def XDesc.aligned (d : XDesc) : Bool :=
  d.nearOffset % 64 = 0 && d.farOffset % 64 = 0 && d.len % 64 = 0 &&
    (d.count1 ≤ 1 || (d.nearStride1 % 64 = 0 && d.farStride1 % 64 = 0)) &&
    (d.count2 ≤ 1 || (d.nearStride2 % 64 = 0 && d.farStride2 % 64 = 0))

/-- The place of slot `n` of a map entry. -/
def Coach.slotPlace (co : Coach) (entry : Nat) (n : Int) : Option Place :=
  let m := co.mapEntry entry
  if m.kind = 0 then none else ({ entry := m, carriage := 0 } : Place).along (n / 64)

/-! ## Reduce (R103) -/

/-- The moduli a reduce uses: the named prime, and the torus primes of the set; none where the coach's modulus table does
not hold them, and the result is then undefined (R108). -/
structure Moduli where
  prime : Option Nat
  torus : Option (Nat × Nat)

def State.reduceModuli (s : State) (co : Coach) (set index : Nat) : Moduli :=
  let b := BitVec.ofNat 8 set
  { prime := s.modulus? co b index
    torus := match s.modulus? co b 56, s.modulus? co b 57 with
      | some pa, some pb => some (pa, pb)
      | _, _ => none }

/-- One element or slot: REDUCE 1 adds, 2 takes the maximum; `odd` says which residue of a pair the slot holds. -/
def reduceSlot (m : Moduli) (op fmt : Nat) (odd : Bool) (old new : Slot) : Option Nat :=
  match plainFmt? fmt with
  | some f =>
    let w := f.width
    some (packElems w (32 / w) fun e =>
      let a := elemOf w old e
      let b := elemOf w new e
      if op = 1 then f.addP a b else f.maxMinP true a b)
  | none =>
    if fmt = 9 then m.prime.map fun q =>
      if op = 1 then (old.toNat + new.toNat) % q else Nat.max (old.toNat % q) (new.toNat % q)
    else if fmt = 10 then m.torus.map fun p =>
      (old.toNat % 2 ^ 32 + new.toNat % 2 ^ 32) % (if odd then p.2 else p.1)
    else none

/-- Slots to be written, by place. -/
structure SlotWrite where
  place : Place
  slot : Nat
  val : Slot

/-- Writes the rows of a group, each once. -/
def Ex.writeRows (x : Ex) (ws : List SlotWrite) : Ex :=
  ((ws.map fun w => w.place.row).eraseDups).foldl (fun (x : Ex) row =>
    let mine := ws.filter fun w => decide (w.place.row = row)
    x.write (mine.head?.map (·.place)) row (fun sl => mine.any fun w => decide (w.slot = sl))
      (ofSlots fun sl => match mine.reverse.find? fun w => w.slot = sl with
        | some w => w.val.toNat
        | none => 0)) x

end Sys2Proof.Machine
end

