-- ==== Sys2Proof/Machine/PxuOps.lean ====
section
/-! DEFINITION. What the permute and transpose unit computes: AUTO, ROT, TRANS, MROT, GSX (R95, R100 to R103, R118, R140 to R142,
R154, R223). -/

namespace Sys2Proof.Machine

open Sys2Proof

/-- A source and destination run of one instruction; overlap makes the result undefined (R112). -/
def Ex.move (x : Ex) (src dst : Run) (so dsto : List Int) (drain bad : Bool) (g : List Carriage → Nat → Option Carriage) : Ex :=
  let r := x.readAll src so drain
  let bad := bad || badOverlap (src.rows so) (dst.rows dsto) false
  dsto.zipIdx.foldl (fun x e =>
    match (if bad then none else g r.1 e.2) with
    | some v => x.writeAt dst e.1 v
    | none => let q := x.free; q.2.writeAt dst e.1 q.1) r.2

/-! ## AUTO (R140) -/

/-- The evaluation index that stands at position `p` of a limb in an order (R117, R118). -/
def orderIndex (order logN p : Nat) : Nat :=
  if order = 1 then bitrev logN p
  else
    let w := logN - 6
    bitrev w (p / 64 / 64 * 64 + p % 64) + 2 ^ w * bitrev 6 (p / 64 % 64)

/-- The position at which an evaluation index stands. -/
def orderPlace (order logN k : Nat) : Nat :=
  if order = 1 then bitrev logN k
  else
    let w := logN - 6
    let bj := bitrev w (k % 2 ^ w)
    let r := bitrev 6 (k / 2 ^ w)
    (bj / 64 * 64 + r) * 64 + bj % 64

/-- The inverse of an odd number modulo 2^w: g^(2^(w-1) - 1). -/
def oddInverse (g w : Nat) : Nat := powMod g (2 ^ (w - 1) - 1) (2 ^ w)

/-- Element `p` of σ_g applied to a limb. -/
def autoElem (order logN g q : Nat) (a : List Nat) (p : Nat) : Nat :=
  let n := 2 ^ logN
  if order = 0 then
    let i := p * oddInverse g (logN + 1) % (2 * n)
    if i < n then a.getD i 0 % q else subMod 0 (a.getD (i - n) 0) q
  else
    let k := orderIndex order logN p
    let k2 := (g * (2 * k + 1) % (2 * n) - 1) / 2
    a.getD (orderPlace order logN k2) 0 % q

/-! ## MROT (R154) -/

/-- Coefficient `j` of a limb times X^e, negacyclic. -/
def mrotElem (ng e q : Nat) (a : List Nat) (j : Nat) : Nat :=
  if e ≤ j then a.getD (j - e) 0 % q
  else if e ≤ j + ng then subMod 0 (a.getD (j + ng - e) 0) q
  else a.getD (j + 2 * ng - e) 0 % q

/-- The amounts of the eight threads: slot addresses from the base (R31; log entry 33), none beyond the slot addresses. -/
def Ex.amounts (x : Ex) (base : Option Int) (stride : Nat) : List (Option Nat) × Ex :=
  (List.range 8).foldl (fun (p : List (Option Nat) × Ex) (t : Nat) =>
    match base with
    | none => (p.1 ++ [none], p.2)
    | some b =>
      let a : Int := b + Int.ofNat (t * stride)
      if a < 0 ∨ 2 ^ 22 ≤ a then (p.1 ++ [none], p.2)
      else
        let row := a.toNat / 64
        let q := p.2.read (p.2.co.place? row) row false
        (p.1 ++ [some ((slotOf q.1 (a.toNat % 64)).toNat % 2 ^ 32)], q.2)) ([], x)

/-- The rows the amounts stand in. -/
def amountRows (base : Option Int) (stride : Nat) : List Nat :=
  match base with
  | none => []
  | some b => (List.range 8).map fun (t : Nat) => (b + Int.ofNat (t * stride)).toNat / 64

/-- A field with its index sum that is undefined outside `w` bits (R208). -/
def EngineS.plainField (v : EngineS) (x pos w : Nat) : Option Int :=
  let y : Int := x + v.strideSum pos
  if 0 ≤ y ∧ y < 2 ^ w then some y else none

/-! ## GSX (R95, R100 to R103) -/

/-- The index values as they stand at the issue; the accesses of the index rows come with the groups (R101). Where a row changes
before its access, the result is undefined (`State.learn`; log entry 14). -/
def Ex.indices (x : Ex) (d : IDesc) : List Nat :=
  ((List.range d.count).foldl (fun (p : List Nat × (Nat × Carriage) × Ex) k =>
    let w := d.indexOffset + k
    let c : (Nat × Carriage) × Ex := if p.2.1.1 = w / 64 + 1 then p.2 else
      let q := p.2.2.read (p.2.2.co.slotPlace d.indexEntry w) 0 false
      ((w / 64 + 1, q.1), q.2)
    (p.1 ++ [(slotOf c.1.2 (w % 64)).toNat % 2 ^ 32], c)) ([], (0, 0), { x with place := 2 ^ 60 })).1

/-- G of a group (R100). -/
def IDesc.groupClk (d : IDesc) (co : Coach) (gather : Bool) (group : List Nat) : Nat :=
  let rows := (group.flatMap fun e => (List.range d.width).filterMap fun (t : Nat) =>
    (co.slotPlace d.tableEntry (Int.ofNat (d.tableOffset + e * d.width + t))).map Place.row).eraseDups
  let most := (List.range 32).foldl (fun a b => max a (rows.filter fun r => decide (r / 2048 = b)).length) 1
  let g := if d.indexOffset % 64 ≠ 0 ∨ d.denseOffset % 64 ≠ 0 then max most 2 else most
  if !gather && d.reduce ≠ 0 then 2 * g else g

/-- Reads a row once for a group; later slots of the same row come from what was read. -/
def Ex.readRow (x : Ex) (seen : SMap Carriage) (p : Option Place) : Carriage × SMap Carriage × Ex :=
  match p with
  | none => let q := x.read none 0 false; (q.1, seen, q.2)
  | some p =>
    match seen.find? fun e => e.1 = p.row with
    | some e => (e.2, seen, x)
    | none => let q := x.read (some p) p.row false; (q.1, insert seen p.row q.1, q.2)

/-- One group of at most 64 indices, in index order; the first dense carriage of the instruction is read or written 20 clk after its
issue (R100). -/
def Ex.group (x : Ex) (d : IDesc) (m : Moduli) (gather : Bool) (k0 : Nat) (group : List Nat) : Ex :=
  let x := ((List.range group.length).map fun i => (d.indexOffset + k0 + i) / 64).eraseDups.foldl (fun (x : Ex) (w : Nat) =>
    (x.readFor .index false (x.co.slotPlace d.indexEntry (Int.ofNat (64 * w))) 0 false).2) x
  let x := if k0 = 0 && !gather then { x with pace := some (x.clk + 20, 0) } else x
  let r := group.zipIdx.foldl (fun (p : List SlotWrite × SMap Carriage × Ex) e =>
    (List.range d.width).foldl (fun (p : List SlotWrite × SMap Carriage × Ex) t =>
      let tab : Nat := d.tableOffset + e.1 * d.width + t
      let den : Nat := d.denseOffset + (k0 + e.2) * d.width + t
      let co := p.2.2.co
      let tp := co.slotPlace d.tableEntry tab
      let dp := co.slotPlace d.denseEntry den
      let q := p.2.2.readRow p.2.1 (if gather then tp else dp)
      let q := (q.1, q.2.1, { q.2.2 with pace := none })
      let new := slotOf q.1 (if gather then tab % 64 else den % 64)
      let dst := if gather then dp else tp
      let dslot := if gather then den % 64 else tab % 64
      if !gather && d.reduce ≠ 0 then
        let u := q.2.2.readRow q.2.1 dst
        let old := match p.1.reverse.find? fun w => some w.place.row = dst.map Place.row && w.slot = dslot with
          | some w => w.val
          | none => slotOf u.1 dslot
        let res : Slot × Ex := match reduceSlot m d.reduce d.fmt (dslot % 2 = 1) old new with
          | some v => (BitVec.ofNat 36 v, u.2.2)
          | none => let f := u.2.2.free; (slotOf f.1 dslot, f.2)
        match dst with
        | some pl => (p.1 ++ [⟨pl, dslot, res.1⟩], u.2.1, res.2)
        | none => (p.1, u.2.1, res.2)
      else match dst with
        | some pl => (p.1 ++ [⟨pl, dslot, new⟩], q.2.1, q.2.2)
        | none => (p.1, q.2.1, q.2.2)) p) ([], [], x)
  let x := if k0 = 0 && gather then { r.2.2 with pace := some (x.clk + 20, 1) } else r.2.2
  { x.writeRows r.1 with pace := none }

/-- Groups of 64 with the position of their first index. -/
def groupsOf (l : List Nat) : List (Nat × List Nat) :=
  (List.range (ceilDiv l.length 64)).map fun i => (64 * i, (l.drop (64 * i)).take 64)

/-- The groups in order, up to the first that holds an index at or beyond EXTENT, which aborts once the groups before it have made
their accesses (R102). -/
def Ex.groups (d : IDesc) (m : Moduli) (gather : Bool) : List (Nat × List Nat) → Ex → Ex
  | [], x => x
  | g :: rest, x =>
    match findAt (fun e => decide (d.extent ≤ e)) g.2 g.1 with
    | some (k, v) => x.act (x.accs.foldl (fun t a => max t a.clk) x.clk + 1) (.fail (v * 2 ^ 32 + k)) [] none
    | none => Ex.groups d m gather rest (x.group d m gather g.1 g.2)

/-! ## What the instructions do, `v` being the engine at its issue -/

/-- AUTO. A LOG_N out of range gives an undefined result: any row that the PXU may write (R202; log entry 35). An evaluation order at
an N for which R117 and R118 do not define it makes the destination undefined (DESIGN CHOICE, log entry 35: the spec states no
outcome). -/
def State.autoRun (s : State) (f : AutoF) (v : EngineS) (x : Ex) : Ex :=
  let co := x.co
  let logN := logField f.logN
  let n64 := 2 ^ logN / 64
  let order := f.order.toNat
  let g := f.galois.toNat
  let bad := g % 2 = 0 || 2 * 2 ^ logN ≤ g || order = 3 || (order = 2 && logN < 13) || (order = 1 && 12 < logN)
  let entry := s.tableEntry? co f.pset
  let all := span 0 ((f.count.toNat + 1) * n64)
  if logN < 9 then x.undefMap [1, 3]
  else x.move (co.run f.src.toNat (v.strideSum 0)) (co.run f.dst.toNat (v.strideSum 1)) all all f.drain bad fun cs t =>
    let j := t / n64
    ((entry.bind fun p => (p.seqPrime f.pseq.toNat f.prime.toNat j).bind p.prime?).map fun q =>
      let limb := limbOf ((cs.drop (j * n64)).take n64) q
      ofSlots fun sl => autoElem order logN g q limb (64 * (t % n64) + sl))

/-- ROT (R141). -/
def rotRun (f : RotF) (v : EngineS) (x : Ex) : Ex :=
  let n := f.c.toNat + 1
  let r := f.amount.toNat
  x.move (x.co.run f.src.toNat (v.strideSum 0)) (x.co.run f.dst.toNat (v.strideSum 1)) (span 0 n) (span 0 n) f.drain
    (decide (64 * n ≤ r)) fun cs t =>
    some (ofSlots fun sl =>
      let w := (64 * t + sl + r) % (64 * n)
      (slotOf (cs.getD (w / 64) 0) (w % 64)).toNat)

/-- TRANS (R142). -/
def transRun (f : TransF) (v : EngineS) (x : Ex) : Ex :=
  let t := f.t.toNat + 1
  x.move (x.co.run f.src.toNat (v.strideSum 0)) (x.co.run f.dst.toNat (v.strideSum 1)) (offsets (64 * t) f.sstride.toNat)
    (offsets (64 * t) f.dstride.toNat) f.drain (f.sstride = 0 || f.dstride = 0) fun cs k =>
    some (ofSlots fun sl => (slotOf (cs.getD (k / 64 * 64 + sl) 0) (k % 64)).toNat)

/-- LOG_N of MROT within its range (R202, R223). -/
def mrotTimed (f : MrotF) : Bool := 9 ≤ f.logN.toNat && f.logN.toNat ≤ 12

/-- MROT. A LOG_N out of range gives an undefined result: any row that the PXU may write (R202; log entry 35). -/
def State.mrotRun (s : State) (f : MrotF) (v : EngineS) (x : Ex) : Ex :=
  let co := x.co
  let ng := 2 ^ f.logN.toNat
  let n64 := ng / 64
  let entry := s.tableEntry? co f.pset
  let base := match v.plainField f.amtBase.toNat 3 22, v.plainField f.amtIndex.toNat 7 10 with
    | some b, some i => some (b + i)
    | _, _ => none
  let dst := co.run f.dst.toNat (v.strideSum 1)
  let r := x.amounts base f.amtStride.toNat
  let all := span 0 ((f.count.toNat + 1) * n64)
  if !(mrotTimed f) then x.undefMap [1, 3]
  else r.2.move (co.run f.src.toNat (v.strideSum 0)) dst all all false
    ((amountRows base f.amtStride.toNat).any fun row => (dst.rows all).contains row) fun cs t =>
    let j := t / n64
    match entry with
    | none => none
    | some p =>
      let q := if j % 2 = 0 then p.torusPa else p.torusPb
      match (r.1.getD (j / (2 * (p.glweK + 1))) none), q with
      | _, 0 => none
      | none, _ => none
      | some e, q =>
        let e := e % (2 * ng)
        let e := if f.neg then (2 * ng - e) % (2 * ng) else e
        let limb := limbOf ((cs.drop (j * n64)).take n64) (2 ^ 36)
        some (ofSlots fun sl => mrotElem ng e q limb (64 * (t % n64) + sl))

/-- The descriptor of a GSX. -/
def EngineS.gsxDesc (v : EngineS) (co : Coach) (desc : BitVec 10) : IDesc := IDesc.ofWord (co.descriptor (v.descField desc 3))

/-- Occupancy of a GSX: 20 clk and G for each group (R100). -/
def IDesc.gsxO (d : IDesc) (co : Coach) (idx : List Nat) : Nat :=
  20 + (groupsOf idx).foldl (fun a g => a + d.groupClk co (decide (d.mode = 1)) g.2) 0

/-- GSX. A descriptor of another mode gives an undefined result: any row that the PXU may write (R202, R223; log entry 35). -/
def State.gsxRun (s : State) (desc : BitVec 10) (v : EngineS) (x : Ex) : Ex :=
  let d := v.gsxDesc x.co desc
  if d.mode ≠ 1 ∧ d.mode ≠ 2 then x.undefMap [1, 3]
  else
    let idx := x.idxs.getD (x.indices d)
    Ex.groups d (s.reduceModuli x.co d.paramSet d.modIndex) (decide (d.mode = 1)) (groupsOf idx) { x with idxs := some idx }

end Sys2Proof.Machine
end

