-- ==== Sys2Proof/Machine/StreamOps.lean ====
section
/-! DEFINITION. What the stream engines move: visits, granules and carriages, the accesses of the near side, the writes of SOUT
and the layer digest (R74, R75, R78, R87, R91 to R94, R103, R243, R315, R318). -/

namespace Sys2Proof.Machine

open Sys2Proof

/-! ## Visits and requests (R91, R93, R243) -/

/-- The granule of the far region that holds the far slot of visit `v`. -/
def XDesc.granuleOfVisit (d : XDesc) (v : Nat) : Nat := (d.farAt v).toNat / 128

/-- How many of the next `n` visits from `v` lie in granule `g`. -/
def XDesc.sameGranule (d : XDesc) (g : Nat) : Nat → Nat → Nat
  | 0, _ => 0
  | n + 1, v => if d.granuleOfVisit v = g then d.sameGranule g n (v + 1) + 1 else 0

/-- Visits that one granule request serves: the successive ones within its granule. -/
def XDesc.runLen (d : XDesc) (v : Nat) : Nat := d.sameGranule (d.granuleOfVisit v) (d.visits - v) v

/-- First visits of the requests, in visit order. -/
def XDesc.runs (d : XDesc) : List Nat :=
  (List.range d.visits).filter fun v => decide (v = 0 ∨ d.granuleOfVisit v ≠ d.granuleOfVisit (v - 1))

/-- Visits per object (R93). -/
def XDesc.perObject (d : XDesc) : Nat := if d.hdrCount = 0 then 0 else d.visits / d.hdrCount

/-- The byte of the far region at which header image `i` lies. -/
def XDesc.imageByte (d : XDesc) (i : Nat) : Nat := 16 * (d.hdrOffset + i)

/-- The first visit of the request that serves visit `v`. -/
def XDesc.runStart (d : XDesc) : Nat → Nat
  | 0 => 0
  | v + 1 => if d.granuleOfVisit (v + 1) = d.granuleOfVisit v then d.runStart v else v + 1

/-- The first visits of the requests that serve visits [v, v + n). -/
def XDesc.runsIn (d : XDesc) (v n : Nat) : List Nat :=
  d.runStart v :: ((List.range (n - 1)).map fun i => v + 1 + i).filter fun w => decide (d.granuleOfVisit w ≠ d.granuleOfVisit (w - 1))

/-- The last of a list of visits that is not beyond visit `v`. -/
def lastUpTo (l : List Nat) (v : Nat) : Nat := ((l.filter fun r => decide (r ≤ v)).getLast?).getD 0

/-- The far value of visit `v` from a granule. -/
def XDesc.slotIn (d : XDesc) (g : Granule) (v : Nat) : Slot := g.extractLsb' (36 * ((d.farAt v).toNat % 128)) 36

/-! ## Carriages (R78, R94) -/

/-- How many of the next `n` visits from `v` go on the carriage that begins with visit `v0`: a carriage holds the visits that follow one
another at rising near slots, less than 64 slots beyond its first (log entry 94). -/
def XDesc.carriageMore (d : XDesc) (v0 : Nat) : Nat → Nat → Nat
  | 0, _ => 0
  | n + 1, v => if d.nearAt (v - 1) < d.nearAt v ∧ d.nearAt v < d.nearAt v0 + 64 then d.carriageMore v0 n (v + 1) + 1 else 0

/-- How many of `n` visits from `v` on the carriage that begins with `v` holds. -/
def XDesc.carriageLen (d : XDesc) (v n : Nat) : Nat := d.carriageMore v (n - 1) (v + 1) + 1

/-- The carriages of `n` visits from `v` on; `fuel` is at least `n`. -/
def XDesc.movesFrom (d : XDesc) : Nat → Nat → Nat → List (List Nat)
  | 0, _, _ => []
  | fuel + 1, v, n =>
    if n = 0 then []
    else
      let k := d.carriageLen v n
      ((List.range k).map fun i => v + i) :: d.movesFrom fuel (v + k) (n - k)

/-- Visits `n` from `v` on, by the carriage they move. -/
def XDesc.movesOf (d : XDesc) (v n : Nat) : List (List Nat) := d.movesFrom n v n

/-- The clk per carriage of the near side (R94, R315). -/
def XDesc.rate (d : XDesc) (noise : Bool) (mode : Nat) : Nat :=
  let r := if d.aligned && d.reduce = 0 then 1 else 2
  if noise && mode ≠ 0 then max r 8 else r

/-- The clk in which carriage `i` of those moved from clk `t` on is written or read: the last of its own (R94). -/
def moveClk (t rate i : Nat) : Nat := t + rate * (i + 1) - 1

/-- The rows that a carriage's visits reach, as carriages of the map entry: one, or two where it straddles them. -/
def XDesc.nearRows (d : XDesc) (vs : List Nat) : List Int := (vs.map fun v => d.nearAt v / 64).eraseDups

/-- The visits of a carriage that lie in one of its rows. -/
def XDesc.inRow (d : XDesc) (vs : List Nat) (k : Int) : List Nat := vs.filter fun v => decide (d.nearAt v / 64 = k)

/-- The slot of a visit within its row. -/
def XDesc.nearSlot (d : XDesc) (v : Nat) : Nat := (d.nearAt v % 64).toNat

/-- The last access takes a further carriage of data. -/
def Ex.lastAcc (x : Ex) (f : Acc → Acc) : Ex := { x with accs := x.accs.dropLast ++ (x.accs.getLast?.map f).toList }

/-- The slots of a row with incoming values combined into them; one whose result is undefined takes what `free` holds (R103). -/
def reduceRow (m : Moduli) (d : XDesc) (slots : List Nat) (old new free : Carriage) : Carriage :=
  ofSlots fun s =>
    if slots.contains s then (reduceSlot m d.reduce d.fmt (s % 2 = 1) (slotOf old s) (slotOf new s)).getD (slotOf free s).toNat
    else (slotOf old s).toNat

/-- A read that only makes a bank access: it takes no content and is checked for errors, but neither for its reader nor for its fill bit
(R75, R78). -/
def Ex.idleRead (x : Ex) (p : Option Place) : Ex :=
  match p with
  | none => x
  | some pl => (x.touch pl.row pl.entry.kind false false false .nothing [] []).skipOrd

/-- A reduce reads its destination before it writes it; that read is checked for errors, but neither for its reader nor for
its fill bit (R75, R94; DESIGN CHOICE, log entry 94). -/
def Ex.reduceRead (x : Ex) (pl : Place) : Carriage × Ex :=
  (x.touch pl.row pl.entry.kind false false false .data [] []).recallRow (look 0 x.co.spad pl.row)

/-- SIN writes the visits of a carriage that lie in one row in clk `w`, a reduce after a read in the clk before (R91, R94). -/
def Ex.moveRow (x : Ex) (d : XDesc) (m : Moduli) (value : Nat → Slot) (w : Nat) (vs : List Nat) : Ex :=
  let p := x.co.slotPlace d.nearEntry (d.nearAt (vs.headD 0))
  let slots := vs.map d.nearSlot
  let new := ofSlots fun s => ((vs.find? fun v => d.nearSlot v = s).map fun v => (value v).toNat).getD 0
  let at_ (x : Ex) (t : Nat) : Ex := { x with pace := some (t, 0) }
  if d.reduce = 0 then (at_ x w).write p 0 (fun s => slots.contains s) new
  else match p with
    | none => (at_ x w).write none 0 (fun s => slots.contains s) new
    | some pl =>
      let r := (at_ x (w - 1)).reduceRead pl
      let f := r.2.free
      ((at_ f.2 w).write p 0 (fun s => slots.contains s) (reduceRow m d slots r.1 new f.1)).lastAcc fun a =>
        { a with data := a.data ++ [new] }

/-- SIN moves one carriage, which is done in clk `w`. One that is not aligned makes two accesses, in the last two clk: one for each row it
reaches, or a read of its row before the write (R78, R94). -/
def Ex.moveIn (x : Ex) (d : XDesc) (m : Moduli) (value : Nat → Slot) (w : Nat) (vs : List Nat) : Ex :=
  match d.nearRows vs with
  | [k] =>
    let x := if d.aligned || d.reduce ≠ 0 then x
      else { x with pace := some (w - 1, 0) }.idleRead (x.co.slotPlace d.nearEntry (64 * k))
    x.moveRow d m value w vs
  | ks => ks.zipIdx.foldl (fun (x : Ex) k =>
      x.moveRow d m value (if d.reduce = 0 then w - 1 + k.2 else w) (d.inRow vs k.1)) x

/-! ## What SOUT reads and sends -/

/-- SOUT reads a row in clk `w` for the visits `vs`, which number the access by the first of them; a row that the transfer has read
before is read unchecked, and its fill bit stays (log entry 94). -/
def Ex.soutRow (x : Ex) (d : XDesc) (p : Option Place) (vs : List Nat) (w : Nat) : Carriage × Ex :=
  let x := { x with pace := some (w, 0), ords := vs.headD 0, given := [] }
  match p with
  | none => x.read none 0 false
  | some pl =>
    let r := x.readFor .data (x.made.contains pl.row) (some pl) pl.row false
    let y := r.2.lastAcc fun a => { a with data := [r.1], slots := vs.map d.nearSlot }
    (r.1, { y with made := if y.made.contains pl.row then y.made else y.made ++ [pl.row] })

/-- SOUT reads one carriage by clk `w`: the values of its visits. One that is not aligned takes two accesses (R78, R94). -/
def Ex.soutMove (x : Ex) (d : XDesc) (w : Nat) (vs : List Nat) : List Slot × Ex :=
  let place (k : Int) : Option Place := x.co.slotPlace d.nearEntry (64 * k)
  match d.nearRows vs with
  | [k] =>
    let x := if d.aligned then x else { x with pace := some (w - 1, 0) }.idleRead (place k)
    let r := x.soutRow d (place k) vs w
    (vs.map fun v => slotOf r.1 (d.nearSlot v), r.2)
  | ks => ks.zipIdx.foldl (fun (p : List Slot × Ex) k =>
      let mine := d.inRow vs k.1
      let r := p.2.soutRow d (place k.1) mine (w - 1 + k.2)
      (p.1 ++ mine.map fun v => slotOf r.1 (d.nearSlot v), r.2)) ([], x)

/-- SOUT reads its near side from clk `t` on: the value of every visit, and the clk in which it leaves. -/
def Ex.soutRead (x : Ex) (d : XDesc) (t : Nat) : List (Slot × Nat) × Ex :=
  (d.movesOf 0 d.visits).zipIdx.foldl (fun (p : List (Slot × Nat) × Ex) m =>
    let w := moveClk t (d.rate false 0) m.2
    let q := p.2.soutMove d w m.1
    (p.1 ++ q.1.map fun v => (v, w), q.2)) ([], x)

/-- The masked bytes of a slot at its place in a granule: 36 bits from bit 36 p (R91). -/
def slotBytes (p : Nat) (v : Slot) : List (Nat × Byte × Byte) :=
  let sh := 36 * p % 8
  let m := (2 ^ 36 - 1) * 2 ^ sh
  let x := v.toNat * 2 ^ sh
  (List.range 5).map fun i => (36 * p / 8 + i, BitVec.ofNat 8 (m / 2 ^ (8 * i)), BitVec.ofNat 8 (x / 2 ^ (8 * i)))

/-- Adds masked bytes; a later one stands over an earlier one. -/
def putMasked (m : SMap (Byte × Byte)) (l : List (Nat × Byte × Byte)) : SMap (Byte × Byte) :=
  l.foldl (fun m e =>
    let o := look ((0 : Byte), (0 : Byte)) m e.1
    insert m e.1 (o.1 ||| e.2.1, (o.2 &&& ~~~e.2.1) ||| (e.2.2 &&& e.2.1))) m

/-- 2^127 - 1. -/
def digestPrime : Nat := 2 ^ 127 - 1

/-- The weight k_r of a region (R318). -/
def digestKey (seed : BitVec 128) (r : Nat) : Nat :=
  let k := leNat ((sha256 (leBytes 16 seed.toNat ++ leBytes 1 r ++ [0x44])).take 16) % digestPrime
  if k < 2 then 2 else k

/-- One term of a digest. -/
def digestTerm (k f : Nat) (v : Slot) : Nat := (v.toNat + 2 ^ 36) * powMod k (f + 1) digestPrime % digestPrime

/-- The write requests of a SOUT transfer, its granules in visit order, then its header images: each leaves with the last
carriage it takes a slot from, an image with its object's last carriage (R52, R93). -/
def XDesc.writes (d : XDesc) (far : Far) (base : Nat) (vals : List (Slot × Nat)) : List Req :=
  let req (first addr clk : Nat) (wr : SMap (Byte × Byte)) : Req :=
    { far := far, addr := addr, urg := 0, clkAt := clk, first := first, wr := wr, rid := 0 }
  let at_ (v : Nat) : Slot × Nat := vals.getD v (0, 0)
  (d.runs.map fun v => req v (base + 576 * d.granuleOfVisit v) (at_ (v + d.runLen v - 1)).2
    ((List.range (d.runLen v)).foldl (fun m i =>
      putMasked m (slotBytes ((d.farAt (v + i)).toNat % 128) (at_ (v + i)).1)) [])) ++
  (List.range d.hdrCount).map fun i =>
    req (d.visits + i) (base + d.imageByte i / 576 * 576) (at_ ((i + 1) * d.perObject - 1)).2 []

/-- The header images a SOUT transfer has to take. -/
def XDesc.imagesOut (d : XDesc) (vals : List (Slot × Nat)) : List (Nat × Nat × Nat × Nat) :=
  (List.range d.hdrCount).map fun i =>
    ((vals.getD ((i + 1) * d.perObject - 1) (0, 0)).2, d.hdrSlot + i, d.visits + i, d.imageByte i % 576)

end Sys2Proof.Machine
end

