-- ==== Sys2Proof/Machine/VecOps.lean ====
section
/-! DEFINITION. What the vector engine computes: operands, elements, conversion and the bodies of its operations (R113 to R115,
R134 to R136, R143, R216 to R219). -/

namespace Sys2Proof.Machine

open Sys2Proof

/-- Settings word 0 (R217). -/
structure VecCfg where
  strideD : Int
  strideB : Int
  strideA : Int
  shift : Int
  cond : Nat
  prime : Nat
  pset : BitVec 8
  dfmt : Nat
  fmt : Nat
  reservedOk : Bool

def EngineS.vecCfg (v : EngineS) : VecCfg :=
  let w := v.word 0
  { strideD := signed 12 (bits w 98 87), strideB := signed 12 (bits w 86 75), strideA := signed 12 (bits w 74 63),
    shift := signed 7 (bits w 62 56), cond := bits w 55 54, prime := bits w 53 48, pset := BitVec.ofNat 8 (bits w 47 40),
    dfmt := bits w 39 36, fmt := bits w 35 32, reservedOk := bits w 127 99 = 0 }

/-- λ of R135: none for a reserved format code. -/
def VecOp.lambda (op : VecOp) (fmt : Nat) : Option Nat :=
  let col : Option Nat :=
    if fmt ≤ 3 then some 0 else if fmt ≤ 7 then some 1 else if fmt = 8 then some 2 else if fmt = 9 then some 3
    else if fmt = 10 then some 4 else none
  col.map fun c =>
    (match op with
    | .add | .sub => [2, 3, 4, 3, 3]
    | .mul => [3, 4, 5, 8, 9]
    | .fma => [4, 5, 6, 10, 11]
    | .min | .max | .cmp => [2, 2, 2, 2, 6]
    | .sel => [1, 1, 1, 1, 1]
    | .cvt => [3, 3, 3, 3, 3]).getD c 0

/-! ## Operands (R218) -/

inductive VecArg where
  | run (r : Run) (stride : Int)
  | reg (r : Nat)
  | bcast (r s : Nat)
  | tile
  | bad

/-- A field as a row run or an operand code; a code takes no index sum. -/
def vecArg (co : Coach) (v : EngineS) (field : BitVec 16) (pos : Nat) (stride : Int) : VecArg :=
  let x := field.toNat
  if bits x 10 9 ≠ 3 then .run (co.run x (v.strideSum pos)) stride
  else match bits x 8 6 with
    | 0 => .reg (bits x 15 11)
    | 1 => .bcast (bits x 15 11) (bits x 5 0)
    | 2 => .tile
    | _ => .bad

/-- A vector register; what an instruction reads before the latency of the register's producer has passed is undefined (R111,
R180). -/
def Ex.regRead (x : Ex) (r : Nat) : Carriage × Ex :=
  let q := x.free
  q.2.recallRow (if x.clk < look 0 x.co.vregDue r && !(x.made.contains (2 ^ 16 + r)) then q.1 else look 0 x.co.vregs r)

/-- The tiles in hand after those that carriage `j` calls for have been popped: in the first of the four clk of a tile, one for each
operand that comes from the tile queue, A's before B's (R143). -/
def Ex.vecHand (x : Ex) (per : Nat) (hand : List (List Carriage)) (j : Nat) : List (List Carriage) × Ex :=
  if per = 0 ∨ j % 4 ≠ 0 then (hand, x)
  else (List.range per).foldl (fun (p : List (List Carriage) × Ex) _ =>
    let q := p.2.popTile (x.clk + j)
    (p.1 ++ [q.1], q.2)) ([], { x with floor := x.clk + j + 1 })

/-- Reads carriage `j` of an operand; the carriages of a tile come from the tile in hand. -/
def Ex.vecRead (x : Ex) (a : VecArg) (hand : List Carriage) (j : Nat) (drain : Bool) : Carriage × Ex :=
  match a with
  | .run r st => x.readAt r (Int.ofNat j * st) drain
  | .reg r => x.regRead ((r + j) % 32)
  | .bcast r s => let q := x.regRead r; (ofSlots fun _ => (slotOf q.1 s).toNat, q.2)
  | .tile => (hand.getD (j % 4) 0, x)
  | .bad => x.free

/-- Writes carriage `j` of the destination. -/
def Ex.vecWrite (x : Ex) (d : VecArg) (j : Nat) (v : Carriage) : Ex :=
  match d with
  | .run r st => x.writeAt r (Int.ofNat j * st) v
  | .reg r =>
    let p := (r + j) % 32
    { x with
      co := { x.co with vregs := store 0 x.co.vregs p v, vregDue := store 0 x.co.vregDue p x.due }
      made := if x.made.contains (2 ^ 16 + p) then x.made else x.made ++ [2 ^ 16 + p] }
  | _ => x

def VecArg.isTile : VecArg → Bool
  | .tile => true
  | _ => false

/-- A destination that is a broadcast, the tile queue or a reserved code (R218). -/
def VecArg.noDst : VecArg → Bool
  | .run _ _ | .reg _ => false
  | _ => true

/-- Any register and any row that the VEC may write takes undefined content, or stays as it is (R180). -/
def Ex.undefVec (x : Ex) : Ex :=
  (List.range 32).foldl (fun (x : Ex) r =>
    let n := x.freeNum
    if n.1 % 2 = 0 then n.2 else let q := n.2.free; q.2.vecWrite (.reg r) 0 q.1) (x.undefMap [1, 3])

/-! ## Arithmetic -/

/-- A slotwise operation on a plain format. -/
def plainSlots (f : PlainFmt) (g : Nat → Nat → Nat → Nat) (a b d : Carriage) : Carriage :=
  let w := f.width
  ofSlots fun s => packElems w (32 / w) fun e => g (elemOf w (slotOf a s) e) (elemOf w (slotOf b s) e) (elemOf w (slotOf d s) e)

/-- The operation on one plain element: a, b and the destination's content d (R113, R136, R219). -/
def VecOp.plainElem (op : VecOp) (f : PlainFmt) (cond a b d : Nat) : Nat :=
  match op with
  | .add => f.addP a b
  | .sub => f.subP a b
  | .mul => f.mulP a b
  | .fma => f.fmaP a b d
  | .min => f.maxMinP false a b
  | .max => f.maxMinP true a b
  | .cmp => if f.cmpP cond a b then 2 ^ f.width - 1 else 0
  | .sel => if b % 2 = 1 then a else d
  | .cvt => a

/-- A comparison of numbers. -/
def cmpNat (cond a b : Nat) : Bool :=
  match cond with
  | 0 => a = b | 1 => a ≠ b | 2 => a < b | _ => a ≤ b

/-- The operation on residues modulo q (R40, R110, R136). -/
def VecOp.resElem (op : VecOp) (q cond a b d : Nat) : Nat :=
  let a := a % q
  let b := b % q
  match op with
  | .add => (a + b) % q
  | .sub => subMod a b q
  | .mul => a * b % q
  | .fma => (a * b + d) % q
  | .min => Nat.min a b
  | .max => Nat.max a b
  | .cmp => flag (cmpNat cond a b)
  | .sel => if b % 2 = 1 then a else d % q
  | .cvt => a

/-- The residue pair of lane pair `i`: the low 32 bits of each slot (R41). -/
def torusPair (v : Carriage) (i : Nat) : Nat × Nat :=
  ((slotOf v (2 * i)).toNat % 2 ^ 32, (slotOf v (2 * i + 1)).toNat % 2 ^ 32)

/-- The operation on T64 elements (R135, R136): lanewise, but for those that compare or select whole elements.
The lowest bit of a SEL's mask is that of the element's value (DESIGN CHOICE, log entry 107). -/
def VecOp.torusElem (op : VecOp) (pa pb cond : Nat) (a b d : Nat × Nat) : Nat × Nat :=
  let t (x : Nat × Nat) := crt pa pb x.1 x.2
  let out (n : Nat) := (n % pa, n % pb)
  match op with
  | .min => out (Nat.min (t a) (t b))
  | .max => out (Nat.max (t a) (t b))
  | .cmp => if cmpNat cond (t a) (t b) then (1, 1) else (0, 0)
  | .sel => if t b % 2 = 1 then out (t a) else out (t d)
  | op => (op.resElem pa cond a.1 b.1 d.1, op.resElem pb cond a.2 b.2 d.2)

/-- One carriage of any operation but CVT; none is undefined. -/
def VecOp.carriage (op : VecOp) (g : VecCfg) (q : Option Nat) (torus : Option (Nat × Nat)) (a b d : Carriage) :
    Option Carriage :=
  match plainFmt? g.fmt with
  | some f => some (plainSlots f (op.plainElem f g.cond) a b d)
  | none =>
    if g.fmt = 9 then
      q.map fun q => ofSlots fun s => op.resElem q g.cond (slotOf a s).toNat (slotOf b s).toNat (slotOf d s).toNat
    else if g.fmt = 10 then
      torus.map fun p => ofSlots fun s =>
        let r := op.torusElem p.1 p.2 g.cond (torusPair a (s / 2)) (torusPair b (s / 2)) (torusPair d (s / 2))
        if s % 2 = 0 then r.1 else r.2
    else none

/-! ## Conversion (R114, R115) -/

/-- Elements of a carriage of a format. -/
def elemsPerCarriage (fmt : Nat) : Nat :=
  match plainFmt? fmt with
  | some f => 64 * (32 / f.width)
  | none => if fmt = 10 then 32 else 64

/-- Element `e` of a carriage in a format: the raw bits, or both residues of a torus element. -/
def rawElem (fmt : Nat) (v : Carriage) (e : Nat) : Nat × Nat :=
  match plainFmt? fmt with
  | some f => let m := 32 / f.width; (elemOf f.width (slotOf v (e / m)) (e % m), 0)
  | none => if fmt = 10 then torusPair v e else ((slotOf v e).toNat, 0)

/-- A carriage of a format from its elements. -/
def packCarriage (fmt : Nat) (g : Nat → Nat × Nat) : Carriage :=
  match plainFmt? fmt with
  | some f => let m := 32 / f.width; ofSlots fun s => packElems f.width m fun e => (g (m * s + e)).1
  | none =>
    if fmt = 10 then ofSlots fun s => if s % 2 = 0 then (g (s / 2)).1 else (g (s / 2)).2 else ofSlots fun s => (g s).1

/-- One element converted; none where R115 gives the pair of formats no conversion. -/
def convertElem (g : VecCfg) (q : Option Nat) (torus : Option (Nat × Nat)) (x : Nat × Nat) : Option (Nat × Nat) :=
  let int32 (v : Int) : Nat := unsigned 32 (max (-(2 ^ 31 : Int)) (min v (2 ^ 31 - 1)))
  match plainFmt? g.fmt, plainFmt? g.dfmt with
  | some a, some b => some (convertPlain a b g.shift x.1, 0)
  | some (.int w), none =>
    if g.dfmt = 9 then q.map fun q => (intMod (signed w x.1) q, 0)
    else if g.dfmt = 10 then torus.map fun p => (intMod (signed w x.1) p.1, intMod (signed w x.1) p.2)
    else none
  | none, some (.int 32) =>
    if g.fmt = 9 then q.map fun q => (int32 (centred (x.1 % q) q), 0)
    else if g.fmt = 10 then torus.map fun p => (int32 (centred (crt p.1 p.2 x.1 x.2) (p.1 * p.2)), 0)
    else none
  | _, _ => none

/-- Destination carriages and source carriages of a CVT whose COUNT counts the larger run (R135). -/
def cvtRuns (g : VecCfg) (count : Nat) : Nat × Nat :=
  let m := elemsPerCarriage g.fmt
  let n := elemsPerCarriage g.dfmt
  if n ≤ m then (count, ceilDiv (count * n) m) else (ceilDiv (count * m) n, count)

/-! ## The instructions -/

/-- Places that an argument touches over `count` carriages: rows, and registers above them (R112). -/
def VecArg.places (a : VecArg) (count : Nat) : List Nat :=
  match a with
  | .run r st => r.rows (offsets count st)
  | .reg r => (List.range count).map fun j => 2 ^ 16 + (r + j) % 32
  | .bcast r _ => [2 ^ 16 + r]
  | _ => []

/-- An overlap R112 does not allow: in place means the same run. -/
def vecOverlap (src dst : VecArg) (nsrc ndst : Nat) : Bool := badOverlap (src.places nsrc) (dst.places ndst) true

/-- Operands of a VEC instruction that come from the tile queue. -/
def VecOp.tileOperands (op : VecOp) (a b : VecArg) : Nat := flag a.isTile + flag (b.isTile && op ≠ .cvt)

/-- One carriage of the operations but CVT, `per` tiles in hand (R134). -/
def vecOne (op : VecOp) (g : VecCfg) (f : VecF) (a b d : VecArg) (q : Option Nat) (torus : Option (Nat × Nat)) (bad : Bool) (per : Nat)
    (p : List (List Carriage) × Ex) (j : Nat) : List (List Carriage) × Ex :=
  let h := p.2.vecHand per p.1 j
  let ra := h.2.vecRead a (h.1.getD 0 []) j f.drainA
  let rb := ra.2.vecRead b (h.1.getD (flag a.isTile) []) j f.drainB
  let rd := if op = .fma ∨ op = .sel then rb.2.vecRead d [] j false else (0, rb.2)
  match (if bad then none else op.carriage g q torus ra.1 rb.1 rd.1) with
  | some v => (h.1, rd.2.vecWrite d j v)
  | none => let r := rd.2.free; (h.1, r.2.vecWrite d j r.1)

/-- The nine operations but CVT, one carriage after another (R134). -/
def vecBody (op : VecOp) (g : VecCfg) (f : VecF) (a b d : VecArg) (q : Option Nat) (torus : Option (Nat × Nat)) (bad : Bool)
    (per : Nat) (x : Ex) : Ex :=
  ((List.range (f.count.toNat + 1)).foldl (vecOne op g f a b d q torus bad per) ([], x)).2

/-- The source carriages of a CVT. -/
def cvtRead (f : VecF) (a : VecArg) (per n : Nat) (x : Ex) : List Carriage × Ex :=
  let r := (List.range n).foldl (fun (p : List Carriage × List (List Carriage) × Ex) j =>
    let h := p.2.2.vecHand per p.2.1 j
    let r := h.2.vecRead a (h.1.getD 0 []) j f.drainA
    (p.1 ++ [r.1], h.1, r.2)) ([], [], x)
  (r.1, r.2.2)

/-- CVT: elements in order, the rest of the last destination carriage zero (R135). -/
def cvtBody (g : VecCfg) (f : VecF) (a d : VecArg) (q : Option Nat) (torus : Option (Nat × Nat)) (bad : Bool)
    (per : Nat) (x : Ex) : Ex :=
  let runs := cvtRuns g (f.count.toNat + 1)
  let src := cvtRead f a per runs.2 x
  let m := elemsPerCarriage g.fmt
  let n := elemsPerCarriage g.dfmt
  let total := runs.2 * m
  let conv (i : Nat) : Option (Nat × Nat) :=
    if total ≤ i then some (0, 0) else convertElem g q torus (rawElem g.fmt (src.1.getD (i / m) 0) (i % m))
  (List.range runs.1).foldl (fun x j =>
    let ok := !bad && (List.range n).all fun e => (conv (j * n + e)).isSome
    if ok then x.vecWrite d j (packCarriage g.dfmt fun e => (conv (j * n + e)).getD (0, 0))
    else let r := x.free; r.2.vecWrite d j r.1) src.2

/-- The torus primes of the set that a VEC instruction names. -/
def State.vecTorus (s : State) (co : Coach) (g : VecCfg) : Option (Nat × Nat) :=
  match s.modulus? co g.pset 56, s.modulus? co g.pset 57 with
  | some pa, some pb => some (pa, pb)
  | _, _ => none

/-- Carriages that a VEC instruction reads of each operand and writes (R134, R135). -/
def VecOp.counts (op : VecOp) (g : VecCfg) (count : Nat) : Nat × Nat :=
  if op = .cvt then ((cvtRuns g count).2, (cvtRuns g count).1) else (count, count)

/-- What a VEC instruction does, `v` being the engine at its issue; in scratchpad mode it pops nothing (R29). -/
def State.vecRun (s : State) (op : VecOp) (f : VecF) (v : EngineS) (x : Ex) : Ex :=
  let co := x.co
  let g := v.vecCfg
  let a := vecArg co v f.a 0 g.strideA
  let b := vecArg co v f.b 1 g.strideB
  let d := vecArg co v f.dst 2 g.strideD
  let q := s.modulus? co g.pset g.prime
  let n := op.counts g (f.count.toNat + 1)
  let tiled := decide (0 < op.tileOperands a b)
  let per := if co.coupling = 0 then 0 else op.tileOperands a b
  let bad := !g.reservedOk || (tiled && ((f.count.toNat + 1) % 4 ≠ 0 || co.coupling = 0)) || vecOverlap a d n.1 n.2 ||
    (op ≠ .cvt && vecOverlap b d n.1 n.2)
  let x := if op = .cvt then cvtBody g f a d q (s.vecTorus co g) bad per x
    else vecBody op g f a b d q (s.vecTorus co g) bad per x
  if d.noDst then x.undefVec else x

/-- The command of an operation. -/
def VecOp.command (op : VecOp) (c : CoachId) (f : VecF) : Instr :=
  match op with
  | .add => .add c f | .sub => .sub c f | .mul => .mul c f | .fma => .fma c f | .min => .minOp c f | .max => .maxOp c f
  | .cmp => .cmp c f | .sel => .sel c f | .cvt => .cvt c f

end Sys2Proof.Machine
end

