-- ==== Sys2Proof/Machine/Redo.lean ====
section
/-! DEFINITION. Instructions under way: what an access brings that its instruction did not expect, and results that are undefined since
an instruction issued too early (R79, R94, R103, R111, R132, R143, R180, R433). -/

namespace Sys2Proof.Machine

open Sys2Proof

/-- What a data-path instruction of engines 0 to 4 does, `v` being the engine at its issue. -/
def State.perform (s : State) (cmd : DataCmd) (v : EngineS) (x : Ex) : Ex :=
  (match cmd with
    | .nte op f => s.nteRun op f v x
    | .vec op f => s.vecRun op f v x
    | .dbu op f => s.dbuRun op f v x
    | .ksa kew f => s.ksaRun kew f v x
    | .ktab src => ktabBody src x
    | .auto f => s.autoRun f v x
    | .rot f => rotRun f v x
    | .trans f => transRun f v x
    | .mrot f => s.mrotRun f v x
    | .gsx desc => s.gsxRun desc v x
    | .acct => x).ended [1, 3]

/-! ## Content that differs from what was expected -/

/-- The instruction under way that an access belongs to. -/
def Coach.openOf (co : Coach) (a : Acc) : Option OpenEx := co.opens.find? fun o => decide (o.engine = a.engine ∧ o.clk = a.issued)

/-- The access belongs to the instruction. -/
def OpenEx.has (o : OpenEx) (a : Acc) : Bool := decide (o.engine = a.engine ∧ o.clk = a.issued)

/-- The execution of an instruction under way, to be done again with the content it has been given. -/
def OpenEx.resume (o : OpenEx) (co : Coach) : Ex :=
  { co := co, eng := o.engine, idx := BitVec.ofNat 13 o.eng.pc, word := 0, clk := o.clk, o := o.o, due := o.due, use := o.use, place := 1000
    given := o.given, ords := 0, filled := [], made := [], regions := [], accs := [], pace := none, floor := 0, idxs := o.idxs, wild := false }

/-- What an access has still to write after the execution has been done again. -/
def Acc.renewed (a : Acc) (new : List Acc) : Acc :=
  match new.find? fun b => b.ord = a.ord with
  | some b => { a with data := b.data, tile := b.tile }
  | none => a

/-- The coach after an instruction under way has been done again: what it has still to write, and the registers that it was the last to
write. -/
def OpenEx.renew (o : OpenEx) (x : Ex) (co : Coach) : Coach :=
  let reg (p : Nat) : Bool := 2 ^ 16 ≤ p && p < 2 ^ 17 && decide (look 0 co.vregDue (p - 2 ^ 16) = o.due)
  let acc (p : Nat) : Bool := 2 ^ 17 ≤ p && p < 2 ^ 18
  { co with
    accs := co.accs.map fun a => if o.has a then a.renewed x.accs else a
    opens := co.opens.map fun p => if p.engine = o.engine ∧ p.clk = o.clk then o else p
    vregs := (o.made.filter reg).foldl (fun m p => store 0 m (p - 2 ^ 16) (look 0 x.co.vregs (p - 2 ^ 16))) co.vregs
    accMem := (o.made.filter acc).foldl (fun m p => store accDefault m (p - 2 ^ 17) (look accDefault x.co.accMem (p - 2 ^ 17))) co.accMem
    actTable := if o.made.contains (2 ^ 18) && decide (co.actDue = o.due) then x.co.actTable else co.actTable }

/-- An instruction under way is done again. -/
def State.redo (s : State) (c : CoachId) (o : OpenEx) : State :=
  s.onCoach c (o.renew (s.perform o.cmd o.eng (o.resume (s.coach c))))

/-! ## Results that are undefined (R111, R180) -/

/-- What an instruction under way has still to write, and the rows and registers that it was the last to write, are undefined. -/
def OpenEx.spoil (o : OpenEx) (use : Nat) (co : Coach) : Coach :=
  let rows := o.filled.filter fun r => decide (look 0 co.spadDue r = o.due)
  let regs := o.made.filter fun p => 2 ^ 16 ≤ p && p < 2 ^ 17 && decide (look 0 co.vregDue (p - 2 ^ 16) = o.due)
  let accs := o.made.filter fun p => 2 ^ 17 ≤ p && p < 2 ^ 18
  let free (k : Nat) : Carriage := Config.freeCarriage use k
  { co with
    accs := co.accs.zipIdx.map fun a =>
      if o.has a.1 then { a.1 with
        data := (List.range a.1.data.length).map fun k => free (4 * a.2 + k)
        tile := a.1.tile.map fun t => { t with kind := .undefined } }
      else a.1
    opens := co.opens.map fun p => if p.engine = o.engine ∧ p.clk = o.clk then { p with spoiled := true } else p
    spad := rows.foldl (fun m r => store 0 m r (free (2 ^ 40 + r))) co.spad
    vregs := regs.foldl (fun m p => store 0 m (p - 2 ^ 16) (free (2 ^ 40 + p))) co.vregs
    accMem := accs.foldl (fun m p => store accDefault m (p - 2 ^ 17) accDefault) co.accMem
    actTable := if o.made.contains (2 ^ 18) then some (free (2 ^ 40 + 2 ^ 18)) else co.actTable }

/-- An instruction has taken a tile that another one pushed or sent. -/
def OpenEx.takesFrom (o : OpenEx) (use : Nat) : Bool :=
  o.given.any fun g => match g.2 with
    | .tile src _ => decide (src = use)
    | .chain (some t) => decide (t.src = use)
    | _ => false

/-- The tiles that an instruction has pushed or sent and that wait are undefined. -/
def Coach.spoilTiles (co : Coach) (src use : Nat) : Coach :=
  { co with
    tileQueue := co.tileQueue.zipIdx.map fun e => if e.1.src = src then { e.1 with data := freeTile use e.2 } else e.1
    chainIn := co.chainIn.map fun t => if t.src = src then { t with kind := .undefined } else t }

/-- The results of an instruction under way are undefined, and with them those of the instructions that have taken its tiles, over at most
`fuel` of them one after another. -/
def State.spoilOpen : Nat → State → CoachId → OpenEx → State
  | 0, s, _, _ => s
  | fuel + 1, s, c, o =>
    let s1 := (s.onCoach c (o.spoil s.freeCtr)).freed
    [c, nextInQuarter c].foldl (fun s d =>
      let s := (s.onCoach d fun co => co.spoilTiles o.use s.freeCtr).freed
      ((s.coach d).opens.filter fun p => !p.spoiled && p.takesFrom o.use).foldl (fun s p => s.spoilOpen fuel d p) s) s1

/-! ## What an access takes -/

/-- An instruction under way takes content under a number: where it expected something else, it is done again; a GSX whose indices have
changed has undefined results (log entry 14). -/
def State.learn (s : State) (c : CoachId) (a : Acc) (g : Got) : State :=
  match (s.coach c).openOf a with
  | none => s
  | some o =>
    if o.spoiled ∨ look g o.given a.ord = g then s
    else if a.want = .index then State.spoilOpen 10 s c o
    else s.redo c { o with given := insert o.given a.ord g }

/-- A reduce of SIN has read its row: the write that follows combines what it has read. -/
def Coach.learnIn (co : Coach) (m : Moduli) (a : Acc) (v : Carriage) : Coach :=
  match (co.engine .sin).transfer with
  | none => co
  | some t =>
    { co with accs := co.accs.map fun b =>
        match b.data with
        | [x, new] =>
          if b.engine = .sin ∧ b.issued = a.issued ∧ b.ord = a.ord + 1 then
            { b with data := [reduceRow m (XDesc.ofWord t.desc.toNat) b.slots v new x, new] }
          else b
        | _ => b }

/-- SOUT has read a row that does not hold what it was taken to hold: the writes that carry the values, and the digest, follow (R91,
R318). -/
def Coach.learnOut (co : Coach) (key : Nat) (a : Acc) (v : Carriage) : Coach :=
  match (co.engine .sout).transfer, a.data with
  | some t, [old] =>
    if old = v then co
    else
      let d := XDesc.ofWord t.desc.toNat
      let vs := (List.range a.slots.length).map fun i => a.ord + i
      let put (q : Req) (n : Nat) : Req :=
        if q.first = d.runStart n then
          { q with wr := putMasked q.wr (slotBytes ((d.farAt n).toNat % 128) (slotOf v (d.nearSlot n))) }
        else q
      let term (n : Nat) (v : Carriage) : Nat := digestTerm key (d.farAt n).toNat (slotOf v (d.nearSlot n))
      { co.setEngine .sout { co.engine .sout with transfer := some { t with reqs := t.reqs.map fun q => vs.foldl put q } } with
        digest := vs.foldl (fun g n => (g + (digestPrime - term n old) + term n v) % digestPrime) co.digest }
  | _, _ => co

/-- The content that an access has read goes to its instruction. -/
def State.learnRow (s : State) (c : CoachId) (a : Acc) (v : Carriage) : State :=
  match a.engine with
  | .sin =>
    match ((s.coach c).engine .sin).transfer with
    | some t =>
      let d := XDesc.ofWord t.desc.toNat
      s.onCoach c fun co => co.learnIn (s.reduceModuli co d.paramSet d.modIndex) a v
    | none => s
  | .sout =>
    match s.taskOf c, ((s.coach c).engine .sout).transfer with
    | some k, some t => s.onCoach c fun co => co.learnOut (digestKey k.f.seed (XDesc.ofWord t.desc.toNat).farRegion) a v
    | _, _ => s
  | _ => s.learn c a (.row v)

end Sys2Proof.Machine
end

