-- ==== Sys2Proof/Machine/Time.lean ====
section
/-! DEFINITION. The passage of clk: what each counter does while nothing else happens (R175, R189, R193, R194, R25,
R247, R248, R298). -/

namespace Sys2Proof.Machine

open Sys2Proof

/-- Scope and mask of a shutter in a program slot (R188, R338). -/
def ProgSlot.shutterFabric (p : ProgSlot) (sid : Nat) : Bool := bitOf (look (0 : BitVec 32) p.shutters sid).toNat 8

def ProgSlot.shutterMask (p : ProgSlot) (sid : Nat) : Nat := bits (look (0 : BitVec 32) p.shutters sid).toNat 7 0

/-- Whether an opcode is a control or configuration instruction (R174, R207, R209). -/
def controlOp (op : Nat) : Bool := 1 ≤ op && op ≤ 9

/-- The clk from which the engine waits for its own transfer at a data-path instruction, or at its end (R176). -/
def Coach.awaitsFrom (co : Coach) (e : Engine) : Option Nat :=
  let v := co.engine e
  if !(v.transfer.isSome || v.kin.isSome) then none
  else if v.st = .ended then some 0
  else if v.st = .issuing && !(controlOp (bits (co.wordAt e v.pc) 5 0)) then some v.nextIssue
  else none

/-- The key queue of a task, when it holds one. -/
def State.queueOf (s : State) (key : Nat) : Option (Nat × KeyQueue) :=
  (s.kst.queues.find? fun q => q.2.active && q.2.task = key)

/-- The key queue of a coach's task has sent its whole list, or the task has no list (R193). -/
def State.keysDone (s : State) (key : Nat) : Bool :=
  match s.task? key with
  | none => true
  | some t =>
    if t.keylist.isEmpty then true
    else match s.queueOf key with
      | some (_, q) => decide (t.keylist.length ≤ q.next) && q.set.isEmpty
      | none => true

/-- KIN awaits carts of its own transfer (R176, R193): some are still to be taken, and none stands in the intake buffer. -/
def Coach.kinAwaits (co : Coach) : Bool :=
  match (co.engine .kin).kin with
  | some k => decide (k.done ≤ k.f.count.toNat) && co.intake.isEmpty
  | none => false

/-- The clk from which an engine is stuck, unless it can go on (R193). A transfer of SIN or SOUT keeps its engine busy
whatever the engine waits for, and so does a KCART whose carts the key queue has still to send; one whose carts no queue will send
is stuck, at a shutter that it has not reached as well. -/
def State.stuckFrom (s : State) (co : Coach) (e : Engine) : Option Nat :=
  let v := co.engine e
  let starves := e = .kin && co.kinAwaits
  if v.transfer.isSome || (starves && !(s.keysDone (co.task.getD 0))) then none
  else match v.st with
    | .onWait _ _ => some 0
    | .atShutter _ => if starves then some 0 else none
    | _ => if starves then co.awaitsFrom e else none

/-- The clk from which every engine of a list is stuck, has ended or, where `also` says so, counts as stuck for a reason of
its own, at least one of them being stuck or counting so. -/
def latestStuck (ended : Engine → Bool) (stuck : Engine → Option Nat) (also : Engine → Option Nat) (es : List Engine) : Option Nat :=
  let from_ (e : Engine) : Option Nat := (stuck e).or (also e)
  if es.all (fun e => (from_ e).isSome || ended e) && es.any (fun e => (from_ e).isSome) then
    some (es.foldl (fun a e => max a ((from_ e).getD 0)) 0)
  else none

/-- An engine whose part is over and whose transfer, if any, runs no more. -/
def Coach.engineOver (co : Coach) (e : Engine) : Bool :=
  (co.engine e).st = .ended && (co.engine e).transfer.isNone && (co.engine e).kin.isNone

/-- The clk from which the coach watchdog counts (R193). -/
def State.coachStuck (s : State) (co : Coach) : Option Nat :=
  if co.phase = .running then latestStuck co.engineOver (s.stuckFrom co) (fun _ => none) allEngines else none

/-- A clk that lies beyond every other while a stream engine's arrival waits for its transfer. -/
def notYet : Nat := 2 ^ 70

/-- An engine waits at a device-scope shutter, where it has arrived (R189, R194). -/
def Coach.atDeviceShutter (co : Coach) (e : Engine) : Option Nat :=
  match (co.engine e).st with
  | .atShutter sid => if !(co.prog.shutterFabric sid.toNat) && (co.engine e).shutAt ≠ notYet then some 0 else none
  | _ => none

/-- The clk from which the task watchdog counts (R194). -/
def State.taskStuck (s : State) (t : Task) : Option Nat :=
  let cs := (maskCoaches t.coachMask).filter fun c => (s.coach c).task = some t.key && (s.coach c).phase = .running
  if t.st = .running && !cs.isEmpty then
    let one (c : CoachId) : Option Nat :=
      let co := s.coach c
      if allEngines.all co.engineOver then some 0 else latestStuck co.engineOver (s.stuckFrom co) co.atDeviceShutter allEngines
    if cs.all (fun c => (one c).isSome) && cs.any (fun c => !(allEngines.all (s.coach c).engineOver)) then
      some (cs.foldl (fun a c => max a ((one c).getD 0)) 0)
    else none
  else none

/-- A watchdog count after the `d` clk that follow `clk`, where the clk count from `since` on (R193, R194). -/
def watchCount (count clk d : Nat) (since : Option Nat) : Nat :=
  match since with
  | none => 0
  | some x => if x ≤ clk + 1 then count + d else clk + d + 1 - x

/-- A queued task names the coach. -/
def State.queuedOn (s : State) (c : CoachId) : Bool :=
  s.tasks.any fun t => t.st = .queued && bitOf t.coachMask.toNat c.toNat

/-- A coach is idle for R25. -/
def State.coachIdle (s : State) (c : CoachId) : Bool :=
  let co := s.coach c
  co.phase = .idle && co.dbgReq.isNone && co.repairs.isEmpty && !(s.queuedOn c) && !co.waking

/-- The clk of the present or the next frame boundary (R242, R256). -/
def State.nextBoundary (s : State) : Nat := s.hbm.frameAt + ceilDiv (s.clk - s.hbm.frameAt) 720 * 720

/-- The grant slot in which the refresh of a frame of channel `lam` begins (R256, R262). -/
def State.refreshStart (s : State) (lam : Nat) : Nat :=
  let v := s.stk (stackOf lam)
  (if v.hot then 32 else 36) - (if v.copying.contains (activeOf lam) then 8 else 0)

/-- Logical channel `lam` refreshes in grant slot `slot` of the present frame (R256). -/
def State.refreshing (s : State) (lam slot : Nat) : Bool :=
  s.hbm.frame % 13 = lam % 13 && s.refreshStart lam ≤ slot

/-- How many of the first `n` clk of a frame lie in grant slots from `k` on (R242). -/
def clkOfSlots (k n : Nat) : Nat := min n 720 - 18 * k

/-- Clk of [t0, t1) in which channel `lam` refreshes. -/
def State.refreshClk (s : State) (lam t0 t1 : Nat) : Nat :=
  if s.hbm.frame % 13 = lam % 13 then
    clkOfSlots (s.refreshStart lam) (t1 - s.hbm.frameAt) - clkOfSlots (s.refreshStart lam) (t0 - s.hbm.frameAt)
  else 0

/-- The oldest of the requests that wait (R248). -/
def oldestReq : List Req → Option Req
  | [] => none
  | r :: rest =>
    match oldestReq rest with
    | some q => if r.clkAt ≤ q.clkAt then some r else some q
    | none => some r

/-- The late clk [t0, t1) of a SIN or SOUT transfer, each under the first cause that applies to its oldest outstanding request
in that clk (R248). -/
def Coach.addLate (s : State) (co : Coach) (e : Engine) (t : Transfer) (t0 t1 : Nat) : Coach :=
  match oldestReq t.reqs with
  | none => co.addStall e 1 (t1 - t0)
  | some r =>
    match r.far with
    | .hbm =>
      let lam := channelOf (granuleOf r.addr)
      let t := min t1 (max t0 (r.clkAt + 1))
      let co := co.addStall e 1 (t - t0)
      if s.channelRetrains lam then co.addStall e 7 (t1 - t)
      else
        let n := min (s.refreshClk lam t t1) (t1 - t)
        (co.addStall e 6 n).addStall e 1 (t1 - t - n)
    | .fabric n => co.addStall e (if s.heldByLink n r then 4 else 1) (t1 - t0)
    | .host => co.addStall e 1 (t1 - t0)

/-- One engine over `d` clk from `s.clk`: in each clk it counts under one cause at most, a blocked WAIT before a late
transfer, and a late clk that was lost to a bank conflict has been counted (R247, R248; DESIGN CHOICE, log entry 92). -/
def Coach.tickEngine (s : State) (d : Nat) (co : Coach) (e : Engine) : Coach :=
  let v := co.engine e
  let late (co : Coach) : Coach :=
    match v.transfer, v.kin with
    | some t, _ => if t.planned < s.clk + d then co.addLate s e t (max t.planned (max s.clk v.lostTo)) (s.clk + d) else co
    | none, some k => if k.planned < s.clk + d then co.addStall e 2 (s.clk + d - max k.planned (max s.clk v.lostTo)) else co
    | none, none => co
  match v.st with
  | .onWait door _ => co.addStall e (co.door door).cls.toNat d
  | .atShutter _ => late (co.addShutWait e (s.clk + d - max v.shutAt s.clk))
  | _ => late co

/-- How many adjustments fall into the `d` clk after `clk`, the last before them having been in clk `last`, at one in `gap` clk;
and the clk of the last. -/
def adjustments (clk d last gap : Nat) : Nat × Nat :=
  let first := max (clk + 1) (last + gap)
  if clk + d < first then (0, last) else ((clk + d - first) / gap + 1, first + (clk + d - first) / gap * gap)

/-- A number with the sign of another. -/
def signedAs (n : Nat) (x : Int) : Int := if x < 0 then -(n : Int) else n

/-- Fabric time over `d` clk from `clk`: it is adjusted by one clk at most once in 32, first for the offset and then for the rate
(R298, R299; log entry 58). -/
def Ehl.tick (v : Ehl) (clk d : Nat) : Ehl :=
  let room := adjustments clk d v.lastAdj 32
  let n := min v.slew.natAbs room.1
  let last := if n = 0 then v.lastAdj else room.2 - 32 * (room.1 - n)
  let drifts := if n < v.slew.natAbs ∨ v.drift = 0 then (0, last) else adjustments clk d last (max 32 v.drift.natAbs)
  { v with
    ftime := (((v.ftime + d : Nat) : Int) + signedAs n v.slew + signedAs drifts.1 v.drift).toNat % 2 ^ 64
    slew := v.slew - signedAs n v.slew, lastAdj := drifts.2 }

/-- The clk in which a task's engines issue instruction 0 falls within the next `d`: the fabric time of that clk (R197). -/
def State.startTimeIn (s : State) (d : Nat) (t : Task) : Option Word64 :=
  if s.clk < t.t0 ∧ t.t0 ≤ s.clk + d then some (BitVec.ofNat 64 (s.ehl.tick s.clk (t.t0 - s.clk)).ftime) else none

/-- One coach over `d` clk. -/
def Coach.tick (s : State) (d : Nat) (c : CoachId) (co : Coach) : Coach :=
  if co.phase = .running then
    { (allEngines.foldl (Coach.tickEngine s d) co) with
      wdogCount := watchCount co.wdogCount s.clk d (s.coachStuck co), idleCount := 0, early := []
      startTime := match (s.taskOf c).bind (s.startTimeIn d) with
        | some x => x
        | none => co.startTime }
  else { co with idleCount := if s.coachIdle c && !co.gated then co.idleCount + d else 0, early := [] }

/-! ## Task starts (R84, R183, R196, R225, R270, R343, R414) -/

/-- A coach runs no task, no scrub, no row repair and no debug access, and none of the latter waits. -/
def Coach.free (co : Coach) : Bool := co.phase = .idle && co.dbgReq.isNone && co.repairs.isEmpty

/-- A slot of the coach holds the program. -/
def Coach.holds (co : Coach) (id : BitVec 32) : Bool :=
  (co.slotA.valid && co.slotA.progId = id) || (co.slotB.valid && co.slotB.progId = id)

/-- Every start condition of a queued task but the key queue and the throttle. -/
def State.startReady (s : State) (t : Task) : Bool :=
  t.st = .queued &&
    (maskCoaches t.coachMask).all (fun c => (s.coach c).free && (s.coach c).holds t.f.programId &&
      s.tasks.all fun u => !(u.st = .aborting && bitOf u.coachMask.toNat c.toNat && !(u.scrubbed.contains c.toNat))) &&
    s.tasks.all (fun u => !(u.st = .queued && u.key < t.key && u.coachMask &&& t.coachMask ≠ 0)) &&
    (List.range 8).all fun k => !(s.stk k).filling

/-- The lowest-numbered free key queue. -/
def State.freeQueue (s : State) : Option Nat := (List.range 16).find? fun q => !(look KeyQueue.idle s.kst.queues q).active

/-- A task has its key queue: it needs none, or one is free and no earlier task is entitled to it. -/
def State.queueReady (s : State) (t : Task) : Bool :=
  t.keylist.isEmpty ||
    (s.freeQueue.isSome && s.tasks.all fun u => !(u.key < t.key && !u.keylist.isEmpty && s.startReady u))

/-- A start that only THROTTLE withholds (R414). -/
def State.startWithheld (s : State) : Bool :=
  s.board.throttle && s.tasks.any fun t => decide (t.coachMask ≠ 0) && s.startReady t && s.queueReady t

/-! ## Bank accesses (R74, R75, R79, R82, R87, R105, R106, R433) -/

def Coach.bank (co : Coach) (b : Nat) : Bank := look Bank.reset co.banks b

def Coach.setBank (co : Coach) (b : Nat) (v : Bank) : Coach := { co with banks := store Bank.reset co.banks b v }

/-- A bank serves an access (R82, R84): in the clk in which it enters OFF as while it drained, and of writes those that it counts,
whose instruction issued no later than the power-down. -/
def Bank.serves (b : Bank) (a : Acc) : Bool :=
  let counted := !a.write || (b.downAt.any fun t => decide (a.issued ≤ t))
  match b.st with
  | .on => true
  | .draining => counted
  | .off => decide (a.clk ≤ b.since) && counted
  | .waking => false

/-- The engines that wait in clk `t`, since an engine of lower ID reaches one of their banks (R79). -/
def Coach.losers (co : Coach) (t : Nat) : List Engine :=
  let batch := co.accs.filter fun a => a.act = .bank && decide (a.clk ≤ t)
  (allEngines.foldl (fun (p : List Engine × List Nat) e =>
    let mine := (batch.filter fun a => decide (a.engine = e)).map fun a => a.row / 2048
    if mine.any fun b => p.2.contains b then (p.1 ++ [e], p.2) else (p.1, p.2 ++ mine)) ([], [])).1

/-- A planned clk after `t` comes one clk later. -/
def later (t x : Nat) : Nat := if t < x then x + 1 else x

/-- A transfer that loses clk `t` to a bank conflict: its near side, and for SOUT the requests and images that leave with it. -/
def Transfer.later (x : Transfer) (t : Nat) (sout : Bool) : Transfer :=
  let go (n : Nat) : Nat := if sout && decide (t ≤ n) then n + 1 else n
  { x with
    free := Machine.later t x.free, images := x.images.map fun i => (go i.1, i.2)
    reqs := x.reqs.map fun q => if q.left then q else { q with clkAt := go q.clkAt } }

/-- An access put off by a bank conflict in clk `t`: its fill bit is checked against its value before the clk in which it first came
(R106). -/
def Acc.later (a : Acc) (t : Nat) (fill : SMap Bool) : Acc :=
  { a with
    clk := max a.clk t + 1
    full := if a.act = .bank && decide (a.clk ≤ t) then some (a.full.getD (look false fill a.row)) else a.full }

/-- Engine `e` waits in clk `t` for a bank: the clk counts under BANK_CONFLICT, and whatever its instructions under way have
still to do, as well as its next issue, comes one clk later (R79, R112, R433; log entry 14). -/
def Coach.delay (co : Coach) (t : Nat) (e : Engine) : Coach :=
  let v := co.engine e
  let mine := co.opens.filter fun o => decide (o.engine = e ∧ t < o.due)
  let rows := mine.flatMap fun o => o.filled.filter fun r => decide (look 0 co.spadDue r = o.due)
  let fill := co.fill
  let co := match v.st with
    | .onWait _ _ => co
    | _ => co.addStall e 5 1
  let co := co.setEngine e { v with
    lostTo := t + 1, busyUntil := later t v.busyUntil, nextIssue := if v.st = .issuing then later t v.nextIssue else v.nextIssue
    transfer := v.transfer.map fun x => x.later t (decide (e = .sout)), kin := v.kin.map fun x => { x with free := later t x.free } }
  let hdr (w : HdrWrite) : HdrWrite := if w.engine = eid e then { w with due := later t w.due } else w
  { co with
    accs := co.accs.map fun a => if a.engine = e then a.later t fill else a
    opens := co.opens.map fun o => if o.engine = e then { o with due := later t o.due } else o
    spadDue := rows.eraseDups.foldl (fun m r => store 0 m r (look 0 m r + 1)) co.spadDue
    hdrLate := co.hdrLate.foldl (fun l w => insertWrite (hdr w) l) []
    tagLate := if e = .kin then co.tagLate.map fun w => { w with due := later t w.due } else co.tagLate
    sigs := co.sigs.map fun g => if g.engine = e then { g with due := later t g.due } else g
    vregDue := if e = .vec then co.vregDue.map fun r => (r.1, later t r.2) else co.vregDue
    actDue := if e = .ksa then later t co.actDue else co.actDue }

/-- A row that needs repair is noted once (R76). -/
def Coach.needRepair (co : Coach) (row : Nat) : Coach :=
  if co.repairs.contains row then co else { co with repairs := co.repairs ++ [row] }

/-- Errors of a row met by a read: single ones are corrected and counted, a double one is uncorrectable (R75, R76).
Answers the first slot with an uncorrectable error. -/
def Coach.eccRead (co : Coach) (row : Nat) : Option Nat × Coach :=
  (co.ecc.filter fun e => decide (e.1 / 64 = row)).foldl (fun (r : Option Nat × Coach) e =>
    let co := r.2
    match e.2 with
    | some .single =>
      let n := look 0 co.rowCorr row + 1
      let co := { (co.hit 3 co.eccCorrSet.toNat) with
        eccCorr := true, eccCorrSet := satInc co.eccCorrSet, rowCorr := store 0 co.rowCorr row n
        eccAddr := BitVec.ofNat 32 (e.1 % 64 * 2 ^ 16 + row) }
      (r.1, if n = 8 then co.needRepair row else co)
    | some .double =>
      let co := { (co.hit 2 co.eccUncorrSet.toNat) with
        eccUncorr := true, eccUncorrSet := satInc co.eccUncorrSet
        eccAddr := BitVec.ofNat 32 (2 ^ 22 + e.1 % 64 * 2 ^ 16 + row) }
      (some (r.1.getD (e.1 % 64)), co.needRepair row)
    | none => r) (none, co)

/-- The errors of a row that a read meets (R75). -/
def State.meetErrors (s : State) (c : CoachId) (row : Nat) : State :=
  let r := (s.coach c).eccRead row
  let s := s.setCoach c r.2
  match r.1 with
  | some slot => s.latchCoach c .memUncorr (2 ^ 63 + slot * 2 ^ 16 + row)
  | none => s

/-- A row is written: its content, the error state of the slots written, and its fill bit; a row that the KSA or the NTE writes in
scratchpad mode keeps the clk (R74, R75, R87, R143). -/
def Coach.writeRow (co : Coach) (clk : Nat) (a : Acc) : Coach :=
  { co with
    spad := store 0 co.spad a.row (a.put (look 0 co.spad a.row)), fill := store false co.fill a.row true
    ecc := co.ecc.filter fun e => decide (¬(e.1 / 64 = a.row ∧ a.slots.contains (e.1 % 64) = true))
    tileAt := if co.coupling = 0 && (a.engine = .ksa || a.engine = .nte) then insert co.tileAt a.row clk else co.tileAt }

/-- A hazard of an access, where the hazard check is on. -/
def State.hazardOf (s : State) (c : CoachId) (a : Acc) (kind : Nat) : State :=
  if (s.coach c).hazardOn then s.hazardCoach c kind a.info.toNat (kind * 2 ^ 32 + a.info.toNat) else s

/-- The check of an access: its engine must be allowed it, and its row's fill bit `full` be as R105 wants it. -/
def State.checkAcc (s : State) (c : CoachId) (a : Acc) (full : Bool) : State :=
  let allowed := !a.checked || (if a.write then mayWrite a.kind a.engine else mayRead a.kind a.engine)
  if !allowed then s.hazardOf c a (if a.write then 3 else 7)
  else if a.write then (if a.kind ≠ 1 && full && !a.own then s.hazardOf c a 2 else s)
  else if a.checked && !full then s.hazardOf c a 1
  else s

/-- A read brings the content of its row, with the errors it meets, and clears the fill bit where R87 says so. -/
def State.readRow (s : State) (c : CoachId) (a : Acc) : State :=
  let s := s.meetErrors c a.row
  let s := if a.want = .nothing then s else s.learnRow c a (look 0 (s.coach c).spad a.row)
  if a.clears then s.onCoach c fun co => { co with fill := store false co.fill a.row false } else s

/-- An access is made: its bank must serve it; it is checked against its row's fill bit as it stood before the clk, which then follows
R87 (R106). A write changes the row, and a read brings its content and its errors. -/
def State.serveBank (fill : SMap Bool) (c : CoachId) (s : State) (a : Acc) : State :=
  if a.kind = 0 then s.hazardOf c a 4
  else if !(((s.coach c).bank (a.row / 2048)).serves a) then s.latchCoach c .bankOff a.info.toNat
  else
    let s := s.checkAcc c a (a.full.getD (look false fill a.row))
    if a.write then s.onCoach c fun co => co.writeRow s.clk a else s.readRow c a

/-! ## Tiles (R30, R132, R143) -/

/-- A tile enters the tile queue: with sixteen before it that is a hazard, or the tile is undefined (R30). -/
def State.pushTile (s : State) (c : CoachId) (a : Acc) : State :=
  let q := (s.coach c).tileQueue
  let tile : QTile := { clk := s.clk, info := a.info.toNat, src := (((s.coach c).openOf a).map (·.use)).getD 0, data := a.data }
  if q.length < 16 then s.onCoach c fun co => { co with tileQueue := q ++ [tile] }
  else if (s.coach c).hazardOn then s.hazardOf c a 5
  else (s.onCoach c fun co => { co with tileQueue := q ++ [{ tile with data := freeTile s.freeCtr 0 }] }).freed

/-- The VEC pops the oldest tile whose push lies before the present clk; with none an underflow is a hazard, or the tile is
undefined (R30, R143). -/
def State.popTile (s : State) (c : CoachId) (a : Acc) : State :=
  let miss (s : State) : State :=
    let s := s.hazardOf c a 6
    (s.learn c a (.tile 0 (freeTile s.freeCtr 0))).freed
  match (s.coach c).tileQueue with
  | e :: rest => if e.clk < s.clk then (s.onCoach c fun co => { co with tileQueue := rest }).learn c a (.tile e.src e.data) else miss s
  | [] => miss s

/-- A member takes a tile of its chain input buffer (R132). -/
def State.takeTile (s : State) (c : CoachId) (a : Acc) : State :=
  let k := chainTake s.clk (s.coach c).chainIn
  (s.onCoach c fun co => { co with chainIn := k.2 }).learn c a (.chain k.1)

/-- A tile sets out along the chain: it reaches the next coach, when that runs the same task, with its last row 19 clk later (R23,
R132). -/
def State.sendTile (s : State) (c : CoachId) (a : Acc) : State :=
  match a.tile with
  | some t =>
    if (s.coach (nextInQuarter c)).task = (s.coach c).task then
      s.onCoach (nextInQuarter c) fun co => { co with chainIn := co.chainIn ++ [{ t with arrived := s.clk + 19 }] }
    else s
  | none => s

/-! ## What is planned for a clk -/

/-- An instruction does what it has planned for the present clk. -/
def State.serveAcc (fill : SMap Bool) (c : CoachId) (s : State) (a : Acc) : State :=
  match a.act with
  | .bank => s.serveBank fill c a
  | .fail payload => s.latchCoach c .gatherRange payload
  | .push => s.pushTile c a
  | .pop => s.popTile c a
  | .take => s.takeTile c a
  | .send => s.sendTile c a

/-- The order of a clk: tiles are popped and taken, accesses follow in ascending engine ID, tiles are pushed and sent (R30, R79). -/
def Acc.rank (a : Acc) : Nat :=
  match a.act with
  | .pop | .take => 0
  | .bank | .fail _ => 1 + eid a.engine
  | .push | .send => 10

/-- The first of what is planned for clk `t`, and the others. -/
def nextAcc (t : Nat) : List Acc → Option (Acc × List Acc)
  | [] => none
  | a :: rest =>
    match nextAcc t rest with
    | some (b, others) => if decide (a.clk ≤ t) && decide (a.rank ≤ b.rank) then some (a, rest) else some (b, a :: others)
    | none => if a.clk ≤ t then some (a, rest) else none

/-- What is planned for clk `t` is done, one after another; `fuel` is at least their number. -/
def State.serveDue (fill : SMap Bool) (t : Nat) (c : CoachId) : Nat → State → State
  | 0, s => s
  | fuel + 1, s =>
    match nextAcc t (s.coach c).accs with
    | some (a, rest) => State.serveDue fill t c fuel ((s.onCoach c fun co => { co with accs := rest }).serveAcc fill c a)
    | none => s

/-- Credits of carts that KIN takes go back a clk later when it loses clk `t` (R237). -/
def Kst.putOff (k : Kst) (t : Nat) (c : CoachId) : Kst :=
  { k with back := k.back.map fun b => if b.recv = c && !b.all && decide (t + 172 < b.due) then { b with due := b.due + 1 } else b }

/-- What a coach has planned for clk `t`: engines that lose a bank wait, the others go on. -/
def State.serveAccs (s : State) (t : Nat) (c : CoachId) : State :=
  let co := s.coach c
  if co.accs.any fun a => decide (a.clk ≤ t) then
    let lose := co.losers t
    let s1 := s.setCoach c (lose.foldl (fun co e => co.delay t e) co)
    let s2 := if lose.contains .kin then { s1 with kst := s1.kst.putOff t c } else s1
    State.serveDue co.fill t c co.accs.length s2
  else s

/-! ## The end of a clk -/

/-- A blocked WAIT is satisfied in clk `t` where the value left of its door at the start of the clk covers it (R186). -/
def Coach.tryWait (t : Nat) (co : Coach) (e : Engine) : Coach :=
  let v := co.engine e
  match v.st with
  | .onWait d n =>
    if n.toNat ≤ (co.door d).value.toNat then
      (co.setDoor d { co.door d with value := (co.door d).value - n }).setEngine e (v.resumeAt t)
    else co
  | _ => co

/-- What the bank held is gone. -/
def Coach.loseBank (co : Coach) (b : Nat) : Coach :=
  let keep (row : Nat) : Bool := decide (row / 2048 ≠ b)
  { co with
    spad := co.spad.filter fun r => keep r.1
    fill := co.fill.filter fun r => keep r.1
    ecc := co.ecc.filter fun e => keep (e.1 / 64) }

/-- The contents of a bank are lost at the end of the clk in which it enters OFF (R83, R84). -/
def Coach.emptyBanks (t : Nat) (co : Coach) : Coach :=
  ((keys co.banks).filter fun b => (co.bank b).st = .off && decide ((co.bank b).since = t)).foldl Coach.loseBank co

/-- A bank at rest whose target differs from its state follows it in the next clk; a drain that begins so has a zero counter (R84,
R432). -/
def Coach.followBank (t : Nat) (co : Coach) (b : Nat) : Coach :=
  let v := co.bank b
  match v.st, v.target with
  | .off, true => co.setBank b { v with st := .waking, since := t + 1 }
  | .on, false => co.setBank b { v with st := .draining, since := t + 1, downAt := none }
  | _, _ => co

/-- Doors and banks of a coach at the end of clk `t`: WAITs in ascending engine ID, then the amounts of the clk (R186,
R187). -/
def Coach.endClk (t : Nat) (co : Coach) : Coach :=
  let co := ((allEngines.foldl (Coach.tryWait t) co).settleDoors t).emptyBanks t
  (keys co.banks).foldl (Coach.followBank t) co

/-- The next clk, not before `now`, in which something of the coach falls due. -/
def Coach.nextEvent (now : Nat) (co : Coach) : Option Nat :=
  let clks := co.accs.map (·.clk) ++ (co.doors.flatMap fun d => d.2.adds.map (·.1)) ++
    (if co.phase = .running then [Engine.sin, Engine.sout].flatMap fun e => match (co.engine e).transfer with
        | some v => (v.reqs.filter fun q => !q.left).map (·.clkAt)
        | none => []
      else []) ++
    (if allEngines.any fun e => match (co.engine e).st with
        | .onWait d n => decide (n.toNat ≤ (co.door d).value.toNat)
        | _ => false
      then [now] else []) ++
    (if co.banks.any fun b => (b.2.st = .off && (b.2.target || decide (b.2.since = now))) || (b.2.st = .on && !b.2.target) then [now]
     else [])
  match clks with
  | [] => none
  | x :: rest => some (max now (rest.foldl min x))

/-- The next clk in which something falls due in any coach, a port may go on, or ABORT packets go out. -/
def State.nextEvent (s : State) : Option Nat :=
  ((s.coaches.filterMap fun e => e.2.nextEvent s.clk) ++ s.portTimes.map (·.2) ++
    (if s.tasks.any (Task.tells s.clk) then [s.clk] else [])).min?

/-- The end of the present clk: accesses are made and tiles move, requests leave their coaches with stamps by the fill bits as they stood
before the clk, ports go on after a flit or a replay, ABORT packets go out, and WAITs, doors and banks follow. -/
def State.endClk (s : State) : State :=
  let s1 := (s.listed.foldl (fun s c => s.serveAccs s.clk c) s).leave (fun c => (s.coach c).fill) s.clk
  let s2 := if s1.portTimes.isEmpty then s1 else s1.portsGoOn.reapWrites
  s2.tellAborts.mapCoaches fun _ co => co.endClk s.clk

/-- `d` clk pass, in which nothing falls due. -/
def State.pass (s : State) (d : Nat) : State :=
  let withheld := if s.startWithheld then count48 (s.board.withheld + d) else s.board.withheld
  { (s.mapCoaches (Coach.tick s d)) with
    clk := s.clk + d, early := sameCycle s.early s.clk d
    tasks := s.tasks.map fun t => { t with
      wdogCount := watchCount t.wdogCount s.clk d (s.taskStuck t)
      startTime := (s.startTimeIn d t).getD t.startTime }
    kst := s.tickKst d
    ehl := s.ehl.tick s.clk d
    board := { s.board with withheld := withheld } }

/-- The clock comes to `t`, before which nothing falls due. -/
def State.skip (s : State) (t : Nat) : State := if t ≤ s.clk then s else s.pass (t - s.clk)

/-- The clock comes to `t1`, clk by clk where something falls due; `fuel` is at least the number of clk. -/
def State.runTo (t1 : Nat) : Nat → State → State
  | 0, s => s
  | fuel + 1, s =>
    if t1 ≤ s.clk then s
    else match s.nextEvent with
      | some t => if t < t1 then State.runTo t1 fuel ((s.skip t).endClk.pass 1) else s.pass (t1 - s.clk)
      | none => s.pass (t1 - s.clk)

/-- `d` clk pass. -/
def State.tick (s : State) (d : Nat) : State := s.runTo (s.clk + d) (d + 1)

/-- The clock is at least `t`: what happens at a planned clk happens no earlier. -/
def State.advance (s : State) (t : Nat) : State := if t ≤ s.clk then s else s.tick (t - s.clk)

end Sys2Proof.Machine
end

