-- ==== Sys2Proof/Machine/Flags.lean ====
section
/-! DEFINITION. Budget, level and scale accounting: the header unit of a coach (R49 to R52, R61 to R72). -/

namespace Sys2Proof.Machine

open Sys2Proof

/-! ## Visibility (R67, R70) -/

/-- Headers and tags whose clk has come become visible; of two headers written in one clk the lower engine ID's stands. -/
def Coach.settle (co : Coach) (clk : Nat) : Coach :=
  let co := co.takeImages clk
  let co' := (co.hdrLate.filter fun w => decide (w.due ≤ clk)).foldl (fun c w => c.setHeader w.slot w.value) co
  { co' with
    hdrLate := co.hdrLate.filter fun w => decide (clk < w.due)
    regionTags := (co.tagLate.filter fun w => decide (w.due ≤ clk)).foldl (fun m w => store noKeyTag m w.region w.tag) co.regionTags
    tagLate := co.tagLate.filter fun w => decide (clk < w.due) }

def Coach.writeHeader (co : Coach) (due engine slot : Nat) (h : Header) : Coach :=
  if slot = 0 then co else { co with hdrLate := insertWrite { due := due, engine := engine, slot := slot, value := h } co.hdrLate }

/-! ## Key tags (R61 to R64) -/

def Coach.ctx? (co : Coach) (c : BitVec 14) : Option CtxTag := co.ctxList.find? fun x => x.context = c

/-- The tag the task context list holds for a context: none for a context absent from it or only CREATED (R53, R61). -/
def Coach.tagOf (co : Coach) (c : BitVec 14) : Option Word64 :=
  match co.ctx? c with
  | some x => x.tag
  | none => none

/-- A failed key-tag check: the two context IDs and whether the compared tag was the no-key tag (R359). -/
structure Mismatch where
  operand : BitVec 14
  second : BitVec 14
  noKey : Bool

/-- The context of the list that is bound to a tag, else 0 (log entry 22). -/
def Coach.ctxWithTag (co : Coach) (t : Word64) : BitVec 14 :=
  match co.ctxList.find? fun x => x.tag = some t with
  | some x => x.context
  | none => 0

/-- The key-tag check of R63 over the ciphertext operands and the regions whose rows are read. -/
def Coach.keyCheck (co : Coach) (cts : List Header) (regions : List Nat) : Option Mismatch :=
  match cts with
  | [] =>
    match regions with
    | [] => none
    | r :: _ =>
      let t := co.regionTag r
      some { operand := 0, second := if t = noKeyTag then 0 else co.ctxWithTag t, noKey := t = noKeyTag }
  | h :: rest =>
    let t := co.tagOf h.context
    match cts.find? fun x => !(co.ctx? x.context).isSome with
    | some x => some { operand := x.context, second := 0, noKey := false }
    | none =>
      match rest.find? fun x => x.context ≠ h.context && (t.isNone || co.tagOf x.context ≠ t) with
      | some x => some { operand := h.context, second := x.context, noKey := false }
      | none =>
        match regions.find? fun r => t ≠ some (co.regionTag r) || co.regionTag r = noKeyTag with
        | some r =>
          let u := co.regionTag r
          some { operand := h.context, second := if u = noKeyTag then 0 else co.ctxWithTag u, noKey := u = noKeyTag }
        | none => none

/-! ## The rules of R68 and R69 -/

/-- The numbers of a set that the rules use; for a set that is absent from the table they are open (log entry 1). -/
structure SetNums where
  cost : Nat → Nat
  freshPacked : Nat
  freshBitwise : Nat
  msgBits : Nat
  scaleLog : Nat
  primeBits : Nat → Nat

def setNums (p : Option PolicyEntry) (use : Nat) : SetNums :=
  match p with
  | some p =>
    { cost := fun c => p.cost.getD c 0, freshPacked := p.freshPacked, freshBitwise := p.freshBitwise,
      msgBits := p.msgBits, scaleLog := p.scaleLog, primeBits := fun i => if i < 48 then p.primeBits.getD i 0 else 0 }
  | none =>
    let f := fun i => Config.freeNat use i % 65536
    { cost := f, freshPacked := f 32, freshBitwise := f 33, msgBits := f 34 % 16, scaleLog := f 35 % 256,
      primeBits := fun i => f (64 + i) % 256 }

/-- Budget, level and scale of the result (R68): `ops` are the operands in operand order, `cts` the ciphertexts among
them, `h` the first of these. -/
def classRule (n : SetNums) (cls : Option Nat) (param : Nat) (ops cts : List Header) (h : Header) : Int × Int × Int :=
  let minB : Int := cts.foldl (fun a x => min a (x.budget.toNat : Int)) h.budget.toNat
  let minL : Int := cts.foldl (fun a x => min a (x.level.toNat : Int)) h.level.toNat
  let maxE (l : List Header) : Int := l.foldl (fun a x => max a (x.scaleExp.toNat : Int)) h.scaleExp.toNat
  let minE (l : List Header) : Int := l.foldl (fun a x => min a (x.scaleExp.toNat : Int)) h.scaleExp.toNat
  let sumE (l : List Header) : Int := l.foldl (fun a x => a + x.scaleExp.toNat) 0
  let b : Int := h.budget.toNat
  let l : Int := h.level.toNat
  let e : Int := h.scaleExp.toNat
  let cost (c : Nat) : Int := n.cost c
  let diff := cost 7 * (maxE ops - minE ops)
  match cls with
  | some 0 => (minB - cost 0 - diff, minL, maxE cts)
  | some 1 => (b - cost 1 - diff, l, maxE ops)
  | some 2 => (b - cost 2, l, sumE ops)
  | some 3 => (minB - cost 3, minL, sumE cts)
  | some 4 => (b - cost 4, l, e)
  | some 5 => (b - cost 5, l - 1, e - n.primeBits h.level.toNat)
  | some 6 => (b - cost 6, l - param, e)
  | some 7 => (b - diff, l, e)
  | some 8 => (n.freshBitwise - cost 8, 0, n.msgBits)
  | some 9 => (minB - cost 9, 0, e)
  | some 10 => (b - cost 10 * bitLen (signed 32 param).natAbs, 0, e)
  | some 11 => (n.freshBitwise - cost 11, 0, param)
  | some 12 => (b - cost 12, 0, e)
  | some 13 => (n.freshPacked - cost 13, param, n.scaleLog)
  | _ => (b, l, e)

/-- The scheme of the result (R69): that of the first ciphertext operand but for the classes that name one. -/
def resultScheme (cls : Option Nat) (h : Header) : Scheme :=
  match cls with
  | some 8 => .lwe | some 11 => .lwe | some 12 => .lwe | some 13 => .packed
  | _ => h.scheme

def PolicyEntry.hasPart (p : PolicyEntry) (sc : Scheme) : Bool :=
  match sc with
  | .plain => true
  | .packed => p.packed
  | _ => p.bitwise

def PolicyEntry.floor (p : PolicyEntry) (sc : Scheme) : Nat :=
  match sc with
  | .packed => p.floorPacked
  | _ => p.floorBitwise

/-- Poison while it is gathered: the origin found, and whether this instruction's own cause set it. -/
structure Poison where
  on : Bool
  engine : BitVec 3
  index : BitVec 13
  own : Bool

/-- A line marked "poison if not already" (R69). -/
def Poison.add (p : Poison) (cond : Bool) (e : BitVec 3) (i : BitVec 13) : Poison :=
  if cond && !p.on then { on := true, engine := e, index := i, own := true } else p

/-- The first lines of R69: an uninitialised operand, else the first poisoned operand. -/
def operandPoison (ops : List Header) (e : BitVec 3) (i : BitVec 13) : Poison :=
  if ops.any fun h => h = Header.uninit then { on := true, engine := e, index := i, own := true }
  else match ops.find? fun h => h.poison with
    | some h => { on := true, engine := h.originEngine, index := h.originIndex, own := false }
    | none => { on := false, engine := 0, index := 0, own := false }

/-- What the header unit computes: the result header, own-cause poisoning, a failed key-tag check. -/
structure HdrResult where
  header : Header
  own : Bool
  mismatch : Option Mismatch

/-- R69. `ops` are the operand headers in operand order; slot 0 stands for its fixed plain header (R50, R69; log entry 21).
`regions` are the key-window regions whose rows are read; `e`, `i` this instruction. The origin fields of a result that is
not poisoned carry no meaning (R49): the model stores 0 there (DESIGN CHOICE, log entry 90). Where the set is absent from the table, no level limit is
known and the level of a packed result is not clamped (DESIGN CHOICE, log entry 18). -/
def headerRule (s : State) (co : Coach) (cls : Option Nat) (param : Nat) (ops : List Header) (regions : List Nat)
    (e : BitVec 3) (i : BitVec 13) : HdrResult :=
  let cts := ops.filter fun h => h.isCt
  let mm := co.keyCheck cts regions
  let p := operandPoison ops e i
  match cts with
  | [] =>
    let p := p.add mm.isSome e i
    let first := ops.headD Header.fixedPlain
    let h := if p.on then { first with poison := true, originEngine := p.engine, originIndex := p.index } else first
    { header := h, own := p.on && p.own, mismatch := mm }
  | h :: _ =>
    let entry := s.entry? h.paramSet
    let r := classRule (setNums entry s.freeCtr) cls param ops cts h
    let tooHigh := 255 < r.2.2
    let tooLow := r.2.2 < 0
    let sc := resultScheme cls h
    let b : Int := if tooHigh ∨ tooLow then 0 else r.1
    let x : Int := if tooHigh then 255 else if tooLow then 0 else r.2.2
    let p := p.add mm.isSome e i
    let p := p.add (match entry with | some q => !q.usable || !(q.hasPart sc) | none => true) e i
    let p := p.add (match entry with | some q => decide (b < q.floor sc) | none => false) e i
    let p := p.add (decide (r.2.1 < 0)) e i
    let top : Int := match entry with | some q => (q.limbs : Int) - 1 | none => 63
    let high := decide (sc = .packed) && decide (top < r.2.1)
    let p := p.add high e i
    let lvl := if high then top else r.2.1
    { header :=
        { originEngine := if p.on then p.engine else 0, originIndex := if p.on then p.index else 0, poison := p.on,
          scaleExp := BitVec.ofNat 8 x.toNat, budget := BitVec.ofNat 16 (max b 0).toNat,
          level := BitVec.ofNat 6 (max lvl 0).toNat, paramSet := h.paramSet, scheme := sc, context := h.context },
      own := p.on && p.own, mismatch := mm }

/-! ## Recording a result -/

/-- A header result that comes to be written poisoned counts once for its instruction (`again` where it has counted), and
the earliest own cause is the first origin (R72); of two own causes of one clk in one coach, where R72 names no order, the one
accounted first stays (DESIGN CHOICE, log entry 91). -/
def Coach.countPoison (co : Coach) (c : CoachId) (h : Header) (own : Bool) (due : Nat) (again : Bool) : Coach :=
  if !h.poison then co
  else
    let o : Origin := { coach := c, engine := h.originEngine, index := h.originIndex, clkAt := due }
    let first := if !own then co.first else
      match co.first with
      | some f => if due < f.clkAt then some o else some f
      | none => some o
    { co with poisonCount := if again then co.poisonCount else co.poisonCount + 1, first := first }

/-- A failed key-tag check counts; the first of the task on the coach raises KEY_MISMATCH (R64, R359). -/
def State.keyMismatch (s : State) (c : CoachId) (e : BitVec 3) (i : BitVec 13) (m : Mismatch) : State :=
  let co := s.coach c
  let s := s.setCoach c { co with mismatch := co.mismatch + 1, mismatchRaised := true }
  if co.mismatchRaised then s
  else s.raise c.toNat 2 (co.taskId.toNat * 2 ^ 51 + c.toNat * 2 ^ 45 + e.toNat * 2 ^ 42 + i.toNat * 2 ^ 29 +
    flag m.noKey * 2 ^ 28 + m.second.toNat * 2 ^ 14 + m.operand.toNat)

/-- The header unit serves an instruction of coach `c`: `hdrs` are the operand header slots, `r` the result's, `due` the
clk from which the result is visible (R67 to R72). -/
def State.account (s : State) (c : CoachId) (e : Engine) (i : BitVec 13) (cls : Option Nat) (param : Nat)
    (hdrs : List Nat) (r : Nat) (regions : List Nat) (due : Nat) : State :=
  let co := (s.coach c).settle s.clk
  let ops := hdrs.map co.headerRaw
  let eb := BitVec.ofNat 3 (eid e)
  let x := headerRule s co cls param ops regions eb i
  let co := co.countPoison c x.header x.own due false
  let s := (s.setCoach c (co.writeHeader due (eid e) r x.header)).freed
  match x.mismatch with
  | some m => s.keyMismatch c eb i m
  | none => s

/-- An instruction without a header field that reads key rows has no ciphertext operand: its key-tag check fails (R63). -/
def State.keyRead (s : State) (c : CoachId) (e : Engine) (i : BitVec 13) (regions : List Nat) : State :=
  let co := (s.coach c).settle s.clk
  match co.keyCheck [] regions with
  | some m => (s.setCoach c co).keyMismatch c (BitVec.ofNat 3 (eid e)) i m
  | none => s

end Sys2Proof.Machine
end

