-- ==== Sys2Proof/Machine/Operands.lean ====
section
/-! DEFINITION. Row operands: the scratchpad map, reads and writes with their checks, and the issue of an instruction
(R74, R75, R82 to R87, R104 to R106, R111, R174 to R176, R200 to R208, R431). -/

namespace Sys2Proof.Machine

open Sys2Proof

/-! ## Issue -/

/-- Whether an engine can issue now (R174 to R176): the coach runs a task, the engine is issuing, and for a data-path
instruction no transfer of its own is open. -/
def Coach.canIssue (co : Coach) (e : Engine) (dataPath : Bool) : Bool :=
  co.phase = .running && (co.engine e).st = .issuing &&
    !(dataPath && ((co.engine e).transfer.isSome || (co.engine e).kin.isSome))

/-- The clock comes to an engine's planned clk, which a bank conflict on the way may put off (R79). -/
def State.reachIssue (c : CoachId) (e : Engine) : Nat → State → State
  | 0, s => s
  | fuel + 1, s =>
    let t := ((s.coach c).engine e).nextIssue
    if t ≤ s.clk then s else State.reachIssue c e fuel (s.advance t)

/-- The engine issues its next instruction: the clock comes to its planned clk (R175). -/
def State.atIssue (s : State) (c : CoachId) (e : Engine) : State := State.reachIssue c e ((s.coach c).accs.length + 1) s

/-- The issuing engine goes on to its next instruction (R175, R177). -/
def EngineS.issued (v : EngineS) (clk hold : Nat) : EngineS :=
  { v with nextIssue := clk + 1 + hold }.goto (v.pc + 1)

/-- Where a signal with a remote flag goes: this coach, or the coach named when it belongs to the task; naming any other
gives an undefined result within the task (R185, R180; log entry 1). -/
def State.sigTarget (s : State) (c target : CoachId) : Option CoachId :=
  if target = c then some c
  else match s.taskOf c with
    | some t => if bitOf t.coachMask.toNat target.toNat then some target else none
    | none => none

/-- A signal that has its clk and door, or an undefined one within the coaches of the task. -/
def State.mkSig (s : State) (c target : CoachId) (e : Engine) (door : BitVec 8) (amount : BitVec 16) (due : Nat) : Sig :=
  match s.sigTarget c target with
  | some t => { engine := e, coach := t, door := door, amount := amount, due := due }
  | none =>
    let cs := match s.taskOf c with
      | some t => maskCoaches t.coachMask
      | none => [c]
    { engine := e, coach := cs.getD (s.freeNat 0 % cs.length) c, door := BitVec.ofNat 8 (s.freeNat 1),
      amount := BitVec.ofNat 16 (s.freeNat 2), due := due }

/-- A completion signal, to coach `remote` where CS_REM is set (R200, R201). -/
def State.pushSig (s : State) (c : CoachId) (e : Engine) (com : Common) (remote : CoachId) (due : Nat) : State :=
  if com.csAmt = 0 then s
  else
    let g := s.mkSig c (if com.csRem then remote else c) e com.csDoor (BitVec.ofNat 16 com.csAmt.toNat) due
    s.onCoach c fun co => { co with sigs := co.sigs ++ [g] }

/-- The completion signal of a data-path instruction, to the coach that word 3 names at its issue (R207). -/
def State.pushCs (s : State) (c : CoachId) (e : Engine) (com : Common) (due : Nat) : State :=
  s.pushSig c e com ((s.coach c).engine e).remoteCoach due

/-- What a data-path instruction asks of the header unit: class, parameter, operand slots, result slot. -/
structure HdrAsk where
  cls : Option Nat
  param : Nat
  operands : List Nat
  result : Nat

/-- An engine's data-path instruction has issued before the occupancy of the one before it has ended: headers of both that are still to
come are undefined (R111, R180). -/
def State.spoilHeaders (s : State) (c : CoachId) (e : Engine) : State :=
  let hdr (w : HdrWrite) : HdrWrite :=
    if w.engine = eid e ∧ s.clk < w.due then { w with value := Header.ofImage (s.freeNat (100 + w.slot)) } else w
  (s.onCoach c fun co => { co with hdrLate := co.hdrLate.map hdr }).freed

/-- The instruction that an execution leaves under way. -/
def Ex.toOpen (x : Ex) (cmd : DataCmd) (v : EngineS) : OpenEx :=
  { cmd := cmd, eng := v, engine := x.eng, clk := x.clk, o := x.o, due := x.due, use := x.use, given := x.given, filled := x.filled, made := x.made
    idxs := x.idxs, spoiled := false }

/-- The latest instruction of an engine that is under way. -/
def Coach.lastOpen (co : Coach) (e : Engine) : Option OpenEx := co.opens.find? fun o => o.engine = e

/-- The instructions under way after a further one: the engine's others go once their results stand. -/
def Coach.opened (co : Coach) (clk : Nat) (o : OpenEx) : List OpenEx :=
  o :: co.opens.filter fun p => decide (p.engine ≠ o.engine ∨ clk < p.due)

/-- Two instructions of engine `e` have undefined results, the one that issues in the present clk and the one before it (R111). -/
def State.spoilBoth (s : State) (c : CoachId) (e : Engine) (before : Option OpenEx) : State :=
  let s := match before with
    | some o => State.spoilOpen 10 s c o
    | none => s
  let s := match (s.coach c).lastOpen e with
    | some o => State.spoilOpen 10 s c o
    | none => s
  s.spoilHeaders c e

/-- A data-path instruction of engines 0 to 4 issues in the present clk: `o` and `l` are its occupancy and latency, `hdr` names the
headers. What it does is planned, to be done clk by clk. An instruction issued before the previous one's i + O makes both
results undefined (R111). -/
def State.dataPath (s : State) (c : CoachId) (e : Engine) (com : Common) (o l : Nat) (hdr : Option HdrAsk) (cmd : DataCmd) : State :=
  let co := s.coach c
  let v := co.engine e
  let x := s.perform cmd v { s.startEx c e (s.clk + l) with o := o }
  let v' := { v.issued s.clk com.hold.toNat with busyUntil := s.clk + o }
  let s1 := (s.setCoach c { (x.left co).setEngine e v' with opens := co.opened s.clk (x.toOpen cmd v) }).freed
  let s2 := match hdr with
    | some h => s1.account c e x.idx h.cls h.param h.operands h.result x.regions (s.clk + l)
    | none => s1.keyRead c e x.idx x.regions
  let s3 := s2.pushCs c e com (s.clk + l)
  if s.clk < v.busyUntil then s3.spoilBoth c e (co.lastOpen e) else s3

/-- One header field (R205): the only operand and the result, with no class. -/
def oneHeader (slot : Nat) : HdrAsk := { cls := none, param := 0, operands := [slot], result := slot }

end Sys2Proof.Machine
end

