-- ==== Sys2Proof/Machine/Sync.lean ====
section
/-! DEFINITION. Doors, shutters and layers: what an addition, an arrival and a release bring about (R184 to R192, R301,
R317 to R319). -/

namespace Sys2Proof.Machine

open Sys2Proof

/-! ## Doors (R184 to R187) -/

/-- An amount is to be added to a door in clk `w`. -/
def State.addDoorAt (s : State) (c : CoachId) (d : BitVec 8) (amount w : Nat) : State :=
  s.onCoach c fun co => co.addDoor d amount w

/-- Whether the amounts known satisfy a blocked WAIT, and by which clk, were it alone at its door. -/
def Coach.waitKnown (co : Coach) (e : Engine) : Option Nat :=
  match (co.engine e).st with
  | .onWait d n =>
    let v := co.door d
    if n.toNat ≤ v.adds.foldl (fun a r => a + r.2) v.value.toNat then some (v.adds.foldl (fun a r => max a r.1) 0 + 2) else none
  | _ => none

/-- Where the engine's WAIT resolves by what is under way, the state in which it has; else the state as it is. A command of an
engine that waits at a door is one that comes after the WAIT. -/
def State.come (s : State) (c : CoachId) (e : Engine) : State :=
  match (s.coach c).waitKnown e with
  | none => s
  | some t =>
    let s' := s.advance (max t (s.clk + 1))
    if ((s'.coach c).engine e).st = .issuing then s' else s

/-- An instruction that engine `e` of coach `c` can issue does so in the clk planned for it, on which `f` acts (R174, R175). -/
def State.issueWith (s : State) (c : CoachId) (e : Engine) (data : Bool) (f : State → State) : State :=
  let s := s.come c e
  if !(s.coach c).canIssue e data then s else f (s.atIssue c e)

/-- A signal falls due at its own coach, or sets out for another, where it adds 36 clk later or after that (R185). -/
def State.deliver (s : State) (c : CoachId) (g : Sig) : State :=
  if g.coach = c then s.addDoorAt c g.door g.amount.toNat g.due
  else s.onCoach g.coach fun co => { co with inbound := co.inbound ++ [{ g with due := g.due + 36 }] }

/-! ## Shutters (R188 to R191) -/

def Task.shutter (t : Task) (sid : Nat) : ShutUse := look ShutUse.zero t.shutters sid

def Task.setShutter (t : Task) (sid : Nat) (u : ShutUse) : Task := { t with shutters := store ShutUse.zero t.shutters sid u }

/-- The participants of a shutter on this device. -/
def Task.participants (t : Task) (mask : Nat) : Nat :=
  (maskCoaches t.coachMask).length * ((List.range 8).filter fun e => bitOf mask e).length

/-- SHUT_ARRIVE to every other device of the task (R301). -/
def State.sendArrivals (s : State) (t : Task) (sid use fd : Nat) : State :=
  (t.devices.filter fun n => decide (n ≠ s.ehl.nodeId)).foldl (fun s n =>
    s.sendPacket .shutArrive (s.packetTo n t.f.ftag 0 0 (sid * 2 ^ 82 + use % 2 ^ 16 * 2 ^ 66 + fd % 2 ^ 64) [])) s

/-- A participant arrives in clk `a`: with the last of them a fabric-scope shutter sends F_d, the fabric time of `a`. -/
def State.arrive (s : State) (c : CoachId) (e : Engine) (sid a : Nat) : State :=
  let s := s.onCoach c fun co => co.onEngine e fun v => { v with shutAt := a }
  match s.taskOf c with
  | none => s
  | some t =>
    let prog := (s.coach c).prog
    let u := t.shutter sid
    let id := 8 * c.toNat + eid e
    let u := { u with arrived := if u.arrived.contains id then u.arrived else u.arrived ++ [id], lastAt := max u.lastAt a }
    let full := decide (t.participants (prog.shutterMask sid) ≤ u.arrived.length)
    if full && prog.shutterFabric sid && u.sentFd.isNone then
      let fd := (s.ehl.tick s.clk (a - s.clk)).ftime
      (s.onTask t.key fun t => t.setShutter sid { u with sentFd := some fd }).sendArrivals t sid u.uses fd
    else s.onTask t.key fun t => t.setShutter sid u

/-! ## Layers (R317 to R319) -/

/-- A digest record (R319). -/
def digestWord (digest slots : Nat) (coach : Option CoachId) (sid layer : Nat) (final : Bool) (node : NodeId) : BitVec 256 :=
  BitVec.ofNat 256 (digest * 2 ^ 128 + slots * 2 ^ 80 +
    (match coach with | some c => 2 ^ 79 + c.toNat * 2 ^ 73 | none => 0) + sid * 2 ^ 64 + layer * 2 ^ 32 +
    flag final * 2 ^ 31 + node.toNat)

/-- The digest and the slots of the open layer of a coach: what it left with the task when it ended its part, or what it
holds. -/
def State.layerOf (s : State) (t : Task) (c : CoachId) : Nat × Nat :=
  if (s.coach c).task = some t.key then ((s.coach c).digest, (s.coach c).digestSlots) else look (0, 0) t.leftDigests c.toNat

/-- Records within the capacity wait to be written, the others are lost; a capacity of zero turns records off. -/
def Task.addRecord (t : Task) (w : BitVec 256) : Task :=
  if t.f.digestCap = 0 then t
  else if t.recsWritten + t.records.length < t.f.digestCap.toNat then { t with records := t.records ++ [{ word := w }] }
  else { t with recsLost := t.recsLost + 1 }

/-- A layer closes: its records are formed and every coach of the task starts the next layer. -/
def State.closeLayer (s : State) (key sid : Nat) (final : Bool) : State :=
  match s.task? key with
  | none => s
  | some t =>
    let cs := maskCoaches t.coachMask
    let num := min t.layer 0xFFFFFFFF
    let node := s.ehl.nodeId
    let recs : List (BitVec 256) :=
      if t.f.perCoach then cs.map fun c =>
        digestWord (s.layerOf t c).1 (min (s.layerOf t c).2 (2 ^ 48 - 1)) (some c) sid num final node
      else
        let d := cs.foldl (fun a c => (a + (s.layerOf t c).1) % digestPrime) 0
        let n := cs.foldl (fun a c => a + (s.layerOf t c).2) 0
        [digestWord d (min n (2 ^ 48 - 1)) none sid num final node]
    let s := s.onTask key fun t =>
      { (recs.foldl Task.addRecord t) with layer := t.layer + 1, leftDigests := [] }
    cs.foldl (fun s c => if (s.coach c).task = some key then s.onCoach c fun co => { co with digest := 0, digestSlots := 0 }
      else s) s

/-- A shutter is released in clk `r`: every participant resolves, and a mask with SOUT closes a layer (R190, R317). -/
def State.releaseShutter (s : State) (key sid r : Nat) : State :=
  match s.task? key with
  | none => s
  | some t =>
    let cs := maskCoaches t.coachMask
    let closes := cs.any fun c => bitOf ((s.coach c).prog.shutterMask sid) 6
    let u := t.shutter sid
    let s := cs.foldl (fun s c => s.onCoach c fun co => allEngines.foldl (fun co e =>
      match (co.engine e).st with
      | .atShutter x => if x.toNat = sid then co.onEngine e fun v => v.resumeAt r else co
      | _ => co) co) s
    let s := s.onTask key fun t => t.setShutter sid
      { arrived := [], lastAt := 0, uses := u.uses + 1, sentFd := none,
        remotes := u.remotes.filter fun x => decide (x.use ≠ u.uses % 2 ^ 16) }
    if closes then s.closeLayer key sid false else s

/-- The clk of a device-scope release, once every participant has arrived (R190). -/
def State.deviceReleaseAt (s : State) (t : Task) (sid : Nat) : Option Nat :=
  match maskCoaches t.coachMask with
  | [] => none
  | c :: _ =>
    let p := (s.coach c).prog
    let u := t.shutter sid
    if t.st = .running ∧ p.shutterFabric sid = false ∧ u.arrived ≠ [] ∧ t.participants (p.shutterMask sid) ≤ u.arrived.length
    then some (u.lastAt + 192) else none

/-- The first clk, of those from `lo` to `hi` clk after `clk`, in which fabric time has reached `r`: it never moves backwards
(R298). -/
def Ehl.reach (v : Ehl) (clk r : Nat) : Nat → Nat → Nat → Nat
  | 0, _, hi => clk + hi
  | fuel + 1, lo, hi =>
    if hi ≤ lo then clk + hi
    else if r ≤ (v.tick clk ((lo + hi) / 2)).ftime then v.reach clk r fuel lo ((lo + hi) / 2)
    else v.reach clk r fuel ((lo + hi) / 2 + 1) hi

/-- The clk in which fabric time first equals or exceeds `r`, its adjustments included (R300). -/
def Ehl.clkOf (v : Ehl) (clk r : Nat) : Nat := v.reach clk r 70 0 (2 * (r - v.ftime) + 64)

/-- The clk of a fabric-scope release, once every device's arrival is known (R191): the clk in which fabric time reaches
R, or 192 clk after an arrival that came later than R - 192. -/
def State.fabricReleaseAt (s : State) (t : Task) (sid : Nat) : Option Nat :=
  let u := t.shutter sid
  let others := t.devices.filter fun n => decide (n ≠ s.ehl.nodeId)
  let mine := u.remotes.filter fun x => decide (x.use = u.uses % 2 ^ 16)
  match u.sentFd with
  | none => none
  | some fd =>
    if t.st ≠ .running ∨ !(others.all fun n => mine.any fun x => decide (x.node = n.toNat)) then none
    else
      let r := mine.foldl (fun a x => max a x.fd) fd + t.f.margin.toNat
      let late := mine.filter fun x => decide (r < x.ftimeAt + 192)
      if late.isEmpty then some (s.ehl.clkOf s.clk r) else some (late.foldl (fun a x => max a (x.clkAt + 192)) 0)

/-- The task of an ID that is on the device. -/
def State.taskNamed (s : State) (id : TaskId) : Option Task := s.tasks.find? fun t => t.id = id && t.onDevice

/-- The task with a fabric tag that is queued or on this device. -/
def State.taggedTask (s : State) (tag : BitVec 16) : Option Task :=
  s.tasks.find? fun t => t.f.ftag = tag && tag ≠ 0 && t.st ≠ .ended

/-- The arrival of another device at a fabric-scope shutter is recorded (R301). -/
def State.recordArrival (s : State) (k : Packet) : State :=
  match s.taggedTask k.tag with
  | none => s
  | some t =>
    let sid := bits k.info.toNat 85 82
    let u := t.shutter sid
    let a : Arrival := { use := bits k.info.toNat 81 66, node := k.src.toNat, fd := bits k.info.toNat 63 0, clkAt := s.clk,
                         ftimeAt := s.ehl.ftime }
    s.onTask t.key fun t => t.setShutter sid { u with remotes := u.remotes ++ [a] }

end Sys2Proof.Machine
end

