-- ==== Sys2Proof/Machine/Post.lean ====
section
/-! DEFINITION. Completions: their records, the statuses, the end of a task, and the commands that wait for tasks (R53,
R198, R332, R335, R336, R345, R355). -/

namespace Sys2Proof.Machine

open Sys2Proof

/-- Statuses (R336). -/
inductive Status where
  | ok | malformed | imemBusy | noContext | paramUnusable | manifestInvalid | descRange | descAlias | noProgram | taskIdBusy
  | contextInvalid | tooManyContexts | tooManySets | modeMismatch | regionInvalid | keylistInvalid | deviceListInvalid
  | nodeUnreachable | fabricLevel | timeUnlocked | noGroup | notFound | summarySpace | aborted
  deriving DecidableEq, Repr

def Status.code : Status → Nat
  | .ok => 0 | .malformed => 1 | .imemBusy => 2 | .noContext => 3 | .paramUnusable => 4 | .manifestInvalid => 5
  | .descRange => 6 | .descAlias => 7 | .noProgram => 8 | .taskIdBusy => 9 | .contextInvalid => 10 | .tooManyContexts => 11
  | .tooManySets => 12 | .modeMismatch => 13 | .regionInvalid => 14 | .keylistInvalid => 15 | .deviceListInvalid => 16
  | .nodeUnreachable => 17 | .fabricLevel => 18 | .timeUnlocked => 19 | .noGroup => 20 | .notFound => 21
  | .summarySpace => 22 | .aborted => 23

/-- What a completion record reports beyond the command's own fields (R335). -/
structure Report where
  status : Status
  detail : Nat
  result : Nat
  value : Nat
  abortCode : Nat
  mismatch : Nat
  poison : Nat
  first : Option Origin
  layers : Nat
  lost : Nat

def Report.of (status : Status) (detail : Nat) : Report :=
  { status := status, detail := detail, result := 0, value := 0, abortCode := 0, mismatch := 0, poison := 0, first := none,
    layers := 0, lost := 0 }

/-- A completion record, PHASE left at 0 until it is written (R335). -/
def Report.word (r : Report) (op : Nat) (h : CmdHdr) (endTime : Nat) : BitVec 512 :=
  BitVec.ofNat 512 (op + r.status.code * 2 ^ 8 + r.abortCode * 2 ^ 16 + h.sq.toNat * 2 ^ 24 + h.index.toNat * 2 ^ 32 +
    h.taskId.toNat * 2 ^ 64 + r.result % 2 ^ 32 * 2 ^ 96 + r.value % 2 ^ 64 * 2 ^ 128 + min r.poison (2 ^ 48 - 1) * 2 ^ 192 +
    min r.mismatch (2 ^ 32 - 1) * 2 ^ 240 +
    (match r.first with
      | some o => o.coach.toNat * 2 ^ 272 + o.engine.toNat * 2 ^ 278 + o.index.toNat * 2 ^ 281 + 2 ^ 294
      | none => 0) +
    min r.layers (2 ^ 32 - 1) * 2 ^ 296 + min r.lost (2 ^ 32 - 1) * 2 ^ 328 + endTime % 2 ^ 64 * 2 ^ 360 +
    r.detail % 2 ^ 48 * 2 ^ 424)

def State.sq (s : State) (i : Nat) : Sq := look Sq.reset s.hif.sqs i

def State.setSq (s : State) (i : Nat) (v : Sq) : State := { s with hif := { s.hif with sqs := store Sq.reset s.hif.sqs i v } }

def State.cq (s : State) (i : Nat) : Cq := look Cq.reset s.hif.cqs i

def State.setCq (s : State) (i : Nat) (v : Cq) : State := { s with hif := { s.hif with cqs := store Cq.reset s.hif.cqs i v } }

/-- A completion falls due at the CQ of its command's SQ; it is written by COMPLETION_WRITE (R332). -/
def State.push (s : State) (h : CmdHdr) (w : BitVec 512) : State :=
  let i := (s.sq h.sq.toNat).cq.toNat
  let q := s.cq i
  s.setCq i { q with held := q.held ++ [{ word := w, noIrq := h.noIrq }] }

/-- A command is accepted, and its ring goes on (R331). -/
def State.accept (s : State) (h : CmdHdr) : State :=
  let q := s.sq h.sq.toNat
  if q.fetched.any fun f => decide (f.1 = h.index) then s.setSq h.sq.toNat { q with fetched := none } else s

/-- A command completes; a command other than a task is then accepted. -/
def State.post (s : State) (op : Nat) (h : CmdHdr) (r : Report) : State :=
  (s.push h (r.word op h s.ehl.ftime)).accept h

/-- A command is refused (R336); a TASK_SUBMIT reports the policy table hash all the same (R335). -/
def State.refuse (s : State) (op : Nat) (h : CmdHdr) (status : Status) (detail : Nat) : State :=
  s.post op h { Report.of status detail with value := if op = 5 then s.policyHash.toNat else 0 }

/-- A command waits for something before it completes. -/
def State.await (s : State) (w : Waiting) : State := { s with hif := { s.hif with waiting := s.hif.waiting ++ [w] } }

/-! ## The end of a task -/

/-- DETAIL of an aborted task (R336): the coach that the condition ranks as, and the node that aborted first. -/
def abortDetail (node : NodeId) (a : AbortCond) : Nat :=
  (if a.rank < 64 then a.rank else 0) + 2 ^ 16 * (match a.remote with | some n => n.toNat | none => node.toNat)

/-- The report of a task that has ended (R335, R341, R355). -/
def State.taskReport (s : State) (t : Task) : Report :=
  let r := { Report.of .ok 0 with value := s.policyHash.toNat, layers := t.layer, lost := t.recsLost }
  if t.loadFailed then
    { Report.of .noProgram (match maskCoaches t.coachMask with | c :: _ => c.toNat | [] => 0) with value := s.policyHash.toNat }
  else match t.abort with
    | some a => { r with status := .aborted, detail := abortDetail s.ehl.nodeId a, abortCode := a.code.toNat }
    | none => { r with mismatch := t.mismatch, poison := t.poison, first := t.first }

/-- A command that waits completes when what it waits for has come about (R53, R345). -/
def State.waitOver (s : State) (w : Waiting) : Option State :=
  match w with
  | .fence h upTo own =>
    if s.tasks.any fun t => decide (t.key < upTo) && !t.posted && (!own || t.hdr.sq = h.sq) then none
    else some (s.post 7 h (Report.of .ok 0))
  | .abortOf h keys found =>
    if s.tasks.any fun t => keys.contains t.key && !t.posted then none
    else some (s.post 6 h (Report.of (if found then .ok else .notFound) 0))
  | .destroy h c =>
    if s.tasks.any fun t => !t.posted && t.contexts.contains c then none
    else some ({ s with contexts := store none s.contexts c.toNat none }.post 2 h (Report.of .ok 0))
  | .groupDelete h g =>
    let names (t : Task) : Bool := t.keylist.any fun e => bitOf e.toNat 179 && bits e.toNat 191 180 = g.toNat
    if s.tasks.any names then none
    else some ({ s with kst := { s.kst with groups := store none s.kst.groups g.toNat none } }.post 8 h (Report.of .ok 0))
  | _ => none

/-- Every waiting command is looked at once, in order. -/
def State.settleWaiting (s : State) : State :=
  s.hif.waiting.foldl (fun s w =>
    match s.waitOver w with
    | some s => { s with hif := { s.hif with waiting := s.hif.waiting.filter fun x => decide (x ≠ w) } }
    | none => s) s

/-- The completion of an ended task is posted once its records are written (R332); a task that an event of R347 ended has
none and leaves the table. -/
def State.postTask (s : State) (key : Nat) : State :=
  match s.task? key with
  | none => s
  | some t =>
    if t.st ≠ .ended ∨ t.posted = true ∨ t.records ≠ [] then s
    else if t.noCompletion then (s.removeTask key).settleWaiting
    else ((s.onTask key fun t => { t with posted := true }).push t.hdr
      ((s.taskReport t).word 5 t.hdr t.endTime.toNat)).settleWaiting

/-- A task ends in this clk. -/
def State.endTask (s : State) (key : Nat) : State :=
  ((s.onTask key fun t => { t with st := .ended, endTime := BitVec.ofNat 64 s.ehl.ftime }).postTask key).settleWaiting

/-- A condition ends a task of this device: a running one aborts; a queued one is removed with the abort (R289, R290, R302; log
entry 101). Either is told at the end of the clk. -/
def State.abortHere (s : State) (a : AbortCond) (t : Task) : State :=
  if (s.task? t.key).any fun u => u.st = .queued then (s.onTask t.key fun t => { t with abort := some a }).endTask t.key
  else s.latch t.key a

end Sys2Proof.Machine
end

