-- ==== Sys2Proof/Machine/Cmd.lean ====
section
/-! DEFINITION. Host commands as 1,024-bit words, and the checks of their fields that need nothing but the word (R334,
R340, R345, R346, R429). -/

namespace Sys2Proof.Machine

open Sys2Proof

/-! ## Words -/

/-- The common header of a command (R334). -/
def hdrWord (op : Nat) (h : CmdHdr) : Nat :=
  op + 2 ^ 8 * flag h.noIrq + 2 ^ 32 * h.taskId.toNat + 2 ^ 64 * h.argAddr.toNat

/-- CONTEXT_CREATE (R54, R334). -/
def contextCreateWord (h : CmdHdr) (set : BitVec 8) : Nat := hdrWord 1 h + 2 ^ 128 * set.toNat

/-- CONTEXT_DESTROY (R334). -/
def contextDestroyWord (h : CmdHdr) (c : BitVec 14) : Nat := hdrWord 2 h + 2 ^ 128 * c.toNat

/-- KEY_REGISTER (R55, R334). -/
def keyRegisterWord (h : CmdHdr) (c : BitVec 14) (count : BitVec 16) (dir : BitVec 40) : Nat :=
  hdrWord 3 h + 2 ^ 128 * c.toNat + 2 ^ 144 * count.toNat + 2 ^ 160 * dir.toNat

/-- PROGRAM_LOAD (R337). -/
def programLoadWord (h : CmdHdr) (src : Bool) (len : BitVec 32) : Nat :=
  hdrWord 4 h + 2 ^ 128 * flag src + 2 ^ 160 * len.toNat

/-- TASK_SUBMIT (R340). -/
def taskWord (h : CmdHdr) (f : TaskF) : Nat :=
  hdrWord 5 h + 2 ^ 128 * f.programId.toNat + 2 ^ 160 * f.mode.toNat + 2 ^ 162 * flag f.hazard + 2 ^ 163 * flag f.perCoach +
    2 ^ 164 * f.nCtx.toNat + 2 ^ 171 * f.devices.toNat + 2 ^ 183 * f.minor.toNat + 2 ^ 192 * f.ftag.toNat +
    2 ^ 208 * f.keylistCount.toNat + 2 ^ 224 * f.keylistAddr.toNat + 2 ^ 272 * f.margin.toNat + 2 ^ 304 * f.runLimit.toNat +
    2 ^ 352 * f.digestCap.toNat + 2 ^ 384 * f.digestAddr.toNat + 2 ^ 448 * f.seed.toNat

/-- GROUP_SET (R345). -/
def groupWord (h : CmdHdr) (f : GroupF) : Nat :=
  hdrWord 8 h + 2 ^ 128 * f.group.toNat + 2 ^ 140 * flag f.delete + 2 ^ 141 * f.role.toNat + 2 ^ 144 * f.source.toNat +
    2 ^ 160 * f.portMask.toNat + 2 ^ 176 * f.members.toNat

/-- TASK_ABORT (R344). -/
def taskAbortWord (h : CmdHdr) (upto : Bool) : Nat := hdrWord 6 h + 2 ^ 128 * flag upto

/-- FENCE (R345). -/
def fenceWord (h : CmdHdr) (own : Bool) : Nat := hdrWord 7 h + 2 ^ 128 * flag own

/-- SYNC_SUMMARY (R346). -/
def syncSummaryWord (h : CmdHdr) (capacity : BitVec 32) : Nat := hdrWord 9 h + 2 ^ 128 * capacity.toNat

/-! ## Field checks -/

/-- The lowest bit set in a number below 2^1024. -/
def lowBit (x : Nat) : Nat := ((List.range 1024).find? fun i => bitOf x i).getD 0

/-- A reserved field must be zero; its lowest set bit is named. -/
def zeroBits (w hi lo : Nat) : Option Nat := if bits w hi lo = 0 then none else some (lo + lowBit (bits w hi lo))

/-- A field with a value it must not have; its lowest bit is named. -/
def fieldBad (lo : Nat) (bad : Bool) : Option Nat := if bad then some lo else none

/-- The first failure of a list of checks. -/
def firstBad (l : List (Option Nat)) : Option Nat := l.findSome? id

/-- ARG_ADDR: 64-byte aligned; zero where the command has none. A load from HBM gives a device-local address, a multiple
of 576 from which the image lies wholly below 992 GiB (R337, R430); a summary goes to a multiple of 4 KiB. -/
def argBad (w op : Nat) : Bool :=
  let a := bits w 127 64
  if op = 1 ∨ op = 2 ∨ op = 6 ∨ op = 7 then a ≠ 0
  else if op = 4 ∧ bitOf w 128 = true then a % 2 ^ 40 % 576 ≠ 0 || decide (hbmEnd < a % 2 ^ 40 + bits w 191 160)
  else if op = 8 ∧ bitOf w 140 = true then a ≠ 0
  else if op = 9 then a % 4096 ≠ 0
  else a % 64 ≠ 0

/-- The fields of an opcode above bit 127, in ascending offset. -/
def bodyChecks (w op : Nat) : List (Option Nat) :=
  match op with
  | 1 => [zeroBits w 1023 136]
  | 2 => [zeroBits w 1023 142]
  | 3 => [zeroBits w 143 142, fieldBad 160 (bits w 199 160 % 32 ≠ 0), zeroBits w 1023 200]
  | 4 => [zeroBits w 159 129, zeroBits w 1023 192]
  | 5 => [fieldBad 160 (bits w 161 160 = 3), zeroBits w 191 191,
      fieldBad 224 (bits w 223 208 ≠ 0 ∧ bits w 263 224 % 32 ≠ 0), zeroBits w 271 264, zeroBits w 1023 576]
  | 6 => [zeroBits w 1023 129]
  | 7 => [zeroBits w 1023 129]
  | 8 =>
    if bitOf w 140 then
      [fieldBad 141 (bits w 142 141 ≠ 0), zeroBits w 143 143, fieldBad 144 (bits w 155 144 ≠ 0), zeroBits w 159 156,
       fieldBad 160 (bits w 175 160 ≠ 0), fieldBad 176 (bits w 187 176 ≠ 0), zeroBits w 1023 188]
    else
      [fieldBad 141 (bits w 142 141 = 3), zeroBits w 143 143, zeroBits w 159 156, fieldBad 176 (bits w 187 176 = 0),
       zeroBits w 1023 188]
  | _ => [zeroBits w 1023 160]

/-- The bit offset of the first failing field of a command: the opcode, then its other fields in ascending offset
(R429). -/
def malformedAt (w : Nat) : Option Nat :=
  let op := bits w 7 0
  if op = 0 ∨ 9 < op then some 0
  else firstBad ([zeroBits w 31 9, fieldBad 32 (op ≠ 5 ∧ op ≠ 6 ∧ bits w 63 32 ≠ 0), fieldBad 64 (argBad w op)] ++
    bodyChecks w op)

/-- A command whose word passes R429 does what `f` says; one whose word does not is refused with MALFORMED. -/
def State.checked (s : State) (op : Nat) (h : CmdHdr) (w : Nat) (f : State → State) : State :=
  match malformedAt w with
  | some d => s.refuse op h .malformed d
  | none => f s

/-- DETAIL of a field of a program image (R429). -/
def inImage (bit : Nat) : Nat := 2 * 2 ^ 46 + bit

end Sys2Proof.Machine
end

