-- ==== Sys2Proof/Machine/Carts.lean ====
section
/-! DEFINITION. Key queues and carts: the pieces of group carts, and the claim and the release of a key queue (R225, R239, R240,
R281, R297). -/

namespace Sys2Proof.Machine

open Sys2Proof

/-- The pieces 1 to 32 of a cart, the granules of its body. -/
def Cart.granule (k : Cart) (i : Nat) : List Byte :=
  leBytes 288 (k.body.getD (2 * i) 0).toNat ++ leBytes 288 (k.body.getD (2 * i + 1) 0).toNat

/-- A cart from its header bytes and the bytes of its body. -/
def Cart.ofBytes (hdr body : List Byte) : Cart :=
  { hdr := BitVec.ofNat 256 (leNat hdr),
    body := (List.range 64).map fun i => BitVec.ofNat 2304 (leNat ((body.drop (288 * i)).take 288)) }

/-- A cart from its 33 pieces. -/
def cartOf (m : SMap (List Byte)) : Cart :=
  Cart.ofBytes (look [] m 0) ((List.range 32).flatMap fun i => look [] m (i + 1))

/-- The group and the sequence that a piece names. -/
def pieceOf (k : Packet) : Nat := k.group.toNat * 2 ^ 32 + bits k.info.toNat 85 54

/-- A piece of a group cart reaches a queue; with the last of its 33 the cart stands in the group receive buffer. -/
def KeyQueue.takePiece (v : KeyQueue) (k : Packet) : KeyQueue :=
  let have_ := match v.assembly.find? fun a => decide (a.1 = pieceOf k) with
    | some a => a.2
    | none => []
  let others := v.assembly.filter fun a => decide (a.1 ≠ pieceOf k)
  let m := insert have_ (bits k.info.toNat 53 48) k.data
  if m.length = 33 then { v with assembly := others, groupBuf := v.groupBuf ++ [(k.group, cartOf m)] }
  else { v with assembly := others ++ [(pieceOf k, m)] }

/-- A piece of a group cart goes to the key queue of the task with its tag, or waits for that task to claim one. -/
def State.takePiece (s : State) (k : Packet) : State :=
  let mine := s.kst.queues.find? fun q => q.2.active && (match s.task? q.2.task with
    | some t => t.f.ftag = k.tag
    | none => false)
  match mine with
  | some (q, v) => s.setQueue q (v.takePiece k)
  | none => { s with kst := { s.kst with early := s.kst.early ++ [k] } }

/-- A task claims the lowest-numbered free key queue (R225); the timeout in force is fixed for it (R238). -/
def State.claimQueue (s : State) (t : Task) : State :=
  if t.keylist.isEmpty then s
  else match s.freeQueue with
    | none => s
    | some q =>
      let v := ({ KeyQueue.idle with
        task := t.key, taskId := t.id, active := true, limit := max s.kst.timeoutLimit.toNat 25000 }).load
        (t.keylist.map fun (x : BitVec 256) => KeyEntry.ofWord x.toNat)
      let v := (s.kst.early.filter fun k => k.tag = t.f.ftag).foldl KeyQueue.takePiece v
      ({ s with kst := { s.kst with
        queues := store KeyQueue.idle s.kst.queues q v
        early := s.kst.early.filter fun k => k.tag ≠ t.f.ftag } }).onTask t.key fun t => { t with queue := some q }

/-- The request is one of a key queue. -/
def AskJob.ofQueue (j : AskJob) (q : Nat) : Bool := match j with
  | .key x _ _ => x = q
  | _ => false

/-- The key queue of a task is released, which KST_QUEUE still names; the reads it has asked for are forgotten (R239). -/
def State.releaseQueue (s : State) (key : Nat) : State :=
  match s.queueOf key with
  | none => s
  | some (q, v) => { s with
      kst := { s.kst with queues := store KeyQueue.idle s.kst.queues q { KeyQueue.idle with taskId := v.taskId, entry := v.entry } }
      hbm := { s.hbm with asks := s.hbm.asks.filter fun a => !(a.job.ofQueue q) }
      ehl := { s.ehl with reads := s.ehl.reads.filter fun r => match r.reader with
        | .queue x _ => decide (x ≠ q)
        | _ => true } }

/-- A coach's intake buffer is empty and holds all its credits again; nothing sent to it before arrives any more (R237, R239). -/
def Kst.refill (k : Kst) (c : CoachId) : Kst :=
  { k with
    used := store 0 k.used c.toNat 0
    flight := k.flight.filter fun d => decide (d.coach ≠ c)
    back := k.back.filter fun b => decide (b.recv ≠ c) }

end Sys2Proof.Machine
end

