-- ==== Sys2Proof/Machine/Stream.lean ====
section
/-! DEFINITION. The stream engines SIN, SOUT and KIN: transfers, header images, noise, layer digests, cart intake, and the
completion signals (R52, R62, R91 to R94, R176, R185, R224, R236 to R239, R243, R314 to R318). -/

namespace Sys2Proof.Machine

open Sys2Proof

/-! ## Regions (R338, R340) -/

structure Region where
  kind : Nat
  noiseB : Nat
  size : Nat

def ProgSlot.region (p : ProgSlot) (r : Nat) : Region :=
  let x := (look (0 : BitVec 128) p.regions r).toNat
  { kind := bits x 34 32, noiseB := bits x 39 35 + 1, size := bits x 31 0 }

/-- The far side of a region and the byte address of its base there; a fabric region on this node is served locally (R283). -/
def State.farOf (s : State) (c : CoachId) (r : Nat) : Far × Nat :=
  let b := match s.taskOf c with
    | some t => (look (0 : Word64) t.bindings r).toNat
    | none => 0
  let k := ((s.coach c).prog.region r).kind
  if k = 2 then (.host, b)
  else if k = 3 ∧ bits b 51 40 ≠ s.ehl.nodeId.toNat then (.fabric (BitVec.ofNat 12 (bits b 51 40)), b % 2 ^ 40)
  else (.hbm, b % 2 ^ 40)

/-! ## Header images on input (R52) -/

/-- The header SIN loads from an image: the header, whether SIN's own cause poisons it, and a mismatch. -/
def Coach.imageIn (co : Coach) (image : Nat) (i : BitVec 13) : Header × Bool × Option Mismatch :=
  let h := Header.ofImage image
  if h.scheme = .plain then ({ h with context := 0, paramSet := 0 }, false, none)
  else
    let miss : Option Mismatch := some { operand := h.context, second := 0, noKey := false }
    let poisoned (h : Header) : Header × Bool × Option Mismatch :=
      if h.poison then (h, false, miss)
      else ({ h with poison := true, originEngine := 5, originIndex := i }, true, miss)
    match co.ctx? h.context with
    | none => poisoned h
    | some x =>
      let h := { h with paramSet := x.paramSet }
      match x.tag with
      | some _ => (h, false, none)
      | none => poisoned h

/-! ## SIN -/

def State.transferOf (s : State) (c : CoachId) (e : Engine) : Option Transfer := ((s.coach c).engine e).transfer

def State.setTransfer (s : State) (c : CoachId) (e : Engine) (t : Option Transfer) : State :=
  s.onCoach c fun co => co.onEngine e fun v => { v with transfer := t }

/-- SIN performs visits [v, v + n) of its open transfer with the values given. -/
def State.sinVisits (s : State) (c : CoachId) (t : Transfer) (noise : Bool) (value : Nat → Slot) (n : Nat) : State :=
  let d := XDesc.ofWord t.desc.toNat
  let co := s.coach c
  let mode := match s.taskOf c with
    | some k => k.f.mode.toNat
    | none => 0
  let rate := d.rate noise mode
  let start := max (s.clk + 1) t.free
  let m := s.reduceModuli co d.paramSet d.modIndex
  let x : Ex := { (s.startEx c .sin (start + 2)) with idx := t.index, clk := t.issuedAt, filled := t.filled, ords := 4 * t.visits }
  let moves := d.movesOf t.visits n
  let x := (moves.zipIdx.foldl (fun (x : Ex) k => x.moveIn d m value (moveClk start rate k.2) k.1) x).ended [2]
  let t := { t with visits := t.visits + n, filled := x.filled, free := start + rate * moves.length }
  ((s.setCoach c (x.left co)).setTransfer c .sin (some t)).freed

/-- SIN loads image `i` into its header slot before it writes the object's first carriage (R93); a write of an arithmetic
engine that falls in the same clk stands (R70). -/
def State.loadImage (s : State) (c : CoachId) (t : Transfer) (i image : Nat) : State :=
  let d := XDesc.ofWord t.desc.toNat
  let due := max (s.clk + 1) t.free
  let co := (s.coach c).settle s.clk
  let r := co.imageIn image t.index
  let co := co.countPoison c r.1 r.2.1 due t.poisoned
  let s := s.setCoach c (co.writeHeader due 5 (d.hdrSlot + i) r.1)
  let s := s.setTransfer c .sin (some { t with poisoned := t.poisoned || r.1.poison })
  match r.2.2 with
  | some m => s.keyMismatch c 5 t.index m
  | none => s

/-- Header images are the requests beyond the visits: the image number from a request's first field. -/
def Transfer.imageOf (t : Transfer) (i : Nat) : Option Nat :=
  let d := XDesc.ofWord t.desc.toNat
  (t.got.find? fun e => e.1 = d.visits + i).map fun e =>
    (e.2.extractLsb' (8 * (d.imageByte i % 576)) 128).toNat

/-- The objects whose first visit lies in [v, v + n). -/
def XDesc.starts (d : XDesc) (v n : Nat) : List Nat :=
  if d.perObject = 0 then []
  else ((List.range n).filter fun i => decide ((v + i) % d.perObject = 0)).map fun i => (v + i) / d.perObject

/-- What a transfer needs for its next carriage: the visits it moves, the requests that serve them, and the objects that begin with
one of them. -/
def XDesc.nextMove (d : XDesc) (v : Nat) : Nat × List Nat × List Nat :=
  let n := d.carriageLen v (d.visits - v)
  (n, d.runsIn v n, d.starts v n)

/-- The granules still of use after the visits before `v`: the one that serves visit `v` as well stays. -/
def XDesc.keep (d : XDesc) (got : SMap Granule) (used : List Nat) (v : Nat) : SMap Granule :=
  let goes := used.filter fun r => decide (d.visits ≤ v ∨ d.runStart v ≠ r)
  goes.foldl drop got

/-- The transfer goes on as far as its data has arrived, over at most `fuel` carriages: a carriage is moved once all the granules it
takes slots from are there (R94). -/
def State.sinProgress (s : State) (c : CoachId) : Nat → State
  | 0 => s
  | fuel + 1 =>
    match s.transferOf c .sin with
    | none => s
    | some t =>
      let d := XDesc.ofWord t.desc.toNat
      if d.visits ≤ t.visits then s
      else
        let m := d.nextMove t.visits
        if !(m.2.1.all fun r => t.got.any fun e => decide (e.1 = r)) || !(m.2.2.all fun i => (t.imageOf i).isSome) then s
        else
          let s := m.2.2.foldl (fun s i =>
            match s.transferOf c .sin with
            | some u => s.loadImage c u i ((u.imageOf i).getD 0)
            | none => s) s
          match s.transferOf c .sin with
          | none => s
          | some u =>
            (s.sinVisits c { u with got := d.keep u.got m.2.1 (u.visits + m.1) } false
              (fun v => d.slotIn (look 0 u.got (lastUpTo m.2.1 v)) v) m.1).sinProgress c fuel

/-- A granule arrives for a request of SIN: it is used once the visits before it are done. -/
def State.feed (s : State) (c : CoachId) (q : Req) (g : Granule) : State :=
  match s.transferOf c .sin with
  | none => s
  | some t =>
    let t := { t with reqs := t.reqs.filter fun r => decide (r.first ≠ q.first), got := insert t.got q.first g }
    (s.setTransfer c .sin (some t)).sinProgress c ((XDesc.ofWord t.desc.toNat).visits - t.visits + 1)

/-- Sample f of noise region r in REPRO and TOPO (R316). -/
def noiseWord (seed : BitVec 128) (r f b : Nat) : Slot :=
  let h := sha256 (leBytes 16 seed.toNat ++ leBytes 1 r ++ [0x4E] ++ leBytes 8 (f / 8))
  let w := leNat ((h.drop (4 * (f % 8))).take 4)
  BitVec.ofNat 36 (unsigned 32 (signed b w))

/-- A sample of the hardware random generator (R316; log entry 2). -/
def randomWord (use v b : Nat) : Slot := BitVec.ofNat 36 (unsigned 32 (signed b (Config.random use v).toNat))

/-- The transfer that opens when XFER issues at `clk`; the coach that word 3 names now takes its signal (R207). -/
def newTransfer (word : Nat) (far : Far) (base clk : Nat) (com : Common) (i : BitVec 13) (remote : CoachId) : Transfer :=
  { desc := BitVec.ofNat 512 word, far := far, base := base, issuedAt := clk, visits := 0, got := [], reqs := [],
    free := clk + 1, planned := clk + 1 + com.hold.toNat, com := com, index := i, filled := [], poisoned := false,
    images := [], remote := remote }

/-- An undefined XFER of SIN: its in-windows take undefined content, and the transfer ends at an undefined clk (R202, R223). -/
def State.undefSin (s : State) (c : CoachId) (t : Transfer) : State :=
  let x := { (s.startEx c .sin (s.clk + 2)) with idx := t.index }.undefMap [2]
  ((s.setCoach c (x.left (s.coach c))).setTransfer c .sin (some { t with desc := 0, free := s.clk + 1 + s.freeNat 3 })).freed

/-- The requests of a SIN transfer: its header images first, then its granules in visit order. -/
def XDesc.reads (d : XDesc) (far : Far) (base clk : Nat) : List Req :=
  let want (first byte : Nat) : Req :=
    { far := far, addr := base + byte / 576 * 576, urg := 0, clkAt := clk, first := first, wr := [], rid := 0 }
  ((List.range d.hdrCount).map fun i => want (d.visits + i) (d.imageByte i)) ++
    d.runs.map fun v => want v (576 * d.granuleOfVisit v)

def sinStep (c : CoachId) (desc : BitVec 10) (com : Common) (s : State) : State :=
  s.issueWith c .sin true fun s =>
  let co := s.coach c
  let v := co.engine .sin
  let word := co.descriptor (v.descField desc 3)
  let d := XDesc.ofWord word
  let idx := BitVec.ofNat 13 v.pc
  let s := s.onCoach c fun co => co.onEngine .sin fun v => v.issued s.clk com.hold.toNat
  let bad := d.mode ≠ 0 ∨ d.len = 0 ∨ d.dir
  if bad then s.undefSin c (newTransfer word .hbm 0 s.clk com idx v.remoteCoach)
  else
    let region := co.prog.region d.farRegion
    let far := s.farOf c d.farRegion
    let t := newTransfer word far.1 far.2 s.clk com idx v.remoteCoach
    match s.taskOf c with
    | none => s.setTransfer c .sin (some t)
    | some task =>
      if region.kind = 4 then
        let value (v : Nat) : Slot :=
          if task.f.mode = 0 then randomWord s.freeCtr v region.noiseB
          else noiseWord task.f.seed d.farRegion (d.farAt v).toNat region.noiseB
        (s.setTransfer c .sin (some t)).sinVisits c t true value d.visits
      else s.setTransfer c .sin (some { t with reqs := d.reads far.1 far.2 s.clk })

/-- SIN XFER. -/
def execSinXfer (c : CoachId) (desc : BitVec 10) (com : Common) (s : State) : Answer := .next (sinStep c desc com s)

/-! ## SOUT -/

/-- The task of a coach writes regions: an abort will leave them undefined (R356). -/
def State.noteWrites (s : State) (c : CoachId) (rs : List Nat) : State :=
  match (s.coach c).task with
  | none => s
  | some key =>
    let new := rs.map fun r => ((s.farOf c r).1, (s.farOf c r).2, 576 * ((s.coach c).prog.region r).size)
    s.onTask key fun t => { t with wrote := t.wrote ++ new.filter fun w => !(t.wrote.contains w) }

/-- An undefined XFER of SOUT: undefined bytes go to undefined granules of the regions bound to the task, and the transfer ends
at an undefined clk (R202, R223; log entry 35). -/
def State.undefSout (s : State) (c : CoachId) (t : Transfer) : State :=
  let rs := ((s.coach c).prog.regions.map (·.1)).filter fun r => ((s.coach c).prog.region r).kind ≠ 0 && ((s.coach c).prog.region r).kind ≠ 4
  let one (i : Nat) : Option Req :=
    match rs[s.freeNat (8 + 3 * i) % max 1 rs.length]? with
    | none => none
    | some r =>
      let far := s.farOf c r
      let g := s.freeNat (9 + 3 * i) % max 1 ((s.coach c).prog.region r).size
      let data := leBytes 288 (Config.freeCarriage s.freeCtr (2 * i)).toNat ++ leBytes 288 (Config.freeCarriage s.freeCtr (2 * i + 1)).toNat
      some { far := far.1, addr := far.2 + 576 * g, urg := 0, clkAt := s.clk + 1 + s.freeNat (10 + 3 * i), first := i,
             wr := data.zipIdx.map fun b => (b.2, (0xFF, b.1)), rid := 0 }
  ((s.noteWrites c rs).setTransfer c .sout (some { t with desc := 0, free := s.clk + 1 + s.freeNat 3, reqs := (List.range (s.freeNat 4 % 65536)).filterMap one })).freed

def soutStep (c : CoachId) (desc : BitVec 10) (com : Common) (s : State) : State :=
  s.issueWith c .sout true fun s =>
  let co := s.coach c
  let v := co.engine .sout
  let word := co.descriptor (v.descField desc 3)
  let d := XDesc.ofWord word
  let idx := BitVec.ofNat 13 v.pc
  let s := s.setCoach c (co.onEngine .sout fun v => v.issued s.clk com.hold.toNat)
  let bad := d.mode ≠ 0 ∨ d.len = 0 ∨ !d.dir
  if bad then s.undefSout c (newTransfer word .hbm 0 s.clk com idx v.remoteCoach)
  else
    let far := s.farOf c d.farRegion
    let t := newTransfer word far.1 far.2 s.clk com idx v.remoteCoach
    match s.taskOf c with
    | none => s.setTransfer c .sout (some t)
    | some task =>
      let r := { (s.startEx c .sout (s.clk + 1)) with idx := idx }.soutRead d (s.clk + 1)
      let k := digestKey task.f.seed d.farRegion
      let dig := r.1.zipIdx.foldl (fun a e => (a + digestTerm k (d.farAt e.2).toNat e.1.1) % digestPrime) (s.coach c).digest
      let co := s.coach c
      let co := { r.2.left co with digest := dig, digestSlots := co.digestSlots + d.visits }
      let t := { t with
        visits := d.visits, free := s.clk + 1 + (d.movesOf 0 d.visits).length * d.rate false 0
        reqs := d.writes far.1 far.2 r.1, images := d.imagesOut r.1 }
      (((s.setCoach c co).freed).setTransfer c .sout (some t)).noteWrites c [d.farRegion]

/-- SOUT XFER. -/
def execSoutXfer (c : CoachId) (desc : BitVec 10) (com : Common) (s : State) : Answer := .next (soutStep c desc com s)

/-! ## KIN (R62, R224, R236) -/

/-- The key window of the active map. -/
def Coach.keyWindow (co : Coach) : Option MapEntry :=
  (co.prog.map.map fun kv => MapEntry.ofWord kv.2.toNat).find? fun m => m.kind = 4

/-- The credit of a cart goes back in clk `at_` (R237). -/
def State.creditBack (s : State) (d : Delivery) (at_ : Nat) : State :=
  { s with kst := { s.kst with back := s.kst.back ++ [{ due := at_ + 172, recv := d.coach, all := false }] } }

/-- A region takes a tag, which it shows from clk `due` on (R61, R64). -/
def Coach.recordTag (co : Coach) (due region : Nat) (tag : Word64) : Coach :=
  { co with tagLate := co.tagLate ++ [{ due := due, region := region, tag := tag }] }

/-- Any region of the key window may take an undefined tag. -/
def Coach.undefTags (co : Coach) (use due : Nat) (m : MapEntry) : Coach :=
  (List.range (m.size / 64)).foldl (fun (co : Coach) r =>
    let n := Config.freeNat use (5000 + r)
    if n % 2 = 0 then co else co.recordTag due r (BitVec.ofNat 64 n)) co

/-- A cart for a region beyond the key window: rows and tags of the window, and the target header, are undefined from clk `due` on
(R180, R224; log entry 93). -/
def State.undefCart (s : State) (c : CoachId) (k : KinOpen) (due : Nat) : State :=
  let x := { (s.startEx c .kin due) with idx := k.index, clk := k.issuedAt, ords := 64 * k.done }.undefMap [4]
  let co := x.left (s.coach c)
  let co := match co.keyWindow with
    | some m => co.undefTags s.freeCtr due m
    | none => co
  let co := if s.freeNat 6 % 2 = 0 then co else co.writeHeader due 7 k.target (Header.ofImage (s.freeNat 7))
  (s.setCoach c co).freed

/-- Whether a cart is the one a KCART awaits, with the tag of the target's context (R62, R224). A Plain target's CONTEXT field is
looked up as it stands (DESIGN CHOICE, log entry 96: R49 has it ignored, and R62 names no other). -/
def Coach.cartGood (co : Coach) (k : KinOpen) (cart : Cart) (target : Header) : Bool :=
  (cart.format = 2 || cart.format = 3) && cart.keyIndex = k.f.keyIndex && decide ((cart.seq.toNat : Int) = k.cart + k.done) &&
    co.tagOf target.context = some cart.tag && cart.tag ≠ noKeyTag

/-- KIN takes a cart as cart `j` of its KCART (R62, R224): one carriage a clk from the clk after the cart's arrival and the
KCART's issue (R236). -/
def State.kinCart (s : State) (c : CoachId) (k : KinOpen) (d : Delivery) : State :=
  let cart := d.cart
  let co := (s.coach c).settle s.clk
  let ring := (k.f.ring.toNat : Int) + 1
  let region := k.f.rbase.toNat + ((k.roff + k.done) % ring).toNat
  let h := co.headerRaw k.target
  let free := max (k.free + 64) (d.clkAt + 2)
  let inside : Bool := match co.keyWindow with
    | some m => decide (64 * region + 63 < m.size)
    | none => false
  let s := s.setCoach c co
  let k' := { k with done := k.done + 1, free := free }
  let setKin (s : State) (k : KinOpen) : State := s.onCoach c fun co => co.onEngine .kin fun v => { v with kin := some k }
  let s :=
    if !inside then setKin (s.undefCart c k free) k'
    else if co.cartGood k cart h then
      match co.keyWindow with
      | some m =>
        let x : Ex := { (s.startEx c .kin free) with
          idx := k.index, clk := k.issuedAt, filled := k.filled, ords := 64 * k.done, pace := some (free - 64, 1) }
        let x := cart.body.zipIdx.foldl (fun x e =>
          x.write (some { entry := m, carriage := 64 * region + e.2 }) 0 allSlots e.1) x
        setKin ((s.setCoach c ((x.left co).recordTag free region cart.tag)).freed) { k' with filled := x.filled }
      | none => setKin s k'
    else
      let own := !h.poison || h = Header.uninit
      let h' := if own then { h with poison := true, originEngine := 7, originIndex := k.index } else h
      let co := (co.recordTag free region noKeyTag).countPoison c h' own free k.poisoned
      let s := s.setCoach c (co.writeHeader free 7 k.target h')
      let void := cart.tag = noKeyTag
      let s := s.keyMismatch c 7 k.index
        { operand := h.context, second := if void then 0 else co.ctxWithTag cart.tag, noKey := void }
      setKin s { k' with poisoned := true }
  s.creditBack d free

/-- KIN takes the next carts of the buffer, at most `fuel`. -/
def State.kinPump (s : State) (c : CoachId) : Nat → State
  | 0 => s
  | fuel + 1 =>
    match ((s.coach c).engine .kin).kin, (s.coach c).intake with
    | some k, cart :: rest =>
      if k.done ≤ k.f.count.toNat then
        ((s.onCoach c fun co => { co with intake := rest }).kinCart c k cart).kinPump c fuel
      else s
    | _, _ => s

def kcartStep (c : CoachId) (f : KcartF) (s : State) : State :=
  s.issueWith c .kin true fun s =>
  let v := (s.coach c).engine .kin
  let cart : Int := f.cart.toNat + v.strideSum 7
  let cart := if 0 ≤ cart ∧ cart < 65536 then cart else Int.ofNat (s.freeNat 0)
  let k : KinOpen :=
    { f := f, target := v.hdrField f.hdr 4, roff := f.roff.toNat + v.strideSum 3, cart := cart, issuedAt := s.clk, done := 0,
      free := s.clk + 1, planned := s.clk + 1 + f.com.hold.toNat, index := BitVec.ofNat 13 v.pc, filled := [],
      poisoned := false, remote := v.remoteCoach }
  let s := (s.onCoach c fun co => co.onEngine .kin fun v => { v.issued s.clk f.com.hold.toNat with kin := some k }).freed
  s.kinPump c 2

/-- KCART. -/
def execKcart (c : CoachId) (f : KcartF) (s : State) : Answer := .next (kcartStep c f s)

/-! ## Completion (R176, R185, R189) -/

/-- A transfer ends in this clk: the engine's next data-path instruction may issue, its signal, to the coach that its issue
named, falls due, and a shutter arrival that waited takes place. -/
def State.endTransfer (s : State) (c : CoachId) (e : Engine) (com : Common) (remote : CoachId) : State :=
  let s := s.onCoach c fun co => co.onEngine e fun v =>
    { v with transfer := none, kin := none, nextIssue := max v.nextIssue s.clk }
  let s := s.pushSig c e com remote s.clk
  let v := (s.coach c).engine e
  match v.st with
  | .atShutter sid => s.arrive c e sid.toNat s.clk
  | _ => s

/-- The clk in which the open transfer of an engine completes, once it has done all its work, and its signal. -/
def Coach.completesAt (co : Coach) (e : Engine) : Option (Nat × Common × CoachId) :=
  let v := co.engine e
  match v.transfer, v.kin with
  | some t, _ =>
    if t.reqs.isEmpty && (XDesc.ofWord t.desc.toNat).visits ≤ t.visits then some (t.free, t.com, t.remote) else none
  | none, some k => if k.f.count.toNat < k.done then some (k.free, k.f.com, k.remote) else none
  | none, none => none

/-- The clk after the last write of a transfer of SOUT has left its coach, where nothing but writes to host memory or the fabric
is outstanding (R176). -/
def Coach.leavesBy (co : Coach) (e : Engine) : Option Nat :=
  match e, (co.engine e).transfer with
  | .sout, some t => if t.reqs.all fun q => q.far ≠ .hbm && !q.left then some (t.reqs.foldl (fun a q => max a q.clkAt) 0 + 1) else none
  | _, _ => none

/-- The clock comes to the end of an open transfer, which a bank conflict on the way may put off (R79). -/
def State.reachEnd (c : CoachId) (e : Engine) : Nat → State → State
  | 0, s => s
  | fuel + 1, s =>
    match (s.coach c).completesAt e with
    | some r => if r.1 ≤ s.clk then s else State.reachEnd c e fuel (s.advance r.1)
    | none => match (s.coach c).leavesBy e with
      | some t => if t ≤ s.clk then s else State.reachEnd c e fuel (s.advance t)
      | none => s

/-- STREAM_COMPLETE of an engine whose transfer has still work to do that only another command brings leaves the state as it
is. -/
def streamCompleteStep (c : CoachId) (e : Engine) (s : State) : State :=
  if (s.coach c).phase ≠ .running then s
  else
    let s' := State.reachEnd c e ((s.coach c).accs.length + 2) s
    match (s'.coach c).completesAt e with
    | some r => s'.endTransfer c e r.2.1 r.2.2
    | none => s

/-- STREAM_COMPLETE. -/
def execStreamComplete (c : CoachId) (e : Engine) (s : State) : Answer := .next (streamCompleteStep c e s)

/-- The first of a list of signals to fall due, and the others. -/
def firstDue : List Sig → Option (Sig × List Sig)
  | [] => none
  | g :: rest =>
    match firstDue rest with
    | none => some (g, [])
    | some (h, others) => if g.due ≤ h.due then some (g, rest) else some (h, g :: others)

def completionSignalStep (c : CoachId) (e : Engine) (s : State) : State :=
  let co := s.coach c
  match firstDue (co.sigs.filter fun g => decide (g.engine = e)) with
  | none => s
  | some (g, rest) =>
    if co.phase ≠ .running then s
    else
      let s := (s.advance g.due).onCoach c fun co =>
        { co with sigs := (co.sigs.filter fun x => decide (x.engine ≠ e)) ++ rest }
      s.deliver c g

/-- COMPLETION_SIGNAL. -/
def execCompletionSignal (c : CoachId) (e : Engine) (s : State) : Answer := .next (completionSignalStep c e s)

/-- An amount from another coach that falls due after the target coach has ended its part of the task adds nothing (DESIGN CHOICE,
log entry 95: R185 doesn't say). -/
def remoteDoorAddStep (c : CoachId) (s : State) : State :=
  match firstDue (s.coach c).inbound with
  | none => s
  | some (g, rest) =>
    let s := (s.advance g.due).onCoach c fun co => { co with inbound := rest }
    if (s.coach c).phase = .running then s.addDoorAt c g.door g.amount.toNat g.due else s

/-- REMOTE_DOOR_ADD. -/
def execRemoteDoorAdd (c : CoachId) (s : State) : Answer := .next (remoteDoorAddStep c s)

/-- The data of a host memory read returns for the oldest request of SIN (R176), no earlier than in the clk after it left. -/
def hostMemoryCompletionStep (c : CoachId) (s : State) : State :=
  let oldest (s : State) : Option Req := (s.transferOf c .sin).bind fun t => t.reqs.find? fun r => r.far = .host
  match oldest s with
  | none => s
  | some q =>
    let s := s.advance (q.clkAt + 1)
    match oldest s with
    | some q => s.feed c q (BitVec.ofNat 4608 (leNat (s.hostRead q.addr 576)))
    | none => s

/-- HOST_MEMORY_COMPLETION. -/
def execHostMemoryCompletion (c : CoachId) (s : State) : Answer := .next (hostMemoryCompletionStep c s)

/-- The clk in which a cart's last carriage arrives (R236): one carriage a clk from the clk after the start on and from the last
cart on, by the bound that the delivery holds, and no earlier than now. -/
def Delivery.arrives (d : Delivery) (last clk : Nat) : Nat :=
  let lo := max (d.clkAt - 172) (last + 64)
  max lo (min clk d.clkAt)

/-- A cart's carriages arrive in the intake buffer; a coach that has ended its part, or runs another task by then, discards them
(R236, R239). -/
def cartArrivalStep (c : CoachId) (s : State) : State :=
  match findAt (fun (d : Delivery) => decide (d.coach = c)) s.kst.flight 0 with
  | none => s
  | some (i, d) =>
    let t := d.arrives (s.coach c).intakeAt s.clk
    let s := { s with kst := { s.kst with flight := s.kst.flight.take i ++ s.kst.flight.drop (i + 1) } }.advance t
    if (s.coach c).phase = .running && (s.coach c).task = d.task && !(s.coach c).intakeDone then
      (s.onCoach c fun co => { co with intake := co.intake ++ [{ d with clkAt := t }], intakeAt := t }).kinPump c 2
    else s

/-- CART_ARRIVAL. -/
def execCartArrival (c : CoachId) (s : State) : Answer := .next (cartArrivalStep c s)

end Sys2Proof.Machine
end

