-- ==== Sys2Proof/Machine/Life.lean ====
section
/-! DEFINITION. The life of a task on its coaches: start, shutter releases, layers, watchdogs, end and abort, and what
happens to a coach between tasks: power gating, bank power, row repair and debug accesses (R22 to R25, R76, R77, R81 to
R84, R183, R190 to R198, R225, R239, R317 to R319, R352 to R356, R432). -/

namespace Sys2Proof.Machine

open Sys2Proof

/-! ## Shutter releases (R190, R191) -/

def releaseStep (releaseAt : State → Task → Nat → Option Nat) (id : TaskId) (sid : BitVec 4) (s : State) : State :=
  match s.taskNamed id with
  | none => s
  | some t =>
    match releaseAt s t sid.toNat with
    | none => s
    | some r => (s.advance r).releaseShutter t.key sid.toNat r

/-- DEVICE_SHUTTER_RELEASE. -/
def execDeviceShutterRelease (id : TaskId) (sid : BitVec 4) (s : State) : Answer :=
  .next (releaseStep State.deviceReleaseAt id sid s)

/-- FABRIC_SHUTTER_RELEASE. -/
def execFabricShutterRelease (id : TaskId) (sid : BitVec 4) (s : State) : Answer :=
  .next (releaseStep State.fabricReleaseAt id sid s)

/-! ## Digest records (R319) -/

def digestStep (id : TaskId) (s : State) : State :=
  match s.tasks.find? fun t => t.id = id && !t.records.isEmpty with
  | none => s
  | some t =>
    let bs := t.records.flatMap fun r => leBytes 32 r.word.toNat
    let s := s.hostWrite (t.f.digestAddr.toNat + 32 * t.recsWritten) bs
    (s.onTask t.key fun t => { t with records := [], recsWritten := t.recsWritten + t.records.length }).postTask t.key

/-- DIGEST_RECORD_WRITE. -/
def execDigestRecordWrite (id : TaskId) (s : State) : Answer := .next (digestStep id s)

/-! ## Watchdogs and the run limit (R193 to R195) -/

/-- STATE of an engine (R199). -/
def Coach.stateCode (co : Coach) (e : Engine) (clk : Nat) : Nat :=
  match (co.engine e).st with
  | .noTask => 0
  | .issuing => match co.awaitsFrom e with
    | some t => if t ≤ clk then 4 else 1
    | none => 1
  | .onWait _ _ => 2
  | .atShutter _ => 3
  | .ownTransfer => 4
  | .ended => 5

/-- The snapshot of an engine (CCH_ENG_SNAP of R199). -/
def Coach.snapshot (co : Coach) (e : Engine) (clk : Nat) : Word64 :=
  let v := co.engine e
  let wait := match v.st with
    | .onWait d n => (co.door d).value.toNat * 2 ^ 40 + n.toNat * 2 ^ 24 + d.toNat * 2 ^ 16
    | _ => 0
  BitVec.ofNat 64 (wait + co.stateCode e clk * 2 ^ 13 + v.pc % 2 ^ 13)

def Coach.snapAll (co : Coach) (clk : Nat) : Coach :=
  { co with snaps := allEngines.foldl (fun m e => store 0 m (eid e) (co.snapshot e clk)) co.snaps }

def Coach.setDeadlock (co : Coach) : Coach :=
  { (co.hit 0 co.deadlockSet.toNat) with deadlock := true, deadlockSet := satInc co.deadlockSet }

/-- The engines of a coach that are blocked on a WAIT (payload of DEADLOCK, R359). -/
def Coach.waiting (co : Coach) : Nat :=
  allEngines.foldl (fun a e => match (co.engine e).st with
    | .onWait _ _ => a + 2 ^ eid e
    | _ => a) 0

/-- The clk in which a watchdog's count reaches its limit, were the engines stuck from clk `since` on; the present clk has been
counted (R193). -/
def firesAt (clk since limit count : Nat) : Nat :=
  if since ≤ clk then clk + (limit - count) else since + (limit - 1)

/-- The watchdog has reached its limit in the present clk. -/
def fires (clk limit count : Nat) (since : Option Nat) : Bool := match since with
  | some x => decide (x ≤ clk) && decide (limit ≤ count)
  | none => false

/-- DEADLOCK_WATCHDOG leaves the state as it is where an engine goes on before the limit is reached. -/
def deadlockStep (c : CoachId) (s : State) : State :=
  let co := s.coach c
  match s.coachStuck co with
  | none => s
  | some since =>
    let s' := s.advance (firesAt s.clk since co.wdogActive co.wdogCount)
    let co := s'.coach c
    if fires s'.clk co.wdogActive co.wdogCount (s'.coachStuck co) then
      (s'.setCoach c { (co.snapAll s'.clk).setDeadlock with wdogCount := 0 }).latchCoach c .deadlock co.waiting
    else s

/-- DEADLOCK_WATCHDOG. -/
def execDeadlockWatchdog (c : CoachId) (s : State) : Answer := .next (deadlockStep c s)

/-- TASK_WATCHDOG leaves the state as it is where an engine goes on before the limit is reached. -/
def taskWatchdogStep (id : TaskId) (s : State) : State :=
  match s.taskNamed id with
  | none => s
  | some t =>
    match maskCoaches t.coachMask with
    | [] => s
    | c :: _ =>
      match s.taskStuck t with
      | none => s
      | some since =>
        let limit := (s.coach c).wdogActive
        let s' := s.advance (firesAt s.clk since limit t.wdogCount)
        match s'.task? t.key with
        | none => s
        | some t =>
          if fires s'.clk limit t.wdogCount (s'.taskStuck t) then
            let s' := s'.onTask t.key fun t => { t with wdogCount := 0 }
            let s' := (maskCoaches t.coachMask).foldl (fun s x => s.onCoach x fun co => co.snapAll s.clk) s'
            (s'.onCoach c Coach.setDeadlock).latch t.key (coachCond s'.clk c .deadlock (s'.coach c).waiting)
          else s

/-- TASK_WATCHDOG. -/
def execTaskWatchdog (id : TaskId) (s : State) : Answer := .next (taskWatchdogStep id s)

def runLimitStep (id : TaskId) (s : State) : State :=
  match s.taskNamed id with
  | none => s
  | some t =>
    let live := (maskCoaches t.coachMask).filter fun c => (s.coach c).task = some t.key && (s.coach c).phase = .running
    match live with
    | [] => s
    | c :: _ =>
      if t.f.runLimit = 0 then s
      else
        let s := s.advance (t.t0 + t.f.runLimit.toNat)
        s.latch t.key (coachCond s.clk c .wdog t.f.runLimit.toNat)

/-- RUN_LIMIT. -/
def execRunLimit (id : TaskId) (s : State) : Answer := .next (runLimitStep id s)

/-! ## Task start (R183, R196, R197, R225) -/

/-- The doors of a door table (R184, R338). -/
def doorsOf (p : ProgSlot) : SMap Door :=
  p.doors.foldl (fun m d =>
    store Door.zero m d.1 { value := d.2.extractLsb' 0 16, cls := d.2.extractLsb' 16 2, adds := [] }) []

/-- Engines before their first instruction, due in clk `t0`; settings words and strides are zero (R207). -/
def enginesFrom (t0 : Nat) : SMap EngineS :=
  allEngines.map fun e => (eid e, { EngineS.zero with st := .issuing, nextIssue := t0 })

/-- A task context list (R60, R61). -/
def State.contextList (s : State) (cs : List (BitVec 14)) : List CtxTag :=
  cs.map fun c =>
    match look none s.contexts c.toNat with
    | some x => { context := c, tag := if x.bound then some x.tag else none, paramSet := x.paramSet }
    | none => { context := c, tag := none, paramSet := 0 }

/-- Every bank gets the target ON; one that is not ON is zero when the start is over (R84), and writes of an earlier task that are still
to come have been made by then. -/
def Coach.wakeBanks (co : Coach) : Coach :=
  let off := (List.range 32).filter fun b => (co.bank b).st ≠ .on
  let keep (row : Nat) : Bool := !(off.contains (row / 2048))
  { co with
    banks := co.banks.filterMap fun b =>
      if { b.2 with st := .on, target := true, since := 0, downAt := none } = Bank.reset then none
      else some (b.1, { b.2 with st := .on, target := true, since := 0, downAt := none })
    spad := co.landed.filter fun r => keep r.1
    ecc := co.ecc.filter fun e => keep (e.1 / 64) }

/-- A coach with the start steps of R196 done, its task starting in clk `t0`; CCH_START_TIME follows in that clk (R197). -/
def Coach.begin (co : Coach) (t : Task) (list : List CtxTag) (t0 : Nat) : Coach :=
  let swap := !(co.prog.valid && co.prog.progId = t.f.programId)
  let co := { co.wakeBanks with active := if swap then !co.active else co.active }
  { co with
    fill := [], headers := [], hdrLate := [], spadDue := [], vregDue := [], actDue := 0, tileAt := [], accs := [], opens := []
    doors := doorsOf co.prog
    engines := enginesFrom t0, phase := .running, task := some t.key, taskId := t.id, hazardOn := t.f.hazard
    coupling := BitVec.ofNat 2 (bits co.prog.header.toNat 149 148), ctxList := list
    modTable := (list.map (·.paramSet)).eraseDups, sigs := [], inbound := []
    wdogActive := max co.wdogLimit.toNat 65536, wdogCount := 0, satSeen := false, accMem := [], actTable := none
    chainIn := [], tileQueue := [], regionTags := [], tagLate := [], intake := [], intakeAt := 0
    intakeDone := false, mismatch := 0, mismatchRaised := false
    poisonCount := 0, first := none, digest := 0, digestSlots := 0, idleCount := 0 }

/-- The start steps of a coach take a time between what its slowest step needs and the bound of R196, both in clk; where
in this range it falls is open (log entry 1). -/
def State.startLatency (s : State) (t : Task) : Nat :=
  let cs := maskCoaches t.coachMask
  let banks (p : Bank → Bool) : Bool := cs.any fun c => (List.range 32).any fun b => p ((s.coach c).bank b)
  let lo := if banks fun b => b.st ≠ .on then 1600 else 256
  let hi := if banks fun b => b.st = .draining then 6600 else 2048
  lo + s.freeNat 0 % (hi - lo + 1)

/-- A task whose device list holds an unreachable node is lost as soon as it runs (R290). -/
def State.checkDevices (s : State) (t : Task) : State :=
  match t.devices.find? fun n => s.ehl.unreachable.any fun u => decide (u.1 = n.toNat) with
  | some n => s.latch t.key (deviceCond s.clk srcHost 7 (2 ^ 16 + n.toNat) none)
  | none => s

def taskStartStep (id : TaskId) (s : State) : State :=
  match s.tasks.find? fun t => t.id = id && t.st = .queued with
  | none => s
  | some t =>
    let cs := maskCoaches t.coachMask
    if !(s.startReady t && s.queueReady t) || (s.board.throttle && !cs.isEmpty) || cs.any (fun c => (s.coach c).gated) then s
    else
      let t0 := if cs.isEmpty then s.clk else s.clk + s.startLatency t + 128
      let list := s.contextList t.contexts
      let s := cs.foldl (fun s c => s.onCoach c fun co => co.begin t list t0) s
      let s := { s with kst := cs.foldl Kst.refill s.kst }
      let s := s.onTask t.key fun t => { t with st := .running, t0 := t0, startTime := if cs.isEmpty then BitVec.ofNat 64 s.ehl.ftime else 0 }
      ((s.claimQueue t).freed).checkDevices t

/-- TASK_START. -/
def execTaskStart (id : TaskId) (s : State) : Answer := .next (taskStartStep id s)

/-! ## Power gating (R24, R25) -/

/-- COACH_WAKE: a gated coach that a submitted task named completes its wake; under THROTTLE it waits (R414). -/
def execCoachWake (c : CoachId) (s : State) : Answer :=
  .next (if (s.coach c).gated && (s.coach c).waking && !s.board.throttle then
      s.onCoach c fun co => { co with gated := false, waking := false, idleCount := 0 }
    else s)

/-- A coach is gated: every bank enters OFF and its contents are lost. R25 names what else keeps its contents, but neither the vector
registers, nor the transpose tile, nor the header table: they keep theirs (DESIGN CHOICE, log entry 104). -/
def Coach.gate (co : Coach) (clk : Nat) : Coach :=
  { co with
    gated := true, idleCount := 0, spad := [], fill := [], ecc := [], spadDue := [], tileAt := [], accs := [], opens := []
    banks := (List.range 32).map fun b => (b, { st := .off, target := false, since := clk, downAt := none }) }

def idleGateStep (c : CoachId) (s : State) : State :=
  let co := s.coach c
  let need := co.idleLimit.toNat * 65536
  if co.idleLimit ≠ 0 ∧ s.coachIdle c = true ∧ co.gated = false then
    let s := s.advance (s.clk + (need - co.idleCount))
    s.onCoach c fun co => co.gate s.clk
  else s

/-- COACH_IDLE_GATE. -/
def execCoachIdleGate (c : CoachId) (s : State) : Answer := .next (idleGateStep c s)

/-- GATE_NOW. -/
def execGateNow (c : CoachId) (s : State) : Answer :=
  .next (if s.coachIdle c && !(s.coach c).gated then s.onCoach c fun co => co.gate s.clk else s)

/-! ## Bank transitions (R82, R83, R432) -/

/-- A transfer that issued before the power-down has still to write the bank (R82). -/
def Coach.streamWrites (co : Coach) (b since : Nat) : Bool :=
  let into (m : MapEntry) (issued : Nat) : Bool := m.banks.contains b && decide (issued ≤ since)
  (match (co.engine .sin).transfer with
    | some t => into (co.mapEntry (XDesc.ofWord t.desc.toNat).nearEntry) t.issuedAt
    | none => false) ||
  (match (co.engine .kin).kin, co.keyWindow with
    | some k, some m => into m k.issuedAt
    | _, _ => false)

/-- The clk in which a draining bank enters OFF, by what is known: the one after its last counted write, at most 5,000 clk after
the power-down, and the next one where the drain began with a zero counter (R82, R84). -/
def Coach.drainEnd (co : Coach) (b : Nat) : Nat :=
  let since := (co.bank b).since
  match (co.bank b).downAt with
  | none => since + 1
  | some at_ =>
    let mine := co.accs.filter fun a => a.write && a.act = .bank && decide (a.row / 2048 = b ∧ a.issued ≤ at_)
    if co.streamWrites b at_ then since + 5000 else min (mine.foldl (fun m a => max m a.clk) since + 1) (since + 5000)

/-- The clock comes to the end of a drain, which a bank conflict on the way may put off (R79). -/
def State.reachDrain (c : CoachId) (b : Nat) : Nat → State → State
  | 0, s => s
  | fuel + 1, s =>
    let t := (s.coach c).drainEnd b
    if ((s.coach c).bank b).st ≠ .draining ∨ t ≤ s.clk then s else State.reachDrain c b fuel (s.advance t)

/-- The bank enters OFF and is empty at the end of the clk; in the next clk it follows its target, and a write that still comes finds it
OFF (R83, R84, R432). -/
def bankDrainStep (c : CoachId) (bank : BitVec 5) (s : State) : State :=
  let b := bank.toNat
  if ((s.coach c).bank b).st ≠ .draining then s
  else
    let s := State.reachDrain c b ((s.coach c).accs.length + 2) s
    s.onCoach c fun co => co.setBank b { co.bank b with st := .off, since := s.clk }

/-- BANK_DRAIN_END. -/
def execBankDrainEnd (c : CoachId) (bank : BitVec 5) (s : State) : Answer := .next (bankDrainStep c bank s)

/-- The bank enters ON; in the next clk it follows its target (R432). -/
def bankWakeStep (c : CoachId) (bank : BitVec 5) (s : State) : State :=
  let b := bank.toNat
  let v := (s.coach c).bank b
  if v.st ≠ .waking then s
  else
    let s := s.advance (v.since + 1600)
    s.onCoach c fun co => (co.loseBank b).setBank b { co.bank b with st := .on, since := s.clk, downAt := none }

/-- BANK_WAKE_END. -/
def execBankWakeEnd (c : CoachId) (bank : BitVec 5) (s : State) : Answer := .next (bankWakeStep c bank s)

/-! ## Row repair (R76, R77) -/

def rowRepairStep (c : CoachId) (row : BitVec 16) (s : State) : State :=
  let co := s.coach c
  let r := row.toNat
  let b := r / 2048
  let used := look 0 co.spares b
  if !(co.repairs.contains r) || co.phase ≠ .idle then s
  else
    let co := { co with repairs := co.repairs.filter fun x => decide (x ≠ r), idleCount := 0 }
    if used < 16 then
      let co := { co with
        spares := store 0 co.spares b (used + 1)
        ecc := co.ecc.filter fun e => decide (e.1 / 64 ≠ r) }
      (s.setCoach c co).journal (.spadRepair c.toNat b (r % 2048) used)
    else
      let s := s.setCoach c { co with degraded := true }
      if s.boot.nvm.journal.contains (.coachDegraded c.toNat b) then s
      else (s.journal (.coachDegraded c.toNat b)).raise c.toNat 7 (c.toNat * 2 ^ 5 + b)

/-- SPAD_ROW_REPAIR. -/
def execSpadRowRepair (c : CoachId) (row : BitVec 16) (s : State) : Answer := .next (rowRepairStep c row s)

/-! ## The end of a task on a coach (R198, R239) -/

/-- Every engine has ended, and every transfer and completion signal has completed. -/
def Coach.partOver (co : Coach) : Bool :=
  co.phase = .running && co.sigs.isEmpty &&
    allEngines.all fun e => (co.engine e).st = .ended && (co.engine e).transfer.isNone && (co.engine e).kin.isNone

/-- The earlier of two first origins; of two in one clk the lower coach's (R72). -/
def earlier (a b : Option Origin) : Option Origin :=
  match a, b with
  | some x, some y => if y.clkAt < x.clkAt ∨ (y.clkAt = x.clkAt ∧ y.coach < x.coach) then some y else some x
  | some x, none => some x
  | none, y => y

/-- A coach's accounts pass to its task. -/
def Task.settleCoach (t : Task) (c : CoachId) (co : Coach) : Task :=
  { t with
    mismatch := t.mismatch + co.mismatch, poison := t.poison + co.poisonCount, first := earlier t.first co.first
    leftDigests := store (0, 0) t.leftDigests c.toNat (co.digest, co.digestSlots)
    endedCoaches := t.endedCoaches ++ [c.toNat] }

def coachEndStep (c : CoachId) (s : State) : State :=
  let co := s.coach c
  match co.task with
  | none => s
  | some key =>
    if !co.partOver then s
    else
      let s := s.onTask key fun t => t.settleCoach c co
      let b : CreditBack := { due := s.clk + 1 + 172, recv := c, all := true }
      let s := { s with kst := { s.kst with back := s.kst.back ++ [b] } }
      let s := s.setCoach c { co with
        phase := .idle, task := none, intake := [], intakeDone := true, idleCount := 0, actTable := none
        engines := co.engines.map fun e => (e.1, { e.2 with st := EngSt.noTask }) }
      match s.task? key with
      | none => s
      | some t =>
        if t.st = .running ∧ (maskCoaches t.coachMask).all (fun x => t.endedCoaches.contains x.toNat) then
          ((s.closeLayer key 0 true).releaseQueue key).endTask key
        else s

/-- COACH_END. -/
def execCoachEnd (c : CoachId) (s : State) : Answer := .next (coachEndStep c s)

/-! ## The abort sequence (R352 to R356) -/

/-- The aborting task that coach `c` has still to hear of: the one it runs, or one whose part it has ended, while it
runs nothing else. -/
def State.abortFor (s : State) (c : CoachId) : Option Task :=
  let co := s.coach c
  s.tasks.find? fun t => t.st = .aborting && bitOf t.coachMask.toNat c.toNat && !(t.scrubbed.contains c.toNat) &&
    ((co.phase = .running && co.task = some t.key) || (co.phase = .idle && t.endedCoaches.contains c.toNat))

/-- A stopped transfer of SOUT: its writes that have left it remain (R353). -/
def Transfer.stop (t : Transfer) : Transfer := { t with reqs := t.reqs.filter Req.left, images := [] }

/-- An engine stops: its reads are forgotten, its writes that have left it remain. -/
def EngineS.stop (v : EngineS) (sout : Bool) : EngineS :=
  { v with st := .noTask, loops := [], shutAt := 0, kin := none, transfer := if sout then v.transfer.map Transfer.stop else none }

def abortReceiptStep (c : CoachId) (s : State) : State :=
  match s.abortFor c with
  | none => s
  | some t =>
    let co := (s.coach c).settle s.clk
    let co := allEngines.foldl (fun co e => co.onEngine e fun v => v.stop (e = .sout)) co
    let s := s.setCoach c { co with
      phase := .stopped, task := some t.key, hdrLate := [], tagLate := [], sigs := [], accs := [], opens := [] }
    { s with ehl := { s.ehl with reads := s.ehl.reads.filter fun r => !(r.task = t.key && decide (r.reader = .coach c)) } }

/-- ABORT_RECEIPT. -/
def execAbortReceipt (c : CoachId) (s : State) : Answer := .next (abortReceiptStep c s)

/-- A bank that is ON or WAKING ends the scrub in ON, another one in OFF; that is its target from the scrub's begin on, so that no power
instruction of the aborted task takes effect any more (R354, R432). -/
def Bank.endsOn (b : Bank) : Bool := b.st = .on || b.st = .waking

def Coach.scrubTargets (co : Coach) : SMap Bank :=
  (List.range 32).foldl (fun m b => store Bank.reset m b { co.bank b with target := (co.bank b).endsOn }) co.banks

def drainDoneStep (c : CoachId) (s : State) : State :=
  if (s.coach c).phase ≠ .stopped then s
  else
    let ws : List Req := match s.transferOf c .sout with
      | some t => t.reqs.filter fun (q : Req) => q.far = .hbm
      | none => []
    let s := ws.foldl (fun (s : State) (w : Req) => s.writeHbm c w) s
    (s.setTransfer c .sout none).onCoach c fun co => { co with phase := .scrubbing, banks := co.scrubTargets }

/-- ABORT_DRAIN_DONE. -/
def execAbortDrainDone (c : CoachId) (s : State) : Answer := .next (drainDoneStep c s)

/-- A zero row of the accumulator memory. -/
def AccRow.zero : AccRow := { kind := .int, sums := List.replicate 16 0, terms := 0 }

/-- A bank as the scrub leaves it, which is also its target (R354, R432). -/
def Bank.scrubbed (b : Bank) : Bank :=
  { st := if b.endsOn then .on else .off, target := b.endsOn, since := 0, downAt := none }

/-- A scrubbed coach (R354). -/
def Coach.scrub (co : Coach) : Coach :=
  { co with
    spad := [], fill := [], ecc := [], spadDue := [], vregDue := [], actDue := 0, tileAt := [], accs := [], opens := []
    banks := (List.range 32).foldl (fun m b => store Bank.reset m b (co.bank b).scrubbed) []
    headers := [], hdrLate := [], doors := co.doors.filterMap fun d =>
      if d.2.cls = 0 then none else some (d.1, { d.2 with value := 0, adds := [] })
    tileQueue := [], intake := [], chainIn := [], actTable := none, accMem := (List.range 512).map fun i => (i, AccRow.zero), vregs := []
    ttile := [], regionTags := [], tagLate := [], phase := .idle, task := none, sigs := [], inbound := [], idleCount := 0 }

/-- The clk in which the last bank that is waking enters ON, which the scrub waits for (R354). -/
def Coach.wakesBy (co : Coach) : Nat :=
  co.banks.foldl (fun m b => if b.2.st = .waking then max m (b.2.since + 1600) else m) 0

def scrubDoneStep (c : CoachId) (s : State) : State :=
  match (s.coach c).phase, (s.coach c).task with
  | .scrubbing, some key =>
    let s := s.advance (s.coach c).wakesBy
    let co := s.coach c
    ({ s with kst := s.kst.refill c }.setCoach c co.scrub).onTask key fun t => { t with scrubbed := t.scrubbed ++ [c.toNat] }
  | _, _ => s

/-- SCRUB_DONE. -/
def execScrubDone (c : CoachId) (s : State) : Answer := .next (scrubDoneStep c s)

/-- Coach `c` has done its part in the abort of `t`: it has scrubbed, or it had ended and runs another task (R23). -/
def State.abortDone (s : State) (t : Task) (c : CoachId) : Bool :=
  t.scrubbed.contains c.toNat ||
    (t.endedCoaches.contains c.toNat && (s.coach c).phase ≠ .idle && (s.coach c).task ≠ some t.key)

/-- Bytes of a region that an aborted task has written: each stays or takes an open value (R356; log entry 1). -/
def undefBytes (use base n : Nat) (m : SMap Byte) : SMap Byte :=
  storeList 0 m base ((List.range n).map fun i =>
    let k := Config.freeNat use i
    if k % 2 = 0 then look 0 m (base + i) else BitVec.ofNat 8 (k / 2))

/-- A region of this device's HBM or of host memory becomes undefined; one on another device lies there. -/
def State.undefRegion (s : State) (w : Far × Nat × Nat) : State :=
  match w.1 with
  | .hbm => { s.freed with hbm := { s.hbm with data := undefBytes s.freeCtr w.2.1 w.2.2 s.hbm.data } }
  | .host => { s.freed with host := undefBytes s.freeCtr w.2.1 w.2.2 s.host }
  | .fabric _ => s

/-- An abort of a task is complete: the regions it has written are undefined. -/
def abortCompleteStep (id : TaskId) (s : State) : State :=
  match s.tasks.find? fun t => t.id = id && t.st = .aborting with
  | none => s
  | some t =>
    if (maskCoaches t.coachMask).all fun c => s.abortDone t c then ((t.wrote.foldl State.undefRegion s).releaseQueue t.key).endTask t.key
    else s

/-- ABORT_COMPLETE. -/
def execAbortComplete (id : TaskId) (s : State) : Answer := .next (abortCompleteStep id s)

/-! ## Debug accesses (R81) -/

/-- The outcome DENIED of a request: debug not enabled, coach not idle, reserved row, or granted. -/
def State.debugOutcome (s : State) (co : Coach) : BitVec 2 :=
  if !s.boot.debug then 1
  else if co.phase ≠ .idle then 2
  else if 1536 ≤ co.dbgAddr.toNat / 64 % 2048 then 3
  else 0

/-- A debug request: refused at once, or under way until DBG_DONE. A request while one is under way has no effect. -/
def debugStep (write : Bool) (c : CoachId) (s : State) : State :=
  let co := s.coach c
  if co.dbgReq.isSome then s
  else
    let d := s.debugOutcome co
    if d = 0 then s.setCoach c { co with dbgDenied := 0, dbgReq := some { write := write, addr := co.dbgAddr }, idleCount := 0 }
    else s.setCoach c { co with dbgDenied := d, dbgData := if write then co.dbgData else 0 }

/-- DBG_READ. -/
def execDbgRead (c : CoachId) (s : State) : Answer := .next (debugStep false c s)

/-- DBG_WRITE. -/
def execDbgWrite (c : CoachId) (s : State) : Answer := .next (debugStep true c s)

/-- The errors of one slot met by a debug read. -/
def Coach.eccSlot (co : Coach) (addr : Nat) : Coach :=
  { ({ co with ecc := co.ecc.filter fun e => decide (e.1 = addr) }.eccRead (addr / 64)).2 with ecc := co.ecc }

/-- CCH_DBG_DATA takes what a read answers, unless the host writes it in the same clk (R13). -/
def Coach.debugData (co : Coach) (v : Slot) : Coach := if co.isEarly 5 then co else { co with dbgData := v }

/-- A granted access completes; a bank that is not powered answers with an open value and takes no write (log entry 1). A
draining bank takes the write, a slot with an uncorrectable error answers with what is stored, and a write takes CCH_DBG_DATA as it
stands when the access completes (DESIGN CHOICE, log entry 99).
Data that the host writes in this very clk stands (R13). -/
def debugDoneStep (c : CoachId) (s : State) : State :=
  let co := s.coach c
  match co.dbgReq with
  | none => s
  | some r =>
    let addr := r.addr.toNat
    let row := addr / 64
    let b := co.bank (row / 2048)
    let co := { co with dbgReq := none }
    let live := b.st = .on || b.st = .draining
    if r.write then
      if live then
        s.setCoach c { co with
          spad := store 0 co.spad row (setSlot (look 0 co.spad row) (addr % 64) co.dbgData)
          ecc := store none co.ecc addr none }
      else s.setCoach c co
    else if live then s.setCoach c ((co.eccSlot addr).debugData (slotOf (look 0 co.spad row) (addr % 64)))
    else (s.setCoach c (co.debugData (BitVec.ofNat 36 (s.freeNat 0)))).freed

/-- DBG_DONE. -/
def execDbgDone (c : CoachId) (s : State) : Answer := .next (debugDoneStep c s)

end Sys2Proof.Machine
end

