-- ==== Sys2Proof/Machine/KeyStream.lean ====
section
/-! DEFINITION. The key streamer: reading and sending carts, credits, timeouts, serving tasks and the shares (R225 to R245, R260,
R342, R435). -/

namespace Sys2Proof.Machine

open Sys2Proof

/-! ## Reading a cart (R229, R230, R232, R435) -/

/-- The key streamer can name cart `seq` of an entry by its directory entry (R232). -/
def KeyDir.names (d : KeyDir) (e : KeyEntry) (seq : Nat) : Bool :=
  d.keyIndex = e.keyIndex && decide (e.first + e.carts ≤ d.carts) &&
    (e.limbs = 0 || d.kind = 1 || d.kind = 2 || d.kind = 5) && d.hdrNode = d.bodyNode && d.hdrAddr % 32 = 0 &&
    d.bodyAddr % 576 = 0 && decide (d.hdrAddr + 32 * seq + 32 ≤ hbmEnd) &&
    decide (d.bodyAddr + 18432 * (seq + 1) ≤ hbmEnd)

/-- A void cart (R232); its KIND is open (log entry 1). -/
def voidCart (kind keyIndex seq : Nat) : Cart :=
  { hdr := BitVec.ofNat 256 (kind % 256 * 2 ^ 128 + 3 * 2 ^ 112 + seq % 2 ^ 32 * 2 ^ 80 + keyIndex % 65536 * 2 ^ 64 +
      noKeyTag.toNat),
    body := List.replicate 64 0 }

/-- The slots that a real cart would have taken are spent on a void cart: those of the 32 granules of its body, and its share of a
header granule, at open channels where no directory entry names it. A granule of another node takes no slot here and counts as come
(R232, R435; DESIGN CHOICE, log entry 79). -/
def State.askVoid (s : State) (q : Nat) (v : KeyQueue) (h : InHand) : State :=
  let addr (i : Nat) : Nat := match v.dir h with
    | some d => if i = 0 then d.hdrAddr + 32 * h.seq else d.bodyAddr + 18432 * h.seq + 576 * (i - 1)
    | none => hbmEnd
  let here (i : Nat) : Bool := match v.dir h with
    | some d => decide ((if i = 0 then d.hdrNode else d.bodyNode) = s.ehl.nodeId)
    | none => true
  let held := (look none v.hdrs h.entry).any fun x => decide (x.1 = v.hdrGranule h)
  let far := (List.range 32).filter fun i => !(here (i + 1))
  let v := { v with
    stage := 2, void := true, got := far.foldl (fun m i => insert m (i + 1) []) v.got
    hdrs := if held || here 0 then v.hdrs else insert v.hdrs h.entry (some (v.hdrGranule h, [])) }
  let near := (if held then [] else [0]) ++ (List.range 32).map (· + 1)
  (((near.filter here).foldl (fun (s : State) i => s.askSpent (addr i) i s.clk (.key q h.task.key i)) s).setQueue q v).freed

/-- The granules of a cart are asked for: of this device's HBM at its channels, of another node with READ_REQ packets (R435). The
header granule is read once for the 18 carts whose headers it holds (R230). -/
def State.askCart (s : State) (q : Nat) (v : KeyQueue) (h : InHand) (d : KeyDir) : State :=
  let v := { v with stage := 2 }
  let ga := v.hdrGranule h
  let body (i : Nat) : Nat := d.bodyAddr + 18432 * h.seq + 576 * i
  let one (n : NodeId) (addr place : Nat) (s : State) : State :=
    if n = s.ehl.nodeId then s.ask 0 addr 576 s.clk (.key q h.task.key place)
    else (s.readRemote (.queue q place) h.task.key h.task.f.ftag n addr none).2
  let held := (look none v.hdrs h.entry).any fun x => decide (x.1 = ga)
  let s := if held then s else one d.hdrNode ga 0 s
  ((List.range 32).foldl (fun (s : State) i => one d.bodyNode (body i) (i + 1) s) s).setQueue q v

/-- The directory entry of a list entry is asked for; one at or above 992 GiB, or of a destroyed context, names nothing (R232). -/
def State.askDir (s : State) (q : Nat) (v : KeyQueue) (h : InHand) : State :=
  match look none s.contexts h.e.context.toNat with
  | some x =>
    let addr := x.dirAddr.toNat + 32 * h.e.keyIndex
    if addr + 32 ≤ hbmEnd then
      (s.ask 0 addr 32 s.clk (.key q h.task.key 33)).setQueue q { v with stage := 1 }
    else s.setQueue q { v with dirs := insert v.dirs h.entry none }
  | none => s.setQueue q { v with dirs := insert v.dirs h.entry none }

/-- What is next to be asked for the cart in hand, once its directory entry has been asked for. -/
def State.fetchKnown (s : State) (q : Nat) (v : KeyQueue) (h : InHand) : State :=
  match v.dir h with
  | none => if v.asked h then s.askVoid q v h else s
  | some d =>
    if d.names h.e h.seq && !(h.e.groupEn && d.bodyNode ≠ s.ehl.nodeId) then s.askCart q v h d else s.askVoid q v h

/-- The key streamer asks for what the cart in hand of a queue still needs (R230, R240). -/
def State.fetch (s : State) (q : Nat) : State :=
  let v := s.keyQueue q
  match s.inHand v with
  | none => s
  | some h =>
    if v.stage ≠ 0 then s
    else match s.keyRole h.e with
      | .member => s
      | .void => s.askVoid q v h
      | .read _ =>
        if v.asked h then s.fetchKnown q v h
        else
          let s := s.askDir q v h
          s.fetchKnown q (s.keyQueue q) h

/-- A granule of the cart in hand has come, or its directory entry (place 33); with the last of them the cart is ready and counts
as read (R249). -/
def State.granuleCame (s : State) (q task place : Nat) (bs : List Byte) : State :=
  let v := s.keyQueue q
  match s.inHand v with
  | none => s
  | some h =>
    if v.task ≠ task then s
    else if place = 33 then
      (s.setQueue q { v with stage := 0, dirs := insert v.dirs h.entry (some (BitVec.ofNat 256 (leNat bs))) }).fetch q
    else
      let v := if place = 0 then { v with hdrs := insert v.hdrs h.entry (some (v.hdrGranule h, bs)) }
        else { v with got := insert v.got place bs }
      let s := s.setQueue q v
      if s.cartReady v h && !v.void then
        { (s.hit 19 s.kst.cartsRead) with kst := { s.kst with cartsRead := count48 (s.kst.cartsRead + 1) } }
      else s

/-- A read of the key streamer has met an uncorrectable word: the task that owns the queue aborts, and every task that has a coach
among the receivers of the cart; the condition ranks as the lowest receiver but names no coach (R260, R351). -/
def State.keyReadFailed (s : State) (q task : Nat) : State :=
  let info := s.hbm.uncorrInfo.toNat % 2 ^ 62
  let rs := match s.inHand (s.keyQueue q) with
    | some h => if h.task.key = task then h.e.receivers h.seq else []
    | none => []
  let cond := rankedAs rs.head? (deviceCond s.clk srcKst 6 info none)
  (s.runningKeys fun u => u.key = task || rs.any fun c => bitOf u.coachMask.toNat c.toNat).foldl (fun s k => s.latch k cond) s

/-! ## CART_SEND (R235 to R237, R240) -/

/-- The cart that a queue sends next, with the queue and the state after it is taken. -/
def State.takeCart (s : State) (v : KeyQueue) (h : InHand) : Cart × KeyQueue × State :=
  match s.keyRole h.e, v.groupBuf.find? fun g => g.1 = h.e.group with
  | .member, some g => (g.2, { v with groupBuf := v.groupBuf.erase g }, s)
  | _, _ =>
    if v.void then
      (voidCart (s.freeNat 3) h.e.keyIndex h.seq, v,
        { (s.freed.hit 21 s.kst.voidCarts) with kst := { s.kst with voidCarts := count48 (s.kst.voidCarts + 1) } })
    else
      let hdr := match look none v.hdrs h.entry, v.dir h with
        | some x, some d => (x.2.drop ((d.hdrAddr + 32 * h.seq) % 576)).take 32
        | _, _ => []
      (Cart.ofBytes hdr ((List.range 32).flatMap fun i => look [] v.got (i + 1)), v, s)

/-- The pieces of a cart that set out to the members of a group; their DST is open (log entry 1). -/
def State.cartPackets (s : State) (tag : BitVec 16) (group : BitVec 12) (seq : Nat) (k : Cart) : List Packet :=
  (List.range 33).map fun i =>
    let p := s.packetTo (BitVec.ofNat 12 (s.freeNat 4)) tag (if i = 0 then 1 else 3) 0 (seq % 2 ^ 32 * 2 ^ 54 + i * 2 ^ 48)
      (if i = 0 then leBytes 32 k.hdr.toNat else k.granule (i - 1))
    { p with group := group }

/-- A cart starts to its receivers: its last carriage is in every intake buffer by 236 clk later, and the next cart to one of them
starts no sooner than 64 clk later (R236). A coach whose part is over spends no credit on it (R239). -/
def State.startCart (s : State) (q : Nat) (v : KeyQueue) (h : InHand) (k : Cart) : KeyQueue × State :=
  let coaches := (h.e.receivers h.seq).filter (s.takesCarts h.task.key)
  let v := { v with used := (s.membersOf h).foldl (fun m (n : NodeId) => store 0 m (64 + n.toNat) (look 0 m (64 + n.toNat) + 1)) v.used }
  let s := { (s.hit 20 s.kst.cartsSent) with kst := { s.kst with
    last := q
    used := coaches.foldl (fun m (c : CoachId) => store 0 m c.toNat (look 0 m c.toNat + 1)) s.kst.used
    nextAt := (h.e.receivers h.seq).foldl (fun m (c : CoachId) => store 0 m c.toNat (s.clk + 64)) s.kst.nextAt
    flight := s.kst.flight ++ coaches.map fun c => ({ clkAt := s.clk + 236, coach := c, task := (s.coach c).task, cart := k } : Delivery)
    cartsSent := count48 (s.kst.cartsSent + 1) } }
  match s.keyRole h.e, look none s.kst.groups h.e.group.toNat with
  | .read (_ :: _), some g =>
    (v, ((s.cartPackets h.task.f.ftag h.e.group h.seq k).foldl (fun (s : State) (p : Packet) => s.multicast g.portMask none p) s).freed)
  | .member, some g =>
    -- the queue at the source is not told to a member: open (log entry 1)
    (v, (s.sendPacket .cartCredit (s.packetTo g.source h.task.f.ftag 0 0
      (h.seq % 2 ^ 32 * 2 ^ 54 + s.freeNat (5 + q) % 16 * 2 ^ 50) [])).freed)
  | _, _ => (v, s)

/-- The clk from which a cart may start to every receiver: a coach takes one carriage a clk (R236). -/
def State.roomAt (s : State) (h : InHand) : Nat :=
  (h.e.receivers h.seq).foldl (fun m (c : CoachId) => max m (look 0 s.kst.nextAt c.toNat)) 0

/-- The cart in hand of a queue starts, where it is ready, every receiver holds a credit, it is the queue's turn and the coaches take
the carriages, and the next is asked for. -/
def State.sendCart (s : State) (q : Nat) : State :=
  match s.inHand (s.keyQueue q) with
  | none => s
  | some h =>
    if s.turnQueue ≠ some q ∨ s.clk < s.roomAt h then s
    else
      let r := s.takeCart (s.keyQueue q) h
      let w := r.2.2.startCart q r.2.1 h r.1
      (w.2.setQueue q (w.1.sent h.list h.e h.entry h.n)).fetch q

/-- The clk by which the coaches take the carriages of a ready cart in hand of a queue; the present one otherwise. -/
def State.readyBy (s : State) (q : Nat) : Nat :=
  match s.inHand (s.keyQueue q) with
  | some h => if s.turnQueue = some q then s.roomAt h else s.clk
  | none => s.clk

/-- A queue, no earlier than its task's T0, asks for what the cart in hand needs, and sends it where it can (R225, R236, R237,
R245). -/
def cartSendStep (q : BitVec 4) (s : State) : State :=
  match s.task? (s.keyQueue q.toNat).task with
  | none => s
  | some t =>
    if !(s.keyQueue q.toNat).active ∨ t.st ≠ .running then s
    else
      let s := (s.advance t.t0).fetch q.toNat
      (s.advance (s.readyBy q.toNat)).sendCart q.toNat

/-- CART_SEND. -/
def execCartSend (q : BitVec 4) (s : State) : Answer := .next (cartSendStep q s)

/-! ## MCAST_TIMEOUT (R238) -/

def receiverNumber (r : Receiver) : Nat :=
  match r with
  | .coach c => c.toNat
  | .member n => 64 + n.toNat

/-- KST_TIMEOUT_INFO (R249). -/
def timeoutInfo (q : Nat) (r : Receiver) (group : BitVec 12) : Nat :=
  match r with
  | .coach c => c.toNat * 2 ^ 16 + q
  | .member n => 2 ^ 28 + n.toNat * 2 ^ 16 + group.toNat * 2 ^ 4 + q

/-- A receiver by its number. -/
def receiverOf (r : Nat) : Receiver := if r < 64 then .coach (BitVec.ofNat 6 r) else .member (BitVec.ofNat 12 (r - 64))

/-- The timer of a receiver of queue `q` has reached the limit: every task that has a coach, or for a fabric receiver a device, among
the receivers of the held cart aborts, with the queue's owner, and the register names the receiver. -/
def State.timeoutFires (s : State) (q : Nat) (r : Receiver) : State :=
  match s.inHand (s.keyQueue q) with
  | none => s
  | some h =>
    let info := timeoutInfo q r h.e.group
    let rs := h.e.receivers h.seq
    let ms := s.membersOf h
    let s := { (s.hit 3 s.kst.timeoutSet.toNat) with kst := { s.kst with
      timeout := true, timeoutSet := satInc s.kst.timeoutSet, timeoutInfo := BitVec.ofNat 32 info } }
    let cond : AbortCond := match r with
      | .coach c => { coachCond s.clk c .mcastTimeout info with source := srcKst }
      | .member _ => deviceCond s.clk srcKst 2 info none
    (s.runningKeys fun u => u.key = h.task.key || (rs.any fun c => bitOf u.coachMask.toNat c.toNat) ||
      ms.any fun m => u.devices.contains m).foldl (fun s k => s.latch k cond) s

/-- A timer of queue `q` has reached the limit in the present clk. -/
def State.timerFull (s : State) (q r : Nat) : Bool :=
  let v := s.keyQueue q
  (s.heldFor v).contains r && decide (v.limit ≤ look 0 v.timers r)

/-- MCAST_TIMEOUT of a receiver that regains a credit before leaves the state as it is. -/
def mcastTimeoutStep (q : BitVec 4) (r : Receiver) (s : State) : State :=
  let v := s.keyQueue q.toNat
  let n := receiverNumber r
  if !((s.heldFor v).contains n) then s
  else
    let s' := s.advance (s.clk + (v.limit - look 0 v.timers n))
    if s'.timerFull q.toNat n then s'.timeoutFires q.toNat r else s

/-- MCAST_TIMEOUT. -/
def execMcastTimeout (q : BitVec 4) (r : Receiver) (s : State) : Answer := .next (mcastTimeoutStep q r s)

/-- A credit that arrives in the very clk of a timeout does not hold it off (R239). -/
def State.lateTimeouts (s : State) (r : Nat) : State :=
  ((List.range 16).filter fun q => s.timerFull q r).foldl (fun s q => s.timeoutFires q (receiverOf r)) s

/-! ## Credits (R237, R239) -/

/-- The first of a list of credits to arrive. -/
def firstBack : List CreditBack → Option CreditBack
  | [] => none
  | b :: rest =>
    match firstBack rest with
    | some d => if b.due ≤ d.due then some b else some d
    | none => some b

/-- A coach regains a credit, or all of them: its timers return to zero (R238). -/
def Kst.regain (k : Kst) (c : CoachId) (all : Bool) : Kst :=
  { k with
    used := store 0 k.used c.toNat (if all then 0 else look 0 k.used c.toNat - 1)
    queues := k.queues.map fun q => (q.1, { q.2 with timers := store 0 q.2.timers c.toNat 0 }) }

/-- A member device returns a credit to a queue. -/
def KeyQueue.regain (v : KeyQueue) (r : Nat) : KeyQueue :=
  { v with used := store 0 v.used r (look 0 v.used r - 1), timers := store 0 v.timers r 0 }

/-- A returned credit reaches the key streamer, no earlier than it was returned. -/
def creditArrivalStep (c : CoachId) (s : State) : State :=
  match firstBack (s.kst.back.filter fun b => decide (b.recv = c)) with
  | none => s
  | some b =>
    let s := (s.advance (b.due - 172)).lateTimeouts c.toNat
    { s with kst := { s.kst with back := s.kst.back.erase b }.regain c b.all }

/-- KEY_CREDIT_ARRIVAL. -/
def execKeyCreditArrival (c : CoachId) (s : State) : Answer := .next (creditArrivalStep c s)

/-! ## Serving tasks (R342) -/

/-- A serving task ends when its list is sent in full and every member has returned its credits. -/
def servingEndStep (id : TaskId) (s : State) : State :=
  match s.tasks.find? fun t => t.id = id && t.st = .running && t.f.programId = 0 with
  | none => s
  | some t =>
    match s.queueOf t.key with
    | none => s
    | some (_, v) =>
      if s.keysDone t.key && (v.used.all fun u => u.2 = 0) then (s.releaseQueue t.key).endTask t.key else s

/-- SERVING_TASK_END. -/
def execServingTaskEnd (id : TaskId) (s : State) : Answer := .next (servingEndStep id s)

/-! ## Shares (R245) -/

/-- The three shares of a KST_SPLIT value. -/
def sharesOf (x : Nat) : List Nat := [bits x 3 0, bits x 7 4, bits x 11 8]

/-- KST_SPLIT_WRITE: shares that sum to 8 are held until a frame boundary without a task. -/
def execKstSplitWrite (value : BitVec 32) (s : State) : Answer :=
  let l := sharesOf value.toNat
  .next (if l.foldl (· + ·) 0 = 8 then { s with kst := { s.kst with sharesPending := some l } } else s)

/-- Pending shares take effect at a frame boundary, if the device runs no task then. -/
def splitApplyStep (s : State) : State :=
  match s.kst.sharesPending with
  | some l =>
    let s' := s.advance s.nextBoundary
    if s'.noTask then { s' with kst := { s'.kst with shares := l, sharesPending := none } } else s
  | none => s

/-- SPLIT_APPLY. -/
def execSplitApply (s : State) : Answer := .next (splitApplyStep s)

end Sys2Proof.Machine
end

