-- ==== Sys2Proof/Machine/HostIf.lean ====
section
/-! DEFINITION. The host interface: the BAR2 window, doorbells, rings, command fetch, completion writes and interrupts
(R326 to R333, R348, R361). -/

namespace Sys2Proof.Machine

open Sys2Proof

/-! ## Reads of HBM for the host -/

/-- Reads bytes of HBM for the host: a word that cannot be read has an open value (log entry 1). -/
def State.readOpen (s : State) (addr n : Nat) : List Byte × Bool × State :=
  let r := s.hbmRead addr n .host
  if r.2.1 then
    ((List.range n).map (fun i =>
      if s.wordErr ((addr + i) / 8) = some .double then BitVec.ofNat 8 (s.freeNat i) else look 0 s.hbm.data (addr + i)),
      true, r.2.2.freed)
  else r

/-! ## BAR2 (R328, R430) -/

/-- The device-local address of a BAR2 offset. -/
def State.bar2Addr (s : State) (off : Nat) : Nat := s.hif.bar2Gib.toNat * 2 ^ 30 + off

/-- What a BAR2 read answers, with the EP bit. -/
def State.answerBytes (s : State) (bs : List Byte) (ep : Bool) : State :=
  { s with bus := { s.bus with bytes := bs, ep := ep } }

/-- A read waits at its channels as a request of the host (R253); what lies at or above 992 GiB reads as all ones. -/
def bar2ReadStep (off : BitVec 36) (len : BitVec 10) (s : State) : State :=
  let a := s.bar2Addr off.toNat
  let n := min len.toNat (hbmEnd - a)
  let pad := len.toNat - n
  if n = 0 then s.answerBytes (List.replicate pad 0xFF) false else s.ask 3 a n s.clk (.host pad [] false)

/-- BAR2_READ: the answer stands on the bus once the channels have granted the read. -/
def execBar2Read (off : BitVec 36) (len : BitVec 10) (s : State) : Answer := .next (bar2ReadStep off len s)

/-- The inactive slot of a coach. -/
def Coach.spareSlot (co : Coach) : ProgSlot := if co.active then co.slotA else co.slotB

/-- The image that a program ID names on a coach: the active slot, the inactive one, or one being loaded. -/
def State.imageOn (s : State) (c : CoachId) (id : BitVec 32) : Option ProgSlot :=
  let co := s.coach c
  if co.prog.valid && co.prog.progId = id then some co.prog
  else if co.spareSlot.valid && co.spareSlot.progId = id then some co.spareSlot
  else s.hif.waiting.findSome? fun w => match w with
    | .load _ p m l _ => if p = id && bitOf m.toNat c.toNat then (l.find? fun e => e.1 = c.toNat).map (·.2) else none
    | _ => none

/-- The regions of this device's HBM bound to a queued or running task: base and length. A fabric region bound on this node is one
(R283). -/
def State.boundRegions (s : State) : List (Nat × Nat) :=
  s.tasks.flatMap fun t =>
    if t.st = .ended then []
    else (maskCoaches t.coachMask).flatMap fun c => match s.imageOn c t.f.programId with
      | none => []
      | some p => p.regions.filterMap fun r =>
        let x := p.region r.1
        let b := (look (0 : Word64) t.bindings r.1).toNat
        if x.kind = 1 || (x.kind = 3 && bits b 51 40 = s.ehl.nodeId.toNat) then some (b % 2 ^ 40, 576 * x.size) else none

/-- The bytes a host write leaves: those that fall into a bound region are open (log entry 1). -/
def State.openBytes (s : State) (addr : Nat) (bs : List Byte) : List Byte × State :=
  let rs := s.boundRegions
  let inside (a : Nat) : Bool := rs.any fun r => decide (r.1 ≤ a ∧ a < r.1 + r.2)
  if (List.range bs.length).any fun i => inside (addr + i) then
    ((List.range bs.length).map (fun i =>
      if inside (addr + i) then BitVec.ofNat 8 (s.freeNat i) else bs.getD i 0), s.freed)
  else (bs, s)

/-- BAR2_WRITE waits at its channels like a read; bytes at or above 992 GiB are discarded. -/
def execBar2Write (off : BitVec 36) (data : List Byte) (s : State) : Answer :=
  let a := s.bar2Addr off.toNat
  let bs := data.take (hbmEnd - a)
  .next (if bs.isEmpty then s else s.ask 3 a bs.length s.clk (.write none bs))

/-- HIF_BAR2_BASE_WRITE: a value above 928 has no effect. -/
def execHifBar2BaseWrite (value : BitVec 32) (s : State) : Answer :=
  let g := value.extractLsb' 0 10
  .next (if g.toNat ≤ 928 then { s with hif := { s.hif with bar2Gib := g } } else s)

/-! ## Interrupts (R333) -/

/-- A vector is raised: its message goes out, or it is pending while it is masked. -/
def State.raiseVector (s : State) (v : Nat) : State :=
  if (look Msix.reset s.hif.msix v).ctrl.getLsbD 0 then
    { s with hif := { s.hif with pba := if s.hif.pba.contains v then s.hif.pba else s.hif.pba ++ [v] } }
  else { s with hif := { s.hif with raised := store 0 s.hif.raised v (look 0 s.hif.raised v + 1) } }

/-- A request of the device has failed: Advanced Error Reporting records it, under bits that this spec leaves to the base
specification (R323; log entry 102). -/
def State.reportError (s : State) : State :=
  { s with hif := { s.hif with pcie := { s.hif.pcie with
    aerUncorr := s.hif.pcie.aerUncorr ||| BitVec.ofNat 32 (s.freeNat 7) } } }.freed

/-- RING_ERR with its KIND, the CQ bit, the EVENT bit and the ring (R348). -/
def State.ringError (s : State) (kind cq event ring : Nat) : State :=
  let s := s.reportError
  { (s.hit 0 s.hif.ringErrSet.toNat) with hif := { s.hif with
    ringErr := true, ringErrSet := satInc s.hif.ringErrSet
    ringErrInfo := BitVec.ofNat 32 (kind * 2 ^ 8 + cq * 2 ^ 7 + event * 2 ^ 6 + ring) } }.raiseVector 65

/-! ## Doorbells (R329) -/

/-- A doorbell write that is rejected. -/
def State.rejectDoorbell (s : State) : State :=
  { (s.hit 1 s.hif.dbErrSet.toNat) with hif := { s.hif with dbErr := true, dbErrSet := satInc s.hif.dbErrSet } }.raiseVector 65

/-- A write into BAR4. -/
def State.doorbell (s : State) (off size value : Nat) : State :=
  let i := BitVec.ofNat 16 value
  let ring := off % 0x40000 / 0x1000
  if size ≠ 4 ∨ value / 2 ^ 16 ≠ 0 ∨ s.hif.hostReady = false then s.rejectDoorbell
  else if off < 0x40000 ∧ off % 0x1000 = 0 then
    let q := s.sq ring
    if i.toNat < 2 ^ q.logSize.toNat then s.setSq ring { q with tail := i } else s.rejectDoorbell
  else if off < 0x80000 ∧ off % 0x1000 = 0 then
    let q := s.cq ring
    if i.toNat < 2 ^ q.logSize.toNat then s.setCq ring { q with head := i } else s.rejectDoorbell
  else if off = 0x80000 then
    if i.toNat < 2 ^ s.evt.logSize.toNat then { s with evt := { s.evt with head := i } } else s.rejectDoorbell
  else s.rejectDoorbell

/-- SQ_TAIL_DOORBELL. -/
def execSqTailDoorbell (off : BitVec 24) (size : Nat) (value : BitVec 32) (s : State) : Answer :=
  .next (s.doorbell off.toNat size value.toNat)

/-- CQ_HEAD_DOORBELL. -/
def execCqHeadDoorbell (off : BitVec 24) (size : Nat) (value : BitVec 32) (s : State) : Answer :=
  .next (s.doorbell off.toNat size value.toNat)

/-- EVENT_HEAD_DOORBELL. -/
def execEventHeadDoorbell (off : BitVec 24) (size : Nat) (value : BitVec 32) (s : State) : Answer :=
  .next (s.doorbell off.toNat size value.toNat)

/-! ## Ring controls (R330, R348) -/

def ringSizeOk (l : BitVec 5) : Bool := 4 ≤ l && l ≤ 16

/-- A write of HIF_SQs_CTRL. -/
def Sq.control (q : Sq) (v : BitVec 32) : Sq :=
  let q := if q.enable then q else { q with cq := v.extractLsb' 10 6, logSize := v.extractLsb' 4 5 }
  if !(v.getLsbD 0) then { q with enable := false }
  else if q.enable || !ringSizeOk q.logSize then q
  else { q with enable := true, head := 0, tail := 0 }

/-- SQ_ENABLE. The write wins over a ring error of the same clk (R13). -/
def execSqEnable (i : BitVec 6) (value : BitVec 32) (s : State) : Answer :=
  .next ((s.hit (320 + i.toNat) 0).setSq i.toNat ((s.sq i.toNat).control value))

/-- A write of HIF_CQc_CTRL. -/
def Cq.control (q : Cq) (v : BitVec 32) : Cq :=
  let q := if q.enable then q else { q with logSize := v.extractLsb' 4 5 }
  if !(v.getLsbD 0) then { q with enable := false }
  else if q.enable || !ringSizeOk q.logSize then q
  else { q with enable := true, head := 0, tail := 0, phase := true }

/-- CQ_ENABLE, likewise. -/
def execCqEnable (i : BitVec 6) (value : BitVec 32) (s : State) : Answer :=
  .next ((s.hit (384 + i.toNat) 0).setCq i.toNat ((s.cq i.toNat).control value))

/-! ## COMMAND_FETCH (R331, R347, R429) -/

/-- Tasks in the task table: queued, running or aborting. -/
def State.tableCount (s : State) : Nat := (s.tasks.filter fun t => t.st ≠ .ended).length

/-- A command may be fetched from ring `i`. -/
def State.fetchable (s : State) (i : Nat) : Bool :=
  let q := s.sq i
  s.hif.hostReady && !s.hif.summaryBusy && q.enable && q.fetched.isNone && q.head ≠ q.tail &&
    decide ((s.cq q.cq.toNat).held.length < 2048) && decide (s.tableCount < 1024)

/-- The ring whose turn it is: the first in ascending order from the ring after the one served last. -/
def State.turn (s : State) : Option Nat :=
  ((List.range 64).map fun i => (s.hif.nextSq + i) % 64).find? fun i => s.fetchable i

/-- The header of a fetched command. -/
def cmdHdrOf (ring index w : Nat) : CmdHdr :=
  { sq := BitVec.ofNat 6 ring, index := BitVec.ofNat 16 index, taskId := BitVec.ofNat 32 (bits w 63 32),
    noIrq := bitOf w 8, argAddr := BitVec.ofNat 64 (bits w 127 64) }

def fetchStep (i : BitVec 6) (error : Bool) (s : State) : State :=
  let q := s.sq i.toNat
  if s.turn ≠ some i.toNat then s
  else
    let s := { s with hif := { s.hif with nextSq := (i.toNat + 1) % 64 } }
    if error then (s.setSq i.toNat { q with enable := q.enable && s.isEarly (320 + i.toNat) }).ringError 1 0 0 i.toNat
    else
      let w := leNat (s.hostRead (q.base.toNat + 128 * q.head.toNat) 128)
      let q' := { q with head := BitVec.ofNat 16 ((q.head.toNat + 1) % 2 ^ q.logSize.toNat) }
      match malformedAt w with
      | some d => (s.setSq i.toNat q').refuse (bits w 7 0) (cmdHdrOf i.toNat q.head.toNat w) .malformed d
      | none => s.setSq i.toNat { q' with fetched := some (q.head, BitVec.ofNat 1024 w) }

/-- COMMAND_FETCH: the command stands fetched until it is accepted; `error` is the answer of host memory. -/
def execCommandFetch (i : BitVec 6) (error : Bool) (s : State) : Answer := .next (fetchStep i error s)

/-! ## COMPLETION_WRITE (R332, R333) -/

def Cq.full (q : Cq) : Bool := decide ((q.tail.toNat + 1) % 2 ^ q.logSize.toNat = q.head.toNat)

/-- A completion is signalled: by count, or at once where DELAY is 0. -/
def State.signalCq (s : State) (i : Nat) (noIrq : Bool) : State :=
  let q := s.cq i
  if noIrq then s
  else
    let n := q.unsignalled + 1
    if q.delay = 0 ∨ max q.count.toNat 1 ≤ n then (s.setCq i { q with unsignalled := 0 }).raiseVector i
    else s.setCq i { q with unsignalled := n, oldestAt := if q.unsignalled = 0 then s.clk else q.oldestAt }

/-- A task whose completion is written is no longer outstanding (R344). -/
def State.dropTask (s : State) (w : Nat) : State :=
  if bits w 7 0 ≠ 5 then s
  else
    let acked := s.tasks.filter fun t =>
      t.posted && t.hdr.sq.toNat = bits w 29 24 && t.hdr.index.toNat = bits w 47 32 && t.id.toNat = bits w 95 64
    (acked.foldl (fun s t => s.removeTask t.key) s).settleWaiting

def completionStep (i : BitVec 6) (error : Bool) (s : State) : State :=
  let q := s.cq i.toNat
  match q.held with
  | [] => s
  | k :: rest =>
    if !q.enable || q.full then s
    else if error then (s.setCq i.toNat { q with enable := q.enable && s.isEarly (384 + i.toNat) }).ringError 2 1 0 i.toNat
    else
      let w := k.word.toNat + flag q.phase * 2 ^ 48
      let tail := (q.tail.toNat + 1) % 2 ^ q.logSize.toNat
      let s := s.hostWrite (q.base.toNat + 64 * q.tail.toNat) (leBytes 64 w)
      let q := { q with
        tail := BitVec.ofNat 16 tail, held := rest, phase := if tail = 0 then !q.phase else q.phase }
      ((s.setCq i.toNat q).signalCq i.toNat k.noIrq).dropTask k.word.toNat

/-- COMPLETION_WRITE. -/
def execCompletionWrite (i : BitVec 6) (error : Bool) (s : State) : Answer := .next (completionStep i error s)

/-- IRQ_DELAY_EXPIRE: the oldest unsignalled completion or event record has waited DELAY × 64 hclk. -/
def execIrqDelayExpire (vec : BitVec 7) (s : State) : Answer :=
  let v := vec.toNat
  let q := s.cq v
  .next (if v < 64 then
      if q.unsignalled = 0 then s
      else ((s.advance (q.oldestAt + q.delay.toNat * 256)).setCq v { q with unsignalled := 0 }).raiseVector v
    else if v = 64 then
      if s.evt.unsignalled = 0 then s
      else
        let s := s.advance (s.evt.oldestAt + s.evt.delay.toNat * 256)
        { s with evt := { s.evt with unsignalled := 0 } }.raiseVector v
    else s)

end Sys2Proof.Machine
end

