-- ==== Sys2Proof/Machine/Image.lean ====
section
/-! DEFINITION. Program images: their layout, and every check that PROGRAM_LOAD makes of one (R85, R88 to R99, R103, R184,
R314, R337 to R339, R428, R429). -/

namespace Sys2Proof.Machine

open Sys2Proof

/-! ## From bytes to words -/

/-- Groups the entries of a table: `per` successive keys of `width` bits each make one. Only words that are not zero
stand in it. -/
def regroup (per width : Nat) (m : List (Nat × Nat)) : List (Nat × Nat) :=
  m.foldr (fun e acc =>
    let k := e.1 / per
    let v := e.2 * 2 ^ (width * (e.1 % per))
    match acc with
    | (j, w) :: rest => if j = k then (j, w + v) :: rest else (k, v) :: acc
    | [] => [(k, v)]) []

/-- The entries of a table with keys in a range, counted from its start. -/
def slice (m : List (Nat × Nat)) (lo n : Nat) : List (Nat × Nat) :=
  (m.filter fun e => decide (lo ≤ e.1 ∧ e.1 < lo + n)).map fun e => (e.1 - lo, e.2)

/-- The 16-byte words of an image that are not zero, by their index. -/
def imageWords (m : SMap Byte) (base len : Nat) : List (Nat × Nat) :=
  regroup 16 8 (slice (m.map fun e => (e.1, e.2.toNat)) base len)

/-- The parts of words of `n` 32-bit entries each, by entry. -/
def entries32 (m : List (Nat × Nat)) : List (Nat × Nat) :=
  m.flatMap fun e => ((List.range 4).map fun j => (4 * e.1 + j, bits e.2 (32 * j + 31) (32 * j))).filter fun x => x.2 ≠ 0

/-- The image header as a number. -/
def imageHeader (ws : List (Nat × Nat)) : Nat := (regroup 4 128 (slice ws 0 4)).foldl (fun a e => a + e.2) 0

def imageMask (h : Nat) : BitVec 64 := BitVec.ofNat 64 (bits h 111 48)

/-- The size that R338 gives for an image of `n` coaches. -/
def imageSize (n : Nat) : Nat := 8192 + n * 1116160

/-! ## Image rules (R339) -/

/-- Reserved bits of the header; in an image of format 2 MINOR and SHARES are reserved too. -/
def headerReserved (h : Nat) : List (Option Nat) :=
  let old := bits h 15 0 = 2
  [if old then zeroBits h 121 114 else none, zeroBits h 135 134, if old then zeroBits h 147 136 else none,
   fieldBad 148 (bits h 149 148 = 3), zeroBits h 191 150, zeroBits h 511 352]

/-- Words from the shutter table to the region table: reserved bits, and a reserved KIND. -/
def frontReserved (ws : List (Nat × Nat)) : List (Option Nat) :=
  ((entries32 (slice ws 4 4)).map fun e => (zeroBits e.2 31 9).map (0x40 * 8 + 32 * e.1 + ·)) ++
  ((slice ws 8 0xF8).map fun e => some (0x80 * 8 + 128 * e.1 + lowBit e.2)) ++
  ((slice ws 0x100 0x100).flatMap fun e =>
    [(zeroBits e.2 127 40).map (0x1000 * 8 + 128 * e.1 + ·), fieldBad (0x1000 * 8 + 128 * e.1 + 32) (4 < bits e.2 34 32)])

/-- The section of the k-th coach: its 16-byte words. -/
def coachPart (ws : List (Nat × Nat)) (k : Nat) : List (Nat × Nat) := slice ws (0x200 + k * 69760) 69760

/-- Door tables: reserved bits. -/
def doorReserved (ws : List (Nat × Nat)) (n : Nat) : List (Option Nat) :=
  (List.range n).flatMap fun k =>
    (entries32 (slice (coachPart ws k) 0x11040 64)).map fun e =>
      (zeroBits e.2 31 18).map ((0x2000 + k * 1116160 + 0x110400) * 8 + 32 * e.1 + ·)

/-- The lowest of the offsets that a case names. -/
def lowestOf (l : List (Option Nat)) : Option Nat :=
  l.foldl (fun a b => match a, b with
    | some x, some y => some (min x y)
    | some x, none => some x
    | none, y => y) none

/-- Region entries that break the third case of R339. -/
def regionBad (ws : List (Nat × Nat)) : List (Option Nat) :=
  (slice ws 0x100 0x100).map fun e =>
    let pos := 0x1000 * 8 + 128 * e.1
    let kind := bits e.2 34 32
    if kind = 0 then firstBad [fieldBad pos (bits e.2 31 0 ≠ 0), fieldBad (pos + 35) (bits e.2 39 35 ≠ 0)]
    else firstBad [fieldBad pos (bits e.2 31 0 = 0), fieldBad (pos + 35) (kind ≠ 4 ∧ bits e.2 39 35 ≠ 0)]

/-- Shutters of fabric scope while DEVICES is 0. -/
def scopeBad (ws : List (Nat × Nat)) (h : Nat) : List (Option Nat) :=
  (entries32 (slice ws 4 4)).map fun e => fieldBad (0x40 * 8 + 32 * e.1 + 8) (bitOf e.2 8 ∧ bits h 133 122 = 0)

/-- DETAIL of the first rule of R339 that an image breaks. -/
def imageMalformed (ws : List (Nat × Nat)) (cmdBytes : Nat) : Option Nat :=
  let h := imageHeader ws
  let n := (maskCoaches (imageMask h)).length
  if bits h 15 0 ≠ 3 ∧ bits h 15 0 ≠ 2 then some (inImage 0)
  else if bits h 47 16 = 0 then some (inImage 16)
  else if bits h 111 48 = 0 then some (inImage 48)
  else if bits h 351 320 ≠ imageSize n then some (inImage 320)
  else if cmdBytes ≠ bits h 351 320 then some 160
  else ((lowestOf (headerReserved h ++ frontReserved ws ++ doorReserved ws n)).orElse fun _ =>
    (lowestOf (regionBad ws)).orElse fun _ => lowestOf (scopeBad ws h)).map inImage

/-! ## Scratchpad maps (R85, R88) -/

/-- A condition of R88 that concerns one entry. -/
def mapEntryBad (x : Nat) : Bool :=
  let m := MapEntry.ofWord x
  if m.kind = 0 then x ≠ 0
  else
    4 < m.kind || bits x 127 72 ≠ 0 || bits x 40 32 ≠ 0 || 1536 < m.base + m.rows || m.rows = 0 || m.mask = 0 ||
      ((m.kind = 1 || m.kind = 4) && m.stream ≠ 0) || (m.kind = 4 && (m.size % 64 ≠ 0 || m.size < 128))

/-- The first index of a list of entries at which `bad` holds of the entries before it and the entry. -/
def firstClash (bad : MapEntry → MapEntry → Bool) : List (Nat × MapEntry) → List (Nat × MapEntry) → Option Nat
  | _, [] => none
  | seen, e :: rest => if seen.any fun o => bad o.2 e.2 then some e.1 else firstClash bad (seen ++ [e]) rest

/-- Duplicate streams, and a second key window. -/
def MapEntry.twin (a b : MapEntry) : Bool :=
  a.kind = b.kind && ((a.kind = 2 || a.kind = 3) && a.stream = b.stream || a.kind = 4)

/-- Two entries share a row of a bank. -/
def MapEntry.overlaps (a b : MapEntry) : Bool :=
  (a.mask &&& b.mask) ≠ 0 && decide (a.base < b.base + b.rows) && decide (b.base < a.base + a.rows)

/-- The first fault of a map: DESC_ALIAS when true, and the entry. A STREAM used twice or a second key window names the higher index,
the lowest such index of both conditions together (DESIGN CHOICE, log entry 106: R428 says so for an overlap only). -/
def mapFault (m : List (Nat × Nat)) : Option (Bool × Nat) :=
  match m.find? fun e => mapEntryBad e.2 with
  | some e => some (false, e.1)
  | none =>
    let used := m.map fun e => (e.1, MapEntry.ofWord e.2)
    match firstClash MapEntry.twin [] used with
    | some i => some (false, i)
    | none => (firstClash MapEntry.overlaps [] used).map fun i => (true, i)

/-! ## Descriptors (R89 to R99, R103, R314) -/

/-- The lowest and the highest slot of a side (R96). -/
def reach (offset : Int) (len : Nat) (dims : List (Nat × Int)) : Int × Int :=
  (dims.foldl (fun a d => a + min 0 (d.2 * ((d.1 : Int) - 1))) offset,
   dims.foldl (fun a d => a + max 0 (d.2 * ((d.1 : Int) - 1))) (offset + (len : Int) - 1))

/-- A dimension goes behind those of smaller and of equal stride: R98 gives no order of equal strides, and the block stands first of
them (DESIGN CHOICE, log entry 105). -/
def insertDim (d : Nat × Int) : List (Nat × Int) → List (Nat × Int)
  | [] => [d]
  | e :: rest => if d.2.natAbs < e.2.natAbs then d :: e :: rest else e :: insertDim d rest

/-- The nesting test of R98. -/
def nests (len : Nat) (dims : List (Nat × Int)) : Bool :=
  let ds := (dims.filter fun d => decide (1 < d.1)).foldl (fun l d => insertDim d l) [(len, 1)]
  (ds.foldl (fun (r : Bool × Nat) d =>
    (r.1 && decide (r.2 ≤ d.2.natAbs), r.2 + d.2.natAbs * (d.1 - 1))) (true, 1)).1

/-- REDUCE, FMT, PARAM_SET and MOD_INDEX form a combination that R103 allows; without a reduce the others are zero. -/
def State.reduceAllowed (s : State) (reduce fmt set index : Nat) : Bool :=
  let p := s.usable? (BitVec.ofNat 8 set)
  match reduce with
  | 0 => fmt = 0 && set = 0 && index = 0
  | 3 => false
  | r =>
    if fmt = 9 then p.any fun e => e.packed && (decide (index < e.limbs) || (48 ≤ index && decide (index < 48 + e.special)))
    else if fmt = 10 then r = 1 && index = 0 && p.any fun e => e.bitwise
    else (fmt ≤ 3 || (r = 2 && fmt ≤ 8)) && set = 0 && index = 0

/-- Some of `count` steps from `base` lies between two bounds. -/
def hits (lo hi base step : Int) (count : Nat) : Bool :=
  if step = 0 then decide (lo ≤ base ∧ base ≤ hi)
  else
    let b := if step < 0 then base + step * ((count : Int) - 1) else base
    let st : Int := step.natAbs
    let first := max 0 ((lo - b + st - 1) / st)
    decide (first < count ∧ b + first * st ≤ hi)

/-- The header images of a DIR 1 transfer overlap the far slots it writes (R99). -/
def XDesc.imagesOverlap (d : XDesc) : Bool :=
  let lo : Int := (8 * 16 * d.hdrOffset : Nat)
  let hi : Int := (8 * 16 * (d.hdrOffset + d.hdrCount) : Nat) - 1
  let first := lo / 36
  let last := hi / 36
  (List.range d.count2).any fun i =>
    hits (first - d.len + 1) last (d.farOffset + i * d.farStride2) d.farStride1 d.count1

/-- A transfer descriptor against R92, R97 and R314; the answer is DESC_ALIAS (true) or DESC_RANGE. -/
def State.xdescFault (s : State) (map : Nat → MapEntry) (region : Nat → Region) (d : XDesc) : Option Bool :=
  let near := map d.nearEntry
  let far := region d.farRegion
  let size := if far.kind = 0 then 0 else far.size
  let nearDims := [(d.count1, d.nearStride1), (d.count2, d.nearStride2)]
  let farDims := [(d.count1, d.farStride1), (d.count2, d.farStride2)]
  let rn := reach d.nearOffset d.len nearDims
  let rf := reach d.farOffset d.len farDims
  let kindOk := if d.dir then near.kind = 1 || near.kind = 3 else near.kind = 2
  let hdrBad := d.hdrCount ≠ 0 && (d.hdrSlot = 0 || decide (4095 < d.hdrSlot + d.hdrCount - 1) ||
    d.visits % d.hdrCount ≠ 0 || d.visits / d.hdrCount % 64 ≠ 0 ||
    decide (576 * size < 16 * (d.hdrOffset + d.hdrCount)))
  if d.count1 = 0 || d.count2 = 0 || !d.reservedOk || !kindOk || (far.kind = 4 && (d.dir || d.hdrCount ≠ 0)) ||
      decide (rn.1 < 0) || decide ((64 * near.size : Nat) ≤ rn.2) || decide (rf.1 < 0) ||
      decide ((128 * size : Nat) ≤ rf.2) || hdrBad || (d.reduce ≠ 0 && d.dir) ||
      !(s.reduceAllowed d.reduce d.fmt d.paramSet d.modIndex) then some false
  else if (d.reduce = 0 && !(nests d.len (if d.dir then farDims else nearDims))) ||
      (d.dir && d.hdrCount ≠ 0 && d.imagesOverlap) then some true
  else none

/-- An area of an index descriptor: entry, first slot, slots. -/
structure Area where
  entry : Nat
  first : Nat
  slots : Nat

def Area.meets (a b : Area) : Bool :=
  a.entry = b.entry && decide (a.first < b.first + b.slots) && decide (b.first < a.first + a.slots)

/-- An index descriptor against R95, R97 and R99. -/
def State.idescFault (s : State) (map : Nat → MapEntry) (d : IDesc) : Option Bool :=
  let table : Area := ⟨d.tableEntry, d.tableOffset, d.extent * d.width⟩
  let index : Area := ⟨d.indexEntry, d.indexOffset, d.count⟩
  let dense : Area := ⟨d.denseEntry, d.denseOffset, d.count * d.width⟩
  let outside (a : Area) : Bool :=
    let m := map a.entry
    m.kind = 0 || m.kind = 4 || decide (64 * m.size < a.first + a.slots)
  let gather := d.mode = 1
  if d.count = 0 || d.extent = 0 || decide (1 < d.elem) || !d.reservedOk || outside table || outside index ||
      outside dense || (d.reduce ≠ 0 && gather) || !(s.reduceAllowed d.reduce d.fmt d.paramSet d.modIndex) then some false
  else
    let written := if gather then dense else table
    let read := if gather then table else dense
    if written.meets index || written.meets read then some true else none

/-- Any descriptor; an empty one is not validated (R89). -/
def State.descFault (s : State) (map : Nat → MapEntry) (region : Nat → Region) (x : Nat) : Option Bool :=
  match bits x 1 0 with
  | 0 => if bits x 351 336 = 0 then none else s.xdescFault map region (XDesc.ofWord x)
  | 3 => some false
  | _ => s.idescFault map (IDesc.ofWord x)

/-! ## An image as program slots -/

/-- The slot that the k-th section of an image fills. -/
def partSlot (ws : List (Nat × Nat)) (k : Nat) : ProgSlot :=
  let sec := coachPart ws k
  let h := imageHeader ws
  { progId := BitVec.ofNat 32 (bits h 47 16), valid := true
    imem := (slice sec 0 0x10000).map fun e => (e.1, BitVec.ofNat 128 e.2)
    desc := (regroup 4 128 (slice sec 0x10000 0x1000)).map fun e => (e.1, BitVec.ofNat 512 e.2)
    map := (slice sec 0x11000 64).map fun e => (e.1, BitVec.ofNat 128 e.2)
    regions := (slice ws 0x100 0x100).map fun e => (e.1, BitVec.ofNat 128 e.2)
    doors := (entries32 (slice sec 0x11040 64)).map fun e => (e.1, BitVec.ofNat 32 e.2)
    shutters := (entries32 (slice ws 4 4)).map fun e => (e.1, BitVec.ofNat 32 e.2)
    header := BitVec.ofNat 512 h }

/-- The slots of an image, by coach. -/
def imageSlots (ws : List (Nat × Nat)) : List (Nat × ProgSlot) :=
  let cs := maskCoaches (imageMask (imageHeader ws))
  (List.range cs.length).zip cs |>.map fun p => (p.2.toNat, partSlot ws p.1)

/-- DETAIL of DESC_RANGE and DESC_ALIAS (R336). -/
def descDetail (coach index kind : Nat) : Nat := coach + index * 2 ^ 6 + kind * 2 ^ 22

/-- The first fault of the maps. -/
def mapsFault : List (Nat × ProgSlot) → Option (Bool × Nat)
  | [] => none
  | (c, p) :: rest =>
    match mapFault (p.map.map fun e => (e.1, e.2.toNat)) with
    | some f => some (f.1, descDetail c f.2 1)
    | none => mapsFault rest

/-- The first fault of the door tables and descriptors. -/
def State.tablesFault (s : State) : List (Nat × ProgSlot) → Option (Bool × Nat)
  | [] => none
  | (c, p) :: rest =>
    match p.doors.find? fun d => d.2.extractLsb' 16 2 = 3 with
    | some d => some (false, descDetail c d.1 2)
    | none =>
      let map (i : Nat) : MapEntry := MapEntry.ofWord (look (0 : BitVec 128) p.map i).toNat
      match p.desc.findSome? fun d => (s.descFault map p.region d.2.toNat).map fun a => (a, d.1) with
      | some (a, i) => some (a, descDetail c i 0)
      | none => s.tablesFault rest

/-- The checks of R428 after the image rules. -/
def State.imageFault (s : State) (slots : List (Nat × ProgSlot)) : Option (Bool × Nat) :=
  (mapsFault slots).orElse fun _ => s.tablesFault slots

end Sys2Proof.Machine
end

