-- ==== Sys2Proof/Machine/HostCmd.lean ====
section
/-! DEFINITION. What each host command does: contexts and keys, program loads, tasks, fences and groups (R53 to R59,
R182, R228, R240, R337 to R345). -/

namespace Sys2Proof.Machine

open Sys2Proof

/-! ## Contexts (R53, R54) -/

/-- The lowest free context ID. -/
def freeContext (m : SMap (Option Context)) : Nat → Nat → Option Nat
  | 0, _ => none
  | n + 1, i => match look none m i with
    | none => some i
    | some _ => freeContext m n (i + 1)

def contextCreateStep (h : CmdHdr) (set : BitVec 8) (s : State) : State :=
  s.checked 1 h (contextCreateWord h set) fun s =>
    match s.usable? set, freeContext s.contexts 16384 0 with
    | none, _ => s.refuse 1 h .paramUnusable set.toNat
    | some _, none => s.refuse 1 h .noContext 0
    | some _, some i =>
      let x : Context := { bound := false, paramSet := set, tag := noKeyTag, dirAddr := 0 }
      { s with contexts := store none s.contexts i (some x) }.post 1 h { Report.of .ok 0 with result := i }

/-- CONTEXT_CREATE. -/
def execContextCreate (h : CmdHdr) (set : BitVec 8) (s : State) : Answer := .next (contextCreateStep h set s)

def contextDestroyStep (h : CmdHdr) (c : BitVec 14) (s : State) : State :=
  s.checked 2 h (contextDestroyWord h c) fun s =>
    if (look none s.contexts c.toNat).isNone then s.refuse 2 h .notFound 0
    else (s.await (.destroy h c)).settleWaiting

/-- CONTEXT_DESTROY: it waits until no task naming the context remains. -/
def execContextDestroy (h : CmdHdr) (c : BitVec 14) (s : State) : Answer := .next (contextDestroyStep h c s)

/-! ## KEY_REGISTER (R47, R55 to R59) -/

/-- The size of a key in carts (R42, R47). -/
def PolicyEntry.keyCarts (p : PolicyEntry) (kind : Nat) : Nat :=
  let ng := 2 ^ p.glweLogN
  let carriages := match kind with
    | 3 => p.lweN * ((p.glweK + 1) * p.gadgetL) * (p.glweK + 1) * 2 * (ng / 64)
    | 4 => ceilDiv (p.glweK * ng * p.ksL * (p.lweN + 1)) 32
    | _ => p.digits * 2 * (p.limbs + p.special) * (p.ringSize / 64)
  ceilDiv carriages 64

/-- The parts that a kind of key needs are there (R57). -/
def PolicyEntry.kindOk (p : PolicyEntry) (kind : Nat) : Bool :=
  match kind with
  | 1 => p.packed
  | 2 => p.packed
  | 3 => p.bitwise
  | 4 => p.bitwise
  | 5 => p.packed && p.bitwise
  | _ => false

/-- A manifest entry against R57; `last` is the key index before it. -/
def PolicyEntry.entryOk (p : PolicyEntry) (last : Option Nat) (x : Nat) : Bool :=
  let kind := bits x 159 152
  let i := bits x 143 128
  p.kindOk kind && bits x 223 192 = 0 && bits x 151 144 = 0 && bits x 127 0 = 0 && (kind = 2 || bits x 191 160 = 0) &&
    i ≠ 65535 && last.all (fun l => decide (l < i)) && bits x 255 224 = p.keyCarts kind

/-- The first entry of a manifest that breaks a rule. -/
def PolicyEntry.badEntry (p : PolicyEntry) : List Nat → Option Nat → Nat → Option Nat
  | [], _, _ => none
  | x :: rest, last, i => if p.entryOk last x then p.badEntry rest (some (bits x 143 128)) (i + 1) else some i

/-- What a manifest comes to: the index that a refusal names, or the tag. -/
def manifestTag (p : Option PolicyEntry) (set count : Nat) (bs : List Byte) : Nat ⊕ Word64 :=
  let x := leNat (bs.take 32)
  let tag := BitVec.ofNat 64 (leNat ((sha256 bs).take 8))
  match p with
  | none => .inl 0xFFFF
  | some p =>
    if bits x 15 0 ≠ 1 ∨ bits x 39 32 ≠ set ∨ bits x 63 48 ≠ count ∨ count = 0 ∨ bits x 31 16 ≠ 0 ∨ bits x 47 40 ≠ 0 ∨
        bits x 255 128 ≠ 0 then .inl 0xFFFF
    else match p.badEntry ((List.range count).map fun i => leNat ((bs.drop (32 + 64 * i)).take 64)) none 0 with
      | some i => .inl i
      | none => if tag = noKeyTag then .inl 0xFFFF else .inr tag

def keyRegisterStep (h : CmdHdr) (c : BitVec 14) (count : BitVec 16) (dir : BitVec 40) (s : State) : State :=
  s.checked 3 h (keyRegisterWord h c count dir) fun s =>
    match look none s.contexts c.toNat with
    | none => s.refuse 3 h .contextInvalid 0
    | some x =>
      let bs := s.hostRead h.argAddr.toNat (32 + 64 * count.toNat)
      match manifestTag (s.entry? x.paramSet) x.paramSet.toNat count.toNat bs with
      | .inl i => s.refuse 3 h .manifestInvalid i
      | .inr tag => s.await (.keyRegister h c tag dir)

/-- KEY_REGISTER: the context is bound when the command completes. -/
def execKeyRegister (h : CmdHdr) (c : BitVec 14) (count : BitVec 16) (dir : BitVec 40) (s : State) : Answer :=
  .next (keyRegisterStep h c count dir s)

/-- A waiting command leaves the list. -/
def State.unwait (s : State) (w : Waiting) : State := { s with hif := { s.hif with waiting := s.hif.waiting.erase w } }

/-- A key registration completes; of a context destroyed meanwhile it reports CONTEXT_INVALID. -/
def State.bindContext (s : State) (h : CmdHdr) (c : BitVec 14) (tag : Word64) (dir : BitVec 40) : State :=
  match look none s.contexts c.toNat with
  | none => s.refuse 3 h .contextInvalid 0
  | some x =>
    { s with contexts := store none s.contexts c.toNat (some { x with bound := true, tag := tag, dirAddr := dir }) }.post 3 h
      { Report.of .ok 0 with value := tag.toNat }

/-- KEY_REGISTER_DONE. -/
def execKeyRegisterDone (sq : BitVec 6) (s : State) : Answer :=
  let mine := s.hif.waiting.find? fun w => match w with
    | .keyRegister h _ _ _ => h.sq = sq
    | _ => false
  .next (match mine with
    | some (.keyRegister h c tag dir) => (s.unwait (.keyRegister h c tag dir)).bindContext h c tag dir
    | _ => s)

/-! ## PROGRAM_LOAD (R182, R337, R339, R428) -/

def Coach.setSpare (co : Coach) (p : ProgSlot) : Coach := if co.active then { co with slotA := p } else { co with slotB := p }

/-- A load may not write the inactive slot of a coach: a load is in progress there, or a queued task will swap to it. -/
def State.slotBusy (s : State) (c : CoachId) : Bool :=
  let co := s.coach c
  co.loadBusy || s.tasks.any fun t => t.st = .queued && bitOf t.coachMask.toNat c.toNat && co.spareSlot.valid &&
    co.spareSlot.progId = t.f.programId && !(co.prog.valid && co.prog.progId = t.f.programId)

/-- The words of the image a load names, its header whatever the length the command gives. An uncorrectable word of HBM has an open value
(log entry 1). -/
def State.loadSource (s : State) (h : CmdHdr) (src : Bool) (len : Nat) : List (Nat × Nat) × State :=
  let len := max len 64
  if !src then (imageWords s.host h.argAddr.toNat len, s)
  else
    let base := h.argAddr.toNat % 2 ^ 40
    let gs := (List.range (ceilDiv len 576)).map fun i => granuleOf base + i
    let bad := (wordsOf base len).filter fun w => decide (s.wordErr w = some .double)
    let t := gs.foldl (fun s g => (s.readCheck g (576 * g) 576 .host).2) s
    if bad.isEmpty then (imageWords s.hbm.data base len, t)
    else
      let data := bad.foldl (fun m w => storeList 0 m (8 * w) (leBytes 8 (s.freeNat w))) s.hbm.data
      (imageWords data base len, t.freed)

def programLoadStep (h : CmdHdr) (src : Bool) (len : BitVec 32) (s : State) : State :=
  s.checked 4 h (programLoadWord h src len) fun s =>
    let r := s.loadSource h src len.toNat
    let s := r.2
    let hd := imageHeader r.1
    let refuse (status : Status) (d : Nat) : State := s.post 4 h { Report.of status d with result := bits hd 47 16 }
    match imageMalformed r.1 len.toNat with
    | some d => refuse .malformed d
    | none =>
      let cs := maskCoaches (imageMask hd)
      match cs.find? fun c => s.slotBusy c with
      | some c => refuse .imemBusy c.toNat
      | none =>
        let slots := imageSlots r.1
        let fault := s.imageFault slots
        let s := cs.foldl (fun s c => s.onCoach c fun co => { co.setSpare .empty with loadBusy := true }) s
        s.await (.load h (BitVec.ofNat 32 (bits hd 47 16)) (imageMask hd) slots fault)

/-- PROGRAM_LOAD. -/
def execProgramLoad (h : CmdHdr) (src : Bool) (len : BitVec 32) (s : State) : Answer := .next (programLoadStep h src len s)

/-- The slots of a load that passed are written. -/
def State.writeSlots (s : State) (slots : List (Nat × ProgSlot)) : State :=
  slots.foldl (fun s p => s.onCoach (BitVec.ofNat 6 p.1) fun co => co.setSpare p.2) s

/-- A queued task whose program no slot of one of its coaches holds any more: its load failed. -/
def State.failLoads (s : State) (progId : BitVec 32) : State :=
  (s.tasks.filter fun t => t.st = .queued && t.f.programId = progId &&
      (maskCoaches t.coachMask).any fun c => !((s.coach c).holds progId)).foldl
    (fun s t => (s.onTask t.key fun t => { t with loadFailed := true }).endTask t.key) s

def State.finishLoad (s : State) (h : CmdHdr) (progId : BitVec 32) (mask : BitVec 64) (slots : List (Nat × ProgSlot))
    (fault : Option (Bool × Nat)) : State :=
  let s := (maskCoaches mask).foldl (fun s c => s.onCoach c fun co => { co with loadBusy := false }) s
  match fault with
  | none => (s.writeSlots slots).post 4 h { Report.of .ok 0 with result := progId.toNat }
  | some (alias_, d) =>
    (s.post 4 h { Report.of (if alias_ then .descAlias else .descRange) d with result := progId.toNat }).failLoads progId

/-- PROGRAM_LOAD_DONE. -/
def execProgramLoadDone (sq : BitVec 6) (s : State) : Answer :=
  let mine := s.hif.waiting.find? fun w => match w with
    | .load h _ _ _ _ => h.sq = sq
    | _ => false
  .next (match mine with
    | some (.load h p m l f) => (s.unwait (.load h p m l f)).finishLoad h p m l f
    | _ => s)

/-! ## TASK_SUBMIT (R228, R312, R340 to R344) -/

/-- The image of a program ID: that of the lowest coach that holds or loads it. -/
def State.imageOf (s : State) (id : BitVec 32) : Option ProgSlot :=
  if id = 0 then none else allCoaches.findSome? fun c => s.imageOn c id

/-- What a TASK_SUBMIT names: its image, its lists as the argument block gives them. -/
structure Submission where
  h : CmdHdr
  f : TaskF
  image : Option ProgSlot
  mask : BitVec 64
  contexts : List Nat
  bindings : SMap Word64
  nodes : List NodeId
  list : List (Nat × Nat)

/-- The key stream list: each entry below 992 GiB with its index, and whether every entry is. -/
def State.readKeyList (s : State) (addr count : Nat) : List (Nat × Nat) × State :=
  (List.range count).foldl (fun (r : List (Nat × Nat) × State) i =>
    if hbmEnd < addr + 32 * i + 32 then r
    else
      let b := r.2.readOpen (addr + 32 * i) 32
      (r.1 ++ [(i, leNat b.1)], b.2.2)) ([], s)

/-- The 16-bit entries of a list in host memory. -/
def State.hostList16 (s : State) (addr n : Nat) : List Nat :=
  (List.range n).map fun i => leNat (s.hostRead (addr + 2 * i) 2)

def Submission.read (s : State) (h : CmdHdr) (f : TaskF) : Submission × State :=
  let a := h.argAddr.toNat
  let image := s.imageOf f.programId
  let keys := s.readKeyList f.keylistAddr.toNat f.keylistCount.toNat
  ({ h := h, f := f, image := image
     mask := match image with | some p => imageMask p.header.toNat | none => 0
     contexts := s.hostList16 a (min f.nCtx.toNat 64)
     bindings := (List.range 256).foldl (fun m r =>
       store 0 m r (BitVec.ofNat 64 (leNat (s.hostRead (a + 0x80 + 8 * r) 8)))) []
     nodes := (s.hostList16 (a + 0x880) (f.devices.toNat + 1)).map fun n => BitVec.ofNat 12 n
     list := keys.1 }, keys.2)

/-- A refusal: status and DETAIL. -/
abbrev Refused := Option (Status × Nat)

def refuseIf (b : Bool) (status : Status) (detail : Nat) : Refused := if b then some (status, detail) else none

/-- The first position of a list whose element an earlier one repeats, or that is bad in itself. -/
def firstRepeat (bad : Nat → Bool) : List Nat → List Nat → Option Nat
  | _, [] => none
  | seen, x :: rest => if bad x || seen.contains x then some seen.length else firstRepeat bad (seen ++ [x]) rest

/-- The first non-zero bit above the node ID in a list of 16-bit entries that stands at byte `base` of the argument block (R429; log
entry 63). -/
def nodeListBad (base : Nat) (l : List Nat) : Option Nat :=
  firstBad (l.zipIdx.map fun e => (zeroBits e.1 15 12).map fun b => 2 ^ 46 + 8 * base + 16 * e.2 + b)

/-- Row 1 of R341, and its change in R342, beyond the checks of the word itself: first in the command, then in its device list. -/
def rowOne (f : TaskF) (nodes : List Nat) : Refused :=
  (firstBad [fieldBad 162 (f.programId = 0 ∧ f.hazard = true), fieldBad 163 (f.programId = 0 ∧ f.perCoach = true),
    fieldBad 352 (f.programId = 0 ∧ f.digestCap ≠ 0),
    fieldBad 384 (f.digestCap ≠ 0 ∧ f.digestAddr.toNat % 32 ≠ 0), nodeListBad 0x880 nodes]).map fun d => (.malformed, d)

/-- Row 3: NO_PROGRAM names the lowest coach that lacks the program; without an image the coach is open (log entry 1). -/
def State.rowThree (s : State) (u : Submission) : Refused :=
  if u.f.programId = 0 then refuseIf (u.f.keylistCount = 0) .noProgram (s.freeNat 0 % 64)
  else match u.image with
    | none => some (.noProgram, s.freeNat 0 % 64)
    | some _ => ((maskCoaches u.mask).find? fun c => (s.imageOn c u.f.programId).isNone).map fun c => (.noProgram, c.toNat)

/-- Rows 4 to 6. -/
def State.rowContexts (s : State) (u : Submission) : Refused :=
  if 64 < u.f.nCtx.toNat then some (.tooManyContexts, u.f.nCtx.toNat)
  else match firstRepeat (fun c => decide (16383 < c) || (look none s.contexts c).isNone) [] u.contexts with
    | some i => some (.contextInvalid, i)
    | none =>
      let sets := (u.contexts.filterMap fun c => (look none s.contexts c).map (·.paramSet)).eraseDups
      refuseIf (8 < sets.length) .tooManySets sets.length

/-- Row 7 (R312). -/
def rowMode (u : Submission) : Refused :=
  match u.image with
  | none => none
  | some p => refuseIf (bits p.header.toNat 113 112 < u.f.mode.toNat) .modeMismatch (bits p.header.toNat 113 112)

/-- A region binding against its kind (R340). -/
def bindingOk (x : Region) (b : Nat) : Bool :=
  match x.kind with
  | 1 => b % 2 ^ 40 % 576 = 0 && decide (b % 2 ^ 40 + 576 * x.size ≤ hbmEnd)
  | 2 => b % 64 = 0
  | 3 => b % 2 ^ 40 % 576 = 0 && decide (b % 2 ^ 40 + 576 * x.size ≤ hbmEnd)
  | _ => b = 0

/-- Row 8. -/
def rowRegions (u : Submission) : Refused :=
  let region (r : Nat) : Region := match u.image with
    | some p => p.region r
    | none => { kind := 0, noiseB := 0, size := 0 }
  ((List.range 256).find? fun r => !(bindingOk (region r) (look (0 : Word64) u.bindings r).toNat)).map fun r =>
    (.regionInvalid, r)

/-- A key stream list entry against R228 and R342; `prev` is the entry before it in its interleave set. -/
def State.keyEntryOk (s : State) (u : Submission) (prev : Option KeyEntry) (last : Bool) (x : Nat) : Bool :=
  let e := KeyEntry.ofWord x
  let ctx := look none s.contexts e.context.toNat
  let set := ctx.bind fun c => s.entry? c.paramSet
  let serving := u.f.programId = 0
  u.contexts.contains e.context.toNat && ctx.any (fun c => c.bound) && e.passes ≠ 0 && e.carts ≠ 0 &&
    (e.mask &&& ~~~u.mask) = 0 && (e.groupEn || e.mask ≠ 0) &&
    (!e.groupEn || (look none s.kst.groups e.group.toNat).isSome) && (e.spread ≠ 0 || e.shift = 0) &&
    (e.limbs = 0 || set.any fun p => p.packed && decide (e.limbs ≤ p.limbs) && e.first = 0 &&
      e.carts = 2 * p.digits * (e.limbs + p.special) * (p.ringSize / 4096)) &&
    prev.all (fun p => p.passes = e.passes && p.groupEn = e.groupEn && p.group = e.group) &&
    !(last && e.ilv) && e.reservedOk && (!serving || (e.groupEn && e.mask = 0))

/-- Row 9: the first entry that breaks a rule, an entry at or above 992 GiB among them. -/
def State.badKeyEntry (s : State) (u : Submission) : Option KeyEntry → Nat → List (Nat × Nat) → Option Nat
  | _, i, [] => if i < u.f.keylistCount.toNat then some i else none
  | prev, i, (_, x) :: rest =>
    if s.keyEntryOk u prev (i + 1 = u.f.keylistCount.toNat) x then
      let e := KeyEntry.ofWord x
      s.badKeyEntry u (if e.ilv then some e else none) (i + 1) rest
    else some i

/-- The source and the members of the groups that a list names. -/
def State.groupNodes (s : State) (u : Submission) : List NodeId :=
  u.list.flatMap fun x =>
    let e := KeyEntry.ofWord x.2
    if e.groupEn then match look none s.kst.groups e.group.toNat with
      | some g => g.source :: g.members
      | none => []
    else []

/-- Row 10. -/
def State.rowDevices (s : State) (u : Submission) : Refused :=
  let differs := match u.image with
    | some p => bits p.header.toNat 133 122 ≠ u.f.devices.toNat
    | none => false
  if differs || !(u.nodes.contains s.ehl.nodeId) then some (.deviceListInvalid, 0xFFFF)
  else match firstRepeat (fun _ => false) [] (u.nodes.map (·.toNat)) with
    | some i => some (.deviceListInvalid, i)
    | none =>
      let serving := u.f.programId = 0
      refuseIf (((u.f.ftag = 0) ≠ (u.f.devices = 0)) || (serving && u.f.ftag = 0) ||
        (serving && (s.groupNodes u).any fun n => !(u.nodes.contains n))) .deviceListInvalid 0xFFFF

/-- A node is unreachable (R290): an UNREACH or a loss has marked it, or its route has no usable port. -/
def State.unreachableNode (s : State) (n : NodeId) : Bool :=
  n ≠ s.ehl.nodeId && (s.ehl.unreachable.any (fun u => u.1 = n.toNat) || !(s.reachable n))

/-- Rows 11 to 13. -/
def State.rowFabric (s : State) (u : Submission) : Refused :=
  match u.nodes.find? fun n => s.unreachableNode n with
  | some n => some (.nodeUnreachable, n.toNat)
  | none =>
    let low := match u.image with
      | some p => decide (u.f.minor.toNat < (if bits p.header.toNat 15 0 = 2 then 1 else bits p.header.toNat 121 114))
      | none => false
    let ports := (u.nodes.filter fun n => n ≠ s.ehl.nodeId).flatMap fun n => s.firstPorts n
    -- no port is named where the image asks for more: open (log entry 1)
    if low then some (.fabricLevel, s.freeNat 0 % 16)
    else match ports.find? fun p => (s.port p).st = .up && decide ((s.port p).negMinor < u.f.minor) with
      | some p => some (.fabricLevel, p)
      | none => refuseIf (u.f.devices ≠ 0 && !s.ehl.locked) .timeUnlocked 0

/-- R341 in order, as R342 changes it for a serving task. -/
def State.checkTask (s : State) (u : Submission) : Refused :=
  (rowOne u.f (s.hostList16 (u.h.argAddr.toNat + 0x880) u.nodes.length)).orElse fun _ =>
    (refuseIf (s.tasks.any fun t => t.id = u.h.taskId) .taskIdBusy 0).orElse fun _ =>
      (s.rowThree u).orElse fun _ =>
        (s.rowContexts u).orElse fun _ =>
          (rowMode u).orElse fun _ =>
            (rowRegions u).orElse fun _ =>
              ((s.badKeyEntry u none 0 u.list).map fun i => (.keylistInvalid, i)).orElse fun _ =>
                (s.rowDevices u).orElse fun _ => s.rowFabric u

/-- The task of a submission that passed. -/
def State.taskFrom (s : State) (u : Submission) : Task :=
  { key := s.hif.acceptCount, id := u.h.taskId, hdr := u.h, f := u.f, contexts := u.contexts.map fun c => BitVec.ofNat 14 c
    bindings := u.bindings, devices := u.nodes, coachMask := u.mask
    keylist := u.list.map fun e => BitVec.ofNat 256 e.2, st := .queued, t0 := 0, startTime := 0, queue := none
    abort := none, shutters := [], layer := 0, recsWritten := 0, recsLost := 0, records := []
    leftDigests := [], endedCoaches := [], wdogCount := 0, poison := 0, mismatch := 0, first := none
    noCompletion := false, loadFailed := false, scrubbed := [], wrote := [], lostCh := [], endTime := 0, posted := false }

/-- A gated coach that the task names begins its wake (R24). -/
def State.wakeFor (s : State) (mask : BitVec 64) : State :=
  (maskCoaches mask).foldl (fun s c => if (s.coach c).gated then s.onCoach c fun co => { co with waking := true } else s) s

def taskSubmitStep (h : CmdHdr) (f : TaskF) (s : State) : State :=
  s.checked 5 h (taskWord h f) fun s =>
    let r := Submission.read s h f
    let s := r.2
    match s.checkTask r.1 with
    | some (status, d) => (s.refuse 5 h status d).freed
    | none =>
      let t := s.taskFrom r.1
      ({ s with
        tasks := s.tasks ++ [t], hif := { s.hif with acceptCount := s.hif.acceptCount + 1 } }.wakeFor t.coachMask).accept h

/-- TASK_SUBMIT. -/
def execTaskSubmit (h : CmdHdr) (f : TaskF) (s : State) : Answer := .next (taskSubmitStep h f s)

/-! ## TASK_ABORT (R344, R345) -/

/-- ID `a` is `b` or precedes it in serial order. -/
def serialUpTo (a b : TaskId) : Bool := (b - a).toNat < 2 ^ 31

def taskAbortStep (h : CmdHdr) (upto : Bool) (s : State) : State :=
  s.checked 6 h (taskAbortWord h upto) fun s =>
    let named := s.tasks.filter fun t => (t.id = h.taskId || (upto && serialUpTo t.id h.taskId)) && t.st ≠ .ended
    let hit := named.filter fun t => t.st ≠ .aborting
    let s := hit.foldl (fun (s : State) t => s.abortHere (deviceCond s.clk srcHost 9 0 none) t) s
    (s.await (.abortOf h (named.map (·.key)) (!hit.isEmpty))).settleWaiting

/-- TASK_ABORT. -/
def execTaskAbort (h : CmdHdr) (upto : Bool) (s : State) : Answer := .next (taskAbortStep h upto s)

/-! ## FENCE and GROUP_SET (R240, R345) -/

def fenceStep (h : CmdHdr) (own : Bool) (s : State) : State :=
  s.checked 7 h (fenceWord h own) fun s => (s.await (.fence h s.hif.acceptCount own)).settleWaiting

/-- FENCE. -/
def execFence (h : CmdHdr) (own : Bool) (s : State) : Answer := .next (fenceStep h own s)

def groupSetStep (h : CmdHdr) (f : GroupF) (s : State) : State :=
  s.checked 8 h (groupWord h f) fun s =>
    let old := look none s.kst.groups f.group.toNat
    if f.delete then
      if old.isNone then s.refuse 8 h .notFound 0 else (s.await (.groupDelete h f.group)).settleWaiting
    else
      let list := s.hostList16 h.argAddr.toNat f.members.toNat
      let members := list.map fun n => BitVec.ofNat 12 n
      if (nodeListBad 0 list).isSome then s.refuse 8 h .malformed ((nodeListBad 0 list).getD 0)
      else if f.role = 0 ∧ f.source ≠ s.ehl.nodeId then s.refuse 8 h .malformed 144
      else if f.role = 1 ∧ !(members.contains s.ehl.nodeId) then s.refuse 8 h .malformed 141
      else if old.isSome then s.refuse 8 h .noGroup f.group.toNat
      else
        let g : Group := { role := f.role, source := f.source, portMask := f.portMask, members := members }
        { s with kst := { s.kst with groups := store none s.kst.groups f.group.toNat (some g) } }.post 8 h (Report.of .ok 0)

/-- GROUP_SET. -/
def execGroupSet (h : CmdHdr) (f : GroupF) (s : State) : Answer := .next (groupSetStep h f s)

/-! ## HOST_MEMORY_ERROR (R347, R359) -/

/-- Host memory answers with an error, or not in time, for a host region of a task that runs: the task aborts. -/
def hostMemoryErrorStep (id : TaskId) (r : BitVec 8) (s : State) : State :=
  match s.taskNamed id with
  | none => s
  | some t =>
    if (maskCoaches t.coachMask).any fun c => ((s.coach c).prog.region r.toNat).kind = 2 then
      s.reportError.latch t.key (deviceCond s.clk srcHost 10 (r.toNat * 4 + 1) none)
    else s

/-- HOST_MEMORY_ERROR. -/
def execHostMemoryError (id : TaskId) (r : BitVec 8) (s : State) : Answer := .next (hostMemoryErrorStep id r s)

end Sys2Proof.Machine
end

