-- ==== Sys2Proof/Machine/Summary.lean ====
section
/-! DEFINITION. SYNC_SUMMARY: the summary of device state (R346). -/

namespace Sys2Proof.Machine

open Sys2Proof

/-- The version of the firmware that runs: major in [15:8], minor in [7:0]. -/
def State.fwVersion (s : State) : Nat :=
  (SignedHdr.of (if s.boot.copies.getLsbD 0 then s.boot.nvm.fwB else s.boot.nvm.fwA)).version

def sqWord (q : Sq) : Nat :=
  q.base.toNat * 2 ^ 64 + q.cq.toNat * 2 ^ 50 + flag q.enable * 2 ^ 32 + q.tail.toNat * 2 ^ 16 + q.head.toNat

def cqWord (q : Cq) : Nat :=
  q.base.toNat * 2 ^ 64 + q.held.length % 2 ^ 12 * 2 ^ 36 + flag q.phase * 2 ^ 33 + flag q.enable * 2 ^ 32 +
    q.head.toNat * 2 ^ 16 + q.tail.toNat

def eventWord (e : Evt) : Nat :=
  e.base.toNat * 2 ^ 64 + min e.droppedCount 4095 * 2 ^ 36 + flag e.phase * 2 ^ 33 + flag e.enable * 2 ^ 32 +
    e.head.toNat * 2 ^ 16 + e.tail.toNat

/-- Banks in ON (CCH_SPAD_STATUS, R107). -/
def Coach.banksOn (co : Coach) : Nat := ((List.range 32).filter fun b => (co.bank b).st = .on).length

/-- STATE of a coach; a coach that drains after an abort still counts as running (log entry 43). -/
def State.coachState (s : State) (co : Coach) : Nat :=
  match co.phase with
  | .idle => if co.repairs.isEmpty then 0 else 4
  | .running => if (co.task.bind s.task?).any fun t => decide (s.clk < t.t0) then 1 else 2
  | .stopped => 2
  | .scrubbing => 3

def Coach.stallSum (co : Coach) (k : Nat) : Nat := (List.range 8).foldl (fun a e => a + look 0 co.stall (8 * e + k)) 0

def State.coachWord (s : State) (co : Coach) : Nat :=
  (List.range 8).foldl (fun a k => a + co.stallSum k % 2 ^ 48 * 2 ^ (128 + 48 * k)) 0 +
    co.slotB.progId.toNat * 2 ^ 96 + co.slotA.progId.toNat * 2 ^ 64 + co.taskId.toNat * 2 ^ 32 + co.banksOn * 2 ^ 8 +
    flag co.gated * 2 ^ 7 + flag co.degraded * 2 ^ 6 + flag co.slotB.valid * 2 ^ 5 + flag co.slotA.valid * 2 ^ 4 +
    flag co.active * 2 ^ 3 + s.coachState co

/-- STATE of a task in the summary. -/
def State.taskState (s : State) (t : Task) : Nat :=
  match t.st with
  | .queued => 0
  | .running => if s.clk < t.t0 then 1 else 2
  | _ => 3

/-- The place of a queued task among the queued, from 1. -/
def State.queuePos (s : State) (t : Task) : Nat :=
  if t.st = .queued then (s.tasks.filter fun u => u.st = .queued && decide (u.key ≤ t.key)).length else 0

def State.taskEntry (s : State) (t : Task) : Nat :=
  t.startTime.toNat * 2 ^ 192 + s.queuePos t * 2 ^ 176 + t.f.ftag.toNat * 2 ^ 160 + t.f.programId.toNat * 2 ^ 128 +
    t.coachMask.toNat * 2 ^ 64 + t.hdr.index.toNat * 2 ^ 40 + t.hdr.sq.toNat * 2 ^ 34 + s.taskState t * 2 ^ 32 + t.id.toNat

def sourceEntry (id : Nat) (v : EvSource) : Nat := v.lastTs.toNat * 2 ^ 64 + (v.seq - 1) % 2 ^ 48 * 2 ^ 16 + id

def State.contextEntry (s : State) (i : Nat) (x : Context) : Nat :=
  (if x.bound then x.tag else noKeyTag).toNat * 2 ^ 64 +
    (s.tasks.filter fun t => t.contexts.contains (BitVec.ofNat 14 i)).length * 2 ^ 16 + x.paramSet.toNat * 4 +
    (if x.bound then 2 else 1)

/-- Writes words of `n` bytes one after another; a zero word leaves the zeros that stand there. -/
def State.writeWords (s : State) (addr n : Nat) (ws : List Nat) : State :=
  (ws.foldl (fun (r : State × Nat) w =>
    (if w = 0 then r.1 else r.1.hostWrite r.2 (leBytes n w), r.2 + n)) (s, addr)).1

/-- The bytes of a range of host memory become zero. -/
def State.hostClear (s : State) (addr n : Nat) : State :=
  { s with host := s.host.filter fun e => decide (e.1 < addr ∨ addr + n ≤ e.1) }

def summaryBytes : Nat := 311296

/-- The sources that have recorded an event since boot. -/
def State.usedSources (s : State) : List (Nat × EvSource) := s.evt.sources.filter fun v => decide (0 < v.2.seq)

/-- Tasks of the task table, in acceptance order. -/
def State.tableTasks (s : State) : List Task := s.tasks.filter fun t => t.st ≠ .ended

def State.summaryHeader (s : State) : Nat :=
  s.policyHash.toNat * 2 ^ 192 + s.usedSources.length * 2 ^ 176 + s.tableTasks.length * 2 ^ 160 +
    (s.contexts.filter fun c => c.2.isSome).length % 2 ^ 16 * 2 ^ 144 + s.fwVersion * 2 ^ 128 + s.ehl.nodeId.toNat * 2 ^ 96 +
    1 * 2 ^ 64 + s.ehl.ftime

/-- The whole summary, as of this clk. -/
def State.writeSummary (s : State) (a : Nat) : State :=
  let t := s.hostClear a summaryBytes
  let t := t.writeWords a 64 [s.summaryHeader]
  let t := t.writeWords (a + 0x100) 16 ((List.range 64).map fun i => sqWord (s.sq i))
  let t := t.writeWords (a + 0x500) 16 ((List.range 64).map fun i => cqWord (s.cq i))
  let t := t.writeWords (a + 0x900) 16 [eventWord s.evt]
  let t := t.writeWords (a + 0x1000) 128 (allCoaches.map fun c => s.coachWord (s.coach c))
  let t := t.writeWords (a + 0x3000) 32 (s.tableTasks.map fun k => s.taskEntry k)
  let t := t.writeWords (a + 0xB000) 16 (s.usedSources.map fun v => sourceEntry v.1 v.2)
  s.contexts.foldl (fun t c => match c.2 with
    | some x => t.writeWords (a + 0xC000 + 16 * c.1) 16 [s.contextEntry c.1 x]
    | none => t) t

def syncSummaryStep (h : CmdHdr) (capacity : BitVec 32) (s : State) : State :=
  s.checked 9 h (syncSummaryWord h capacity) fun s =>
    if capacity.toNat < summaryBytes then s.refuse 9 h .summarySpace summaryBytes
    else
      let s := s.writeSummary h.argAddr.toNat
      { s with hif := { s.hif with summaryBusy := true } }.await (.summary h)

/-- SYNC_SUMMARY: fetching stops, and the state of this clk is recorded. -/
def execSyncSummary (h : CmdHdr) (capacity : BitVec 32) (s : State) : Answer := .next (syncSummaryStep h capacity s)

/-- SYNC_SUMMARY_DONE: the completion follows the summary, and fetching resumes. -/
def execSyncSummaryDone (s : State) : Answer :=
  let mine := s.hif.waiting.find? fun w => match w with
    | .summary _ => true
    | _ => false
  .next (match mine with
    | some (.summary h) =>
      let s := s.unwait (.summary h)
      { s with hif := { s.hif with summaryBusy := false } }.post 9 h (Report.of .ok 0)
    | _ => s)

end Sys2Proof.Machine
end

