-- ==== Sys2Proof/Machine/Policy.lean ====
section
/-! DEFINITION. The policy table as it stands in an image, and the validation of its entries (R65, R66). -/

namespace Sys2Proof.Machine

open Sys2Proof

/-! ## Primality, deterministic below 2^64 -/

/-- Whether repeated squaring of `x` meets n - 1 within `f` rounds. -/
def meetsMinusOne (n : Nat) : Nat → Nat → Bool
  | 0, _ => false
  | f + 1, x => x = n - 1 || meetsMinusOne n f (x * x % n)

/-- The odd part of a number and how often it halves, within `f` halvings. -/
def oddPart : Nat → Nat → Nat × Nat
  | 0, d => (d, 0)
  | f + 1, d => if d % 2 = 1 ∨ d = 0 then (d, 0) else let r := oddPart f (d / 2); (r.1, r.2 + 1)

/-- The test of n to one base. -/
def passesBase (n b : Nat) : Bool :=
  let r := oddPart 64 (n - 1)
  let x := powMod b r.1 n
  b % n = 0 || x = 1 || meetsMinusOne n r.2 x

def isPrime (n : Nat) : Bool :=
  decide (1 < n) && (n = 2 || (n % 2 = 1 && [2, 3, 5, 7, 11, 13, 17, 19, 23, 29, 31, 37].all fun b => passesBase n b))

/-- round(log₂ q). -/
def roundLog2 (q : Nat) : Nat := let b := Nat.log2 q; if 2 ^ (2 * b + 1) ≤ q * q then b + 1 else b

/-! ## Entries -/

/-- The fields of an entry. LOG_N 0 of a packed set stands for 16 (log entry 20). -/
def entryFields (x : Nat) : PolicyEntry :=
  { setId := BitVec.ofNat 8 x, packed := bitOf x 8, bitwise := bitOf x 9, logN := if bitOf x 8 && bits x 19 16 = 0 then 16 else bits x 19 16, limbs := bits x 25 20,
    special := bits x 29 26, digits := bits x 32 30, scaleLog := bits x 40 33, lweN := bits x 58 48,
    glweLogN := bits x 62 59, glweK := bits x 63 63 + 1, gadgetL := bits x 67 64, gadgetLogB := bits x 72 68,
    ksL := bits x 76 73, ksLogB := bits x 81 77, msgBits := bits x 85 82, freshPacked := bits x 111 96,
    floorPacked := bits x 127 112, freshBitwise := bits x 143 128, floorBitwise := bits x 159 144
    cost := (List.range 32).map fun c => bits x (160 + 16 * c + 15) (160 + 16 * c)
    primes := (List.range 56).map fun i => bits x (672 + 36 * i + 35) (672 + 36 * i)
    primeBits := (List.range 56).map fun i => bits x (2752 + 8 * i + 7) (2752 + 8 * i)
    torusPa := bits x 2719 2688, torusPb := bits x 2751 2720
    reservedZero := bits x 15 10 = 0 && bits x 47 41 = 0 && bits x 95 86 = 0 && bits x 8191 3200 = 0
    usable := false, failed := 0 }

/-- The places of the primes that a set uses. -/
def PolicyEntry.usedPrimes (p : PolicyEntry) : List Nat := List.range p.limbs ++ (List.range p.special).map (48 + ·)

/-- The numbered conditions of R66, true where they hold. -/
def PolicyEntry.conditions (p : PolicyEntry) (x pos : Nat) : List Bool :=
  let pk (b : Bool) : Bool := !p.packed || b
  let bw (b : Bool) : Bool := !p.bitwise || b
  let all0 (l : List Nat) : Bool := l.all (· = 0)
  let packed0 := all0 [p.logN, p.limbs, p.special, p.digits, p.scaleLog, p.freshPacked, p.floorPacked] &&
    all0 p.primes && all0 p.primeBits
  let bitwise0 := all0 [p.lweN, p.glweLogN, bits x 63 63, p.gadgetL, p.gadgetLogB, p.ksL, p.ksLogB, p.msgBits,
    p.freshBitwise, p.floorBitwise, p.torusPa, p.torusPb]
  let used := p.usedPrimes
  let vals := used.map fun i => p.primes.getD i 0
  let unused := (List.range 56).filter fun i => !(used.contains i)
  [p.setId.toNat = pos,
   p.packed || p.bitwise,
   p.reservedZero,
   all0 (p.cost.drop 14),
   (p.packed || packed0) && (p.bitwise || bitwise0),
   pk (decide (12 ≤ p.logN)),
   pk (decide (1 ≤ p.limbs ∧ p.limbs ≤ 48)),
   pk (decide (1 ≤ p.digits ∧ p.digits ≤ 6)),
   pk (decide (ceilDiv p.limbs p.digits ≤ p.special ∧ p.special ≤ 8)),
   pk (vals.all (fun q => isPrime q && decide (q < 2 ^ 36) && q % (2 * p.ringSize) = 1) && vals.eraseDups.length = vals.length),
   pk (unused.all fun i => p.primes.getD i 0 = 0 && p.primeBits.getD i 0 = 0),
   pk (used.all fun i => p.primeBits.getD i 0 = roundLog2 (p.primes.getD i 0)),
   pk (decide (1 ≤ p.scaleLog)),
   pk (decide (1 ≤ p.floorPacked ∧ p.floorPacked < p.freshPacked)),
   bw (decide (1 ≤ p.lweN ∧ p.lweN ≤ 1024)),
   bw (decide (9 ≤ p.glweLogN ∧ p.glweLogN ≤ 12)),
   bw ([p.torusPa, p.torusPb].all (fun q => isPrime q && q % (2 * 2 ^ p.glweLogN) = 1) && p.torusPa ≠ p.torusPb),
   bw (decide (1 ≤ p.gadgetL ∧ p.gadgetL ≤ 8 ∧ 1 ≤ p.gadgetLogB ∧ p.gadgetL * p.gadgetLogB ≤ 64)),
   bw (decide (1 ≤ p.ksL ∧ p.ksL ≤ 8 ∧ 1 ≤ p.ksLogB ∧ p.ksL * p.ksLogB ≤ 64)),
   bw (decide (1 ≤ p.msgBits ∧ p.msgBits ≤ 8)),
   bw (decide (1 ≤ p.floorBitwise ∧ p.floorBitwise < p.freshBitwise))]

/-- An entry with the outcome of its validation. -/
def policyEntry (x pos : Nat) : PolicyEntry :=
  let p := entryFields x
  match findAt (fun b => !b) (p.conditions x pos) 1 with
  | some (i, _) => { p with failed := i }
  | none => { p with usable := true }

/-- The table of a 262,144-byte payload; an entry that is all zero is absent. -/
def policyTable (payload : List (Nat × Nat)) : SMap (Option PolicyEntry) :=
  (regroup 1024 8 payload).map fun e => (e.1, some (policyEntry e.2 e.1))

end Sys2Proof.Machine
end

