-- ==== Sys2Proof/Machine/Images.lean ====
section
/-! DEFINITION. Images of the NVM: signed images, their verification, and the configuration image (R263, R284, R285, R369, R370,
R373, R374, R416). -/

namespace Sys2Proof.Machine

open Sys2Proof

/-! ## Signed images (R369, R370) -/

def SignedHdr.payload (h : SignedHdr) (bs : List Byte) : List Byte := (bs.drop 64).take h.payloadBytes
def SignedHdr.signature (h : SignedHdr) (bs : List Byte) : List Byte := (bs.drop (64 + h.payloadBytes)).take h.sigBytes

/-- The bytes of a signed image less its owner key block. -/
def SignedHdr.size (h : SignedHdr) : Nat := 64 + h.payloadBytes + h.sigBytes

/-- The vendor root key as a device has it: the hash in its boot ROM and the key of its boot header (R368, R370). -/
structure RootKey where
  rom : BitVec 256
  key : List Byte

def Boot.rootKey (b : Boot) : RootKey := { rom := b.rom, key := b.nvm.header.root }

/-- The key an image is verified under is good, and its signature verifies; `owner` is OWNER_KEY_HASH where the image is a
policy table. -/
def SignedHdr.signed (h : SignedHdr) (root : RootKey) (bs : List Byte) (owner : Option (BitVec 256)) : Bool :=
  let hdr := bs.take 64
  match h.signer, owner with
  | 1, _ => sha256Word root.key = root.rom && hssVerify root.key hdr (h.signature bs)
  | 2, some hash =>
    let block := (bs.drop h.size).take 64
    hash ≠ 0 && sha256Word (block.take 60) = hash && allZero (block.drop 60) && block.length = 64 &&
      hssVerify (block.take 60) hdr (h.signature bs)
  | _, _ => false

/-- The contents of an image: its payload's hash, its kind and its reserved fields. -/
def SignedHdr.contents (h : SignedHdr) (bs : List Byte) (kind : Nat) : Bool :=
  h.clean && h.kind = kind && (h.payload bs).length = h.payloadBytes && (sha256Word (h.payload bs)).toNat = h.payloadHash

/-- Results of an update (R386). -/
inductive UpdResult where
  | ok | noPresence | badSignature | rollback | badImage | nvmError | trialPending
  deriving DecidableEq, Repr

def UpdResult.code : UpdResult → BitVec 4
  | .ok => 0 | .noPresence => 1 | .badSignature => 2 | .rollback => 3 | .badImage => 4 | .nvmError => 5 | .trialPending => 6

/-- R370 over an image, in its order: key and signature, contents, version. -/
def SignedHdr.check (h : SignedHdr) (root : RootKey) (bs : List Byte) (owner : Option (BitVec 256)) (kind minimum : Nat) :
    UpdResult :=
  if !(h.signed root bs owner) then .badSignature
  else if !(h.contents bs kind) then .badImage
  else if h.secVersion < minimum then .rollback
  else .ok

/-- A copy of the firmware (region 0) or the microcode (1) as it stands in the NVM is valid. -/
def Boot.imageOk (b : Boot) (region : Nat) (bs : List Byte) : Bool :=
  decide ((SignedHdr.of bs).size ≤ bs.length) &&
    (SignedHdr.of bs).check b.rootKey bs none (region + 1) (b.nvm.minimum (region + 1)) = .ok

/-! ## The configuration image (R263, R284, R285, R373, R374, R416) -/

/-- Bytes from `lo` up to `hi` are zero. -/
def zeroAt (bs : List Byte) (lo hi : Nat) : Bool := allZero ((bs.drop lo).take (hi - lo))

def thermalOf (bs : List Byte) : Thermal :=
  let b (i : Nat) : Nat := fieldAt bs (0x1000 + i) 1
  { dieThrottle := b 2, dieRelease := b 3, dieShutdown := b 4, hbmThrottle := b 5, hbmRelease := b 6, hbmShutdown := b 7
    powerCap := fieldAt bs 0x1008 2 }

/-- The ranges of R416. -/
def Thermal.ok (t : Thermal) : Bool :=
  decide (t.dieRelease < t.dieThrottle ∧ t.dieThrottle < t.dieShutdown ∧ 60 ≤ t.dieRelease ∧ t.dieShutdown ≤ 110 ∧
    85 < t.hbmThrottle ∧ t.hbmRelease < t.hbmThrottle ∧ t.hbmThrottle < t.hbmShutdown ∧ 60 ≤ t.hbmRelease ∧
    t.hbmShutdown ≤ 105 ∧ 800 ≤ t.powerCap ∧ t.powerCap ≤ 1650)

/-- Bytes that R373 and R416 leave reserved are zero. -/
def cfgReserved (bs : List Byte) : Bool :=
  [(2, 4), (8, 0x20), (0x42, 0x44), (0x51, 0x80), (0xC0, 0x100), (0x120, 0x1000), (0x100A, 0x2000), (0x6000, 0x10000)].all
    fun r => zeroAt bs r.1 r.2

/-- A route entry keeps R284. -/
def routeOk (x : Nat) : Bool :=
  bits x 19 8 = 0 && !(bitOf x 20 && bits x 31 27 = 0) && !(bitOf x 21 && bits x 26 22 = 0)

/-- Route entries that are not zero, by destination. -/
def routesOf (bs : List Byte) : SMap (BitVec 32) :=
  ((List.range 4096).map fun i => (i, BitVec.ofNat 32 (fieldAt bs (0x2000 + 4 * i) 4))).filter fun e => e.2 ≠ 0

/-- The factory table of each stack that has entries. -/
def factoryOf (bs : List Byte) : SMap (List Remap) :=
  ((List.range 8).map fun k => (k, ((List.range 2048).map fun i => fieldAt bs (0x20000 + 16384 * k + 8 * i) 8).filterMap fun x =>
    if bitOf x 63 then some (remapOf x) else none)).filter fun e => e.2 ≠ []

/-- Expected neighbours; a port that takes any node is not listed. -/
def neighboursOf (bs : List Byte) : SMap (Option NodeId) :=
  ((List.range 16).map fun p => (p, fieldAt bs (0x80 + 4 * p) 4)).filterMap fun e =>
    if bitOf e.2 12 then none else some (e.1, some (BitVec.ofNat 12 e.2))

def cfgShares (bs : List Byte) : List Nat :=
  let x := fieldAt bs 0x4E 2
  [bits x 3 0, bits x 7 4, bits x 11 8]

/-- R373, R374 and R416 hold of an image, its policy table apart. -/
def cfgOk (bs : List Byte) : Bool :=
  bs.length = 786432 && fieldAt bs 0 2 = 1 && fieldAt bs 4 4 = 786432 &&
    sha256Word (bs.take 0x20 ++ List.replicate 32 0 ++ bs.drop 0x40) = BitVec.ofNat 256 (fieldAt bs 0x20 32) &&
    cfgReserved bs && (cfgShares bs).foldl (· + ·) 0 = 8 &&
    (routesOf bs).all (fun e => e.1 = bits (fieldAt bs 0x40 2) 11 0 || routeOk e.2.toNat) &&
    fieldAt bs 0x1000 2 = 1 && (thermalOf bs).ok

/-- The policy image of a configuration image. -/
def policyBytes (bs : List Byte) : List Byte := (bs.drop 0x40000).take 0x80000

/-- The check of the policy table of a configuration image. -/
def policyCheck (root : RootKey) (bs : List Byte) (minimum : Nat) : UpdResult :=
  let p := policyBytes bs
  let h := SignedHdr.of p
  let r := h.check root p (some (BitVec.ofNat 256 (fieldAt bs 0x100 32))) 3 minimum
  if r = .ok ∧ h.payloadBytes ≠ 262144 then .badImage else r

/-- A list of bytes as the pairs of those that are not zero. -/
def sparse (bs : List Byte) : List (Nat × Nat) :=
  ((List.range bs.length).zip bs |>.map fun e => (e.1, e.2.toNat)).filter fun e => e.2 ≠ 0

/-- A configuration image as a boot takes it; `minimum` is the journal's minimum version of the policy table. -/
def cfgOf (root : RootKey) (bs : List Byte) (minimum : Nat) : CfgImage :=
  let p := policyBytes bs
  let h := SignedHdr.of p
  let roots := fieldAt bs 0x48 4
  { check := BitVec.ofNat 256 (fieldAt bs 0x20 32), nodeId := BitVec.ofNat 12 (fieldAt bs 0x40 2)
    fabricId := BitVec.ofNat 32 (fieldAt bs 0x44 4)
    roots := (BitVec.ofNat 12 (bits roots 11 0), BitVec.ofNat 12 (bits roots 27 16))
    portEnable := BitVec.ofNat 16 (fieldAt bs 0x4C 2), shares := cfgShares bs, spread := bitOf (fieldAt bs 0x50 1) 0
    neighbours := neighboursOf bs, ownerKeyHash := BitVec.ofNat 256 (fieldAt bs 0x100 32), thermal := thermalOf bs
    routes := routesOf bs, factoryRemap := factoryOf bs, hbmSettings := (bs.drop 0x10000).take 0x10000, policy := policyTable (sparse (h.payload p))
    policyHash := sha256Word ((p.drop 64).take 262144), policyVerifies := policyCheck root bs minimum = .ok
    policySecVersion := BitVec.ofNat 32 h.secVersion }

end Sys2Proof.Machine
end

