-- ==== Sys2Proof/Machine/Hbm.lean ====
section
/-! DEFINITION. The HBM controllers: grant slots, frames, refresh, row copies, retraining, evacuation and lost channels
(R242 to R244, R256 to R271). -/

namespace Sys2Proof.Machine

open Sys2Proof

/-! ## Who wins a grant slot (R243, R244) -/

/-- A coach request that waits: its order key, the coach, the engine and the request. -/
structure Bid where
  urg : Nat
  stream : Nat
  coach : CoachId
  since : Nat
  eng : Engine
  req : Req

/-- The order of R244; of two bids that agree in all of it the earlier in the list stands. -/
def Bid.before (a b : Bid) : Bool :=
  decide (a.urg < b.urg) || (a.urg = b.urg && (decide (a.stream < b.stream) || (a.stream = b.stream &&
    (decide (a.coach < b.coach) || (a.coach = b.coach && decide (a.since ≤ b.since))))))

/-- The bids of one stream engine of a coach at a logical channel; a request that has waited 2,048 fclk counts as
urgency 0. -/
def State.bidsOf (s : State) (lam : Nat) (c : CoachId) (e : Engine) : List Bid :=
  match s.transferOf c e with
  | none => []
  | some t =>
    let m := (s.coach c).mapEntry (XDesc.ofWord t.desc.toNat).nearEntry
    (t.reqs.filter fun r => r.left && decide (r.far = .hbm ∧ channelOf (granuleOf r.addr) = lam)).map fun r =>
      { urg := if r.clkAt + 4096 ≤ s.clk then 0 else r.urg, stream := m.stream, coach := c, since := r.clkAt, eng := e,
        req := r }

def State.bids (s : State) (lam : Nat) : List Bid :=
  s.listed.flatMap fun c => s.bidsOf lam c .sin ++ s.bidsOf lam c .sout

def bestBid : List Bid → Option Bid
  | [] => none
  | b :: rest =>
    match bestBid rest with
    | some d => if b.before d then some b else some d
    | none => some b

/-- The port of the privileged slots 0 to 7 by the shares (R244). -/
def sharePattern (shares : List Nat) : List Nat :=
  ((List.range 8).foldl (fun (r : List Int × List Nat) _ =>
    let cur := (List.range 3).map fun i => r.1.getD i 0 + (shares.getD i 0 : Int)
    let best := (List.range 3).foldl (fun b i => if cur.getD b 0 < cur.getD i 0 then i else b) 0
    (setNth cur best (cur.getD best 0 - 8), r.2 ++ [best])) ([0, 0, 0], [])).2

/-- Winner of a grant slot: a coach request, or a request of a port, of which 3 is the host. -/
inductive Winner where
  | coach (b : Bid)
  | port (a : Ask)
  | nobody

/-- The first request of a port that waits at a channel. -/
def State.askOf (s : State) (lam p : Nat) : Option Ask :=
  s.hbm.asks.find? fun a => decide (a.port = p ∧ a.chan = lam ∧ a.clkAt ≤ s.clk)

/-- The first requesting of the three privileged ports. -/
def State.firstPort (s : State) (lam : Nat) : Winner :=
  match (List.range 3).findSome? fun p => s.askOf lam p with
  | some a => .port a
  | none => .nobody

/-- The best coach request; a request of the host has urgency 4,095, or 0 once it has waited for 2,048 fclk, and ranks after every
coach request of equal urgency (R244, R253). -/
def State.bestCoach (s : State) (lam : Nat) : Option Winner :=
  match bestBid (s.bids lam), s.askOf lam 3 with
  | some b, some a => some (if (if a.clkAt + 4096 ≤ s.clk then 0 else 4095) < b.urg then .port a else .coach b)
  | some b, none => some (.coach b)
  | none, some a => some (.port a)
  | none, none => none

/-- R244. -/
def State.winner (s : State) (lam slot : Nat) : Winner :=
  let best : Winner := (s.bestCoach lam).getD (s.firstPort lam)
  if slot % 5 ≠ 4 then best
  else match s.askOf lam ((sharePattern s.kst.shares).getD ((slot - 4) / 5) 0) with
    | some a => .port a
    | none => best

/-! ## Evacuation and poison fill (R268, R270) -/

/-- Makes every word of a granule uncorrectable: the poison pattern (R261). -/
def State.poisonGranule (s : State) (g : Nat) : State :=
  { s with hbm := { s.hbm with
    ecc := (List.range 72).foldl (fun m i => store none m (72 * g + i) (some .double)) s.hbm.ecc } }

/-- A granule moves to another place with its corrected content, or as the poison pattern when it cannot be read. -/
def State.moveGranule (s : State) (g : Nat) (q : Requester) : State :=
  let n := min 576 (hbmEnd - 576 * g)
  let r := s.readCheck g (576 * g) n q
  if r.1 then r.2.poisonGranule g
  else { r.2 with hbm := { r.2.hbm with
    ecc := (wordsOf (576 * g) n).foldl (fun m w => store none m w none) r.2.hbm.ecc } }

/-- The last slot of a channel (R251). -/
def lastSlot : Nat := 7456540

/-- An error that the array shows in the granule read: one word with a single or with a double error, in a word that holds none
worse (R254). -/
def State.upset (s : State) (addr : Nat) (err : BitVec 2) : State :=
  let put (x : EccErr) : State := { s with hbm := { s.hbm with ecc := store none s.hbm.ecc (addr / 8) (some x) } }
  if err = 2 then put .double else if err = 1 ∧ s.wordErr (addr / 8) = none then put .single else s

/-- The copy of slot W of the channel under evacuation, whose read may show an error, or the fill of slot W. -/
def State.copySlot (s : State) (k : Nat) (err : BitVec 2) : State :=
  let v := s.stk k
  match v.evac with
  | none => s
  | some (a, w) =>
    if lastSlot < w then s
    else
      let g := granuleAt (8 * a + k) w
      let s := if v.filling ∨ hbmEnd ≤ 576 * g then s else (s.upset (576 * g) err).moveGranule g .evacuation
      s.setStk k { (s.stk k) with evac := some (a, w + 1) }

/-- The channel is the one its stack evacuates or fills. -/
def State.moving (s : State) (lam : Nat) (filling : Bool) : Bool :=
  let v := s.stk (stackOf lam)
  v.filling = filling && v.evac.any fun e => decide (e.1 = activeOf lam)

/-! ## GRANT_SLOT -/

/-- A granted coach request: a write is accepted and performed, a read delivers its granule or aborts the task (R176, R260). -/
def State.serveBid (s : State) (b : Bid) : State :=
  if b.eng = .sout then (s.onCoach b.coach fun co => co.accepted s.clk b.req).writeHbm b.coach b.req
  else
    let r := s.hbmRead b.req.addr 576 (.coach b.coach)
    if r.2.1 then
      (r.2.2.onCoach b.coach fun co => co.onTransfer .sin fun t => { t with reqs := t.reqs.erase b.req }).latchCoach b.coach
        .memUncorr (r.2.2.hbm.uncorrInfo.toNat % 2 ^ 62)
    else r.2.2.feed b.coach b.req (BitVec.ofNat 4608 (leNat r.1))

/-- A response to the sender of a read request (R281, R282). -/
def State.respond (s : State) (k : Packet) (len : BitVec 2) (status : Nat) (data : List Byte) : State :=
  s.sendPacket .readRsp (s.packetTo k.src k.tag len 0 (bits k.info.toNat 85 70 * 2 ^ 70 + status * 2 ^ 68) data)

/-- A request that goes on to its next granule, or is done. -/
def State.goOn (s : State) (a : Ask) (job : AskJob) (done : State → State) : State :=
  match a.rest job with
  | some b => { s with hbm := { s.hbm with asks := s.hbm.asks ++ [b] } }
  | none => done s

/-- A write of the packet's source with its tag, of those numbered below `n`, waits for HBM (R301). -/
def State.writesBefore (s : State) (k : Packet) (n : Nat) : Bool := s.hbm.asks.any fun a => match a.job with
  | .write (some x) _ => decide (x.1 = k.src ∧ x.2.1 = k.tag ∧ x.2.2 < n)
  | _ => false

/-- A SHUT_ARRIVE that waited is recorded once every write of its source with its tag that came before has been accepted (R301). -/
def State.releaseArrivals (s : State) : State :=
  let now := s.ehl.heldArrivals.filter fun k => !(s.writesBefore k.1 k.2)
  now.foldl (fun s k => s.recordArrival k.1)
    { s with ehl := { s.ehl with heldArrivals := s.ehl.heldArrivals.filter fun k => s.writesBefore k.1 k.2 } }

/-- A granted request of a privileged port or of the host has its part in the granule served (R232, R260, R282, R328). -/
def State.serveAsk (s : State) (a : Ask) : State :=
  let s := { s with hbm := { s.hbm with asks := s.hbm.asks.erase a } }
  match a.job with
  | .key q task place =>
    if a.n = 0 then s.granuleCame q task place []
    else
      let r := s.hbmRead a.addr a.n .keyStreamer
      if r.2.1 then r.2.2.keyReadFailed q task else r.2.2.granuleCame q task place r.1
  | .write from_ data =>
    let r := if from_.isSome then (data.take a.part, s) else s.openBytes a.addr (data.take a.part)
    (r.2.hbmWrite a.addr r.1).goOn a (.write from_ (data.drop a.part)) State.releaseArrivals
  | .respond k got =>
    let r := s.hbmRead a.addr a.part .gateway1
    if r.2.1 then r.2.2.respond k 0 1 []
    else r.2.2.goOn a (.respond k (got ++ r.1)) fun s => s.respond k (BitVec.ofNat 2 (bits k.info.toNat 69 68)) 0 (got ++ r.1)
  | .host pad got bad =>
    let r := s.readOpen a.addr a.part
    r.2.2.goOn a (.host pad (got ++ r.1) (bad || r.2.1)) fun s =>
      s.answerBytes (got ++ r.1 ++ List.replicate pad 0xFF) (bad || r.2.1)

/-- The granule that a request of a port reads. -/
def Ask.reads (a : Ask) : Bool := match a.job with
  | .write _ _ => false
  | _ => a.n ≠ 0

/-- An interface error: 16 of a channel within a second ask for its retraining (R258). -/
def State.interfaceError (s : State) (lam : Nat) : State :=
  let k := stackOf lam
  let a := activeOf lam
  let v := s.stk k
  let errs := (v.ifErrors.filter fun t => decide (s.clk < t.2 + clkSecond)) ++ [(a, s.clk)]
  let many := decide (16 ≤ (errs.filter fun t => decide (t.1 = a)).length) && !(v.retrainWait.contains a)
  s.setStk k { v with ifErrors := errs, retrainWait := if many then v.retrainWait ++ [a] else v.retrainWait }

/-- A slot in which the channel grants nothing: the key streamer counts its 18 clk when it would have won (R242, R257). -/
def State.lostSlot (s : State) (lam slot cause : Nat) : State :=
  match s.winner lam slot with
  | .port a => if a.port = 0 then
      { (s.hit (24 + cause) (look 0 s.kst.stall cause)) with kst := { s.kst with stall := store 0 s.kst.stall cause (count48 (look 0 s.kst.stall cause + 18)) } } else s
  | _ => s

/-- A grant slot of the present frame is over. -/
def State.closeSlot (s : State) (lam slot : Nat) : State :=
  { s with hbm := { s.hbm with slots := (40 * lam + slot) :: s.hbm.slots } }

/-- A slot grants once in its frame. -/
def grantStep (ch : BitVec 8) (slot : BitVec 6) (err : BitVec 2) (s : State) : State :=
  let lam := ch.toNat
  let n := slot.toNat
  if 248 ≤ lam ∨ 40 ≤ n ∨ s.hbm.slots.contains (40 * lam + n) then s
  else
    let s := (s.advance (s.hbm.frameAt + 18 * n)).closeSlot lam n
    let s := if err = 3 then s.interfaceError lam else s
    if s.channelRetrains lam then s.lostSlot lam n 7
    else if s.refreshing lam n then s.lostSlot lam n 6
    else if s.moving lam true then s.copySlot (stackOf lam) err
    else if s.moving lam false ∧ n = 0 then s.copySlot (stackOf lam) err
    else match s.winner lam n with
      | .coach b => (if b.eng = .sout then s else s.upset b.req.addr err).serveBid b
      | .port a => (if a.reads then s.upset a.addr err else s).serveAsk a
      | .nobody => if s.moving lam false then s.copySlot (stackOf lam) err else s

/-- GRANT_SLOT. -/
def execGrantSlot (ch : BitVec 8) (slot : BitVec 6) (err : BitVec 2) (s : State) : Answer := .next (grantStep ch slot err s)

/-! ## HBM_FRAME_BOUNDARY (R256, R258, R262) -/

/-- The refresh mode that the reading at the boundary asks for. -/
def refreshMode (temp : Nat) (hot : Bool) : Bool := if 85 ≤ temp then true else if temp < 80 then false else hot

/-- The next channel of a stack to retrain: the lowest of those that wait, host requests only while no task runs. -/
def State.nextRetrain (s : State) (v : Stack) : Option Nat :=
  (List.range 31).find? fun a =>
    !(v.unserved.contains a) && (v.retrainWait.contains a || (v.retrainHost.contains a && s.noTask) ||
      (let t := look 0 v.trainTemp a
       decide (t + 10 ≤ v.temp.toNat) || decide (v.temp.toNat + 10 ≤ t)))

/-- A retraining starts. -/
def Stack.beginRetrain (v : Stack) (a : Nat) : Stack :=
  { v with
    retraining := some (a, 0), chState := store 0 v.chState (v.phys a) 1
    retrainWait := v.retrainWait.filter fun x => decide (x ≠ a)
    retrainHost := v.retrainHost.filter fun x => decide (x ≠ a) }

/-- The first row copy that waits for a physical channel is made in its refresh window: the row's four granules reach
the spare row, which serves it from then on, and its errors are counted anew (R262, R264). -/
def State.rowCopy (s : State) (k a : Nat) : State :=
  let v := s.stk k
  let ph := v.phys a
  match v.copies.find? fun c => c.1 = ph with
  | none => s
  | some (_, row, spare, redirect) =>
    let s := (List.range 4).foldl (fun s i =>
      let g := granuleAt (8 * a + k) (4 * row + i)
      if lastSlot < 4 * row + i ∨ hbmEnd ≤ 576 * g then s else s.moveGranule g .rowCopy) s
    let v := s.stk k
    let old := v.remaps.find? fun r => decide (r.phys = ph ∧ r.row = row)
    let entry : Remap :=
      { phys := ph, row := row, spare := spare, remaps := match old with | some r => min (r.remaps + 1) 7 | none => 0 }
    let remaps := if redirect then v.remaps.map fun r => if r.phys = ph ∧ r.row = row then entry else r
      else v.remaps ++ [entry]
    let s := s.setStk k { v with
      remaps := remaps, copies := v.copies.erase (ph, row, spare, redirect)
      rowErrs := v.rowErrs.filter fun e => decide (¬(e.1 = ph ∧ e.2.1 = row)) }
    let s := match old with
      | some r => if redirect then s.journal (.spareRetire k ph r.spare) else s
      | none => s
    s.journal (.hbmRemap k entry)

/-- The active channels of a stack that refresh in the present frame and have a row copy to make in it (R256, R262). -/
def State.copyingNow (s : State) (k : Nat) : List Nat :=
  let v := s.stk k
  (List.range 31).filter fun a => s.hbm.frame % 13 = (8 * a + k) % 13 && !(s.channelRetrains (8 * a + k)) &&
    v.copies.any fun c => decide (c.1 = v.phys a)

/-- A stack at a frame boundary: the copies of the frame that ends are done; the refresh mode, the next retraining and the copies
of the frame that begins stand (R256, R258, R262). -/
def State.boundaryStack (s : State) (k : Nat) : State :=
  let v := s.stk k
  let v := { v with hot := refreshMode v.temp.toNat v.hot }
  let v := match v.retraining with
    | some _ => v
    | none => match s.nextRetrain v with
      | some a => v.beginRetrain a
      | none => v
  let s := s.setStk k v
  s.setStk k { s.stk k with copying := s.copyingNow k }

def boundaryStep (s : State) : State :=
  let s := s.advance (s.hbm.frameAt + 720)
  let s := (List.range 8).foldl (fun s k => ((s.stk k).copying).foldl (fun s a => s.rowCopy k a) s) s
  let s := { s with hbm := { s.hbm with frame := s.hbm.frame + 1, frameAt := s.hbm.frameAt + 720, slots := [] } }
  (List.range 8).foldl State.boundaryStack s

/-- HBM_FRAME_BOUNDARY. -/
def execHbmFrameBoundary (s : State) : Answer := .next (boundaryStep s)

/-! ## Retraining ends; lost channels (R259, R267, R270, R271) -/

/-- Every word of a logical channel written since a fill is forgotten. -/
def State.staleChannel (s : State) (lam : Nat) : State :=
  { s with hbm := { s.hbm with
    fresh := s.hbm.fresh.filter fun e => decide (channelOf (granuleOf (8 * e.1)) ≠ lam)
    ecc := s.hbm.ecc.filter fun e => decide (channelOf (granuleOf (8 * e.1)) ≠ lam) } }

/-- A channel is lost: every running task aborts, its writes to the channel being discarded from now on (R353), and the unused spare
takes the logical channel over; as trained it counts at the temperature of this moment (DESIGN CHOICE, log entry 47). -/
def State.loseChannel (s : State) (k a : Nat) : State :=
  let s := s.raise (srcStack k) 9 (k * 2 ^ 5 + a)
  let v := s.stk k
  let ph := v.phys a
  let v := { v with
    lost := true, retraining := none, chState := store 0 v.chState ph 3, trainTemp := store 0 v.trainTemp a v.temp.toNat
    retrainWait := v.retrainWait.filter fun x => decide (x ≠ a), retrainHost := v.retrainHost.filter fun x => decide (x ≠ a) }
  let takes := v.spareFor.toNat = 31 && !v.noSpare && v.evac.all fun e => decide (e.1 = a)
  let s := if takes then
      ((s.setStk k { v with
          spareFor := BitVec.ofNat 5 a, noSpare := true, chState := store 0 v.chState 31 0, evac := some (a, 0)
          filling := true, evacWait := [], poisoned := v.poisoned ++ [a]
          remaps := v.remaps.filter fun r => decide (r.phys ≠ ph)
          copies := v.copies.filter fun r => decide (r.1 ≠ ph), copying := v.copying.filter fun x => decide (x ≠ a)
          retired := v.retired.filter fun r => decide (r.1 ≠ ph) }).staleChannel (8 * a + k)).journal (.channel k a true true)
    else (s.setStk k { v with unserved := v.unserved ++ [a] }).journal (.channel k a false true)
  (s.runningKeys fun _ => true).foldl (fun s key =>
    (s.onTask key fun t => { t with lostCh := t.lostCh ++ [8 * a + k] }).latch key (deviceCond s.clk (srcStack k) 6 (s.hbm.uncorrInfo.toNat % 2 ^ 62) none)) s

/-- A slot of the present frame in which a retraining channel has granted nothing is over. -/
def State.idleSlot (lam : Nat) (s : State) (n : Nat) : State :=
  if s.hbm.slots.contains (40 * lam + n) then s
  else ((s.advance (s.hbm.frameAt + 18 * n)).closeSlot lam n).lostSlot lam n 7

/-- A retraining takes whole frames: it ends at a frame boundary, and the slots of its last frame have granted nothing (R259). -/
def State.wholeFrames (s : State) (lam : Nat) : State :=
  let t := s.nextBoundary
  if t = s.hbm.frameAt then s
  else ((List.range 40).foldl (State.idleSlot lam) s).advance t

def retrainDoneStep (stack : BitVec 3) (ok : Bool) (s : State) : State :=
  let k := stack.toNat
  match (s.stk k).retraining with
  | none => s
  | some (a, fails) =>
    let s := s.wholeFrames (8 * a + k)
    let v := s.stk k
    if ok then
      let times := (v.retrainTimes.filter fun t => decide (s.clk < t.2 + clkHour)) ++ [(a, s.clk)]
      let s := s.setStk k { v with
        retraining := none, chState := store 0 v.chState (v.phys a) 0, trainTemp := store 0 v.trainTemp a v.temp.toNat
        retrainTimes := times, ifErrors := v.ifErrors.filter fun t => decide (t.1 ≠ a) }
      if 3 ≤ (times.filter fun t => decide (t.1 = a)).length then s.startEvac k a else s
    else if fails + 1 < 3 then s.setStk k { v with retraining := some (a, fails + 1) }
    else s.loseChannel k a

/-- HBM_RETRAIN_DONE. -/
def execHbmRetrainDone (stack : BitVec 3) (ok : Bool) (s : State) : Answer := .next (retrainDoneStep stack ok s)

/-- POISON_FILL_DONE: every slot of the spare holds the poison pattern. -/
def execPoisonFillDone (stack : BitVec 3) (s : State) : Answer :=
  let v := s.stk stack.toNat
  .next (if v.filling then s.setStk stack.toNat { v with filling := false, evac := none } else s)

/-- The granules of a logical channel, from slot `w` on, that hold an error, each once. -/
def State.badGranules (s : State) (lam w : Nat) : List Nat :=
  ((s.hbm.ecc.map fun e => granuleOf (8 * e.1)).filter fun g => decide (channelOf g = lam ∧ w ≤ stripeOf g)).eraseDups

/-- An evacuation ends: what was not copied yet is, and the spare serves the logical channel for good (R268, R269). -/
def evacDoneStep (stack : BitVec 3) (s : State) : State :=
  let k := stack.toNat
  let v := s.stk k
  match v.evac with
  | none => s
  | some (a, w) =>
    if v.filling then s
    else
      let s := (s.badGranules (8 * a + k) w).foldl (fun s g => s.moveGranule g .evacuation) s
      let v := s.stk k
      let ph := v.phys a
      let s := s.setStk k { v with
        spareFor := BitVec.ofNat 5 a, noSpare := true, chState := store 0 (store 0 v.chState ph 3) 31 0, evac := none
        evacWait := [], remaps := v.remaps.filter fun r => decide (r.phys ≠ ph)
        copies := v.copies.filter fun r => decide (r.1 ≠ ph), copying := v.copying.filter fun x => decide (x ≠ a)
        retired := v.retired.filter fun r => decide (r.1 ≠ ph) }
      (s.journal (.channel k a true false)).raise (srcStack k) 8 (k * 2 ^ 6 + 2 ^ 5 + a)

/-- EVAC_DONE. -/
def execEvacDone (stack : BitVec 3) (s : State) : Answer := .next (evacDoneStep stack s)

/-! ## MEM_MAINT (R258, R267, R273) -/

/-- MEM_MAINT_RETRAIN: the request waits until no task runs. -/
def execMemMaintRetrain (stack : BitVec 3) (ch : BitVec 5) (s : State) : Answer :=
  let v := s.stk stack.toNat
  .next (if ch = 31 ∨ v.retrainHost.contains ch.toNat then s
    else s.setStk stack.toNat { v with retrainHost := v.retrainHost ++ [ch.toNat] })

/-- MEM_MAINT_EVACUATE: no effect while the stack evacuates or has no spare. -/
def execMemMaintEvacuate (stack : BitVec 3) (ch : BitVec 5) (s : State) : Answer :=
  let v := s.stk stack.toNat
  .next (if ch = 31 ∨ v.evac.isSome ∨ v.noSpare then s else s.startEvac stack.toNat ch.toNat)

end Sys2Proof.Machine
end

