-- ==== Sys2Proof/Machine/Links.lean ====
section
/-! DEFINITION. Fabric ports and fabric time: the port state machine, replays and credits, routes and the sync exchange
(R274 to R280, R285 to R300). -/

namespace Sys2Proof.Machine

open Sys2Proof

/-! ## Fabric time (R298 to R300) -/

/-- HOLDOVER of EHL_TIME_STATUS: four exchanges are missed, or a step is due and a fabric task runs (R300). -/
def State.inHoldover (s : State) : Bool := s.ehl.holdover || (s.ehl.stepDue.isSome && !s.noFabricTask)

/-- A TIME_STATE event, with the step in clk (R359). -/
def State.timeEvent (s : State) (step : Int) : State :=
  { (s.hit 8 s.ehl.timeSet.toNat) with ehl := { s.ehl with time := true, timeSet := satInc s.ehl.timeSet } }.raise srcTime 6
    (flag s.inHoldover * 2 ^ 77 + flag s.ehl.locked * 2 ^ 76 + s.ehl.root.toNat * 2 ^ 64 + unsigned 64 step)

/-- A node that can be reached: no mark stands against it and its route has a usable port. -/
def State.canReach (s : State) (n : NodeId) : Bool :=
  s.reachable n && !(s.ehl.unreachable.any fun u => u.1 = n.toNat)

/-- Links on the route in use to a node (R284). -/
def State.routeHops (s : State) (n : NodeId) : Nat :=
  let e := s.route n
  if s.ehl.switched.contains n.toNat then bits e 26 22 else bits e 31 27

/-- The root a device follows; none where it is the acting root (R298). -/
def State.followedRoot (s : State) : Option NodeId :=
  let me := s.ehl.nodeId
  if me = s.ehl.roots.1 then none
  else if s.canReach s.ehl.roots.1 then some s.ehl.roots.1
  else if me = s.ehl.roots.2 then none
  else some s.ehl.roots.2

/-- The root, the parent's port and the depth after a change of routes; the acting root counts as locked (log entry 44). A
change of root or of lock raises TIME_STATE. -/
def State.retime (s : State) : State :=
  let old := s.ehl
  let ehl : Ehl := match s.followedRoot with
    | none => { old with root := old.nodeId, rootSelf := true, locked := true, holdover := false, depth := 0, parentPort := 0
                         slew := 0, drift := 0, stepDue := none }
    | some r => { old with
        root := r, rootSelf := false, depth := BitVec.ofNat 5 (s.routeHops r)
        locked := old.locked && decide (s.routeHops r ≤ 16)
        parentPort := BitVec.ofNat 4 ((s.routePort r).getD 0) }
  let s := { s with ehl := ehl }
  if old.root ≠ ehl.root ∨ old.locked ≠ ehl.locked ∨ old.rootSelf ≠ ehl.rootSelf then s.timeEvent 0 else s

/-- The offset from the parent: its time at the port, plus half of twice the one-way delay, less this device's time. -/
def State.offsetFrom (s : State) (parentTime : BitVec 64) (delay2 : Nat) : Int :=
  signed 64 (parentTime.toNat + 2 ^ 64 - s.ehl.ftime % 2 ^ 64) + (delay2 / 2 : Nat)

/-- The rate correction that two successive exchanges ask for (R299): the offset beyond what was still to be adjusted is the error
over the clk between them, on top of the correction in force; one clk in 32 is the most (log entry 58). -/
def Ehl.rateFor (v : Ehl) (clk : Nat) (o : Int) : Int :=
  let t := clk - v.lastSync
  let had : Int := if v.drift = 0 then 0 else signedAs (t / v.drift.natAbs) v.drift
  let off := had + (o - v.slew)
  if off = 0 then 0 else signedAs (max 32 (t / off.natAbs)) off

/-- The neighbour takes this device's time at transmission, a child in an exchange with it, the parent in the answer (R299). -/
def State.tellTime (s : State) (p : Nat) : State :=
  s.setPort p { (s.port p) with syncSent := some (BitVec.ofNat 64 s.ehl.ftime) }

/-- An exchange with the time parent: the offset is stepped, until the first step and beyond 1,024 clk, or slewed together with the
rate (R298 to R300). The device is locked while its last four exchanges were within 2 clk (R299). -/
def State.followParent (s : State) (o : Int) : State :=
  let e := s.ehl
  if e.stepped = false ∨ 1024 < o.natAbs then
    let t := { s with ehl := { e with lastSync := s.clk, stepDue := some o, goodSyncs := 0, locked := false } }
    if e.locked then t.timeEvent 0 else t
  else
    let good := if o.natAbs ≤ 2 then min (e.goodSyncs + 1) 4 else 0
    let lock := good = 4 && decide (e.depth.toNat ≤ 16)
    let t := { s with ehl := { e with
      lastSync := s.clk, slew := o, drift := e.rateFor s.clk o, stepDue := none, goodSyncs := good, locked := lock
      holdover := if lock then false else e.holdover } }
    if lock = e.locked then t else t.timeEvent 0

def syncStep (p : BitVec 4) (parentTime : BitVec 64) (delay2 : Nat) (s : State) : State :=
  if (s.port p.toNat).st ≠ .up then s
  else if s.ehl.rootSelf || s.ehl.parentPort ≠ p then s.tellTime p.toNat
  else (s.tellTime p.toNat).followParent (s.offsetFrom parentTime delay2)

/-- SYNC_EXCHANGE: at the parent's port with the time parent, which the device answers with its own time, at another with a child. -/
def execSyncExchange (p : BitVec 4) (parentTime : BitVec 64) (delay2 : Nat) (s : State) : Answer :=
  .next (syncStep p parentTime delay2 s)

def holdoverStep (s : State) : State :=
  if s.ehl.rootSelf || s.ehl.holdover then s
  else
    let s := s.advance (s.ehl.lastSync + 4 * 1024)
    { s with ehl := { s.ehl with holdover := true, locked := false, goodSyncs := 0 } }.timeEvent 0

/-- TIME_HOLDOVER: four consecutive exchanges are missed. -/
def execTimeHoldover (s : State) : Answer := .next (holdoverStep s)

/-- TIME_STEP: a step that is due happens once no task with a fabric tag runs. -/
def execTimeStep (s : State) : Answer :=
  .next (match s.ehl.stepDue with
    | none => s
    | some o =>
      if s.noFabricTask then
        { s with ehl := { s.ehl with
          ftime := unsigned 64 ((s.ehl.ftime : Int) + o), timeStepReg := BitVec.ofNat 64 (unsigned 64 o), stepDue := none
          stepped := true, slew := 0 } }.timeEvent o
      else s)

/-! ## Port states (R287) -/

def PortSt.code : PortSt → Nat
  | .disabled => 0 | .down => 1 | .training => 2 | .negotiate => 3 | .held => 4 | .up => 5 | .retrain => 6

/-- The capability record that this device sends in NEGOTIATE and, from HELD, every second (R293, R295). -/
def State.capRecord (s : State) (p : Nat) : CapRecord :=
  { fabricId := s.ehl.fabricId, major := 3, minor := 2, port := BitVec.ofNat 4 p, node := s.ehl.nodeId }

/-- A port takes the state `st` for a reason, with the fields of `v`; the LINK_STATE event names both states. -/
def State.movePort (s : State) (p : Nat) (v : Port) (st : PortSt) (reason : Nat) : State :=
  let old := (s.port p).st
  let live := st = .up || st = .retrain
  let v := { v with st := st, since := s.clk, capSent := if st = .negotiate then some (s.capRecord p) else v.capSent, negMinor := if live then v.negMinor else 0, reason := if st = .held then v.reason else 0 }
  let s := s.setPort p v
  { (s.hit 6 s.ehl.linkSet.toNat) with ehl := { s.ehl with link := true, linkSet := satInc s.ehl.linkSet } }.raise (srcPort p) 5
    (v.negMinor.toNat * 2 ^ 24 + v.neighbour.toNat * 2 ^ 12 + v.reason.toNat * 2 ^ 9 + reason * 2 ^ 6 + st.code * 2 ^ 3 +
      old.code)

/-- A change of state for which R359 lists no reason: the reason is open (log entry 1). -/
def State.movePortOpen (s : State) (p : Nat) (v : Port) (st : PortSt) : State :=
  (s.movePort p v st (s.freeNat 0 % 8)).freed

/-- TASK_LOST to a node. -/
def State.sendTaskLost (s : State) (n tag : Nat) : State :=
  s.sendPacket .taskLost (s.packetTo (BitVec.ofNat 12 n) (BitVec.ofNat 16 tag) 0 0 (7 * 2 ^ 78) [])

/-- A condition ends the task with a fabric tag. -/
def State.abortTagged (s : State) (tag : BitVec 16) (a : AbortCond) : State :=
  match s.taggedTask tag with
  | none => s
  | some t => s.abortHere a t

/-- Marks a node unreachable (R290): every task whose device list holds it aborts with LINK_LOST, and the status names
the node. `reason` is that of EHL_UNREACH_INFO; `expiry` is the clk at which an UNREACH wears off. -/
def State.markUnreachable (s : State) (n : NodeId) (reason port : Nat) (expiry : Option Nat) : State :=
  let others := s.ehl.unreachable.filter fun u => decide (u.1 ≠ n.toNat)
  let s := { (s.hit 7 s.ehl.unreachSet.toNat) with ehl := { s.ehl with
    unreachable := others ++ [(n.toNat, expiry)], unreachF := true, unreachSet := satInc s.ehl.unreachSet,
    unreachInfo := BitVec.ofNat 32 (reason * 2 ^ 12 + n.toNat) } }
  (s.tasks.filter fun t => t.st ≠ .ended && t.devices.contains n).foldl (fun (s : State) t =>
    s.abortHere (deviceCond s.clk srcHost 7 (2 ^ 16 + port * 2 ^ 12 + n.toNat) none) t) s

/-- The destinations that the route table lists; the entry of the device's own node is ignored (R284). -/
def State.destinations (s : State) : List NodeId :=
  ((keys s.ehl.routes).map fun n => (BitVec.ofNat 12 n : NodeId)).filter fun n => decide (n ≠ s.ehl.nodeId)

/-- The nodes that a number of `OutPkt.ends` stands for. -/
def State.endNodes (s : State) (n : Nat) : List Nat :=
  if n < 4096 then [n]
  else match look none s.kst.groups (n - 4096) with
    | some g => g.members.map (·.toNat)
    | none => []

/-- Tags lost with a port, each with the nodes that are told: the devices of a task that this device knows, and the nodes that its
packets concerned (R289). -/
def State.lostTags (s : State) (v : Port) : List (Nat × List Nat) :=
  let seen := (v.replay.flatMap fun o => o.2.ends.map fun n => (o.2.k.tag.toNat, n)) ++
    (v.tags.filter fun t => decide (epochOf s.clk ≤ t.1 + 1)).map (·.2)
  let tags := (seen.map (·.1)).eraseDups.filter fun t => decide (t ≠ 0)
  tags.map fun t =>
    let mine := match s.taggedTask (BitVec.ofNat 16 t) with
      | some k => k.devices.map (·.toNat)
      | none => []
    let named := (seen.filter fun x => x.1 = t).flatMap fun x => s.endNodes x.2
    (t, ((mine ++ named).eraseDups).filter fun n => decide (n ≠ s.ehl.nodeId.toNat))

/-- A packet that waited at a lost port sets out again by the routes that hold now; a cart that waits at no other port leaves the
receive buffer (R278, R297). -/
def State.sendAgain (s : State) (o : OutPkt) : State :=
  if o.ty = .cart then (if (s.copyPorts o).isEmpty then s.release o else s.sendCopies o)
  else match s.routePort o.k.dst with
    | some p => s.sendAt p o
    | none => (if o.via.isSome then s.deadEnd o.k else s.discard).release o

/-- A port leaves UP or RETRAIN (R289): its routes switch, the nodes whose routes have no usable port left become unreachable (R290),
its replay buffer is lost, and TASK_LOST goes out for every tag that passed. -/
def State.losePort (s : State) (p : Nat) (st : PortSt) (reason : Nat) : State :=
  let v := s.port p
  let lost := s.lostTags v
  let s := s.movePort p { v with
    replay := [], tags := [], waiting := [], retrainFails := 0, replayUntil := 0, replayDue := false, discarding := false } st reason
  let using_ := s.destinations.filter fun n => decide (s.routePort n = some p)
  let switching := using_.filter fun n => bits (s.route n) 3 0 = p && bitOf (s.route n) 21
  let moved : List Nat := switching.map fun (n : NodeId) => n.toNat
  let s : State := { s with ehl := { s.ehl with switched := s.ehl.switched ++ moved } }
  let ends := s.destinations.filter fun n => (s.firstPorts n).contains p
  let s := (ends.filter fun (n : NodeId) => !(s.reachable n)).foldl (fun (s : State) n => s.markUnreachable n 1 p none) s
  let s := lost.foldl (fun (s : State) t =>
    (t.2.foldl (fun (s : State) n => s.sendTaskLost n t.1) s).abortTagged (BitVec.ofNat 16 t.1)
      (deviceCond s.clk srcHost 7 (3 * 2 ^ 16 + p * 2 ^ 12 + v.neighbour.toNat) none)) s
  (v.waiting.foldl State.sendAgain s).reapWrites.retime

/-- A port that carries packets is lost, or one that does not changes its state. -/
def State.dropPort (s : State) (p : Nat) (st : PortSt) (reason : Nat) : State :=
  if (s.port p).usable then s.losePort p st reason else s.movePort p (s.port p) st reason

/-- PORT_DISABLE: a write of DISABLE. -/
def execPortDisable (p : BitVec 4) (disable : Bool) (s : State) : Answer :=
  let s := s.setPort p.toNat { (s.port p.toNat) with disable := disable }
  .next (if disable then
      if (s.port p.toNat).st = .disabled then s else s.dropPort p.toNat .disabled 0
    else if (s.port p.toNat).st = .disabled then s.movePort p.toNat (s.port p.toNat) .down 0 else s)

/-- LOSS_OF_SIGNAL. -/
def execLossOfSignal (p : BitVec 4) (s : State) : Answer :=
  let st := (s.port p.toNat).st
  .next (if st = .disabled ∨ st = .down then s else s.dropPort p.toNat .down 1)

/-- PORT_TRAIN_ATTEMPT: a port that is DOWN trains when all eight receive lanes have signal. -/
def execPortTrainAttempt (p : BitVec 4) (lanes : BitVec 8) (s : State) : Answer :=
  .next (if (s.port p.toNat).st = .down ∧ lanes = BitVec.allOnes 8 then
      s.movePortOpen p.toNat (s.port p.toNat) .training
    else s)

/-- TRAINING_END. -/
def execTrainingEnd (p : BitVec 4) (ok : Bool) (s : State) : Answer :=
  .next (if (s.port p.toNat).st ≠ .training then s
    else if ok then s.movePortOpen p.toNat (s.port p.toNat) .negotiate
    else s.movePort p.toNat (s.port p.toNat) .down 2)

/-! ## Capability exchange (R293 to R295) -/

/-- Why an exchange is refused; 0 where it is accepted. -/
def State.capReason (s : State) (v : Port) (r : CapRecord) : BitVec 3 :=
  if r.major ≠ 3 then 1
  else if r.fabricId ≠ s.ehl.fabricId then 2
  else if !v.expectAny && v.expect ≠ r.node then 3
  else if r.node = s.ehl.nodeId then 4
  else 0

/-- A port comes UP by an accepted exchange: fresh sequence numbers and a full set of credits. -/
def Port.fresh (v : Port) : Port :=
  { v with
    txSeq := 0, rxGood := BitVec.allOnes 12, discarding := false, replay := [], resv0 := 64, resv1 := 64, shared := 6016
    retrainFails := 0, replayTimes := [], tags := [], replayUntil := 0, replayDue := false, flitRoom := 0, rx0 := 0, rx1 := 0
    ret0 := 0, ret1 := 0, corr := [] }

/-- Nodes with a route over a port that has come UP can be reached again (R290). -/
def State.restoreNodes (s : State) (p : Nat) : State :=
  { s with ehl := { s.ehl with
    unreachable := s.ehl.unreachable.filter fun u => !((s.firstPorts (BitVec.ofNat 12 u.1)).contains p) } }.retime

def State.negotiate (s : State) (p : Nat) (r : CapRecord) : State :=
  let v := s.port p
  let why := s.capReason v r
  if why = 0 then
    let v := { v.fresh with neighbour := r.node, negMinor := if r.minor < 2 then r.minor else 2 }
    (((s.movePort p v .up 3).restoreNodes p).flushPort p 64).reapWrites
  else if v.st = .held then s.setPort p { v with neighbour := r.node, reason := why }
  else s.movePort p { v with neighbour := r.node, reason := why } .held 3

/-- CAPABILITY_EXCHANGE. -/
def execCapabilityExchange (p : BitVec 4) (r : CapRecord) (s : State) : Answer :=
  .next (if (s.port p.toNat).st = .negotiate then s.negotiate p.toNat r else s)

/-- NEGOTIATE_TIMEOUT. -/
def execNegotiateTimeout (p : BitVec 4) (s : State) : Answer :=
  .next (if (s.port p.toNat).st = .negotiate then s.movePort p.toNat (s.port p.toNat) .down 3 else s)

/-- HELD_RETRY: the exchange is repeated. -/
def execHeldRetry (p : BitVec 4) (r : CapRecord) (s : State) : Answer :=
  .next (if (s.port p.toNat).st = .held then
      (s.setPort p.toNat { (s.port p.toNat) with capSent := some (s.capRecord p.toNat) }).negotiate p.toNat r
    else s)

/-! ## Retraining (R287, R288) -/

/-- A retraining begins (R287); a replay under way follows after it (R292). -/
def State.retrainPort (s : State) (p : Nat) (reason : Nat) : State :=
  s.movePort p ((s.port p).holdReplay s.clk) .retrain reason

/-- PORT_RETRAIN_REQUEST: no effect unless the port is UP. -/
def execPortRetrainRequest (p : BitVec 4) (s : State) : Answer :=
  .next (if (s.port p.toNat).st = .up then s.retrainPort p.toNat 0 else s)

/-- A port is UP again: a replay that is still due begins, and else what waits goes out. -/
def State.goOnAt (s : State) (p : Nat) : State :=
  let v := s.port p
  if v.replayDue then (s.hit (96 + p) v.flits).setPort p (v.replayFrom s.clk) else (s.flushPort p 64).reapWrites

/-- PORT_RETRAIN_END. -/
def execPortRetrainEnd (p : BitVec 4) (ok : Bool) (s : State) : Answer :=
  let v := s.port p.toNat
  .next (if v.st ≠ .retrain then s
    else if ok then
      ((s.movePort p.toNat { v with retrainFails := 0 } .up 7).restoreNodes p.toNat).goOnAt p.toNat
    else if v.retrainFails + 1 < 3 then s.setPort p.toNat { v with retrainFails := v.retrainFails + 1 }
    else s.losePort p.toNat .down 6)

/-! ## Flits (R276 to R279) -/

/-- FLIT_CRC_ERROR: the flit and every later one are discarded until the replay arrives; NAK is sent. -/
def execFlitCrcError (p : BitVec 4) (s : State) : Answer :=
  let v := s.port p.toNat
  .next (if v.st = .up then s.setPort p.toNat { v with discarding := true, nakSent := v.nakSent + 1 } else s)

/-- Flits that are acknowledged leave the replay buffer. -/
def Port.acked (v : Port) (ack : BitVec 12) : Port :=
  { v with replay := v.replay.filter fun f => decide (2048 ≤ (ack - f.1).toNat) }

/-- One millisecond in clk. -/
def clkMs : Nat := 2500000

/-- A replay is counted, with those of the last millisecond (R277, R287). -/
def State.countReplay (s : State) (p : Nat) (ack : BitVec 12) : State :=
  let v := (s.port p).acked ack
  (s.hit (64 + p) v.replays).setPort p { v with
    replays := count48 (v.replays + 1), replayTimes := (v.replayTimes.filter fun t => decide (s.clk < t + clkMs)) ++ [s.clk] }

/-- A NAK: the replay begins, unless the port has begun to retrain in this fclk, or begins to now, after which it follows (R277, R287,
R292). -/
def nakStep (p : Nat) (ack : BitVec 12) (s : State) : State :=
  let st := (s.port p).st
  if st = .retrain ∧ (s.port p).since / 2 = s.clk / 2 then
    let s := s.countReplay p ack
    s.setPort p { (s.port p) with replayDue := true }
  else if st = .up then
    let s := s.countReplay p ack
    let v := s.port p
    if 64 ≤ v.replayTimes.length then (s.setPort p { v.holdReplay s.clk with replayDue := true }).retrainPort p 4
    else (s.hit (96 + p) v.flits).setPort p (v.replayFrom s.clk)
  else s

/-- NAK: the flits from ACK + 1 are sent again; 64 replays within 1 ms start a retraining. -/
def execNak (p : BitVec 4) (ack : BitVec 12) (s : State) : Answer := .next (nakStep p.toNat ack s)

/-- Credits come back: the reserve of the virtual channel fills first. -/
def Port.credit (v : Port) (vc1 : Bool) (n : Nat) : Port :=
  let r := if vc1 then v.resv1 else v.resv0
  let toR := min (64 - r) n
  let v := { v with shared := min 6016 (v.shared + (n - toR)) }
  if vc1 then { v with resv1 := r + toR } else { v with resv0 := r + toR }

/-- Symbols that a port receives in 1 ms: 512 in each flit of 4 clk (R275). -/
def symbolsPerMs : Nat := clkMs / 4 * 512

/-- The symbols that FEC corrected are counted; above 10^-5 of those received in 1 ms the port retrains (R287, R303, R349). -/
def State.fecCorrected (s : State) (p n : Nat) : State :=
  if n = 0 then s
  else
    let v := s.port p
    let recent := (v.corr.filter fun t => decide (s.clk < t.1 + clkMs)) ++ [(s.clk, n)]
    let s := (s.hit (128 + p) v.fecCorr).setPort p { v with fecCorr := count48 (v.fecCorr + n), corr := recent }
    if symbolsPerMs < (recent.foldl (fun a t => a + t.2) 0) * 100000 then (s.setPort p { (s.port p) with corr := [] }).retrainPort p 5 else s

/-- LINK_CREDIT_RETURN: a flit header brings credits and an acknowledgement, and says what FEC has corrected. What waited is sent. -/
def execLinkCreditReturn (p : BitVec 4) (vc : Bool) (amount : BitVec 12) (ack : FlitAck) (s : State) : Answer :=
  let v := s.port p.toNat
  .next (if v.st = .up then
      let s := (s.setPort p.toNat ((v.acked ack.ack).credit vc amount.toNat)).fecCorrected p.toNat ack.corr
      if (s.port p.toNat).st = .up then (s.flushPort p.toNat 64).reapWrites else s
    else s)

/-! ## Routes (R290, R291) -/

/-- Routes return to their primary ports. -/
def State.restoreRoutes (s : State) : State :=
  { s with ehl := { s.ehl with switched := [], restorePending := false } }.retime

/-- ROUTE_RESTORE. -/
def execRouteRestore (s : State) : Answer :=
  .next (if s.noFabricTask then s.restoreRoutes else { s with ehl := { s.ehl with restorePending := true } })

/-- ROUTE_RESTORE_APPLY: the first moment without a task that carries a fabric tag. -/
def execRouteRestoreApply (s : State) : Answer :=
  .next (if s.ehl.restorePending && s.noFabricTask then s.restoreRoutes else s)

/-- REACHABLE_TIMEOUT: 10 ms after the last UNREACH that named it, a node becomes reachable again. -/
def execReachableTimeout (n : NodeId) (s : State) : Answer :=
  .next (match s.ehl.unreachable.find? fun u => u.1 = n.toNat with
    | some (_, some t) =>
      let s := s.advance t
      { s with ehl := { s.ehl with unreachable := s.ehl.unreachable.filter fun u => decide (u.1 ≠ n.toNat) } }.retime
    | _ => s)

end Sys2Proof.Machine
end

