-- ==== Sys2Proof/Machine/Packets.lean ====
section
/-! DEFINITION. Packets as they arrive at a port, and the remote-request timeout (R240, R260, R277, R278, R280 to R284, R290, R292,
R295, R297, R301, R302, R435). -/

namespace Sys2Proof.Machine

open Sys2Proof

/-- A packet comes into the receive buffer of its virtual channel (R278). -/
def Port.take (v : Port) (t : PktType) (n : Nat) : Port :=
  if t.vc1 then { v with rx1 := v.rx1 + n } else { v with rx0 := v.rx0 + n }

/-- The flit that a packet comes in is the next in order, or the one received last, and no error stands before it (R276, R277). -/
def Port.inOrder (v : Port) (seq : BitVec 12) : Bool := seq = v.rxGood + 1 || (seq = v.rxGood && !v.discarding)

/-- A packet arrives at a port in a data flit: a port that is not UP carries none, and a flit out of order is discarded, as are all
after an error until the replay brings the one that failed (R277, R287). -/
def State.receive (s : State) (p : BitVec 4) (x : InFlit) (t : PktType) (f : Packet → State → State) : State :=
  let v := s.port p.toNat
  if v.st ≠ .up ∨ v.inOrder x.seq = false then s
  else
    let v := (v.pass { ty := t, k := x.packet, via := none } s.clk).take t (Packet.credits x.packet)
    f x.packet (s.setPort p.toNat { v with rxGood := x.seq, discarding := false })

/-- A packet that is addressed to this device acts here, which consumes it; any other passes through. -/
def State.deliverOr (s : State) (p : BitVec 4) (t : PktType) (k : Packet) (f : State → State) : State :=
  if k.dst = s.ehl.nodeId then (f s).release { ty := t, k := k, via := some p.toNat } else s.forward p.toNat t k

/-! ## Remote memory (R282) -/

/-- A write waits at gateway 0 for its channels; one that reaches 992 GiB is discarded. -/
def servedWrite (k : Packet) (s : State) : State :=
  let n := lenBytes k.len
  let a := k.addr.toNat
  if hbmEnd < a + n then s.discard
  else if n = 0 then s
  else
    { s with ehl := { s.ehl with writesIn := s.ehl.writesIn + 1 } }.ask 1 a n s.clk
      (.write (some (k.src, k.tag, s.ehl.writesIn)) (k.data.take n ++ List.replicate (n - k.data.length) 0))

/-- WRITE. -/
def execWritePkt (p : BitVec 4) (k : InFlit) (s : State) : Answer :=
  .next (s.receive p k .write fun k s => s.deliverOr p .write k (servedWrite k))

/-- A read waits at gateway 1 for its channels; one that reaches 992 GiB is answered with an address error. -/
def servedRead (k : Packet) (s : State) : State :=
  let len := BitVec.ofNat 2 (bits k.info.toNat 69 68)
  let n := lenBytes len
  let a := k.addr.toNat
  if len.toNat < 2 then s.discard
  else if hbmEnd < a + n then s.respond k 0 2 []
  else s.ask 2 a n s.clk (.respond k [])

/-- READ_REQ. -/
def execReadReq (p : BitVec 4) (k : InFlit) (s : State) : Answer :=
  .next (s.receive p k .readReq fun k s => s.deliverOr p .readReq k (servedRead k))

/-- A task that still runs: data that returns for another is discarded (R352). -/
def State.runsKey (s : State) (key : Nat) : Bool := (s.task? key).any fun t => t.st = .running

/-- A read that came back without its data: the requesting task aborts; a condition about a cart ranks as its lowest coach receiver
(R282, R351). -/
def State.readRefused (s : State) (o : Outstanding) : State :=
  let payload := 2 ^ 62 + o.node.toNat * 2 ^ 40 + o.addr
  match o.reader with
  | .coach c => s.latch o.task (coachCond s.clk c .memUncorr payload)
  | .queue q _ =>
    let first : Option CoachId := match s.inHand (s.keyQueue q) with
      | some h => if h.task.key = o.task then (h.e.receivers h.seq).head? else none
      | none => none
    s.latch o.task (rankedAs first (deviceCond s.clk srcKst 6 payload none))

/-- The data of a read reaches SIN or the cart in hand of a key queue. -/
def State.readCame (s : State) (o : Outstanding) (bs : List Byte) : State :=
  match o.reader with
  | .queue q place => s.granuleCame q o.task place bs
  | .coach c =>
    match (s.transferOf c .sin).bind fun t => t.reqs.find? fun r => r.rid = o.rid + 1 with
    | some r => s.feed c r (BitVec.ofNat 4608 (leNat bs))
    | none => s

/-- A response to a read of this device. -/
def responseStep (k : Packet) (s : State) : State :=
  match s.ehl.reads.find? fun r => r.rid = bits k.info.toNat 85 70 with
  | none => s
  | some o =>
    let s := { s with ehl := { s.ehl with reads := s.ehl.reads.erase o } }
    if !(s.runsKey o.task) then s
    else if bits k.info.toNat 69 68 ≠ 0 then s.readRefused o
    else s.readCame o k.data

/-- READ_RSP. -/
def execReadRsp (p : BitVec 4) (k : InFlit) (s : State) : Answer :=
  .next (s.receive p k .readRsp fun k s => s.deliverOr p .readRsp k (responseStep k))

/-- REMOTE_REQ_TIMEOUT: no response within the limit that held when the request was issued. -/
def execRemoteReqTimeout (rid : BitVec 16) (s : State) : Answer :=
  .next (match s.ehl.reads.find? fun r => r.rid = rid.toNat with
    | none => s
    | some o =>
      let s := s.advance (o.clkAt + o.limit)
      let s := { s with ehl := { s.ehl with reads := s.ehl.reads.erase o } }
      s.latch o.task (deviceCond s.clk srcHost 7
        (2 * 2 ^ 16 + ((s.routePort o.node).getD 0) * 2 ^ 12 + o.node.toNat) none))

/-! ## Multicast (R240, R297) -/

/-- A piece of a group's cart: its copies go on, unless its hops are spent (R284), and a member takes it for its key queue. -/
def cartStep (p : BitVec 4) (k : Packet) (s : State) : State :=
  let o : OutPkt := { ty := .cart, k := k, via := some p.toNat }
  match look none s.kst.groups k.group.toNat with
  | none => s.discard.release o
  | some g =>
    let s := if 1 < k.ttl.toNat then s.multicast g.portMask (some p.toNat) { k with ttl := k.ttl - 1 }
      else (if (s.copiesTo g.portMask (some p.toNat)).isEmpty then s else s.deadEnd k).release o
    if g.role = 1 then s.takePiece k else s

/-- CART. -/
def execCart (p : BitVec 4) (k : InFlit) (s : State) : Answer := .next (s.receive p k .cart (cartStep p))

/-- A member returns a credit to the queue it names; one that arrives in the clk of a timeout does not hold it off (R239). -/
def creditStep (k : Packet) (s : State) : State :=
  let q := bits k.info.toNat 53 50
  let n := 64 + k.src.toNat
  let s := if s.timerFull q n then s.timeoutFires q (receiverOf n) else s
  let v := s.keyQueue q
  if v.active then s.setQueue q (v.regain n) else s

/-- CART_CREDIT. -/
def execCartCredit (p : BitVec 4) (k : InFlit) (s : State) : Answer :=
  .next (s.receive p k .cartCredit fun k s => s.deliverOr p .cartCredit k (creditStep k))

/-! ## Notices (R289, R290, R301, R302) -/

/-- An arrival is recorded, or waits behind the writes received before of its source with its tag that HBM has not accepted. -/
def arrivalStep (k : Packet) (s : State) : State :=
  if s.writesBefore k s.ehl.writesIn then
    { s with ehl := { s.ehl with heldArrivals := s.ehl.heldArrivals ++ [(k, s.ehl.writesIn)] } }
  else s.recordArrival k

/-- SHUT_ARRIVE. -/
def execShutArrive (p : BitVec 4) (k : InFlit) (s : State) : Answer :=
  .next (s.receive p k .shutArrive fun k s => s.deliverOr p .shutArrive k (arrivalStep k))

/-- ABORT. -/
def execAbortPkt (p : BitVec 4) (k : InFlit) (s : State) : Answer :=
  .next (s.receive p k .abort fun k s => s.deliverOr p .abort k fun s =>
    s.abortTagged k.tag (deviceCond s.clk srcHost (BitVec.ofNat 8 (bits k.info.toNat 85 78)) 0 (some k.src)))

/-- TASK_LOST: the code the packet carries, or LINK_LOST. -/
def lostStep (p : BitVec 4) (k : Packet) (s : State) : State :=
  let code := bits k.info.toNat 85 78
  s.abortTagged k.tag (deviceCond s.clk srcHost (BitVec.ofNat 8 (if code = 0 then 7 else code))
    (p.toNat * 2 ^ 12 + k.src.toNat) none)

/-- TASK_LOST. -/
def execTaskLost (p : BitVec 4) (k : InFlit) (s : State) : Answer :=
  .next (s.receive p k .taskLost fun k s => s.deliverOr p .taskLost k (lostStep p k))

/-- UNREACH: the node it names is marked for 10 ms. -/
def execUnreach (p : BitVec 4) (k : InFlit) (s : State) : Answer :=
  .next (s.receive p k .unreach fun k s => s.deliverOr p .unreach k fun s =>
    (s.markUnreachable (BitVec.ofNat 12 (bits k.info.toNat 85 74)) 2 p.toNat (some (s.clk + 10 * clkMs))).retime)

end Sys2Proof.Machine
end

