-- ==== Sys2Proof/Machine/Events.lean ====
section
/-! DEFINITION. Event records and the event ring (R265, R357 to R362, R381). -/

namespace Sys2Proof.Machine

open Sys2Proof

/-- An event record; bit 15 of SOURCE takes the PHASE when it is written (R357). -/
def recordWord (v : EvWait) (seq source time : Nat) : BitVec 256 :=
  BitVec.ofNat 256 (v.payload.toNat * 2 ^ 144 + v.code.toNat * 2 ^ 128 + seq % 2 ^ 48 * 2 ^ 80 + source * 2 ^ 64 + time % 2 ^ 64)

/-- A record that a source of higher ID has made in the present clk (R361). -/
def Evt.after (e : Evt) (clk source : Nat) (r : BitVec 256) : Bool :=
  let other := bits r.toNat 78 64
  decide (source < other) && decide ((look EvSource.zero e.sources other).lastClk = some clk)

/-- A record enters the device's buffer, before those that sources of higher ID have made in the same clk; what the buffer of 256
has no place for is dropped (R361). -/
def Evt.take (e : Evt) (clk source : Nat) (w : BitVec 256) : Evt :=
  let n := e.held.length - (e.held.reverse.takeWhile (e.after clk source)).length
  let held := e.held.take n ++ w :: e.held.drop n
  if e.held.length < 256 then { e with held := held }
  else { e with
    held := held.take 256, dropped := true, dropSet := satInc e.dropSet, droppedCount := count48 (e.droppedCount + 1) }

/-- The event ring has space for a record. -/
def Evt.full (e : Evt) : Bool := decide ((e.tail.toNat + 1) % 2 ^ e.logSize.toNat = e.head.toNat)

/-- A retirement that is raised again after a boot waits for ring space (R361). -/
def EvWait.replayed (w : EvWait) : Bool := w.code = 3 && w.payload.getLsbD 53

/-- Clk per cycle of a source's clock domain (R5, R358). -/
def sourcePeriod (source : Nat) : Nat :=
  if source < 0x40 ∨ source = srcTime then 1
  else if source < 0x60 then 2
  else if source = srcHost then 4
  else 8

/-- The clk of a source's own clock edge, the present one or the next (R34, R320). -/
def ownEdge (source clk : Nat) : Nat := ceilDiv clk (sourcePeriod source) * sourcePeriod source

/-- A source's first waiting event is recorded in the present clk. -/
def State.recordNow (s : State) (source : Nat) : State :=
  let v := look EvSource.zero s.evt.sources source
  match v.waiting with
  | [] => s
  | w :: rest =>
    if w.replayed && (!s.evt.enable || s.evt.full || decide (256 ≤ s.evt.held.length)) then s
    else
      let e := s.evt.take s.clk source (recordWord w v.seq source s.ehl.ftime)
      let k := w.code.toNat
      let s := if s.evt.held.length < 256 then s else (s.hit 2 s.evt.dropSet.toNat).hit 22 s.evt.droppedCount
      let s := (s.hit (256 + k) (look 0 s.evt.codeCount k))
      let s := if k = 1 then s.hit 23 s.evt.aborts else s
      let src : EvSource := { seq := v.seq + 1, waiting := rest, lastClk := some s.clk, lastTs := BitVec.ofNat 64 s.ehl.ftime }
      { s with evt := { e with
        sources := store EvSource.zero e.sources source src
        codeCount := store 0 e.codeCount k (count48 (look 0 e.codeCount k + 1))
        aborts := if k = 1 then count48 (e.aborts + 1) else e.aborts } }

/-- The clk in which a source may record next: 65,536 clk after its last record or later, at a clock edge of its own. -/
def EvSource.recordAt (v : EvSource) (source clk : Nat) : Nat :=
  ownEdge source (match v.lastClk with
    | some l => max clk (l + 65536)
    | none => clk)

def recordStep (source : Nat) (s : State) : State :=
  let v := look EvSource.zero s.evt.sources source
  if v.waiting.isEmpty then s else (s.advance (v.recordAt source s.clk)).recordNow source

/-- EVENT_RECORD: a source records its first waiting event, no earlier than 65,536 clk after its last. -/
def execEventRecord (source : BitVec 15) (s : State) : Answer := .next (recordStep source.toNat s)

/-- A record is signalled on vector 64 as a completion is on its own (R333, R361). -/
def State.signalEvent (s : State) : State :=
  let n := s.evt.unsignalled + 1
  if s.evt.delay = 0 ∨ max s.evt.count.toNat 1 ≤ n then { s with evt := { s.evt with unsignalled := 0 } }.raiseVector 64
  else { s with evt := { s.evt with unsignalled := n, oldestAt := if s.evt.unsignalled = 0 then s.clk else s.evt.oldestAt } }

def ringWriteStep (error : Bool) (s : State) : State :=
  match s.evt.held with
  | [] => s
  | w :: rest =>
    if !s.evt.enable || s.evt.full then s
    else if error then { s with evt := { s.evt with enable := s.evt.enable && s.isEarly 448 } }.ringError 2 0 1 0
    else
      let tail := (s.evt.tail.toNat + 1) % 2 ^ s.evt.logSize.toNat
      let word := w.toNat + flag s.evt.phase * 2 ^ 79
      let s := s.hostWrite (s.evt.base.toNat + 32 * s.evt.tail.toNat) (leBytes 32 word)
      { s with evt := { s.evt with
        held := rest, tail := BitVec.ofNat 16 tail, phase := if tail = 0 then !s.evt.phase else s.evt.phase } }.signalEvent

/-- EVENT_RING_WRITE. -/
def execEventRingWrite (error : Bool) (s : State) : Answer := .next (ringWriteStep error s)

/-- What waits for the event ring to be enabled is raised: retirements again after a boot (R265), the aborts of a reset
(R359), an opened seal (R381). -/
def State.ringEnabled (s : State) : State :=
  let s := s.evt.replay.foldl (fun s r => s.raiseRetire r.1 (activeOf r.2.1) r.2.2 true) s
  let s := s.evt.resetAborts.foldl (fun s w => s.raise srcHost w.code.toNat w.payload.toNat) s
  let s := if s.evt.sealDue then s.raise srcMc 4 s.boot.bootNumber else s
  { s with evt := { s.evt with replay := [], resetAborts := [], sealDue := false } }

/-- A write of EVT_RING_CTRL (R362). -/
def eventControl (v : BitVec 32) (s : State) : State :=
  let s := s.hit 448 0
  let e := s.evt
  let e := if v.getLsbD 9 && !(s.isEarly 2) then { e with dropped := false } else e
  let e := if e.enable then e else { e with logSize := v.extractLsb' 4 5 }
  if !(v.getLsbD 0) then { s with evt := { e with enable := false } }
  else if e.enable || !ringSizeOk e.logSize then { s with evt := e }
  else { s with evt := { e with enable := true, head := 0, tail := 0, phase := true } }.ringEnabled

/-- EVENT_RING_ENABLE. -/
def execEventRingEnable (value : BitVec 32) (s : State) : Answer := .next (eventControl value s)

end Sys2Proof.Machine
end

