-- ==== Sys2Proof/Machine/P384.lean ====
section
/-! DEFINITION. ECDSA and ECDH on P-384 of FIPS 186-5 and NIST SP 800-56A (R388, R389, R394). -/

namespace Sys2Proof.Machine

open Sys2Proof

/-- The field prime, the curve constant b, the order and the base point. -/
def p384p : Nat :=
  0xfffffffffffffffffffffffffffffffffffffffffffffffffffffffffffffffeffffffff0000000000000000ffffffff
def p384b : Nat :=
  0xb3312fa7e23ee7e4988e056be3f82d19181d9c6efe8141120314088f5013875ac656398d8a2ed19d2a85c8edd3ec2aef
def p384n : Nat :=
  0xffffffffffffffffffffffffffffffffffffffffffffffffc7634d81f4372ddf581a0db248b0a77aecec196accc52973
def p384g : Nat × Nat :=
  (0xaa87ca22be8b05378eb1c71ef320ad746e1d3b628ba79b9859f741e082542a385502f25dbf55296c3a545e3872760ab7,
   0x3617de4a96262c6f5d9e98bf9292dc29f8f41dbd289a147ce9da3113b5f0b8c00a60b1ce1d7e819d7a431d7c90ea0e5f)

/-- A point; none is the point at infinity. -/
abbrev Point := Option (Nat × Nat)

/-- y² = x³ - 3x + b. -/
def onCurve (x y : Nat) : Bool := y * y % p384p = (x * x * x + (p384p - 3) * x + p384b) % p384p

def addPoint (a b : Point) : Point :=
  match a, b with
  | none, q => q
  | q, none => q
  | some (x1, y1), some (x2, y2) =>
    if x1 = x2 ∧ (y1 + y2) % p384p = 0 then none
    else
      let l := if x1 = x2 then (3 * x1 * x1 + (p384p - 3)) * invMod (2 * y1) p384p % p384p
        else subMod y2 y1 p384p * invMod (subMod x2 x1 p384p) p384p % p384p
      let x3 := subMod (l * l) (x1 + x2) p384p
      some (x3, subMod (l * subMod x1 x3 p384p) y1 p384p)

/-- k · P over `f` bits of k. -/
def mulPoint : Nat → Nat → Point → Point
  | 0, _, _ => none
  | f + 1, k, q =>
    let r := mulPoint f (k / 2) (addPoint q q)
    if k % 2 = 1 then addPoint r q else r

def scalarMul (k : Nat) (q : Point) : Point := mulPoint 384 k q

/-- The first of the draws that is a scalar; draws of zero or of n and more are discarded (R394). That all of them are discarded is
left out (log entry 45): the last resort is then 1. -/
def scalarOf (draws : List Nat) : Nat := (draws.find? fun x => decide (0 < x ∧ x < p384n)).getD 1

/-- One attempt to sign a hash with nonce k; none where r or s is zero. -/
def ecdsaTry (d e k : Nat) : Option (Nat × Nat) :=
  match scalarMul k (some p384g) with
  | none => none
  | some (x, _) =>
    let r := x % p384n
    let s := invMod k p384n * ((e + r * d) % p384n) % p384n
    if r = 0 ∨ s = 0 then none else some (r, s)

/-- Signs a hash; `ks` are the nonces drawn in turn. -/
def ecdsaSign (d e : Nat) (ks : List Nat) : Nat × Nat := (ks.findSome? fun k => ecdsaTry d e k).getD (0, 0)

/-- A signature of a hash verifies under a public key. -/
def ecdsaVerify (q : Nat × Nat) (e r s : Nat) : Bool :=
  let w := invMod s p384n
  match addPoint (scalarMul (e * w % p384n) (some p384g)) (scalarMul (r * w % p384n) (some q)) with
  | some (x, _) => decide (0 < r ∧ r < p384n ∧ 0 < s ∧ s < p384n) && x % p384n = r
  | none => false

/-- A verifier's point passes the checks of R394. -/
def pointOk (x y : Nat) : Bool := !(x = 0 && y = 0) && decide (x < p384p) && decide (y < p384p) && onCurve x y

end Sys2Proof.Machine
end

