-- ==== Sys2Proof/Machine/Security.lean ====
section
/-! DEFINITION. The security engine: its operations, leaf reservation, attestation records, sessions, aborts and restricted
mode (R387 to R407, R379, R382). -/

namespace Sys2Proof.Machine

open Sys2Proof

/-! ## The mailbox (R390, R391) -/

/-- Bytes of a mailbox area. -/
def mboxBytes (m : SMap (BitVec 32)) (n : Nat) : List Byte :=
  (List.range (n / 4)).flatMap fun i => leBytes 4 (look (0 : BitVec 32) m i).toNat

/-- An area that begins with the given bytes and is zero beyond. -/
def mboxOf (bs : List Byte) : SMap (BitVec 32) :=
  storeList 0 [] 0 ((List.range (ceilDiv bs.length 4)).map fun i => BitVec.ofNat 32 (leNat ((bs.drop (4 * i)).take 4)))

/-- The fields of the input area. -/
structure SecIn where
  peerX : Nat
  peerY : Nat
  nonce : List Byte
  hostData : List Byte

def Sec.input (v : Sec) : SecIn :=
  let bs := mboxBytes v.mboxIn 192
  { peerX := leNat (bs.take 48), peerY := leNat ((bs.drop 48).take 48), nonce := (bs.drop 96).take 32
    hostData := (bs.drop 128).take 64 }

/-- The fields that an operation does not use are zero. -/
def SecIn.unusedZero (i : SecIn) (op : Nat) : Bool :=
  let peer0 := i.peerX = 0 && i.peerY = 0
  match op with
  | 4 => peer0
  | 5 => allZero i.hostData
  | 6 => peer0
  | _ => peer0 && allZero i.nonce && allZero i.hostData

/-! ## Restricted mode and aborts (R382, R396, R406) -/

/-- A running operation is cut short: it will complete with a status and no output. -/
def SecOp.cut (o : SecOp) (status : BitVec 8) : SecOp :=
  { o with status := status, output := [], session := none, openIndex := 0, newBak := none, newCert := [], leaf := none }

/-- Working memory is zeroed: sessions close, and an operation that runs is cut short. -/
def Sec.zeroWork (v : Sec) (status : BitVec 8) : Sec := { v with sessions := [], running := v.running.map fun o => o.cut status }

/-- The key store after it has been cleared. -/
def KeyStore.cleared : KeyStore := Sec.reset.store

/-- Entry into restricted mode: the key store is cleared and every session closes. -/
def State.restrict (s : State) : State :=
  { s with
    boot := { s.boot with restricted := true }
    sec := { (s.sec.zeroWork 3) with store := .cleared } }

/-- The key store once an operation has taken its leaf: block, next leaf and cached top-level signature. -/
def KeyStore.takes (k : KeyStore) (leaf : Option (Nat × Nat × List Byte)) : KeyStore :=
  match leaf with
  | some l => { k with block := l.1, nextLeaf := l.2.1, topSig := some (l.1, l.2.2) }
  | none => k

/-- How far an operation had come when it is cut short: 0 before its block's tree was complete, 1 with the tree but no leaf
taken, 2 with its leaf taken; which of them is open (R396; log entry 45). -/
def KeyStore.takesPart (k : KeyStore) (leaf : Option (Nat × Nat × List Byte)) (part : Nat) : KeyStore :=
  match part, leaf with
  | 0, _ => k
  | 1, some l => if k.topSig.isSome then k else k.takes (some (l.1, 0, l.2.2))
  | _, l => k.takes l

/-- An abort: the key store is kept, with the leaf where the operation has taken it. -/
def State.secAbort (s : State) : State :=
  match s.sec.running with
  | none => s
  | some o =>
    { s.freed with sec := { (s.sec.zeroWork 7) with store := s.sec.store.takesPart o.leaf (s.freeNat 0 % 3) } }

/-- SEC_ABORT: no effect with no operation running. -/
def execSecAbort (s : State) : Answer := .next s.secAbort

/-! ## Leaves (R400 to R402) -/

/-- The randomiser of an LM-OTS signature, a draw of the random generator. -/
def drawBytes (use i : Nat) : List Byte := (leBytes 48 (Config.random use i).toNat).take 32

/-- The block in use is reserved for a request: the present one while it has leaves, else the next one of the generation, which the
journal records first; none when the key is spent. -/
def State.reserveBlock (s : State) : Option Nat × State :=
  let k := s.sec.store
  if k.nextLeaf < 1024 then (some k.block, s)
  else
    let b := match s.boot.nvm.lastBlock s.sec.generation with
      | some x => x + 1
      | none => 0
    if 1023 < b then (none, s)
    else
      let s := s.journal (.lmsReserve s.boot.bootNumber b s.sec.generation)
      (some b, { s with sec := { s.sec with store := { k with block := b, nextLeaf := 0, topSig := none } } })

/-- The top-level signature of the block in use: the cached one, or that of its tree as it is built now. -/
def State.topOf (s : State) (seed : List Byte) (b : Nat) : List Byte :=
  match s.sec.store.topSig with
  | some t => t.2
  | none => topSignature seed b (drawBytes s.freeCtr 0)

/-! ## Certificates and records (R403, R404) -/

/-- The body of a BAK certificate. -/
def State.certBody (s : State) (x y leaf : Nat) : Nat :=
  y * 2 ^ 640 + x * 2 ^ 256 + s.boot.bootNumber % 2 ^ 32 * 2 ^ 224 + s.ehl.fabricId.toNat * 2 ^ 192 + leaf * 2 ^ 172 +
    s.ehl.nodeId.toNat * 2 ^ 160 + s.sec.generation * 2 ^ 144 + 1

/-- The headers of the image copies that run. -/
def State.runningFw (s : State) : SignedHdr := .of (if s.boot.copies.getLsbD 0 then s.boot.nvm.fwB else s.boot.nvm.fwA)
def State.runningMc (s : State) : SignedHdr := .of (if s.boot.copies.getLsbD 1 then s.boot.nvm.mcB else s.boot.nvm.mcA)

/-- SEAL records in the journal: their number and the boot of the last. -/
def State.sealRecords (s : State) : Nat × Nat :=
  s.boot.nvm.journal.foldl (fun a r => match r with
    | .sealRec b _ => (a.1 + 1, b)
    | _ => a) (0, 0)

/-- An attestation record; `session` is 15 for QUOTE. -/
def State.attestation (s : State) (i : SecIn) (session : Nat) : List Byte :=
  let block := bits (leNat (s.sec.store.cert.take 128)) 191 182
  let degraded := allCoaches.foldl (fun a c => if (s.coach c).degraded then a + 2 ^ c.toNat else a) 0
  let noSpare := (List.range 8).foldl (fun a k => if (s.stk k).noSpare then a + 2 ^ k else a) 0
  let flags := flag s.boot.fallback + flag (s.boot.trial.getLsbD 0) * 2 + flag (s.boot.trial.getLsbD 1) * 4 +
    flag (s.boot.trial.getLsbD 2) * 8 + flag s.boot.cfgMissing * 16 + flag s.hbm.journalFull * 32
  let cfg := match s.boot.cfg with | some c => c.check.toNat | none => 0
  leBytes 256 (leNat i.hostData * 2 ^ 1536 + leNat i.nonce * 2 ^ 1280 + s.runningFw.payloadHash * 2 ^ 1024 +
    s.runningMc.payloadHash * 2 ^ 768 + cfg * 2 ^ 512 + s.policyHash.toNat * 2 ^ 448 + s.ehl.ftime % 2 ^ 64 * 2 ^ 384 +
    degraded * 2 ^ 320 + s.ehl.fabricId.toNat * 2 ^ 288 + s.boot.bootNumber % 2 ^ 32 * 2 ^ 256 +
    s.sealRecords.2 % 2 ^ 32 * 2 ^ 224 + s.runningFw.secVersion * 2 ^ 192 + s.runningMc.secVersion * 2 ^ 160 +
    s.runningFw.version * 2 ^ 144 + s.runningMc.version * 2 ^ 128 + min s.boot.restrictedBoots 65535 * 2 ^ 112 +
    min s.sealRecords.1 256 * 2 ^ 96 + s.sec.generation % 2 ^ 16 * 2 ^ 80 + session * 2 ^ 62 + noSpare * 2 ^ 54 +
    flags * 2 ^ 46 + 0xB0 * 2 ^ 38 + block * 2 ^ 28 + s.ehl.nodeId.toNat * 2 ^ 16 + 1)

/-! ## Operations (R392 to R395, R405) -/

/-- What an operation comes to. -/
def secResult (op : Nat) (status : Nat) (output : List Byte) : SecOp :=
  { op := BitVec.ofNat 8 op, status := BitVec.ofNat 8 status, output := output, session := none, openIndex := 0, newBak := none,
    newCert := [], leaf := none }

/-- A signature as the engine comes to it: whether it computes a faulty one, and which, is the hardware's (log entry 45). -/
def State.produced (s : State) (sig : List Byte) : List Byte :=
  if s.freeNat 7 % 2 = 1 then (List.range sig.length).map fun i => BitVec.ofNat 8 (s.freeNat (8 + i)) else sig

/-- What an operation comes to once its signature has been checked: SIGN_FAULT with no output where the check fails; the leaf it
used stays spent. -/
def SecOp.released (r : SecOp) (ok : Bool) : SecOp := if ok then r else { secResult r.op.toNat 6 [] with leaf := r.leaf }

/-- A scalar that the engine draws: the first value of a row of draws that is not zero and below n. -/
def drawScalar (use i : Nat) : Nat := scalarOf ((List.range 64).map fun j => (Config.random use (64 * i + j)).toNat)

/-- The hash of a message as a number. -/
def hashNat (msg : List Byte) : Nat := beNat (sha256 msg)

/-- An ECDSA signature by the BAK, as r and s of 48 bytes each, as the engine comes to it. -/
def State.signBak (s : State) (d : Nat) (msg : List Byte) : List Byte :=
  let r := ecdsaSign d (hashNat msg) ((List.range 64).map fun i => drawScalar s.freeCtr (16 + i))
  s.produced (leBytes 48 r.1 ++ leBytes 48 r.2)

/-- The check of an ECDSA signature under the BAK's public key. -/
def bakVerify (k : Nat × Nat × Nat) (msg sig : List Byte) : Bool :=
  ecdsaVerify k.2 (hashNat msg) (leNat (sig.take 48)) (leNat (sig.drop 48))

def seedBytes (x : BitVec 256) : List Byte := leBytes 32 x.toNat

/-- BAK_CERT without a key, and BAK_ROTATE: a new key and its certificate. -/
def State.newBak (s : State) (op : Nat) : SecOp × State :=
  match s.sec.store.seed with
  | none => (secResult op 4 [], s)
  | some seed =>
    let r := s.reserveBlock
    match r.1 with
    | none => (secResult op 5 [], r.2)
    | some b =>
      let s := r.2
      let leaf := s.sec.store.nextLeaf
      let d := drawScalar s.freeCtr 1
      let q := (scalarMul d (some p384g)).getD (0, 0)
      let body := leBytes 128 (s.certBody q.1 q.2 (1024 * b + leaf))
      let top := s.topOf (seedBytes seed) b
      let sig := s.produced (identitySign (seedBytes seed) b leaf top (drawBytes s.freeCtr 2) body)
      let o : SecOp := { secResult op 0 (body ++ sig) with
        newBak := some (d, q.1, q.2), newCert := body ++ sig, leaf := some (b, leaf + 1, top) }
      (o.released (hssVerify s.sec.publicKey body sig), s.freed)

/-- The lowest session slot of 0 to 14 that is not open. -/
def Sec.freeSession (v : Sec) : Option Nat := (List.range 15).find? fun i => look [] v.sessions i = []

/-- SESSION_OPEN. -/
def State.openSession (s : State) (i : SecIn) : SecOp × State :=
  match s.sec.store.bak, s.sec.freeSession with
  | none, _ => (secResult 5 10 [], s)
  | some _, none => (secResult 5 9 [], s)
  | some k, some n =>
    if !pointOk i.peerX i.peerY then (secResult 5 2 [], s)
    else
      let e := drawScalar s.freeCtr 1
      match scalarMul e (some p384g), scalarMul e (some (i.peerX, i.peerY)) with
      | some (x, y), some (z, _) =>
        let dev := leBytes 48 x ++ leBytes 48 y
        let msg := leBytes 48 i.peerX ++ leBytes 48 i.peerY ++ dev ++ i.nonce ++ [BitVec.ofNat 8 n]
        let sig := s.signBak k.1 msg
        let o : SecOp := { secResult 5 0 (dev ++ sig) with
          session := some (n, hmac256 i.nonce (beBytes 48 z)), openIndex := BitVec.ofNat 4 n }
        (o.released (bakVerify k msg sig), s.freed)
      | _, _ => (secResult 5 2 [], s)

/-- An operation that has passed the general checks. -/
def State.secRun (s : State) (op session : Nat) (i : SecIn) : SecOp × State :=
  match op with
  | 1 => if s.sec.publicKey = [] then (secResult 1 4 [], s) else (secResult 1 0 s.sec.publicKey, s)
  | 2 => if s.sec.store.bak.isSome then (secResult 2 0 s.sec.store.cert, s) else s.newBak 2
  | 3 => s.newBak 3
  | 4 => match s.sec.store.bak with
    | none => (secResult 4 10 [], s)
    | some k =>
      let r := s.attestation i 15
      let sig := s.signBak k.1 r
      ((secResult 4 0 (r ++ sig)).released (bakVerify k r sig), s.freed)
  | 5 => s.openSession i
  | 6 => match look [] s.sec.sessions session with
    | [] => (secResult 6 8 [], s)
    | key => let r := s.attestation i session; (secResult 6 0 (r ++ hmac256 key r), s)
  | _ => if look [] s.sec.sessions session = [] then (secResult 7 8 [], s)
    else (secResult 7 0 [], { s with sec := { s.sec with sessions := drop s.sec.sessions session } })

/-- What a request comes to, by its general checks first: the engine is there, the request is good, the mode allows it. -/
def State.secOutcome (s : State) (op session : Nat) : SecOp × State :=
  let i := s.sec.input
  if s.sec.noEngine then (secResult op 11 [], s)
  else if op = 0 ∨ 7 < op ∨ !(i.unusedZero op) ∨ (op ≠ 6 ∧ op ≠ 7 ∧ session ≠ 0) then (secResult op 1 [], s)
  else if s.boot.restricted ∧ 2 ≤ op ∧ op ≤ 6 then (secResult op 3 [], s)
  else s.secRun op session i

/-- A write of SEC_CMD: the operation runs until SEC_DONE; while one runs the write has no effect and sets CMD_ERR. -/
def State.secCommand (s : State) (op session : Nat) : State :=
  if s.sec.running.isSome then
    { (s.hit 11 s.sec.cmdErrSet.toNat) with sec := { s.sec with cmdErr := true, cmdErrSet := satInc s.sec.cmdErrSet } }
  else
    let r := s.secOutcome op session
    { r.2 with sec := { r.2.sec with running := some r.1, mboxOut := [] } }

/-- IDENTITY_PUB. -/
def execIdentityPub (s : State) : Answer := .next (s.secCommand 1 0)

/-- BAK_CERT. -/
def execBakCert (s : State) : Answer := .next (s.secCommand 2 0)

/-- BAK_ROTATE. -/
def execBakRotate (s : State) : Answer := .next (s.secCommand 3 0)

/-- QUOTE. -/
def execQuote (s : State) : Answer := .next (s.secCommand 4 0)

/-- SESSION_OPEN. -/
def execSessionOpen (s : State) : Answer := .next (s.secCommand 5 0)

/-- SESSION_QUOTE. -/
def execSessionQuote (session : BitVec 4) (s : State) : Answer := .next (s.secCommand 6 session.toNat)

/-- SESSION_CLOSE. -/
def execSessionClose (session : BitVec 4) (s : State) : Answer := .next (s.secCommand 7 session.toNat)

/-- The engine after an operation completes. -/
def Sec.finish (v : Sec) (o : SecOp) : Sec :=
  { v with
    running := none, done := true, doneSet := satInc v.doneSet, status := o.status, outBytes := BitVec.ofNat 16 o.output.length
    resSession := o.openIndex, mboxOut := mboxOf o.output, ops := count48 (v.ops + 1)
    sessions := match o.session with | some (i, k) => Sys2Proof.Machine.store ([] : List Byte) v.sessions i k | none => v.sessions
    store := match o.newBak with
      | some k => { (v.store.takes o.leaf) with bak := some k, cert := o.newCert }
      | none => v.store.takes o.leaf
    faults := if o.status = 6 then satInc v.faults else v.faults
    bootFaults := if o.status = 6 then v.bootFaults + 1 else v.bootFaults }

/-- SEC_DONE: the third failed release check of a boot enters restricted mode. -/
def execSecDone (s : State) : Answer :=
  .next (match s.sec.running with
    | none => s
    | some o =>
      let s := (s.hit 10 s.sec.doneSet.toNat).hit 14 s.sec.ops
      let s := if o.status = 6 then s.hit 13 s.sec.faults.toNat else s
      let s := { s with sec := s.sec.finish o }.raiseVector 65
      if o.status = 6 ∧ 3 ≤ s.sec.bootFaults then s.restrict else s)

end Sys2Proof.Machine
end

