-- ==== Sys2Proof/Machine/Reset.lean ====
section
/-! DEFINITION. The resets of the PCIe function and the states of its link and power, none of which reboots the device
(R324, R347, R359, R361, R371, R387, R396). -/

namespace Sys2Proof.Machine

open Sys2Proof

/-! ## Tasks (R347, R359) -/

/-- The condition of a task that an event of R347 ends. -/
def resetCond (clk : Nat) : AbortCond := deviceCond clk srcHost 10 0 none

/-- A task in an event of R347: a queued one goes, a running one aborts with HOST_FAULT, and none gets a completion. -/
def State.faultTask (s : State) (t : Task) : State :=
  match t.st with
  | .queued => ((s.removeTask t.key).holdAbort t (resetCond s.clk)).sendAborts t 10
  | .running =>
    s.onTask t.key fun x => { x with abort := some (resetCond s.clk), st := .aborting, noCompletion := true }
  | .aborting => s.onTask t.key fun x => { x with noCompletion := true }
  | .ended => s.removeTask t.key

def State.faultTasks (s : State) : State := s.tasks.foldl (fun s t => s.faultTask t) s

/-! ## Rings and registers -/

/-- The event ring is disabled; every record that is held is dropped (R361). -/
def Evt.afterReset (e : Evt) : Evt :=
  { (e.held.foldl (fun (e : Evt) _ => { e with
      dropped := true, dropSet := satInc e.dropSet, droppedCount := count48 (e.droppedCount + 1) }) e) with
    held := [], enable := false, unsignalled := 0 }

/-- The host interface at its reset values; what identifies accepted tasks goes on. -/
def Hif.afterReset (h : Hif) (ready : Bool) : Hif :=
  { Hif.reset with hostReady := ready, linkUp := h.linkUp, acceptCount := h.acceptCount, raised := h.raised }

/-- What the event ring's DROPPED_SET_COUNT and EVT_DROPPED held before the present clk, records being dropped (R13). -/
def State.dropsNoted (s : State) : SMap Nat :=
  if s.evt.held = [] then s.early else noted (noted s.early 2 s.evt.dropSet.toNat) 22 s.evt.droppedCount

/-- Rings, HIF_ registers, loads and the security engine in an event of R347. -/
def State.resetRings (s : State) (ready : Bool) : State :=
  let s := (s.mapCoaches fun _ co => { co with loadBusy := false }).secAbort
  { s with early := s.dropsNoted, hif := s.hif.afterReset ready, evt := s.evt.afterReset, sec := { s.sec with sessions := [] } }

/-- All the effects of a function level reset. -/
def State.functionReset (s : State) : State := s.faultTasks.resetRings s.boot.running

/-- FLR: HOST_READY is 1 again within 1 ms, here at once. -/
def execFlr (s : State) : Answer := .next s.functionReset

/-- HOT_RESET. -/
def execHotReset (s : State) : Answer := .next s.functionReset

/-- D3HOT_ENTRY: HOST_READY returns with the exit. -/
def execD3hotEntry (s : State) : Answer :=
  let t := s.faultTasks.resetRings false
  .next { t with hif := { t.hif with d3hot := true } }

/-- D3HOT_EXIT. -/
def execD3hotExit (s : State) : Answer :=
  .next (if s.hif.d3hot then { s with hif := { s.hif with d3hot := false, hostReady := s.boot.running } } else s)

/-- PCIE_LINK_DOWN: the rings wait for the link. -/
def execPcieLinkDown (s : State) : Answer :=
  .next { s.faultTasks with hif := { s.faultTasks.hif with linkUp := false } }

/-- PCIE_LINK_UP: after a loss the rings are reset; a link below 64 GT/s or x8 is degraded. -/
def execPcieLinkUp (fullRate : Bool) (s : State) : Answer :=
  let t := if s.hif.linkUp then s else s.functionReset
  .next { t with hif := { t.hif with linkUp := true, linkDegraded := !fullRate } }

/-- CONFIGURATION_REQUEST: retry status until the boot has reached HOST_READY. -/
def execConfigurationRequest (s : State) : Answer :=
  .next { s with bus := { s.bus with retryStatus := !s.boot.running } }

end Sys2Proof.Machine
end

