-- ==== Sys2Proof/Machine/Boot.lean ====
section
/-! DEFINITION. The boot sequence, from power-good or a fundamental reset to host-ready (R4, R66, R76, R77, R245, R263,
R269 to R272, R283 to R285, R298, R300, R366 to R377, R381 to R383, R397 to R399, R402, R416, R420). -/

namespace Sys2Proof.Machine

open Sys2Proof

/-! ## What a fundamental reset leaves (R347) -/

/-- The copy that an update writes takes bytes (R384). -/
def Nvm.write (n : Nvm) (u : Update) (bs : List Byte) : Nvm :=
  match u.kind.toNat, u.copyB with
  | 0, false => { n with fwA := bs }
  | 0, true => { n with fwB := bs }
  | 1, false => { n with mcA := bs }
  | 1, true => { n with mcB := bs }
  | _, false => { n with cfgA := bs }
  | _, true => { n with cfgB := bs }

/-- An update that a reset cuts short, or whose copy reads back wrong, leaves a part of its image, of open length (R384, R411; log
entry 70). -/
def Nvm.cut (use : Nat) (n : Nvm) (u : Option Update) : Nvm :=
  match u with
  | none => n
  | some u => n.write u (u.bytes.take (Config.freeNat use 0 % u.bytes.length))

/-- The pins of the module after a reset: what the outside drives stays, and so do the latch of a shutdown and SMBALERT#, which only an
Alert Response Address read releases (R422). -/
def Module.cold (m : Module) : Module :=
  { Module.reset with
    railsOn := m.railsOn, vinGood := m.vinGood, perst := m.perst, pwrgd := m.pwrgd, thermLow := m.thermLow
    alertLow := m.alertLow, shutdown := m.shutdown, cycled := m.cycled, straps := m.straps, strapsStable := m.strapsStable
    maintPin := m.maintPin, sealBack := m.sealBack }

/-- The device before its boot: the NVM, the boot ROM and the pins are kept, everything else is at its reset value, and the PCIe link is
not trained. -/
def State.coldReset (s : State) : State :=
  { State.reset with
    clk := s.clk, freeCtr := s.freeCtr + 1, host := s.host, pending := s.pending, board := s.board.cold
    hif := { Hif.reset with linkUp := false }
    boot := .reset (s.boot.nvm.cut s.freeCtr s.boot.update) s.boot.rom s.board.maintPin }

/-! ## Image copies (R370, R372) -/

/-- Copy B or A of a region is valid: 0 firmware, 1 microcode, 2 configuration image. -/
def Boot.copyOk (k : Boot) (region : Nat) (b : Bool) : Bool :=
  let n := k.nvm
  match region with
  | 0 => k.imageOk 0 (if b then n.fwB else n.fwA)
  | 1 => k.imageOk 1 (if b then n.mcB else n.mcA)
  | _ => cfgOk ((if b then n.cfgB else n.cfgA).take 786432)

/-- The copy that a boot takes: the trial copy on trial, else the active one, else the other one. -/
structure Taken where
  b : Bool
  fell : Bool
  trial : Bool

def Boot.take (k : Boot) (region : Nat) : Option Taken :=
  let h := k.nvm.header
  let first := h.activeB.getLsbD region != h.trial.getLsbD region
  if k.copyOk region first then some ⟨first, false, h.trial.getLsbD region⟩
  else if k.copyOk region !first then some ⟨!first, true, false⟩
  else none

/-! ## Step 1: straps (R420) -/

/-- CLK_STRAP: a strap whose samples disagree reads 0, and UNSTABLE is set. -/
def strapWord (m : Module) : BitVec 32 :=
  BitVec.ofNat 32 ((m.straps &&& m.strapsStable).toNat + (if m.strapsStable = BitVec.allOnes 7 then 0 else 256))

/-! ## Steps 2 to 4: copies, journal, seal loop (R372, R376, R381) -/

/-- Boot state of the copies taken; `copies` and `trial` stand by region. -/
def Boot.withCopies (b : Boot) (fw : Taken) (mc cfg : Option Taken) : Boot :=
  let bit (f : Taken → Bool) (t : Option Taken) : Nat := flag (t.any f)
  let word (f : Taken → Bool) : BitVec 3 := BitVec.ofNat 3 (bit f (some fw) + 2 * bit f mc + 4 * bit f cfg)
  let h := b.nvm.header
  { b with
    copies := word (·.b), trial := word (·.trial), fallback := fw.fell || mc.any (·.fell) || cfg.any (·.fell) || mc.isNone || cfg.isNone
    mcFailed := mc.isNone, cfgMissing := cfg.isNone
    cfg := cfg.map fun t => cfgOf b.rootKey ((if t.b then b.nvm.cfgB else b.nvm.cfgA).take 786432) (b.nvm.minimum 3)
    nvm := if h.trial = 0 then b.nvm else b.nvm.putHeader h.activeB 0 }

/-- Regions that fell back. -/
def fellBits (fw : Taken) (mc cfg : Option Taken) : BitVec 3 :=
  BitVec.ofNat 3 (flag fw.fell + 2 * flag (mc.all (·.fell)) + 4 * flag (cfg.all (·.fell)))

/-- The seal loop returns a pattern unchanged (R381). -/
def sealReturns (back : Option (BitVec 16)) (pattern : BitVec 16) : Bool := back.all (· = pattern)

/-- A pattern for SEAL_A, from the random generator (R381). -/
def State.drawPattern (s : State) (i : Nat) : BitVec 16 := (Config.random s.freeCtr (100 + i)).extractLsb' 0 16

/-- The loop is closed at a boot: eight patterns return. -/
def State.loopClosed (s : State) : Bool := (List.range 8).all fun i => sealReturns s.board.sealBack (s.drawPattern i)

/-- The journal gives the boot number; an open seal loop is journalled. -/
def State.bootScan (s : State) : State :=
  let counts := bootCounts s.boot.nvm.journal
  let closed := s.loopClosed
  let s := { s.freed with boot := { s.boot with
    bootNumber := counts.1 + 1, restrictedBoots := counts.2, sealClosed := closed, sealPattern := s.drawPattern 7 } }
  if closed then s
  else
    let s := s.journal (.sealRec s.boot.bootNumber false)
    { s with boot := { s.boot with sealOpen := true, sealSet := satInc s.boot.sealSet, sealMiss := 2, restricted := true }
             evt := { s.evt with sealDue := true } }

/-! ## Step 5: identity (R4, R383, R397 to R399, R402) -/

/-- The bytes of a PUF key and of a tag appended to it. -/
def pufBytes (k : BitVec 256) (c : Byte) : List Byte := leBytes 32 k.toNat ++ [c]

/-- What a generation's record adds to the seed to give CIPHER. -/
def seedPad (k : BitVec 256) (generation : Nat) : BitVec 256 := sha256Word (sha256 (pufBytes k 0x45) ++ leBytes 2 generation)

/-- TAG of an identity record. -/
def recordTag (k : BitVec 256) (generation : Nat) (cipher : BitVec 256) : BitVec 256 :=
  BitVec.ofNat 256 (leNat (hmac256 (sha256 (pufBytes k 0x4D)) (leBytes 2 generation ++ leBytes 32 cipher.toNat)))

/-- A copy of the identity record is valid at this boot: of the last generation, its PUF key reconstructed, and its TAG right. -/
def State.identityValid (s : State) (r : IdentityRec) : Bool :=
  r.generation = s.boot.nvm.lastGeneration && Config.pufReconstructs s.boot.bootNumber r.helper &&
    recordTag (Config.pufKey r.helper) r.generation r.cipher = r.mac

/-- The identity record that a boot can use, from either copy; a key whose last block is reserved is spent (R402). -/
def State.goodIdentity (s : State) : Option IdentityRec :=
  ((identityOf s.boot.nvm.idA).toList ++ (identityOf s.boot.nvm.idB).toList).find? fun r =>
    s.identityValid r && (s.boot.nvm.lastBlock r.generation).all fun b => decide (b < 1023)

/-- A new identity key of a generation: seed, top tree, enrolment, both copies of the record, and the IDENTITY record. -/
def State.createIdentity (s : State) (generation : Nat) : State :=
  let seed := (Config.random s.freeCtr 0).extractLsb' 0 256
  let helper := padTo 8000 (Config.pufHelper s.freeCtr)
  let k := Config.pufKey helper
  let cipher := seed ^^^ seedPad k generation
  let pub := identityPublic (leBytes 32 seed.toNat)
  let r : IdentityRec := { generation := generation, cipher := cipher, mac := recordTag k generation cipher, publicKey := pub
                           helper := helper }
  let n := { s.boot.nvm with idA := r.bytes, idB := r.bytes }
  let s := ({ s with boot := { s.boot with nvm := n } }.journal (.identity generation)).freed
  { s with sec := { s.sec with
    generation := generation, publicKey := pub, store := { s.sec.store with seed := some seed } } }

/-- The identity step. A device that cannot use its key runs in restricted mode, and a later boot creates one (R383; log entry 70). -/
def State.bootIdentity (s : State) : State :=
  let g := s.boot.nvm.lastGeneration
  if s.boot.mcFailed then { s with boot := { s.boot with restricted := true }, sec := { s.sec with noEngine := true } }
  else match s.goodIdentity with
    | some r =>
      let k := if s.boot.sealOpen then KeyStore.cleared
        else { s.sec.store with seed := some (r.cipher ^^^ seedPad (Config.pufKey r.helper) r.generation) }
      { s with sec := { s.sec with generation := r.generation, publicKey := r.publicKey, store := k } }
    | none =>
      if s.boot.sealClosed && (g = 0 || (s.boot.maintEn && s.boot.nvm.lastRestricted)) then s.createIdentity (g + 1)
      else { s with boot := { s.boot with restricted := true } }

/-! ## Step 6: configuration and policy (R66, R373, R374) -/

/-- The policy table of the configuration in force, with its hash (R335); one that fails R370 leaves every set unusable. -/
def State.bootPolicy (s : State) : State :=
  match s.boot.cfg with
  | none => s
  | some c =>
    let s := { s with policyHash := c.policyHash.extractLsb' 0 64 }
    if !c.policyVerifies then s.journal (.policyUnusable 0xFF 0)
    else
      let s := { s with policy := c.policy }
      c.policy.foldl (fun s e => match e.2 with
        | some p => if p.usable then s else s.journal (.policyUnusable e.1 p.failed)
        | none => s) s

/-! ## Step 7: repairs and HBM (R76, R77, R263, R269 to R272) -/

/-- A coach after a record of the journal. -/
def State.repairFrom (s : State) (r : JRec) : State :=
  match r with
  | .spadRepair c b _ sp => s.onCoach (BitVec.ofNat 6 c) fun co =>
      { co with spares := store 0 co.spares b (max (look 0 co.spares b) (sp + 1)) }
  | .coachDegraded c _ => s.onCoach (BitVec.ofNat 6 c) fun co => { co with degraded := true }
  | _ => s

/-- An entry joins a remap table, in place of one for the same row. -/
def Stack.addRemap (v : Stack) (r : Remap) : Stack :=
  let same (x : Remap) : Bool := x.phys = r.phys && x.row = r.row
  { v with
    remaps := if v.remaps.any same then v.remaps.map fun x => if same x then r else x else v.remaps ++ [r]
    spareTaken := v.spareTaken ++ [(r.phys, r.spare)] }

/-- The spare of a stack serves active channel `a`; entries of the channel it replaces go. -/
def Stack.substitute (v : Stack) (a : Nat) : Stack :=
  if v.noSpare then v
  else { v with
    spareFor := BitVec.ofNat 5 a, noSpare := true, chState := store 0 (store 0 v.chState a 3) 31 0
    remaps := v.remaps.filter fun r => decide (r.phys ≠ a), retired := v.retired.filter fun r => decide (r.1 ≠ a) }

/-- A stack after a record of the journal. An evacuation that started counts as finished (R269); a channel lost without a
spare is served by nothing (R271). -/
def State.stackFrom (s : State) (r : JRec) : State :=
  match r with
  | .hbmRemap k e => s.setStk k ((s.stk k).addRemap e)
  | .spareRetire k ph sp =>
    let v := s.stk k
    s.setStk k { v with spareTaken := v.spareTaken ++ [(ph, sp)] }
  | .rowRetire k ch row =>
    let v := s.stk k
    let s := s.setStk k { v with retired := v.retired ++ [(v.phys (activeOf ch), row)] }
    { s with evt := { s.evt with replay := s.evt.replay ++ [(k, ch, row)] } }
  | .channel k a finished lost =>
    let v := s.stk k
    if lost && !finished then
      s.setStk k { v with unserved := v.unserved ++ [a], chState := store 0 v.chState (v.phys a) 3 }
    else s.setStk k (v.substitute a)
  | _ => s

/-- The temperature at which a stack was trained at boot: the one that stands there, an open value (log entry 1). -/
def State.trainStack (s : State) (k : Nat) : State :=
  s.setStk k { (s.stk k) with
    trainTemp := (List.range 31).foldl (fun m a => store 0 m a (s.freeNat k % 256)) [] }

/-- A channel whose spare rows are all used or retired is failing (R267). -/
def State.bootFailing (s : State) (k : Nat) : State :=
  (List.range 31).foldl (fun s a => if ((s.stk k).freeSpare ((s.stk k).phys a)).isNone then s.startEvac k a else s) s

/-- Repairs, remaps and substitutions are applied; HBM reads as zero. -/
def State.bootMemory (s : State) : State :=
  let journal := s.boot.nvm.journal
  let s := journal.foldl State.repairFrom s
  let factory : SMap (List Remap) := match s.boot.cfg with | some c => c.factoryRemap | none => []
  let s := factory.foldl (fun s e => s.setStk e.1 (e.2.foldl Stack.addRemap (s.stk e.1))) s
  let s := journal.foldl State.stackFrom s
  let s := ((List.range 8).foldl State.trainStack s).freed
  let s := { s with hbm := { s.hbm with data := [], ecc := [], fresh := [], frameAt := s.clk, journalFull := s.retireFull } }
  (List.range 8).foldl State.bootFailing s

/-! ## Step 8: fabric (R283 to R285, R298, R300) -/

/-- A port of the configuration: DISABLED or DOWN, with its expected neighbour. -/
def bootPort (c : Option CfgImage) (p : Nat) : Port :=
  match c with
  | none => { Port.reset with st := .disabled, disable := true }
  | some c =>
    let on := c.portEnable.getLsbD p
    let exp := look none c.neighbours p
    { Port.reset with st := if on then .down else .disabled, disable := !on, expectAny := exp.isNone, expect := exp.getD 0 }

/-- Fabric time counts from zero; the time tree follows the routes. -/
def State.bootFabric (s : State) : State :=
  let e : Ehl := { Ehl.reset with
    ports := (List.range 16).foldl (fun m p => store Port.reset m p (bootPort s.boot.cfg p)) [], lastSync := s.clk }
  let e : Ehl := match s.boot.cfg with
    | none => e
    | some c => { e with nodeId := c.nodeId, fabricId := c.fabricId, roots := c.roots, routes := c.routes }
  let t := { s with ehl := e }.retime
  { s with ehl := { t.ehl with time := false, timeSet := 0 } }

/-! ## Step 9 and the whole sequence (R371) -/

/-- The BOOT record. -/
def State.bootRecord (s : State) (fell : BitVec 3) : State :=
  let b := s.boot
  let s := s.journal (.boot b.bootNumber b.copies fell b.restricted b.sealOpen b.cfgMissing)
  { s with boot := { s.boot with restrictedBoots := s.boot.restrictedBoots + flag b.restricted } }

/-- Steps 3 to 9, with the firmware that runs. -/
def State.bootFrom (s : State) (fw : Taken) : State :=
  let mc := s.boot.take 1
  let cfg := s.boot.take 2
  let s := { s with boot := s.boot.withCopies fw mc cfg }
  let s := (s.bootScan.bootIdentity).bootPolicy
  let s := s.bootMemory.bootFabric.bootRecord (fellBits fw mc cfg)
  let shares := match s.boot.cfg with | some c => c.shares | none => [4, 2, 2]
  { s with
    kst := .reset shares
    board := { s.board with ssc := s.boot.cfg.any (·.spread), perst := s.board.perst }
    boot := { s.boot with running := true }
    hif := { s.hif with hostReady := true } }

/-- What the console prints of the boot log: its text is not given (R424; log entry 86). -/
def State.bootLog (s : State) : State :=
  let text : List Byte := (List.range (s.freeNat 0)).map fun i => BitVec.ofNat 8 (s.freeNat (1 + i))
  { s.freed with board := { s.board with uartOut := s.board.uartOut ++ text } }

/-- The boot sequence. Step 1 samples the straps and trains the PCIe link; with TEST it stops there; with no valid firmware it stops in
step 2. -/
def State.bootSequence (s : State) : State :=
  let w := strapWord s.board
  let s := { s with
    board := { s.board with strapReg := w }, boot := { s.boot with maintEn := s.board.maintPin }, hif := { s.hif with linkUp := true } }
  if w.getLsbD 6 then s
  else match s.boot.take 0 with
    | none => s.bootLog
    | some fw => s.bootLog.bootFrom fw

/-- POWER_GOOD: MOD_PWRGD is asserted with the rails within tolerance, and with PERST# released a device that has not booted boots
(R371, R410). -/
def execPowerGood (s : State) : Answer :=
  .next (if s.board.railsOn && !s.board.perst && !s.boot.running then
      ({ s with board := { s.board with pwrgd := true } }.coldReset).bootSequence
    else s)

end Sys2Proof.Machine
end

