-- ==== Sys2Proof/Machine/Control.lean ====
section
/-! DEFINITION. Control and configuration instructions and ACCT (R82, R145, R174 to R178, R185 to R191, R207 to R211,
R432). -/

namespace Sys2Proof.Machine

open Sys2Proof

/-- A control or configuration instruction issues: the clock comes to its clk, the engine goes on, `f` is its effect
(R174, R175). -/
def State.control (s : State) (c : CoachId) (e : Engine) (hold : Nat) (f : State → State) : State :=
  s.issueWith c e false fun s => f (s.onCoach c fun co => co.onEngine e fun v => v.issued s.clk hold)

/-! ## SIGNAL (R185, R187) -/

def signalStep (c : CoachId) (e : Engine) (f : SignalF) (s : State) : State :=
  s.control c e f.hold.toNat fun s =>
    let g := s.mkSig c (if f.remote then f.coach else c) e f.door f.amount (s.clk + 1)
    s.freed.deliver c g

/-- SIGNAL. -/
def execSignal (c : CoachId) (e : Engine) (f : SignalF) (s : State) : Answer := .next (signalStep c e f s)

/-! ## WAIT (R186) -/

/-- WAIT is evaluated at the end of its issue clk and of every later one (`Coach.tryWait`). -/
def waitStep (c : CoachId) (e : Engine) (door : BitVec 8) (count : BitVec 16) (hold : BitVec 12) (s : State) : State :=
  s.issueWith c e false fun s =>
  s.onCoach c fun co => co.onEngine e fun v => { v with st := .onWait door count, afterHold := hold.toNat }

/-- WAIT. -/
def execWait (c : CoachId) (e : Engine) (door : BitVec 8) (count : BitVec 16) (hold : BitVec 12) (s : State) : Answer :=
  .next (waitStep c e door count hold s)

/-! ## SHUTTER (R188, R189) -/

def shutterStep (c : CoachId) (e : Engine) (sid : BitVec 4) (hold : BitVec 12) (s : State) : State :=
  s.issueWith c e false fun s =>
  let co := s.coach c
  let v := co.engine e
  if !(bitOf (co.prog.shutterMask sid.toNat) (eid e)) then
    s.setCoach c (co.setEngine e (v.issued s.clk hold.toNat))
  else
    let s := s.setCoach c (co.setEngine e { v with st := .atShutter sid, afterHold := hold.toNat, shutAt := notYet })
    if v.transfer.isSome || v.kin.isSome then s else s.arrive c e sid.toNat s.clk

/-- SHUTTER. -/
def execShutter (c : CoachId) (e : Engine) (sid : BitVec 4) (hold : BitVec 12) (s : State) : Answer :=
  .next (shutterStep c e sid hold s)

/-! ## LOOP, IDLE, END (R175, R177, R178) -/

/-- The engine after a LOOP; beyond the limits of R177 its next instruction and clk are open (log entry 1). -/
def EngineS.looped (v : EngineS) (clk hold count body : Nat) (freePc freeClk : Nat) : EngineS :=
  if body = 0 ∨ 4 ≤ v.loops.length ∨ 8191 < v.pc + body then
    { v with pc := freePc % 8192, nextIssue := clk + 1 + freeClk }
  else
    let v := { v with nextIssue := clk + 1 + hold }
    if count = 0 then v.goto (v.pc + 1 + body)
    else { v with pc := v.pc + 1, loops := { start := v.pc + 1, body := body, left := count, index := 0 } :: v.loops }

def loopStep (c : CoachId) (e : Engine) (count : BitVec 24) (body : BitVec 13) (hold : BitVec 12) (s : State) : State :=
  s.issueWith c e false fun s =>
  (s.onCoach c fun co => co.onEngine e fun v =>
    v.looped s.clk hold.toNat count.toNat body.toNat (s.freeNat 0) (s.freeNat 1)).freed

/-- LOOP. -/
def execLoop (c : CoachId) (e : Engine) (count : BitVec 24) (body : BitVec 13) (hold : BitVec 12) (s : State) : Answer :=
  .next (loopStep c e count body hold s)

/-- IDLE. -/
def execIdle (c : CoachId) (e : Engine) (long : BitVec 24) (s : State) : Answer :=
  .next (s.control c e long.toNat id)

def endStep (c : CoachId) (e : Engine) (s : State) : State :=
  s.issueWith c e false fun s => s.onCoach c fun co => co.onEngine e fun v => { v with st := .ended }

/-- END. -/
def execEndPart (c : CoachId) (e : Engine) (s : State) : Answer := .next (endStep c e s)

/-! ## BANKPWR (R82, R83, R432) -/

/-- A bank gets a target and follows it at once from ON and from OFF; one that came to that state in this very clk follows
the target that stands at its end, in the next clk (R432). -/
def Bank.power (b : Bank) (up : Bool) (clk : Nat) : Bank :=
  let b := { b with target := up }
  if b.since = clk ∧ 0 < clk then b
  else match b.st, up with
  | .on, false => { b with st := .draining, since := clk, downAt := some clk }
  | .off, true => { b with st := .waking, since := clk }
  | _, _ => b

def bankpwrStep (c : CoachId) (e : Engine) (up : Bool) (mask : BitVec 32) (hold : BitVec 12) (s : State) : State :=
  s.control c e hold.toNat fun s => s.onCoach c fun co =>
    (List.range 32).foldl (fun co b => if bitOf mask.toNat b then co.setBank b ((co.bank b).power up s.clk) else co) co

/-- BANKPWR. -/
def execBankpwr (c : CoachId) (e : Engine) (up : Bool) (mask : BitVec 32) (hold : BitVec 12) (s : State) : Answer :=
  .next (bankpwrStep c e up mask hold s)

/-! ## STRIDE and SET (R207, R208, R210) -/

def strideStep (c : CoachId) (e : Engine) (value : BitVec 16) (depth : BitVec 2) (pos : BitVec 3) (hold : BitVec 12)
    (s : State) : State :=
  s.control c e hold.toNat fun s => s.onCoach c fun co => co.onEngine e fun v =>
    { v with strides := store 0 v.strides (4 * pos.toNat + depth.toNat) value }

/-- STRIDE. -/
def execStride (c : CoachId) (e : Engine) (value : BitVec 16) (depth : BitVec 2) (pos : BitVec 3) (hold : BitVec 12)
    (s : State) : Answer := .next (strideStep c e value depth pos hold s)

/-- Whether an engine has a settings word: 3 on every engine, 0 to 2 on the KSA, 0 on the VEC; the common word has its
reserved bits zero. -/
def wordOk (e : Engine) (word : Nat) (payload : BitVec 96) : Bool :=
  if word = 3 then bits payload.toNat 95 6 = 0 else e = .ksa || (e = .vec && word = 0)

def setStep (c : CoachId) (e : Engine) (payload : BitVec 96) (word : BitVec 2) (hold : BitVec 12) (s : State) : State :=
  s.control c e hold.toNat fun s =>
    let p := if wordOk e word.toNat payload then payload else BitVec.ofNat 96 (s.freeNat 0)
    (s.onCoach c fun co => co.onEngine e fun v => { v with words := store 0 v.words word.toNat p }).freed

/-- SET. -/
def execSetWord (c : CoachId) (e : Engine) (payload : BitVec 96) (word : BitVec 2) (hold : BitVec 12) (s : State) : Answer :=
  .next (setStep c e payload word hold s)

/-! ## ACCT (R145, R211) -/

/-- CLASS is 0 to 13, PARAM is in the range of its class and zero for the classes without one. -/
def acctOk (cls param : Nat) : Bool :=
  if cls = 6 ∨ cls = 13 then param ≤ 47 else if cls = 10 ∨ cls = 11 then true else cls < 14 && param = 0

/-- An undefined header result (R202; log entry 1). -/
def State.undefHeader (s : State) (c : CoachId) (e : Engine) (slot due : Nat) : State :=
  let h := Header.ofImage (s.freeNat 5)
  (s.onCoach c fun co => ((co.settle s.clk).countPoison c h false due false).writeHeader due (eid e) slot h).freed

def acctStep (c : CoachId) (e : Engine) (f : AcctF) (s : State) : State :=
  s.issueWith c e true fun s =>
  let v := (s.coach c).engine e
  let a := v.hdrField f.hdrA 5
  let b := v.hdrField f.hdrB 6
  let r := v.hdrField f.hdrR 4
  if acctOk f.cls.toNat f.param.toNat && eid e ≤ 4 then
    s.dataPath c e f.com 1 4 (some { cls := some f.cls.toNat, param := f.param.toNat, operands := [a, b], result := r }) .acct
  else (s.dataPath c e f.com 1 4 none .acct).undefHeader c e r (s.clk + 4)

/-- ACCT. -/
def execAcct (c : CoachId) (e : Engine) (f : AcctF) (s : State) : Answer := .next (acctStep c e f s)

end Sys2Proof.Machine
end

