-- ==== Sys2Proof/Machine/Dbu.lean ====
section
/-! DEFINITION. The decompose and base-conversion unit: DECG, DECK, PRESC, BEXT, BDROP, MSWB, EXTR, RAISE, LOWER (R137, R222). -/

namespace Sys2Proof.Machine

open Sys2Proof

/-- A DBU instruction: L = O + λ; a set outside the modulus table may leave the occupancy open (R108, R222). -/
def dbuStep (op : DbuOp) (c : CoachId) (f : DbuF) (s : State) : State :=
  s.issueWith c .dbu true fun s =>
  let co := s.coach c
  let v := co.engine .dbu
  let entry := s.tableEntry? co f.pset
  let o := match op.occupancy f entry with
    | some n => n
    | none => 1 + s.freeNat 3
  s.dataPath c .dbu f.com o (o + op.lambda) (some (oneHeader (v.hdrField f.hdr 4))) (.dbu op f)

/-- DECG. -/
def execDecg (c : CoachId) (f : DbuF) (s : State) : Answer := .next (dbuStep .decg c f s)

/-- DECK. -/
def execDeck (c : CoachId) (f : DbuF) (s : State) : Answer := .next (dbuStep .deck c f s)

/-- PRESC. -/
def execPresc (c : CoachId) (f : DbuF) (s : State) : Answer := .next (dbuStep .presc c f s)

/-- BEXT. -/
def execBext (c : CoachId) (f : DbuF) (s : State) : Answer := .next (dbuStep .bext c f s)

/-- BDROP. -/
def execBdrop (c : CoachId) (f : DbuF) (s : State) : Answer := .next (dbuStep .bdrop c f s)

/-- MSWB. -/
def execMswb (c : CoachId) (f : DbuF) (s : State) : Answer := .next (dbuStep .mswb c f s)

/-- EXTR. -/
def execExtr (c : CoachId) (f : DbuF) (s : State) : Answer := .next (dbuStep .extr c f s)

/-- RAISE. -/
def execRaise (c : CoachId) (f : DbuF) (s : State) : Answer := .next (dbuStep .raise c f s)

/-- LOWER. -/
def execLower (c : CoachId) (f : DbuF) (s : State) : Answer := .next (dbuStep .lower c f s)

end Sys2Proof.Machine
end

