-- ==== Sys2Proof/Machine/Ksa.lean ====
section
/-! DEFINITION. The key-switch array: KMM, KEW and KTAB (R129, R133, R202, R213). -/

namespace Sys2Proof.Machine

open Sys2Proof

/-- A KMM or KEW. The occupancy and the latency are undefined where TERMS or PAIR_SEL is; under the reserved CLASS the result
header is undefined (R202, R213). -/
def ksaStep (kew : Bool) (c : CoachId) (f : KsaF) (s : State) : State :=
  s.issueWith c .ksa true fun s =>
  let co := s.coach c
  let v := co.engine .ksa
  let g := v.ksaCfg
  let timed := 1 ≤ g.terms ∧ g.terms ≤ 4096 ∧ g.pairSel ≠ 3
  let o := if timed then (if kew then g.kewO f else g.kmmO f) else 1 + s.freeNat 3
  let l := if timed then (if kew then o + 5 else g.kmmL f) else 1 + s.freeNat 4
  let r := v.hdrField f.hdrR 4
  let hdr : HdrAsk := { cls := ksaClass f, param := 0, operands := [v.hdrField f.hdrA 5], result := r }
  let s' := s.dataPath c .ksa f.com o l (some hdr) (.ksa kew f)
  if f.cls = 14 then s'.undefHeader c .ksa r (s.clk + l) else s'

/-- KMM. -/
def execKmm (c : CoachId) (f : KsaF) (s : State) : Answer := .next (ksaStep false c f s)

/-- KEW. -/
def execKew (c : CoachId) (f : KsaF) (s : State) : Answer := .next (ksaStep true c f s)

def ktabStep (c : CoachId) (src : BitVec 16) (com : Common) (s : State) : State :=
  s.issueWith c .ksa true fun s => s.dataPath c .ksa com 2 4 none (.ktab src)

/-- KTAB loads the activation table (R129, R133): O = 2, L = 4. -/
def execKtab (c : CoachId) (src : BitVec 16) (com : Common) (s : State) : Answer := .next (ktabStep c src com s)

end Sys2Proof.Machine
end

