-- ==== Sys2Proof/Machine/Nte.lean ====
section
/-! DEFINITION. The NTT engine: FWD, INV, FCOL, FROW, IROW, ICOL (R120, R212). -/

namespace Sys2Proof.Machine

open Sys2Proof

/-- An NTE instruction; a LOG_N outside the range of its path leaves O and L open as well (R202; log entry 35). -/
def nteStep (op : NteOp) (c : CoachId) (f : NteF) (s : State) : State :=
  s.issueWith c .nte true fun s =>
  let co := s.coach c
  let v := co.engine .nte
  let logN := op.logN f
  let count := f.count.toNat + 1
  let ok := op.logOk logN
  let o := if ok then count * op.perLimb logN + 8 else 1 + s.freeNat 3
  let l := if ok then o + 24 else 1 + s.freeNat 4
  let hdr := oneHeader (v.hdrField f.hdr 4)
  s.dataPath c .nte f.com o l (some hdr) (.nte op f)

/-- FWD. -/
def execFwd (c : CoachId) (f : NteF) (s : State) : Answer := .next (nteStep .fwd c f s)

/-- INV. -/
def execInv (c : CoachId) (f : NteF) (s : State) : Answer := .next (nteStep .inv c f s)

/-- FCOL. -/
def execFcol (c : CoachId) (f : NteF) (s : State) : Answer := .next (nteStep .fcol c f s)

/-- FROW. -/
def execFrow (c : CoachId) (f : NteF) (s : State) : Answer := .next (nteStep .frow c f s)

/-- IROW. -/
def execIrow (c : CoachId) (f : NteF) (s : State) : Answer := .next (nteStep .irow c f s)

/-- ICOL. -/
def execIcol (c : CoachId) (f : NteF) (s : State) : Answer := .next (nteStep .icol c f s)

end Sys2Proof.Machine
end

