-- ==== Sys2Proof/Machine/Update.lean ====
section
/-! DEFINITION. Updates of the NVM, COMMIT, debug, the jumper and the seal loop in operation (R378 to R385, R430). -/

namespace Sys2Proof.Machine

open Sys2Proof

/-! ## BOOT_UPDATE and UPDATE_DONE (R384) -/

/-- The size of the region of an update's kind. -/
def regionBytes (kind : Nat) : Nat :=
  (match kind with | 0 => NvmRegion.firmware false | 1 => .microcode false | _ => .config false).size

/-- What the check of an image comes to, and the update that writes it where it is OK. -/
def State.checkUpdate (s : State) (kind : BitVec 2) (bs : List Byte) : UpdResult × Update :=
  let b := s.boot
  let u : Update := { kind := kind, bytes := bs, copyB := !(b.copies.getLsbD kind.toNat) }
  if kind.toNat < 2 then
    let h := SignedHdr.of bs
    if bs.length < 64 ∨ h.size ≠ bs.length then (.badImage, u)
    else (h.check b.rootKey bs none (kind.toNat + 1) (b.nvm.minimum (kind.toNat + 1)), u)
  else if cfgOk bs then (policyCheck b.rootKey bs (b.nvm.minimum 3), u)
  else (.badImage, u)

/-- An update command with its image read from HBM; a word that cannot be read has an open value (log entry 1). -/
def State.startUpdate (s : State) (kind : BitVec 2) : State :=
  let r := s.readOpen s.boot.updAddr.toNat s.boot.updLen.toNat
  let c := r.2.2.checkUpdate kind r.1
  let s := r.2.2
  if c.1 = .ok then { s with boot := { s.boot with update := some c.2, updProgress := 0 } }
  else { s with boot := { s.boot with updResult := c.1.code } }

/-- An update that is refused before its image is read. -/
def State.refuseUpdate (s : State) (r : UpdResult) : State := { s with boot := { s.boot with updResult := r.code } }

def bootUpdateStep (kind : BitVec 2) (s : State) : State :=
  if !s.boot.running || s.boot.update.isSome then s
  else if !s.boot.maintEn then s.refuseUpdate .noPresence
  else if kind = 3 then s.refuseUpdate .badImage
  else if s.boot.trial.getLsbD kind.toNat then s.refuseUpdate .trialPending
  else if s.boot.updLen = 0 ∨ regionBytes kind.toNat < s.boot.updLen.toNat ∨
      hbmEnd < s.boot.updAddr.toNat + s.boot.updLen.toNat then s.refuseUpdate .badImage
  else s.startUpdate kind

/-- BOOT_UPDATE: no effect while an update runs. -/
def execBootUpdate (kind : BitVec 2) (s : State) : Answer := .next (bootUpdateStep kind s)

/-- The UPDATE record; a configuration image has no version of its own. -/
def Update.record (u : Update) : JRec :=
  let h := SignedHdr.of u.bytes
  if u.kind.toNat < 2 then .update u.kind.toNat u.copyB (BitVec.ofNat 16 h.version) (BitVec.ofNat 32 h.secVersion)
  else .update u.kind.toNat u.copyB 0 0

/-- UPDATE_DONE: the copy is written and journalled, and TRIAL stands in the boot header; `nvmOk` says that the copy read
back as it was written. -/
def execUpdateDone (nvmOk : Bool) (s : State) : Answer :=
  .next (match s.boot.update with
    | none => s
    | some u =>
      let b := { s.boot with update := none }
      if nvmOk then
        let n := (b.nvm.write u u.bytes).append u.record
        let h := n.header
        { s with boot := { b with
          nvm := n.putHeader h.activeB (h.trial ||| BitVec.twoPow 3 u.kind.toNat), updResult := UpdResult.ok.code
          updProgress := 100 } }
      else { s with boot := { b with nvm := b.nvm.cut s.freeCtr (some u), updResult := UpdResult.nvmError.code } }.freed)

/-! ## COMMIT (R385) -/

/-- The security version of the copy of a region that runs, with its kind. -/
def State.runningVersion (s : State) (region : Nat) : BitVec 32 :=
  match region with
  | 0 => BitVec.ofNat 32 s.runningFw.secVersion
  | 1 => BitVec.ofNat 32 s.runningMc.secVersion
  | _ => match s.boot.cfg with | some c => c.policySecVersion | none => 0

/-- COMMIT: the copies on trial become active; the minimum version of each of their kinds is raised to theirs. -/
def execCommit (s : State) : Answer :=
  .next (if !s.boot.running || s.boot.trial = 0 then s
    else
      let tr := s.boot.trial
      let h := s.boot.nvm.header
      let n := s.boot.nvm.putHeader ((h.activeB &&& ~~~tr) ||| (s.boot.copies &&& tr)) h.trial
      let t := { s with boot := { s.boot with nvm := n, trial := 0 } }
      (List.range 3).foldl (fun t k =>
        if tr.getLsbD k && decide (t.boot.nvm.minimum (k + 1) < (s.runningVersion k).toNat) then
          t.journal (.secVersion (k + 1) (s.runningVersion k))
        else t) t)

/-! ## Debug, the jumper and the seal loop (R378 to R381) -/

/-- DEBUG_EN: without presence no effect but the result. -/
def execDebugEn (s : State) : Answer :=
  .next (if !s.boot.running then s
    else if !s.boot.maintEn then s.refuseUpdate .noPresence
    else ({ s with boot := { s.boot with debug := true } }.journal (.debug s.boot.bootNumber)).restrict)

/-- MAINT_EN_CHANGE: the debounced level; in reset with the jumper fitted the NVM bus reaches the debug header (R380). -/
def execMaintEnChange (fitted : Bool) (s : State) : Answer :=
  .next { s with
    board := { s.board with maintPin := fitted }
    boot := { s.boot with maintEn := fitted, nvmToDebug := fitted && s.board.perst } }

/-- The seal loop is found open in operation. -/
def State.openSeal (s : State) : State :=
  let s := (s.journal (.sealRec s.boot.bootNumber true)).restrict
  let s := { (s.hit 9 s.boot.sealSet.toNat) with boot := { s.boot with sealOpen := true, sealSet := satInc s.boot.sealSet } }
  if s.evt.enable then s.raise srcMc 4 s.boot.bootNumber else { s with evt := { s.evt with sealDue := true } }

/-- SEAL_CHECK: two mismatches in a row are an opening; a loop that stays open is one opening. `back` is none where the loop returns
what SEAL_A drives, else what SEAL_B shows. -/
def execSealCheck (back : Option (BitVec 16)) (s : State) : Answer :=
  let t := { s with board := { s.board with sealBack := back } }
  .next (if !s.boot.running then t
    else
      let pattern := t.drawPattern 0
      let t := { t.freed with boot := { t.boot with sealPattern := pattern } }
      if sealReturns back pattern then { t with boot := { t.boot with sealClosed := true, sealMiss := 0 } }
      else
        let t := { t with boot := { t.boot with sealClosed := false, sealMiss := min (t.boot.sealMiss + 1) 2 } }
        if s.boot.sealMiss = 1 then t.openSeal else t)

end Sys2Proof.Machine
end

