-- ==== Sys2Proof/Machine/Power.lean ====
section
/-! DEFINITION. The module: rails, resets by pin, thermal limits, telemetry, JTAG, UART and clocks (R347, R380, R410, R411,
R413 to R416, R419, R422 to R424, R426). -/

namespace Sys2Proof.Machine

open Sys2Proof

/-! ## Rails and fundamental resets (R347, R380, R410, R415, R419) -/

/-- The power controller may run the rails. -/
def Module.mayPower (m : Module) : Bool := m.vinGood && !m.perst && !m.shutdown

/-- The rails start, where the controller may run them; MOD_PWRGD follows with POWER_GOOD. -/
def State.startRails (s : State) : State :=
  if s.board.mayPower && !s.board.railsOn then { s with board := { s.board with railsOn := true } } else s

/-- PERST# or VIN has been cycled: a shutdown that stands may end (R415). -/
def Module.cycle (m : Module) : Module := { m with cycled := m.cycled || m.shutdown }

/-- Rails off: what is not in the NVM is lost. -/
def State.powerOff (s : State) : State :=
  let t := s.coldReset
  { t with board := { t.board with railsOn := false, pwrgd := false } }

/-- VIN_TURN_ON: VIN exceeds 39.0 V. -/
def execVinTurnOn (s : State) : Answer :=
  .next ({ s with board := { s.board.cycle with vinGood := true } }.startRails)

/-- VIN_UNDERVOLTAGE: below 37.0 V for 1 ms or more. -/
def execVinUndervoltage (s : State) : Answer :=
  .next ({ s with board := { s.board with vinGood := false } }.powerOff)

/-- VIN_OVERVOLTAGE: above 62.0 V for 100 µs or more. -/
def execVinOvervoltage (s : State) : Answer :=
  .next ({ s with board := { s.board with vinGood := false } }.powerOff)

/-- The device held in reset: with the jumper fitted the NVM bus reaches the debug header, and what the programmer there writes is
programmed (R380). -/
def State.heldInReset (s : State) (programmed : List (Nat × Byte)) : State :=
  let open_ := s.board.maintPin
  { s with
    board := { s.board with perst := true }
    boot := { s.boot with
      nvmToDebug := open_, nvm := if open_ then programmed.foldl (fun n e => n.putByte e.1 e.2) s.boot.nvm else s.boot.nvm } }

/-- PERST_ASSERT: an assertion of 1 µs or more is a fundamental reset, in which the device stays until the release. -/
def execPerstAssert (low : PerstLow) (s : State) : Answer :=
  .next (if low.nanoseconds < 1000 then s else s.coldReset.heldInReset low.programmed)

/-- PERST_RELEASE: the reset ends. With power good the device boots; with the rails off and VIN good they start, and the boot waits
for POWER_GOOD. -/
def execPerstRelease (s : State) : Answer :=
  .next (if !s.board.perst then s
    else
      let t := { s with
        board := { s.board.cycle with perst := false, strapReg := 0 }, boot := { s.boot with nvmToDebug := false } }
      if t.board.railsOn && t.board.pwrgd then t.coldReset.bootSequence else t.startRails)

/-- D3COLD: power is removed, and the device boots again. -/
def execD3cold (s : State) : Answer :=
  let t := s.powerOff
  .next (if t.board.mayPower then
      { t with board := { t.board with railsOn := true, pwrgd := true } }.bootSequence
    else t)

/-- SHUTDOWN_RELEASE: after PERST# or VIN has been cycled the latch of a shutdown ends, and the rails start again. -/
def execShutdownRelease (s : State) : Answer :=
  .next (if s.board.shutdown && s.board.cycled then
      { s with board := { s.board with shutdown := false, cycled := false, thermLow := false } }.startRails
    else s)

/-! ## Thermal and power limits (R411, R413, R415) -/

/-- The thermal area in force. -/
def State.limits (s : State) : Thermal := match s.boot.cfg with | some c => c.thermal | none => shippedThermal

/-- Temperatures of a reading: four dies, eight stacks. -/
def ThermalReading_die (r : ThermalReading) (i : Nat) : Nat := (r.dieTemps.getD i 0).toNat
def ThermalReading_stack (r : ThermalReading) (i : Nat) : Nat := (r.stackTemps.getD i 0).toNat

/-- Some die or some stack reaches its level. -/
def reaches (r : ThermalReading) (die stack : Nat) : Bool :=
  (List.range 4).any (fun i => decide (die ≤ ThermalReading_die r i)) ||
    (List.range 8).any fun i => decide (stack ≤ ThermalReading_stack r i)

/-- The sustained power: the average over the samples of the last 100 ms, as many as there are (R411; log entry 88). -/
def sustained (l : List (BitVec 16)) : Nat := l.foldl (fun a x => a + x.toNat) 0 / max l.length 1

/-- The samples of the last 100 ms, newest first. -/
def Module.logged (m : Module) (power : BitVec 16) : List (BitVec 16) := (power :: m.powerLog).take 100

/-- The registers after a reading. -/
def State.readTemps (s : State) (r : ThermalReading) : State :=
  let s := (List.range 8).foldl (fun s k => s.setStk k { (s.stk k) with temp := r.stackTemps.getD k 0 }) s
  let die := (List.range 4).foldl (fun a i => a + ThermalReading_die r i * 2 ^ (8 * i)) 0
  let l := s.board.logged r.power
  { s with board := { s.board with
    dieTemp := BitVec.ofNat 32 die, powerLog := l, powerReg := BitVec.ofNat 32 (sustained l * 2 ^ 16 + r.vin.toNat) } }

/-- THROTTLE follows its causes; once it is set, a temperature counts until every one is below its release level. -/
def State.throttleBy (s : State) (r : ThermalReading) : State :=
  let l := s.limits
  let temp := reaches r l.dieThrottle l.hbmThrottle ||
    ((s.board.causeTemp || s.board.throttle) && reaches r l.dieRelease l.hbmRelease)
  let power := decide (l.powerCap < sustained s.board.powerLog)
  let on := temp || power
  let s := if on && !s.board.throttle then s.hit 12 s.board.throttleSet.toNat else s
  { s with board := { s.board with
    causeTemp := temp, causePower := power, throttle := on
    throttleSet := if on && !s.board.throttle then satInc s.board.throttleSet else s.board.throttleSet
    alertLow := s.board.alertLow || on } }

/-- A shutdown: the rails go off, MOD_THERM# and SMBALERT# are asserted. -/
def State.shutDown (s : State) : State :=
  let t := s.powerOff
  { t with board := { t.board with shutdown := true, cycled := false, thermLow := true, alertLow := true } }

/-- One sample: input power above 2,000 W over its millisecond breaks the limit of R411. -/
def thermalStep (r : ThermalReading) (s : State) : State :=
  if !s.boot.running then s
  else
    let l := s.limits
    if reaches r l.dieShutdown l.hbmShutdown || decide (2000 < r.power.toNat) then s.shutDown else (s.readTemps r).throttleBy r

/-- THERMAL_SAMPLE. -/
def execThermalSample (r : ThermalReading) (s : State) : Answer := .next (thermalStep r s)

/-! ## SMBus (R422) -/

/-- The address the module answers at (R420). -/
def Module.smbAddress (m : Module) : BitVec 8 := 0x58 + BitVec.ofNat 8 (bits m.strapReg.toNat 1 0)

/-- An SMBus read at an address is answered while the management controller runs; before that nothing is acknowledged. -/
def State.smbus (s : State) (bs : List Byte) : State :=
  if s.boot.running then { s with bus := { s.bus with bytes := bs, acked := true, addr := s.board.smbAddress } }
  else { s with bus := { s.bus with bytes := [], acked := false, addr := s.board.smbAddress } }

/-- SMBUS_DIE_TEMP. -/
def execSmbusDieTemp (s : State) : Answer := .next (s.smbus (leBytes 4 s.board.dieTemp.toNat))

/-- SMBUS_STACK_TEMP. -/
def execSmbusStackTemp (s : State) : Answer := .next (s.smbus ((List.range 8).map fun k => (s.stk k).temp))

/-- SMBUS_POWER. -/
def execSmbusPower (s : State) : Answer := .next (s.smbus (leBytes 4 s.board.powerReg.toNat))

/-- SMBUS_STATUS. -/
def execSmbusStatus (s : State) : Answer :=
  .next (s.smbus (leBytes 4 (flag s.board.throttle + 2 * flag s.board.causeTemp + 4 * flag s.board.causePower +
    8 * flag s.hif.hostReady + 16 * flag s.boot.restricted + 32 * flag s.boot.sealClosed)))

/-- SMBUS_SLOT: the slot ID of CLK_STRAP and the stepping. -/
def execSmbusSlot (s : State) : Answer :=
  .next (s.smbus (leBytes 2 (bits s.board.strapReg.toNat 5 2 + 0xB0 * 2 ^ 8)))

/-- SMBUS_ALERT_RESPONSE: with SMBALERT# asserted the module answers with its address (its 7 bits above a 1; log entry 86), and
SMBALERT# is released once neither THROTTLE nor a shutdown stands. -/
def execSmbusAlertResponse (s : State) : Answer :=
  .next (if !(s.boot.running && s.board.alertLow) then { s with bus := { s.bus with bytes := [], acked := false, addr := 0x0C } }
    else { s with
      board := { s.board with alertLow := s.board.throttle || s.board.shutdown }
      bus := { s.bus with bytes := [s.board.smbAddress * 2 + 1], acked := true, addr := 0x0C } })

/-! ## JTAG and UART (R423, R424) -/

def State.jtag (s : State) (i : Jtag) (out : BitVec 32) : State :=
  { s with board := { s.board with jtag := i }, bus := { s.bus with jtagOut := out } }

/-- Boundary scan acts: the module is held in reset with the jumper fitted. -/
def Module.scanOpen (m : Module) : Bool := m.perst && m.maintPin

/-- The instruction that acts: a boundary scan loaded while it may act is BYPASS as soon as it may not. -/
def Module.jtagActs (m : Module) : Jtag :=
  match m.jtag with
  | .idcode => .idcode
  | .bypass => .bypass
  | i => if m.scanOpen then i else .bypass

/-- BYPASS. -/
def execBypass (s : State) : Answer := .next (s.jtag .bypass 0)

/-- IDCODE. -/
def execIdcode (s : State) : Answer := .next (s.jtag .idcode 0x28100001)

/-- A boundary scan is loaded. What it shifts out while it acts is open, since the order of its cells is not given (log entry 1). -/
def State.scan (s : State) (i : Jtag) : State :=
  if s.board.scanOpen then (s.jtag i (BitVec.ofNat 32 (s.freeNat 0))).freed else s.jtag i 0

/-- SAMPLE_PRELOAD: outside reset with the jumper it acts as BYPASS. -/
def execSamplePreload (s : State) : Answer := .next (s.scan .samplePreload)

/-- EXTEST: outside reset with the jumper it acts as BYPASS. -/
def execExtest (s : State) : Answer := .next (s.scan .extest)

/-- UART_RX: a character is taken only while debug is enabled. -/
def execUartRx (ch : Byte) (s : State) : Answer :=
  .next (if s.boot.debug then { s with board := { s.board with uart := s.board.uart ++ [ch] } } else s)

/-! ## Optics (R371, R418) -/

/-- The lasers of a port are on: optics are powered in boot step 8, and a DISABLED port has them off. -/
def State.lasersOn (s : State) (p : Nat) : Bool := s.boot.running && (look Port.reset s.ehl.ports p).st ≠ .disabled

/-! ## Clocks (R426) -/

/-- PLL_LOCK_LOSS: the lock of the root PLL and of the HBM and SerDes PLLs. -/
def execPllLockLoss (root phy : Bool) (s : State) : Answer :=
  .next { s with board := { s.board with rootLocked := root, phyLocked := phy } }

end Sys2Proof.Machine
end

