-- ==== Sys2Proof/Machine/Pxu.lean ====
section
/-! DEFINITION. The permute and transpose unit: AUTO, ROT, TRANS, MROT, GSX (R100, R140 to R142, R154, R223). -/

namespace Sys2Proof.Machine

open Sys2Proof

/-- AUTO: a LOG_N out of range leaves O and L open (R202). -/
def autoStep (c : CoachId) (f : AutoF) (s : State) : State :=
  s.issueWith c .pxu true fun s =>
  let v := (s.coach c).engine .pxu
  let logN := logField f.logN
  let timed := decide (9 ≤ logN)
  let o := if timed then (f.count.toNat + 1) * (2 ^ logN / 32 + 16) + 8 else 1 + s.freeNat 3
  let l := if timed then o + 20 else 1 + s.freeNat 4
  s.dataPath c .pxu f.com o l (some (oneHeader (v.hdrField f.hdr 4))) (.auto f)

/-- AUTO. -/
def execAuto (c : CoachId) (f : AutoF) (s : State) : Answer := .next (autoStep c f s)

/-- ROT: an AMOUNT beyond the run leaves O and L open (R202). -/
def rotStep (c : CoachId) (f : RotF) (s : State) : State :=
  s.issueWith c .pxu true fun s =>
  let v := (s.coach c).engine .pxu
  let n := f.c.toNat + 1
  let r := f.amount.toNat
  let bad := decide (64 * n ≤ r)
  let o := if bad then 1 + s.freeNat 3 else if r % 64 = 0 then n + 8 else 2 * n + 8
  let l := if bad then 1 + s.freeNat 4 else o + 8
  s.dataPath c .pxu f.com o l (some (oneHeader (v.hdrField f.hdr 4))) (.rot f)

/-- ROT. -/
def execRot (c : CoachId) (f : RotF) (s : State) : Answer := .next (rotStep c f s)

def transStep (c : CoachId) (f : TransF) (s : State) : State :=
  s.issueWith c .pxu true fun s =>
  let v := (s.coach c).engine .pxu
  let o := 64 * (f.t.toNat + 1) + 64
  s.dataPath c .pxu f.com o (o + 8) (some (oneHeader (v.hdrField f.hdr 4))) (.trans f)

/-- TRANS. -/
def execTrans (c : CoachId) (f : TransF) (s : State) : Answer := .next (transStep c f s)

/-- MROT: a LOG_N out of range leaves O and L open (R202). -/
def mrotStep (c : CoachId) (f : MrotF) (s : State) : State :=
  s.issueWith c .pxu true fun s =>
  let o := if mrotTimed f then (f.count.toNat + 1) * 2 ^ f.logN.toNat / 32 + 8 else 1 + s.freeNat 3
  let l := if mrotTimed f then o + 8 else 1 + s.freeNat 4
  s.dataPath c .pxu f.com o l none (.mrot f)

/-- MROT. -/
def execMrot (c : CoachId) (f : MrotF) (s : State) : Answer := .next (mrotStep c f s)

/-- GSX: O = 20 + ΣG, L = O + 4; a descriptor of another mode leaves both open (R202, R223). -/
def gsxStep (c : CoachId) (desc : BitVec 10) (com : Common) (s : State) : State :=
  s.issueWith c .pxu true fun s =>
  let co := s.coach c
  let d := (co.engine .pxu).gsxDesc co desc
  let timed := decide (d.mode = 1 ∨ d.mode = 2)
  let o := if timed then d.gsxO co ((s.startEx c .pxu 0).indices d) else 1 + s.freeNat 3
  s.dataPath c .pxu com o (if timed then o + 4 else 1 + s.freeNat 4) none (.gsx desc)

/-- GSX. -/
def execGsx (c : CoachId) (desc : BitVec 10) (com : Common) (s : State) : Answer := .next (gsxStep c desc com s)

end Sys2Proof.Machine
end

