-- ==== Sys2Proof/Machine/RegRead.lean ====
section
/-! DEFINITION. Host reads of the registers in BAR0: their places, widths and values, and the fields that a read clears
(R10 to R13, R107, R199, R249, R250, R273, R303, R327, R348, R362, R386, R407, R426). -/

namespace Sys2Proof.Machine

open Sys2Proof

/-- A register: its width and its value. -/
abbrev Reg := Option (Nat × Nat)

def r32 (v : Nat) : Reg := some (32, v)
def r64 (v : Nat) : Reg := some (64, v)

/-- Entry `i` of an array of `n` registers `step` apart from `base`, where `o` is the place of one of them. -/
def arrayAt (o base step n : Nat) : Option Nat :=
  if base ≤ o ∧ o < base + step * n ∧ (o - base) % step = 0 then some ((o - base) / step) else none

/-- The blocks of BAR0 (R327), with the offset in the block. -/
inductive RegPlace where
  | hif (o : Nat) | evt (o : Nat) | kst (o : Nat) | mem (o : Nat) | ehl (o : Nat) | coach (c : CoachId) (o : Nat)
  | boot (o : Nat) | sec (o : Nat) | clk (o : Nat)

def placeOf (off : Nat) : RegPlace :=
  if off < 0x400000 then .hif off
  else if off < 0x800000 then .evt (off - 0x400000)
  else if off < 0x1000000 then .kst (off - 0x800000)
  else if off < 0x1800000 then .mem (off - 0x1000000)
  else if off < 0x2000000 then .ehl (off - 0x1800000)
  else if off < 0x2400000 then .coach (BitVec.ofNat 6 ((off - 0x2000000) / 0x10000)) ((off - 0x2000000) % 0x10000)
  else if off < 0x2800000 then .coach 0 0xFFFF
  else if off < 0x3000000 then .boot (off - 0x2800000)
  else if off < 0x3800000 then .sec (off - 0x3000000)
  else .clk (off - 0x3800000)

/-- What becomes of each RC field of a register, by the number under which `State.early` knows it (R13); a SET_COUNT has 8 bits. -/
abbrev RcMap := Nat → Nat → Nat

def RcMap.count8 (g : RcMap) (k : Nat) (x : BitVec 8) : BitVec 8 := BitVec.ofNat 8 (g k x.toNat)

/-- The registers that can be reached (R327). -/
def State.reachable? (s : State) (p : RegPlace) : Bool := match p with | .hif _ => true | _ => s.hif.hostReady

/-! ## HIF_ (R348) -/

/-- MSI-X table and pending bits: 32-bit words, pairs of which may be accessed as 64 bits. -/
def State.msixWord (s : State) (i : Nat) : Nat :=
  let e := look Msix.reset s.hif.msix (i / 4)
  match i % 4 with
  | 0 => e.addr.toNat % 2 ^ 32
  | 1 => e.addr.toNat / 2 ^ 32
  | 2 => e.data.toNat
  | _ => e.ctrl.toNat

def State.pbaWord (s : State) (i : Nat) : Nat :=
  (List.range 32).foldl (fun a b => a + flag (s.hif.pba.contains (32 * i + b)) * 2 ^ b) 0

/-- A 32-bit word of the MSI-X structures. -/
def State.msixReg (s : State) (o : Nat) : Option Nat :=
  match arrayAt o 0x10000 4 264, arrayAt o 0x11000 4 4 with
  | some i, _ => some (s.msixWord i)
  | none, some i => some (s.pbaWord i)
  | none, none => none

def sqReg (q : Sq) (o : Nat) : Reg :=
  match o with
  | 0 => r64 q.base.toNat
  | 8 => r32 (q.cq.toNat * 2 ^ 10 + flag q.fetched.isSome * 2 ^ 9 + q.logSize.toNat * 2 ^ 4 + flag q.enable)
  | 12 => r32 (q.tail.toNat * 2 ^ 16 + q.head.toNat)
  | _ => none

def cqReg (q : Cq) (o : Nat) : Reg :=
  match o with
  | 0 => r64 q.base.toNat
  | 8 => r32 (q.held.length % 2 ^ 12 * 2 ^ 12 + q.logSize.toNat * 2 ^ 4 + flag q.phase * 2 + flag q.enable)
  | 12 => r32 (q.head.toNat * 2 ^ 16 + q.tail.toNat)
  | 16 => r32 (q.delay.toNat * 2 ^ 16 + q.count.toNat)
  | _ => none

def State.hifReg (s : State) (o bits : Nat) : Reg :=
  let h := s.hif
  match o with
  | 0 => r32 (0xB0 * 2 ^ 24 + 2 * 2 ^ 16 + s.fwVersion % 256 * 2 ^ 8 + 3)
  | 4 => r32 (h.ringErrSet.toNat * 2 ^ 24 + h.dbErrSet.toNat * 2 ^ 16 + flag h.linkDegraded * 16 + flag h.summaryBusy * 8 +
      flag h.ringErr * 4 + flag h.dbErr * 2 + flag h.hostReady)
  | 8 => r32 h.bar2Gib.toNat
  | 12 => r32 ((s.tasks.filter Task.onDevice).length * 2 ^ 16 + (s.tasks.filter fun t => t.st = .queued).length)
  | 16 => r32 h.ringErrInfo.toNat
  | _ =>
    if 0x1000 ≤ o ∧ o < 0x1800 then sqReg (s.sq ((o - 0x1000) / 32)) ((o - 0x1000) % 32)
    else if 0x2000 ≤ o ∧ o < 0x2800 then cqReg (s.cq ((o - 0x2000) / 32)) ((o - 0x2000) % 32)
    else if bits = 64 then
      match s.msixReg o, s.msixReg (o + 4) with
      | some a, some b => r64 (a + b * 2 ^ 32)
      | _, _ => none
    else match s.msixReg o with
      | some a => r32 a
      | none => none

def Hif.rc (g : RcMap) (h : Hif) (o : Nat) : Hif :=
  if o = 4 then { h with ringErrSet := g.count8 0 h.ringErrSet, dbErrSet := g.count8 1 h.dbErrSet } else h

/-! ## EVT_ (R362) -/

def Evt.reg (e : Evt) (o : Nat) : Reg :=
  match o with
  | 0 => r32 e.held.length
  | 8 => r64 e.base.toNat
  | 0x10 => r32 (e.dropSet.toNat * 2 ^ 24 + flag e.dropped * 2 ^ 9 + e.logSize.toNat * 2 ^ 4 + flag e.phase * 2 + flag e.enable)
  | 0x14 => r32 (e.head.toNat * 2 ^ 16 + e.tail.toNat)
  | 0x18 => r32 (e.delay.toNat * 2 ^ 16 + e.count.toNat)
  | 0x20 => r64 e.droppedCount
  | 0x28 => r64 e.aborts
  | _ => match arrayAt o 0x108 8 9 with
    | some k => r64 (look 0 e.codeCount (k + 1))
    | none => none

def Evt.rc (g : RcMap) (e : Evt) (o : Nat) : Evt :=
  match o with
  | 0x10 => { e with dropSet := g.count8 2 e.dropSet }
  | 0x20 => { e with droppedCount := g 22 e.droppedCount }
  | 0x28 => { e with aborts := g 23 e.aborts }
  | _ => match arrayAt o 0x108 8 9 with
    | some k => { e with codeCount := store 0 e.codeCount (k + 1) (g (257 + k) (look 0 e.codeCount (k + 1))) }
    | none => e

/-! ## KST_ (R249) -/

def shareWord (l : List Nat) : Nat := l.getD 0 0 + l.getD 1 0 * 16 + l.getD 2 0 * 256

/-- KST_QUEUE: the entry in hand, or that of the cart sent last; WAIT_CREDIT by whom a ready cart is held for. -/
def State.queueWord (s : State) (q : Nat) : Nat :=
  let v := s.keyQueue q
  v.taskId.toNat * 2 ^ 32 + (match v.set[v.turn]? with | some x => x.1 | none => v.entry) % 2 ^ 16 * 2 ^ 16 +
    flag (!(s.heldFor v).isEmpty) * 2 + flag v.active

def State.kstReg (s : State) (o : Nat) : Reg :=
  let k := s.kst
  match o with
  | 0 => r32 (k.timeoutSet.toNat * 2 ^ 16 + (k.queues.filter fun q => q.2.active).length * 2 ^ 6 +
      flag k.sharesPending.isSome * 2 + flag k.timeout)
  | 4 => r32 (shareWord (k.sharesPending.getD k.shares))
  | 8 => r32 k.timeoutLimit.toNat
  | 12 => r32 k.timeoutInfo.toNat
  | 0x10 => r64 k.cartsRead
  | 0x18 => r64 k.cartsSent
  | 0x20 => r64 k.voidCarts
  | _ => match arrayAt o 0x40 8 8, arrayAt o 0x100 8 16 with
    | some c, _ => r64 (look 0 k.stall c)
    | none, some q => r64 (s.queueWord q)
    | none, none => none

def Kst.rc (g : RcMap) (k : Kst) (o : Nat) : Kst :=
  match o with
  | 0 => { k with timeoutSet := g.count8 3 k.timeoutSet }
  | 0x10 => { k with cartsRead := g 19 k.cartsRead }
  | 0x18 => { k with cartsSent := g 20 k.cartsSent }
  | 0x20 => { k with voidCarts := g 21 k.voidCarts }
  | _ => match arrayAt o 0x40 8 8 with
    | some c => { k with stall := store 0 k.stall c (g (24 + c) (look 0 k.stall c)) }
    | none => k

/-! ## MEM_ (R273) -/

def Stack.status (v : Stack) : Nat :=
  v.temp.toNat * 2 ^ 24 + v.remaps.length * 2 ^ 12 + v.spareFor.toNat * 2 ^ 7 + flag v.hot * 2 ^ 6 + flag v.noSpare * 2 ^ 5 +
    flag v.evac.isSome * 2 ^ 4 + flag v.lost * 2 ^ 3 + flag v.retraining.isSome * 2 ^ 2

def Stack.reg (v : Stack) (o : Nat) : Reg :=
  match o with
  | 0 => r32 v.status
  | 8 => r64 ((List.range 32).foldl (fun a p => a + (look (0 : BitVec 2) v.chState p).toNat * 4 ^ p) 0)
  | 16 => r32 (match v.evac with | some (a, w) => a * 2 ^ 23 + w % 2 ^ 23 | none => 0)
  | _ => none

def State.memReg (s : State) (o : Nat) : Reg :=
  let m := s.hbm
  match o with
  | 0 => r32 (m.retireSet.toNat * 2 ^ 24 + m.uncorrSet.toNat * 2 ^ 16 + flag m.journalFull * 4 + flag m.retire * 2 + flag m.uncorr)
  | 4 => r32 0
  | 8 => r64 m.uncorrInfo.toNat
  | 0x10 => r64 m.retireInfo.toNat
  | 0x18 => r64 m.corrCount
  | 0x20 => r64 m.uncorrCount
  | _ => if 0x1000 ≤ o ∧ o < 0x1800 then (s.stk ((o - 0x1000) / 256)).reg ((o - 0x1000) % 256) else none

def Hbm.rc (g : RcMap) (m : Hbm) (o : Nat) : Hbm :=
  match o with
  | 0 => { m with retireSet := g.count8 5 m.retireSet, uncorrSet := g.count8 4 m.uncorrSet }
  | 0x18 => { m with corrCount := g 16 m.corrCount }
  | 0x20 => { m with uncorrCount := g 17 m.uncorrCount }
  | _ => m

/-! ## EHL_ (R303) -/

def Port.reg (v : Port) (o : Nat) : Reg :=
  match o with
  | 0 => r32 (v.negMinor.toNat * 2 ^ 20 + v.neighbour.toNat * 2 ^ 8 + v.reason.toNat * 2 ^ 5 + v.st.code)
  | 4 => r32 (flag v.disable * 2)
  | 8 => r32 ((v.resv1 + v.shared) * 2 ^ 16 + v.resv0 + v.shared)
  | 0x10 => r64 v.fecCorr
  | 0x18 => r64 v.replays
  | 0x20 => r64 v.flits
  | _ => none

def State.ehlReg (s : State) (o : Nat) : Reg :=
  let e := s.ehl
  match o with
  | 0 => r32 (e.linkSet.toNat * 2 ^ 24 + e.unreachSet.toNat * 2 ^ 16 + e.timeSet.toNat * 2 ^ 8 + flag e.restorePending * 16 +
      flag (!e.switched.isEmpty) * 8 + flag e.time * 4 + flag e.unreachF * 2 + flag e.link)
  | 4 => r32 (3 * 2 ^ 24 + 2 * 2 ^ 16 + e.nodeId.toNat)
  | 8 => r32 e.fabricId.toNat
  | 12 => r32 e.reqTimeout.toNat
  | 0x10 => r64 (e.ftime % 2 ^ 64)
  | 0x18 => r32 (e.depth.toNat * 2 ^ 19 + e.parentPort.toNat * 2 ^ 15 + e.root.toNat * 2 ^ 3 + flag s.inHoldover * 4 +
      flag e.rootSelf * 2 + flag e.locked)
  | 0x1C => r32 0
  | 0x20 => r32 e.unreachInfo.toNat
  | 0x28 => r64 e.timeStepReg.toNat
  | 0x30 => r64 e.discards
  | _ => if 0x1000 ≤ o ∧ o < 0x2000 then (s.port ((o - 0x1000) / 256)).reg ((o - 0x1000) % 256) else none

def Port.rc (g : RcMap) (v : Port) (p o : Nat) : Port :=
  match o with
  | 0x10 => { v with fecCorr := g (128 + p) v.fecCorr }
  | 0x18 => { v with replays := g (64 + p) v.replays }
  | 0x20 => { v with flits := g (96 + p) v.flits }
  | _ => v

def State.ehlRc (g : RcMap) (s : State) (o : Nat) : State :=
  match o with
  | 0 => { s with ehl := { s.ehl with
      linkSet := g.count8 6 s.ehl.linkSet, unreachSet := g.count8 7 s.ehl.unreachSet, timeSet := g.count8 8 s.ehl.timeSet } }
  | 0x30 => { s with ehl := { s.ehl with discards := g 18 s.ehl.discards } }
  | _ =>
    if 0x1000 ≤ o ∧ o < 0x2000 then
      s.setPort ((o - 0x1000) / 256) ((s.port ((o - 0x1000) / 256)).rc g ((o - 0x1000) / 256) ((o - 0x1000) % 256))
    else s

/-! ## CCH_ (R107, R199, R250) -/

def BankSt.code : BankSt → Nat
  | .off => 0 | .waking => 1 | .on => 2 | .draining => 3

/-- CCH_ENG_STATE of engine `e`. -/
def Coach.engState (co : Coach) (e : Engine) (clk : Nat) : Nat :=
  let v := co.engine e
  v.loops.length * 2 ^ 28 + (match v.st with | .atShutter i => i.toNat * 2 ^ 24 | .onWait d _ => d.toNat * 2 ^ 16 | _ => 0) +
    co.stateCode e clk * 2 ^ 13 + v.pc % 2 ^ 13

def engineAt (i : Nat) : Engine := allEngines.getD i .nte

def Coach.spareWord (co : Coach) (i : Nat) : Nat :=
  (List.range 4).foldl (fun a j => a + look 0 co.spares (4 * i + j) * 2 ^ (8 * j)) 0

/-- The arrays of a coach block. -/
def Coach.arrayReg (co : Coach) (clk o : Nat) : Reg :=
  match arrayAt o 0x40 8 8, arrayAt o 0x80 8 8, arrayAt o 0xC0 4 8, arrayAt o 0x400 4 256, arrayAt o 0x800 8 64,
      arrayAt o 0x4010 4 8 with
  | some e, _, _, _, _, _ => r64 (look (0 : Word64) co.snaps e).toNat
  | _, some e, _, _, _, _ => r64 (look 0 co.shutWait e)
  | _, _, some e, _, _, _ => r32 (co.engState (engineAt e) clk)
  | _, _, _, some d, _, _ =>
    let v := co.door (BitVec.ofNat 8 d)
    r32 (v.cls.toNat * 2 ^ 16 + v.value.toNat)
  | _, _, _, _, some i, _ => r64 (look 0 co.stall i)
  | _, _, _, _, _, some i => r32 (co.spareWord i)
  | _, _, _, _, _, _ => none

def Coach.reg (co : Coach) (clk o : Nat) : Reg :=
  match o with
  | 0 => r32 (flag co.loadBusy * 8 + flag co.slotB.valid * 4 + flag co.slotA.valid * 2 + flag co.active)
  | 4 => r32 co.slotA.progId.toNat
  | 8 => r32 co.slotB.progId.toNat
  | 12 => r32 co.taskId.toNat
  | 0x10 => r32 co.wdogLimit.toNat
  | 0x14 => r32 (co.deadlockSet.toNat * 2 ^ 8 + flag co.deadlock)
  | 0x18 => r32 (co.satDoor.toNat * 2 ^ 16 + co.satSet.toNat * 2 ^ 8 + flag co.sat)
  | 0x20 => r64 co.startTime.toNat
  | 0xE0 => r32 (flag co.gated * 2 ^ 17 + co.idleLimit.toNat)
  | 0x4000 => r32 (flag (co.phase ≠ .idle) * 2 ^ 8 + flag co.hazardOn * 2 ^ 7 + co.banksOn * 2 + flag co.degraded)
  | 0x4008 => r64 ((List.range 32).foldl (fun a b => a + (co.bank b).st.code * 4 ^ b) 0)
  | 0x4030 => r32 (co.eccUncorrSet.toNat * 2 ^ 24 + co.eccCorrSet.toNat * 2 ^ 16 + flag (!co.repairs.isEmpty) * 4 +
      flag co.eccUncorr * 2 + flag co.eccCorr)
  | 0x4034 => r32 co.eccAddr.toNat
  | 0x4038 => r32 (co.hazardSet.toNat * 2 ^ 16 + co.hazardKind.toNat * 2 + flag co.hazard)
  | 0x403C => r32 co.hazardInfo.toNat
  | 0x4040 => r32 co.dbgAddr.toNat
  | 0x4048 => r64 co.dbgData.toNat
  | 0x4050 => r32 0
  | 0x4054 => r32 (co.dbgDenied.toNat * 2 + flag co.dbgReq.isNone)
  | _ => co.arrayReg clk o

/-- The wait and stall counters change as a clk passes, and so never in the clk of a read. -/
def Coach.rc (g : RcMap) (co : Coach) (o : Nat) : Coach :=
  match o with
  | 0x14 => { co with deadlockSet := g.count8 0 co.deadlockSet }
  | 0x18 => { co with satSet := g.count8 1 co.satSet }
  | 0x4030 => { co with eccUncorrSet := g.count8 2 co.eccUncorrSet, eccCorrSet := g.count8 3 co.eccCorrSet }
  | 0x4038 => { co with hazardSet := g.count8 4 co.hazardSet }
  | _ => match arrayAt o 0x80 8 8, arrayAt o 0x800 8 64 with
    | some e, _ => { co with shutWait := store 0 co.shutWait e (g 6 (look 0 co.shutWait e)) }
    | none, some i => { co with stall := store 0 co.stall i (g 6 (look 0 co.stall i)) }
    | none, none => co

/-! ## BOOT_ (R386) -/

/-- IDENTITY: an identity key is present. -/
def State.hasIdentity (s : State) : Bool := !s.sec.publicKey.isEmpty

def State.bootReg (s : State) (o : Nat) : Reg :=
  let b := s.boot
  match o with
  | 0 => r32 (b.sealSet.toNat * 2 ^ 24 + flag s.hasIdentity * 2 ^ 15 + flag b.debug * 2 ^ 14 + flag b.restricted * 2 ^ 13 +
      flag b.sealOpen * 2 ^ 12 + b.trial.toNat * 2 ^ 9 + flag b.fallback * 2 ^ 8 + b.copies.toNat * 2 ^ 5 + flag b.cfgMissing * 16)
  | 4 => r32 (flag b.sealClosed * 2 + flag b.maintEn)
  | 8 => r64 b.updAddr.toNat
  | 0x10 => r32 b.updLen.toNat
  | 0x14 => r32 0
  | 0x18 => r32 (b.updProgress.toNat * 2 ^ 8 + b.updResult.toNat * 2 ^ 4 + flag b.update.isSome)
  | 0x1C => r32 0
  | 0x20 => r32 b.bootNumber
  | 0x24 => r32 (min b.restrictedBoots 65535 * 2 ^ 16 + (journalPlaces - b.nvm.used) / 1024)
  | _ => none

def Boot.rc (g : RcMap) (b : Boot) (o : Nat) : Boot := if o = 0 then { b with sealSet := g.count8 9 b.sealSet } else b

/-! ## SEC_ (R407) -/

def State.secReg (s : State) (o : Nat) : Reg :=
  let v := s.sec
  let g := s.boot.nvm.lastGeneration
  match o with
  | 0 => r32 (v.doneSet.toNat * 2 ^ 24 + v.cmdErrSet.toNat * 2 ^ 16 + v.sessions.length * 2 ^ 4 + flag v.store.bak.isSome * 8 +
      flag v.cmdErr * 4 + flag v.running.isSome * 2 + flag v.done)
  | 4 => r32 0
  | 8 => r32 0
  | 12 => r32 (v.outBytes.toNat * 2 ^ 16 + v.resSession.toNat * 2 ^ 8 + v.status.toNat)
  | 0x10 => r32 (flag s.hasIdentity * 2 ^ 27 + (match s.boot.nvm.lastBlock g with | some b => b + 1 | none => 0) * 2 ^ 16 + g % 2 ^ 16)
  | 0x14 => r32 (v.store.block * 2 ^ 11 + v.store.nextLeaf)
  | 0x18 => r32 v.faults.toNat
  | 0x20 => r64 v.ops
  | _ => match arrayAt o 0x4000 4 2048, arrayAt o 0x6000 4 2048 with
    | some i, _ => r32 (look (0 : BitVec 32) v.mboxIn i).toNat
    | none, some i => r32 (look (0 : BitVec 32) v.mboxOut i).toNat
    | none, none => none

def Sec.rc (g : RcMap) (v : Sec) (o : Nat) : Sec :=
  match o with
  | 0 => { v with doneSet := g.count8 10 v.doneSet, cmdErrSet := g.count8 11 v.cmdErrSet }
  | 0x18 => { v with faults := g.count8 13 v.faults }
  | 0x20 => { v with ops := g 14 v.ops }
  | _ => v

/-! ## CLK_ (R426) -/

def Module.reg (m : Module) (o : Nat) : Reg :=
  match o with
  | 0 => r32 (flag m.ssc * 4 + flag m.phyLocked * 2 + flag m.rootLocked)
  | 4 => r32 m.strapReg.toNat
  | 8 => r32 (m.throttleSet.toNat * 2 ^ 24 + flag m.causePower * 4 + flag m.causeTemp * 2 + flag m.throttle)
  | 12 => r32 m.dieTemp.toNat
  | 0x10 => r32 m.powerReg.toNat
  | 0x18 => r64 m.withheld
  | _ => none

def Module.rc (g : RcMap) (m : Module) (o : Nat) : Module :=
  match o with
  | 8 => { m with throttleSet := g.count8 12 m.throttleSet }
  | 0x18 => { m with withheld := g 15 m.withheld }
  | _ => m

/-! ## All blocks -/

/-- The register at a place; `bits` is the width of the access, which only the MSI-X structures leave open. -/
def State.regAt (s : State) (p : RegPlace) (bits : Nat) : Reg :=
  match p with
  | .hif o => s.hifReg o bits
  | .evt o => s.evt.reg o
  | .kst o => s.kstReg o
  | .mem o => s.memReg o
  | .ehl o => s.ehlReg o
  | .coach c o => (s.coach c).reg s.clk o
  | .boot o => s.bootReg o
  | .sec o => s.secReg o
  | .clk o => s.board.reg o

/-- The RC fields of the register at a place become what `g` says. -/
def State.rc (g : RcMap) (s : State) (p : RegPlace) : State :=
  match p with
  | .hif o => { s with hif := s.hif.rc g o }
  | .evt o => { s with evt := s.evt.rc g o }
  | .kst o => { s with kst := s.kst.rc g o }
  | .mem o => { s with hbm := s.hbm.rc g o }
  | .ehl o => s.ehlRc g o
  | .coach c o => s.onCoach c fun co => co.rc g o
  | .boot o => { s with boot := s.boot.rc g o }
  | .sec o => { s with sec := s.sec.rc g o }
  | .clk o => { s with board := s.board.rc g o }

/-- What hardware has changed in the present clk of the fields of a place's block (R13). -/
def State.earlyOf (s : State) (p : RegPlace) : SMap Nat := match p with
  | .coach c _ => (s.coach c).early
  | _ => s.early

/-- The register that an access of a width at an offset reaches: one that is there, of that width, naturally aligned, which may be
reached (R10, R327). -/
def State.access (s : State) (off bits : Nat) : Option RegPlace :=
  let p := placeOf off
  match s.regAt p bits with
  | some (w, _) => if w = bits ∧ off % (w / 8) = 0 ∧ s.reachable? p = true then some p else none
  | none => none

/-- What a read of a register answers: RC fields as they stood before the present clk (R13). -/
def State.readValue (s : State) (p : RegPlace) (bits : Nat) : Nat :=
  match (s.rc (fun k x => (rcRead (s.earlyOf p) k x).1) p).regAt p bits with
  | some (_, v) => v
  | none => 0

/-- The numbers of the RC fields of a place. -/
def rcKeys (p : RegPlace) : List Nat := match p with
  | .hif o => if o = 4 then [0, 1] else []
  | .evt o => (match o with
    | 0x10 => [2]
    | 0x20 => [22]
    | 0x28 => [23]
    | _ => ((arrayAt o 0x108 8 9).map fun k => 257 + k).toList)
  | .kst o => (match o with
    | 0 => [3]
    | 0x10 => [19]
    | 0x18 => [20]
    | 0x20 => [21]
    | _ => ((arrayAt o 0x40 8 8).map fun k => 24 + k).toList)
  | .mem o => (match o with
    | 0 => [4, 5]
    | 0x18 => [16]
    | 0x20 => [17]
    | _ => [])
  | .ehl o =>
    if o = 0 then [6, 7, 8] else if o = 0x30 then [18]
    else (match o % 256 with
      | 0x10 => [128 + (o - 0x1000) / 256]
      | 0x18 => [64 + (o - 0x1000) / 256]
      | 0x20 => [96 + (o - 0x1000) / 256]
      | _ => [])
  | .coach _ o => (match o with
    | 0x14 => [0]
    | 0x18 => [1]
    | 0x4030 => [2, 3]
    | 0x4038 => [4]
    | _ => [])
  | .boot o => if o = 0 then [9] else []
  | .sec o => (match o with
    | 0 => [10, 11]
    | 0x18 => [13]
    | 0x20 => [14]
    | _ => [])
  | .clk o => if o = 8 then [12] else if o = 0x18 then [15] else []

/-- What stood in the RC fields of a place before the present clk is gone with a read. -/
def State.spend (s : State) (p : RegPlace) : State :=
  let spent (m : SMap Nat) : SMap Nat := (rcKeys p).foldl rcSpent m
  match p with
  | .coach c _ => s.onCoach c fun co => { co with early := spent co.early }
  | _ => { s with early := spent s.early }

/-- RC_READ: a host read clears the RC fields, but for what the present clk has added; what it cannot reach reads as all ones. -/
def execRcRead (off : BitVec 26) (bits : Nat) (s : State) : Answer :=
  .next (match s.access off.toNat bits with
    | some p => ((s.rc (fun k x => (rcRead (s.earlyOf p) k x).2) p).spend p).answer (s.readValue p bits)
    | none => s.answer (2 ^ min bits 64 - 1))

end Sys2Proof.Machine
end

