-- ==== Sys2Proof/Machine/RegWrite.lean ====
section
/-! DEFINITION. Host writes of the registers in BAR0: RW fields, W1C bits and the actions of WO fields (R10 to R13, R107,
R199, R238, R249, R273, R303, R327, R330, R348, R362, R386, R390, R407, R426). A write to a register whose effect has a
row of its own acts as that row. -/

namespace Sys2Proof.Machine

open Sys2Proof

/-- The state that a meaning answers. -/
def after (a : Answer) (s : State) : State := match a with | .next t => t | _ => s

/-- A W1C bit after a write; one that hardware has set in the present clk stays 1 (R13). -/
def w1c (now old : Bool) (v i : Nat) : Bool := old && (now || !(bitOf v i))

/-! ## HIF_ (R330, R333, R348) -/

/-- The low 12 bits of a ring base are zero. -/
def ringBase (v : Nat) : BitVec 64 := BitVec.ofNat 64 (v / 4096 * 4096)

def State.writeSq (s : State) (i o v : Nat) : State :=
  match o with
  | 0 => if (s.sq i).enable then s else s.setSq i { (s.sq i) with base := ringBase v }
  | 8 => after (execSqEnable (BitVec.ofNat 6 i) (BitVec.ofNat 32 v) s) s
  | _ => s

def State.writeCq (s : State) (i o v : Nat) : State :=
  match o with
  | 0 => if (s.cq i).enable then s else s.setCq i { (s.cq i) with base := ringBase v }
  | 8 => after (execCqEnable (BitVec.ofNat 6 i) (BitVec.ofNat 32 v) s) s
  | 16 => s.setCq i { (s.cq i) with delay := BitVec.ofNat 16 (bits v 31 16), count := BitVec.ofNat 8 v }
  | _ => s

/-- A pending vector that is not masked is sent. -/
def State.unmask (s : State) (e : Nat) : State :=
  if (look Msix.reset s.hif.msix e).ctrl.getLsbD 0 || !(s.hif.pba.contains e) then s
  else { s with hif := { s.hif with pba := s.hif.pba.erase e } }.raiseVector e

/-- A 32-bit word of the MSI-X table; of the control word only the mask bit is kept. -/
def State.writeMsix (s : State) (i v : Nat) : State :=
  let e := look Msix.reset s.hif.msix (i / 4)
  let e := match i % 4 with
    | 0 => { e with addr := BitVec.ofNat 64 (e.addr.toNat / 2 ^ 32 * 2 ^ 32 + v % 2 ^ 32) }
    | 1 => { e with addr := BitVec.ofNat 64 (v % 2 ^ 32 * 2 ^ 32 + e.addr.toNat % 2 ^ 32) }
    | 2 => { e with data := BitVec.ofNat 32 v }
    | _ => { e with ctrl := BitVec.ofNat 32 (v % 2) }
  { s with hif := { s.hif with msix := store Msix.reset s.hif.msix (i / 4) e } }.unmask (i / 4)

def State.writeHif (s : State) (o bits v : Nat) : State :=
  match o with
  | 4 => { s with hif := { s.hif with ringErr := w1c (s.isEarly 0) s.hif.ringErr v 2, dbErr := w1c (s.isEarly 1) s.hif.dbErr v 1 } }
  | 8 => after (execHifBar2BaseWrite (BitVec.ofNat 32 v) s) s
  | _ =>
    if 0x1000 ≤ o ∧ o < 0x1800 then s.writeSq ((o - 0x1000) / 32) ((o - 0x1000) % 32) v
    else if 0x2000 ≤ o ∧ o < 0x2800 then s.writeCq ((o - 0x2000) / 32) ((o - 0x2000) % 32) v
    else match arrayAt o 0x10000 4 264 with
      | some i => if bits = 64 then (s.writeMsix i v).writeMsix (i + 1) (v / 2 ^ 32) else s.writeMsix i v
      | none => s

/-! ## EVT_, KST_, MEM_, EHL_ -/

def State.writeEvt (s : State) (o v : Nat) : State :=
  match o with
  | 8 => if s.evt.enable then s else { s with evt := { s.evt with base := ringBase v } }
  | 0x10 => after (execEventRingEnable (BitVec.ofNat 32 v) s) s
  | 0x18 => { s with evt := { s.evt with delay := BitVec.ofNat 16 (bits v 31 16), count := BitVec.ofNat 8 v } }
  | _ => s

def State.writeKst (s : State) (o v : Nat) : State :=
  match o with
  | 0 => { s with kst := { s.kst with timeout := w1c (s.isEarly 3) s.kst.timeout v 0 } }
  | 4 => after (execKstSplitWrite (BitVec.ofNat 32 v) s) s
  | 8 => { s with kst := { s.kst with timeoutLimit := BitVec.ofNat 32 v } }
  | _ => s

/-- MEM_MAINT: RETRAIN and EVACUATE together do nothing. -/
def State.maint (s : State) (v : Nat) : State :=
  let k := BitVec.ofNat 3 (bits v 6 4)
  let a := BitVec.ofNat 5 (bits v 12 8)
  match bitOf v 0, bitOf v 1 with
  | true, false => after (execMemMaintRetrain k a s) s
  | false, true => after (execMemMaintEvacuate k a s) s
  | _, _ => s

def State.writeMem (s : State) (o v : Nat) : State :=
  match o with
  | 0 => { s with hbm := { s.hbm with retire := w1c (s.isEarly 5) s.hbm.retire v 1, uncorr := w1c (s.isEarly 4) s.hbm.uncorr v 0 } }
  | 4 => s.maint v
  | _ => s

/-- EHL_PORT_CTRL: DISABLE, then RETRAIN. -/
def State.portCtrl (s : State) (p v : Nat) : State :=
  let s := after (execPortDisable (BitVec.ofNat 4 p) (bitOf v 1) s) s
  if bitOf v 2 then after (execPortRetrainRequest (BitVec.ofNat 4 p) s) s else s

def State.writeEhl (s : State) (o v : Nat) : State :=
  match o with
  | 0 => { s with ehl := { s.ehl with
      time := w1c (s.isEarly 8) s.ehl.time v 2, unreachF := w1c (s.isEarly 7) s.ehl.unreachF v 1, link := w1c (s.isEarly 6) s.ehl.link v 0 } }
  | 12 => { s with ehl := { s.ehl with reqTimeout := BitVec.ofNat 32 v } }
  | 0x1C => if bitOf v 0 then after (execRouteRestore s) s else s
  | _ => if 0x1000 ≤ o ∧ o < 0x2000 ∧ (o - 0x1000) % 256 = 4 then s.portCtrl ((o - 0x1000) / 256) v else s

/-! ## CCH_ (R24, R25, R81, R107, R199) -/

/-- CCH_DBG_CTRL: READ and WRITE together give no access, and leave CCH_DBG_DATA (DESIGN CHOICE, log entry 99). -/
def State.dbgCtrl (s : State) (c : CoachId) (v : Nat) : State :=
  match bitOf v 0, bitOf v 1 with
  | true, false => after (execDbgRead c s) s
  | false, true => after (execDbgWrite c s) s
  | true, true => if (s.coach c).dbgReq.isSome then s else s.onCoach c fun co => { co with dbgDenied := 3 }
  | false, false => s

/-- CCH_GATE_CTRL: the idle limit, then GATE_NOW. -/
def State.gateCtrl (s : State) (c : CoachId) (v : Nat) : State :=
  let s := s.onCoach c fun co => { co with idleLimit := BitVec.ofNat 16 v }
  if bitOf v 16 then after (execGateNow c s) s else s

def State.writeCoach (s : State) (c : CoachId) (o v : Nat) : State :=
  match o with
  | 0x10 => s.onCoach c fun co => { co with wdogLimit := BitVec.ofNat 32 v }
  | 0x14 => s.onCoach c fun co => { co with deadlock := w1c (co.isEarly 0) co.deadlock v 0 }
  | 0x18 => s.onCoach c fun co => { co with sat := w1c (co.isEarly 1) co.sat v 0 }
  | 0xE0 => s.gateCtrl c v
  | 0x4030 => s.onCoach c fun co => { co with eccUncorr := w1c (co.isEarly 2) co.eccUncorr v 1, eccCorr := w1c (co.isEarly 3) co.eccCorr v 0 }
  | 0x4038 => s.onCoach c fun co => { co with hazard := w1c (co.isEarly 4) co.hazard v 0 }
  | 0x4040 => s.onCoach c fun co => { co with dbgAddr := BitVec.ofNat 22 v }
  | 0x4048 => s.onCoach c fun co => { (co.hit 5 0) with dbgData := BitVec.ofNat 36 v }
  | 0x4050 => s.dbgCtrl c v
  | _ => s

/-! ## BOOT_, SEC_, CLK_ (R386, R390, R407, R413, R426) -/

/-- BOOT_CTRL: COMMIT and DEBUG_EN. -/
def State.bootCtrl (s : State) (v : Nat) : State :=
  let s := if bitOf v 0 then after (execCommit s) s else s
  if bitOf v 1 then after (execDebugEn s) s else s

def State.writeBoot (s : State) (o v : Nat) : State :=
  match o with
  | 0 => { s with boot := { s.boot with sealOpen := w1c (s.isEarly 9) s.boot.sealOpen v 12 } }
  | 8 => { s with boot := { s.boot with updAddr := BitVec.ofNat 40 v } }
  | 0x10 => { s with boot := { s.boot with updLen := BitVec.ofNat 32 v } }
  | 0x14 => if bitOf v 0 then after (execBootUpdate (BitVec.ofNat 2 (bits v 2 1)) s) s else s
  | 0x1C => s.bootCtrl v
  | _ => s

def State.writeSec (s : State) (o v : Nat) : State :=
  match o with
  | 0 => { s with sec := { s.sec with cmdErr := w1c (s.isEarly 11) s.sec.cmdErr v 2, done := w1c (s.isEarly 10) s.sec.done v 0 } }
  | 4 => s.secCommand (bits v 7 0) (bits v 11 8)
  | 8 => if bitOf v 0 then after (execSecAbort s) s else s
  | _ => match arrayAt o 0x4000 4 2048 with
    | some i =>
      if s.sec.running.isSome then s
      else { s with sec := { s.sec with mboxIn := store 0 s.sec.mboxIn i (BitVec.ofNat 32 v) } }
    | none => s

/-- THROTTLE is cleared, and set again at once while a cause persists. -/
def Module.writeThrottle (now : Bool) (m : Module) (v : Nat) : Module :=
  if !(bitOf v 0 && m.throttle) || now then m
  else if m.causeTemp || m.causePower then { m with throttleSet := satInc m.throttleSet }
  else { m with throttle := false }

def State.writeClk (s : State) (o v : Nat) : State :=
  match o with
  | 8 => { s with board := s.board.writeThrottle (s.isEarly 12) v }
  | _ => s

/-! ## All blocks -/

def State.regWrite (s : State) (p : RegPlace) (bits v : Nat) : State :=
  match p with
  | .hif o => s.writeHif o bits v
  | .evt o => s.writeEvt o v
  | .kst o => s.writeKst o v
  | .mem o => s.writeMem o v
  | .ehl o => s.writeEhl o v
  | .coach c o => s.writeCoach c o v
  | .boot o => s.writeBoot o v
  | .sec o => s.writeSec o v
  | .clk o => s.writeClk o v

/-- REGISTER_WRITE: what the access cannot reach has no effect. -/
def execRegisterWrite (off : BitVec 26) (bits : Nat) (value : BitVec 64) (s : State) : Answer :=
  .next (match s.access off.toNat bits with
    | some p => s.regWrite p bits (value.toNat % 2 ^ bits)
    | none => s)

end Sys2Proof.Machine
end

