-- ==== Sys2Proof/Machine/Vec.lean ====
section
/-! DEFINITION. The vector engine: ADD, SUB, MUL, FMA, MIN, MAX, CMP, SEL, CVT (R134 to R136, R143, R216 to R220). -/

namespace Sys2Proof.Machine

open Sys2Proof

/-- The cost class of a VEC instruction (R220). -/
def vecClass (op : VecOp) (a b : Header) : Option Nat :=
  let both := a.isCt && b.isCt
  let one := a.isCt || b.isCt
  match op with
  | .add | .sub => if both then some 0 else if one then some 1 else none
  | .mul | .fma => if both then some 3 else if one then some 2 else none
  | _ => none

/-- A VEC instruction: O = COUNT + 2, L = O + λ (R135). -/
def vecStep (op : VecOp) (c : CoachId) (f : VecF) (s : State) : State :=
  s.issueWith c .vec true fun s =>
  let co := (s.coach c).settle s.clk
  let v := co.engine .vec
  let o := f.count.toNat + 1 + 2
  let l := match op.lambda v.vecCfg.fmt with
    | some x => o + x
    | none => 1 + s.freeNat 4
  let ha := v.hdrField f.hdrA 5
  let hb := v.hdrField f.hdrB 6
  let hdr : HdrAsk :=
    { cls := vecClass op (co.headerRaw ha) (co.headerRaw hb), param := 0, operands := [ha, hb], result := v.hdrField f.hdrR 4 }
  s.dataPath c .vec f.com o l (some hdr) (.vec op f)

/-- ADD. -/
def execAdd (c : CoachId) (f : VecF) (s : State) : Answer := .next (vecStep .add c f s)

/-- SUB. -/
def execSub (c : CoachId) (f : VecF) (s : State) : Answer := .next (vecStep .sub c f s)

/-- MUL. -/
def execMul (c : CoachId) (f : VecF) (s : State) : Answer := .next (vecStep .mul c f s)

/-- FMA. -/
def execFma (c : CoachId) (f : VecF) (s : State) : Answer := .next (vecStep .fma c f s)

/-- MIN. -/
def execMinOp (c : CoachId) (f : VecF) (s : State) : Answer := .next (vecStep .min c f s)

/-- MAX. -/
def execMaxOp (c : CoachId) (f : VecF) (s : State) : Answer := .next (vecStep .max c f s)

/-- CMP. -/
def execCmp (c : CoachId) (f : VecF) (s : State) : Answer := .next (vecStep .cmp c f s)

/-- SEL. -/
def execSel (c : CoachId) (f : VecF) (s : State) : Answer := .next (vecStep .sel c f s)

/-- CVT. -/
def execCvt (c : CoachId) (f : VecF) (s : State) : Answer := .next (vecStep .cvt c f s)

end Sys2Proof.Machine
end

