-- ==== Sys2Proof/Machine/Dispatch.lean ====
section
/-! DEFINITION. The dispatcher: one arm per command. -/

namespace Sys2Proof.Machine

open Sys2Proof

def exec (i : Instr) (s : State) : Host.Outcome State Fault Refusal :=
  match i with
  | .signal c e f => Sys2Proof.Machine.execSignal c e f s
  | .wait c e door count hold => Sys2Proof.Machine.execWait c e door count hold s
  | .shutter c e sid hold => Sys2Proof.Machine.execShutter c e sid hold s
  | .loop c e count body hold => Sys2Proof.Machine.execLoop c e count body hold s
  | .idle c e long => Sys2Proof.Machine.execIdle c e long s
  | .bankpwr c e up mask hold => Sys2Proof.Machine.execBankpwr c e up mask hold s
  | .endPart c e => Sys2Proof.Machine.execEndPart c e s
  | .stride c e value depth pos hold => Sys2Proof.Machine.execStride c e value depth pos hold s
  | .setWord c e payload word hold => Sys2Proof.Machine.execSetWord c e payload word hold s
  | .acct c e f => Sys2Proof.Machine.execAcct c e f s
  | .fwd c f => Sys2Proof.Machine.execFwd c f s
  | .inv c f => Sys2Proof.Machine.execInv c f s
  | .fcol c f => Sys2Proof.Machine.execFcol c f s
  | .frow c f => Sys2Proof.Machine.execFrow c f s
  | .irow c f => Sys2Proof.Machine.execIrow c f s
  | .icol c f => Sys2Proof.Machine.execIcol c f s
  | .kmm c f => Sys2Proof.Machine.execKmm c f s
  | .kew c f => Sys2Proof.Machine.execKew c f s
  | .ktab c src com => Sys2Proof.Machine.execKtab c src com s
  | .add c f => Sys2Proof.Machine.execAdd c f s
  | .sub c f => Sys2Proof.Machine.execSub c f s
  | .mul c f => Sys2Proof.Machine.execMul c f s
  | .fma c f => Sys2Proof.Machine.execFma c f s
  | .minOp c f => Sys2Proof.Machine.execMinOp c f s
  | .maxOp c f => Sys2Proof.Machine.execMaxOp c f s
  | .cmp c f => Sys2Proof.Machine.execCmp c f s
  | .sel c f => Sys2Proof.Machine.execSel c f s
  | .cvt c f => Sys2Proof.Machine.execCvt c f s
  | .decg c f => Sys2Proof.Machine.execDecg c f s
  | .deck c f => Sys2Proof.Machine.execDeck c f s
  | .presc c f => Sys2Proof.Machine.execPresc c f s
  | .bext c f => Sys2Proof.Machine.execBext c f s
  | .bdrop c f => Sys2Proof.Machine.execBdrop c f s
  | .mswb c f => Sys2Proof.Machine.execMswb c f s
  | .extr c f => Sys2Proof.Machine.execExtr c f s
  | .raise c f => Sys2Proof.Machine.execRaise c f s
  | .lower c f => Sys2Proof.Machine.execLower c f s
  | .auto c f => Sys2Proof.Machine.execAuto c f s
  | .rot c f => Sys2Proof.Machine.execRot c f s
  | .trans c f => Sys2Proof.Machine.execTrans c f s
  | .mrot c f => Sys2Proof.Machine.execMrot c f s
  | .gsx c desc com => Sys2Proof.Machine.execGsx c desc com s
  | .sinXfer c desc com => Sys2Proof.Machine.execSinXfer c desc com s
  | .soutXfer c desc com => Sys2Proof.Machine.execSoutXfer c desc com s
  | .kcart c f => Sys2Proof.Machine.execKcart c f s
  | .completionSignal c e => Sys2Proof.Machine.execCompletionSignal c e s
  | .remoteDoorAdd c => Sys2Proof.Machine.execRemoteDoorAdd c s
  | .streamComplete c e => Sys2Proof.Machine.execStreamComplete c e s
  | .deviceShutterRelease task sid => Sys2Proof.Machine.execDeviceShutterRelease task sid s
  | .fabricShutterRelease task sid => Sys2Proof.Machine.execFabricShutterRelease task sid s
  | .digestRecordWrite task => Sys2Proof.Machine.execDigestRecordWrite task s
  | .deadlockWatchdog c => Sys2Proof.Machine.execDeadlockWatchdog c s
  | .taskWatchdog task => Sys2Proof.Machine.execTaskWatchdog task s
  | .runLimit task => Sys2Proof.Machine.execRunLimit task s
  | .taskStart task => Sys2Proof.Machine.execTaskStart task s
  | .coachWake c => Sys2Proof.Machine.execCoachWake c s
  | .coachIdleGate c => Sys2Proof.Machine.execCoachIdleGate c s
  | .gateNow c => Sys2Proof.Machine.execGateNow c s
  | .bankDrainEnd c bank => Sys2Proof.Machine.execBankDrainEnd c bank s
  | .bankWakeEnd c bank => Sys2Proof.Machine.execBankWakeEnd c bank s
  | .spadRowRepair c row => Sys2Proof.Machine.execSpadRowRepair c row s
  | .coachEnd c => Sys2Proof.Machine.execCoachEnd c s
  | .abortReceipt c => Sys2Proof.Machine.execAbortReceipt c s
  | .abortDrainDone c => Sys2Proof.Machine.execAbortDrainDone c s
  | .scrubDone c => Sys2Proof.Machine.execScrubDone c s
  | .abortComplete task => Sys2Proof.Machine.execAbortComplete task s
  | .cartSend q => Sys2Proof.Machine.execCartSend q s
  | .cartArrival c => Sys2Proof.Machine.execCartArrival c s
  | .keyCreditArrival c => Sys2Proof.Machine.execKeyCreditArrival c s
  | .mcastTimeout q r => Sys2Proof.Machine.execMcastTimeout q r s
  | .servingTaskEnd task => Sys2Proof.Machine.execServingTaskEnd task s
  | .grantSlot ch slot err => Sys2Proof.Machine.execGrantSlot ch slot err s
  | .hbmFrameBoundary => Sys2Proof.Machine.execHbmFrameBoundary s
  | .hbmRetrainDone stack ok => Sys2Proof.Machine.execHbmRetrainDone stack ok s
  | .poisonFillDone stack => Sys2Proof.Machine.execPoisonFillDone stack s
  | .evacDone stack => Sys2Proof.Machine.execEvacDone stack s
  | .memMaintRetrain stack ch => Sys2Proof.Machine.execMemMaintRetrain stack ch s
  | .memMaintEvacuate stack ch => Sys2Proof.Machine.execMemMaintEvacuate stack ch s
  | .bar2Read off len => Sys2Proof.Machine.execBar2Read off len s
  | .bar2Write off data => Sys2Proof.Machine.execBar2Write off data s
  | .hifBar2BaseWrite value => Sys2Proof.Machine.execHifBar2BaseWrite value s
  | .sqTailDoorbell off size value => Sys2Proof.Machine.execSqTailDoorbell off size value s
  | .cqHeadDoorbell off size value => Sys2Proof.Machine.execCqHeadDoorbell off size value s
  | .eventHeadDoorbell off size value => Sys2Proof.Machine.execEventHeadDoorbell off size value s
  | .sqEnable ring value => Sys2Proof.Machine.execSqEnable ring value s
  | .cqEnable c value => Sys2Proof.Machine.execCqEnable c value s
  | .eventRingEnable value => Sys2Proof.Machine.execEventRingEnable value s
  | .commandFetch ring error => Sys2Proof.Machine.execCommandFetch ring error s
  | .completionWrite c error => Sys2Proof.Machine.execCompletionWrite c error s
  | .irqDelayExpire vec => Sys2Proof.Machine.execIrqDelayExpire vec s
  | .contextCreate h paramSet => Sys2Proof.Machine.execContextCreate h paramSet s
  | .contextDestroy h context => Sys2Proof.Machine.execContextDestroy h context s
  | .keyRegister h context keyCount dirAddr => Sys2Proof.Machine.execKeyRegister h context keyCount dirAddr s
  | .programLoad h src imageBytes => Sys2Proof.Machine.execProgramLoad h src imageBytes s
  | .taskSubmit h f => Sys2Proof.Machine.execTaskSubmit h f s
  | .taskAbort h upto => Sys2Proof.Machine.execTaskAbort h upto s
  | .fence h ownRing => Sys2Proof.Machine.execFence h ownRing s
  | .groupSet h f => Sys2Proof.Machine.execGroupSet h f s
  | .syncSummary h capacity => Sys2Proof.Machine.execSyncSummary h capacity s
  | .hostMemoryError task region => Sys2Proof.Machine.execHostMemoryError task region s
  | .flr => Sys2Proof.Machine.execFlr s
  | .hotReset => Sys2Proof.Machine.execHotReset s
  | .d3hotEntry => Sys2Proof.Machine.execD3hotEntry s
  | .pcieLinkDown => Sys2Proof.Machine.execPcieLinkDown s
  | .d3cold => Sys2Proof.Machine.execD3cold s
  | .perstAssert low => Sys2Proof.Machine.execPerstAssert low s
  | .powerGood => Sys2Proof.Machine.execPowerGood s
  | .vinUndervoltage => Sys2Proof.Machine.execVinUndervoltage s
  | .vinOvervoltage => Sys2Proof.Machine.execVinOvervoltage s
  | .thermalSample r => Sys2Proof.Machine.execThermalSample r s
  | .shutdownRelease => Sys2Proof.Machine.execShutdownRelease s
  | .maintEnChange fitted => Sys2Proof.Machine.execMaintEnChange fitted s
  | .sealCheck returned => Sys2Proof.Machine.execSealCheck returned s
  | .bootUpdate kind => Sys2Proof.Machine.execBootUpdate kind s
  | .updateDone nvmOk => Sys2Proof.Machine.execUpdateDone nvmOk s
  | .commit => Sys2Proof.Machine.execCommit s
  | .debugEn => Sys2Proof.Machine.execDebugEn s
  | .dbgRead c => Sys2Proof.Machine.execDbgRead c s
  | .dbgWrite c => Sys2Proof.Machine.execDbgWrite c s
  | .dbgDone c => Sys2Proof.Machine.execDbgDone c s
  | .kstSplitWrite value => Sys2Proof.Machine.execKstSplitWrite value s
  | .splitApply => Sys2Proof.Machine.execSplitApply s
  | .routeRestore => Sys2Proof.Machine.execRouteRestore s
  | .routeRestoreApply => Sys2Proof.Machine.execRouteRestoreApply s
  | .portRetrainRequest p => Sys2Proof.Machine.execPortRetrainRequest p s
  | .portDisable p disable => Sys2Proof.Machine.execPortDisable p disable s
  | .lossOfSignal p => Sys2Proof.Machine.execLossOfSignal p s
  | .portTrainAttempt p signalLanes => Sys2Proof.Machine.execPortTrainAttempt p signalLanes s
  | .trainingEnd p ok => Sys2Proof.Machine.execTrainingEnd p ok s
  | .capabilityExchange p r => Sys2Proof.Machine.execCapabilityExchange p r s
  | .negotiateTimeout p => Sys2Proof.Machine.execNegotiateTimeout p s
  | .heldRetry p r => Sys2Proof.Machine.execHeldRetry p r s
  | .portRetrainEnd p ok => Sys2Proof.Machine.execPortRetrainEnd p ok s
  | .flitCrcError p => Sys2Proof.Machine.execFlitCrcError p s
  | .nak p ack => Sys2Proof.Machine.execNak p ack s
  | .linkCreditReturn p vc amount ack => Sys2Proof.Machine.execLinkCreditReturn p vc amount ack s
  | .writePkt p k => Sys2Proof.Machine.execWritePkt p k s
  | .readReq p k => Sys2Proof.Machine.execReadReq p k s
  | .readRsp p k => Sys2Proof.Machine.execReadRsp p k s
  | .cart p k => Sys2Proof.Machine.execCart p k s
  | .cartCredit p k => Sys2Proof.Machine.execCartCredit p k s
  | .shutArrive p k => Sys2Proof.Machine.execShutArrive p k s
  | .abortPkt p k => Sys2Proof.Machine.execAbortPkt p k s
  | .taskLost p k => Sys2Proof.Machine.execTaskLost p k s
  | .unreach p k => Sys2Proof.Machine.execUnreach p k s
  | .reachableTimeout node => Sys2Proof.Machine.execReachableTimeout node s
  | .remoteReqTimeout reqId => Sys2Proof.Machine.execRemoteReqTimeout reqId s
  | .syncExchange p parentTime delay2 => Sys2Proof.Machine.execSyncExchange p parentTime delay2 s
  | .timeHoldover => Sys2Proof.Machine.execTimeHoldover s
  | .timeStep => Sys2Proof.Machine.execTimeStep s
  | .eventRecord source => Sys2Proof.Machine.execEventRecord source s
  | .eventRingWrite error => Sys2Proof.Machine.execEventRingWrite error s
  | .identityPub => Sys2Proof.Machine.execIdentityPub s
  | .bakCert => Sys2Proof.Machine.execBakCert s
  | .bakRotate => Sys2Proof.Machine.execBakRotate s
  | .quote => Sys2Proof.Machine.execQuote s
  | .sessionOpen => Sys2Proof.Machine.execSessionOpen s
  | .sessionQuote session => Sys2Proof.Machine.execSessionQuote session s
  | .sessionClose session => Sys2Proof.Machine.execSessionClose session s
  | .secAbort => Sys2Proof.Machine.execSecAbort s
  | .secDone => Sys2Proof.Machine.execSecDone s
  | .smbusDieTemp => Sys2Proof.Machine.execSmbusDieTemp s
  | .smbusStackTemp => Sys2Proof.Machine.execSmbusStackTemp s
  | .smbusPower => Sys2Proof.Machine.execSmbusPower s
  | .smbusStatus => Sys2Proof.Machine.execSmbusStatus s
  | .smbusSlot => Sys2Proof.Machine.execSmbusSlot s
  | .smbusAlertResponse => Sys2Proof.Machine.execSmbusAlertResponse s
  | .bypass => Sys2Proof.Machine.execBypass s
  | .idcode => Sys2Proof.Machine.execIdcode s
  | .samplePreload => Sys2Proof.Machine.execSamplePreload s
  | .extest => Sys2Proof.Machine.execExtest s
  | .uartRx ch => Sys2Proof.Machine.execUartRx ch s
  | .registerWrite off bits value => Sys2Proof.Machine.execRegisterWrite off bits value s
  | .rcRead off bits => Sys2Proof.Machine.execRcRead off bits s
  | .vinTurnOn => Sys2Proof.Machine.execVinTurnOn s
  | .perstRelease => Sys2Proof.Machine.execPerstRelease s
  | .pcieLinkUp fullRate => Sys2Proof.Machine.execPcieLinkUp fullRate s
  | .d3hotExit => Sys2Proof.Machine.execD3hotExit s
  | .configurationRequest => Sys2Proof.Machine.execConfigurationRequest s
  | .hostMemoryCompletion c => Sys2Proof.Machine.execHostMemoryCompletion c s
  | .programLoadDone sq => Sys2Proof.Machine.execProgramLoadDone sq s
  | .keyRegisterDone sq => Sys2Proof.Machine.execKeyRegisterDone sq s
  | .syncSummaryDone => Sys2Proof.Machine.execSyncSummaryDone s
  | .pllLockLoss root phy => Sys2Proof.Machine.execPllLockLoss root phy s

end Sys2Proof.Machine
end

