-- ==== Sys2Proof/Machine/Encoding.lean ====
section
/-! DEFINITION. The words of engine instructions and of host commands: their encodings by the tables of R200 to R224 and
R334 to R346, the reading of a word as a command, and the instruction an engine's program holds at its PC. -/

namespace Sys2Proof.Machine

open Sys2Proof

/-! ## Engine instructions: the fields of each format -/

/-- Bits [29:0] of a data-path instruction (R200). -/
def commonWord (op : Nat) (k : Common) : Nat :=
  op + k.hold.toNat * 2 ^ 6 + k.csAmt.toNat * 2 ^ 18 + k.csDoor.toNat * 2 ^ 21 + flag k.csRem * 2 ^ 29

def commonOf (w : Nat) : Common :=
  { csRem := bitOf w 29, csDoor := BitVec.ofNat 8 (bits w 28 21), csAmt := BitVec.ofNat 3 (bits w 20 18)
    hold := BitVec.ofNat 12 (bits w 17 6) }

/-- A configuration or control instruction: opcode and HOLD (R200, R201). -/
def plainWord (op : Nat) (hold : BitVec 12) : Nat := op + hold.toNat * 2 ^ 6

/-- NTE instructions (R212). -/
def nteWord (op : Nat) (f : NteF) : Nat :=
  commonWord op f.com + f.src.toNat * 2 ^ 30 + f.dst.toNat * 2 ^ 46 + f.tw.toNat * 2 ^ 62 + f.hdr.toNat * 2 ^ 78 +
    f.count.toNat * 2 ^ 90 + f.logN.toNat * 2 ^ 96 + f.pset.toNat * 2 ^ 100 + f.prime.toNat * 2 ^ 108 +
    f.pseq.toNat * 2 ^ 114 + flag f.push * 2 ^ 116 + flag f.drain * 2 ^ 117

def nteOf (w : Nat) : NteF :=
  { drain := bitOf w 117, push := bitOf w 116, pseq := BitVec.ofNat 2 (bits w 115 114),
    prime := BitVec.ofNat 6 (bits w 113 108), pset := BitVec.ofNat 8 (bits w 107 100),
    logN := BitVec.ofNat 4 (bits w 99 96), count := BitVec.ofNat 6 (bits w 95 90),
    hdr := BitVec.ofNat 12 (bits w 89 78), tw := BitVec.ofNat 16 (bits w 77 62), dst := BitVec.ofNat 16 (bits w 61 46),
    src := BitVec.ofNat 16 (bits w 45 30), com := commonOf w }

/-- KMM and KEW (R213). -/
def ksaWord (op : Nat) (f : KsaF) : Nat :=
  commonWord op f.com + f.a.toNat * 2 ^ 30 + f.b.toNat * 2 ^ 46 + f.dst.toNat * 2 ^ 62 + f.hdrR.toNat * 2 ^ 78 +
    f.hdrA.toNat * 2 ^ 90 + f.t.toNat * 2 ^ 102 + f.cls.toNat * 2 ^ 112 + flag f.exit * 2 ^ 116 +
    flag f.accIn * 2 ^ 117 + flag f.push * 2 ^ 118 + flag f.drainA * 2 ^ 119 + flag f.drainB * 2 ^ 120

def ksaOf (w : Nat) : KsaF :=
  { drainB := bitOf w 120, drainA := bitOf w 119, push := bitOf w 118, accIn := bitOf w 117, exit := bitOf w 116,
    cls := BitVec.ofNat 4 (bits w 115 112), t := BitVec.ofNat 10 (bits w 111 102),
    hdrA := BitVec.ofNat 12 (bits w 101 90), hdrR := BitVec.ofNat 12 (bits w 89 78),
    dst := BitVec.ofNat 16 (bits w 77 62), b := BitVec.ofNat 16 (bits w 61 46), a := BitVec.ofNat 16 (bits w 45 30),
    com := commonOf w }

/-- VEC instructions (R216). -/
def vecWord (op : Nat) (f : VecF) : Nat :=
  commonWord op f.com + f.a.toNat * 2 ^ 30 + f.b.toNat * 2 ^ 46 + f.dst.toNat * 2 ^ 62 + f.hdrR.toNat * 2 ^ 78 +
    f.hdrA.toNat * 2 ^ 90 + f.hdrB.toNat * 2 ^ 102 + f.count.toNat * 2 ^ 114 + flag f.drainA * 2 ^ 126 +
    flag f.drainB * 2 ^ 127

def vecOf (w : Nat) : VecF :=
  { drainB := bitOf w 127, drainA := bitOf w 126, count := BitVec.ofNat 12 (bits w 125 114),
    hdrB := BitVec.ofNat 12 (bits w 113 102), hdrA := BitVec.ofNat 12 (bits w 101 90),
    hdrR := BitVec.ofNat 12 (bits w 89 78), dst := BitVec.ofNat 16 (bits w 77 62), b := BitVec.ofNat 16 (bits w 61 46),
    a := BitVec.ofNat 16 (bits w 45 30), com := commonOf w }

/-- DBU instructions (R221). -/
def dbuWord (op : Nat) (f : DbuF) : Nat :=
  commonWord op f.com + f.src.toNat * 2 ^ 30 + f.dst.toNat * 2 ^ 46 + f.aux.toNat * 2 ^ 62 + f.hdr.toNat * 2 ^ 78 +
    f.count.toNat * 2 ^ 90 + f.pc.toNat * 2 ^ 101 + f.pb.toNat * 2 ^ 107 + f.pa.toNat * 2 ^ 113 +
    f.pset.toNat * 2 ^ 119 + flag f.drain * 2 ^ 127

def dbuOf (w : Nat) : DbuF :=
  { drain := bitOf w 127, pset := BitVec.ofNat 8 (bits w 126 119), pa := BitVec.ofNat 6 (bits w 118 113),
    pb := BitVec.ofNat 6 (bits w 112 107), pc := BitVec.ofNat 6 (bits w 106 101),
    count := BitVec.ofNat 11 (bits w 100 90), hdr := BitVec.ofNat 12 (bits w 89 78),
    aux := BitVec.ofNat 16 (bits w 77 62), dst := BitVec.ofNat 16 (bits w 61 46),
    src := BitVec.ofNat 16 (bits w 45 30), com := commonOf w }

/-- AUTO (R223). -/
def autoWord (op : Nat) (f : AutoF) : Nat :=
  commonWord op f.com + f.src.toNat * 2 ^ 30 + f.dst.toNat * 2 ^ 46 + f.hdr.toNat * 2 ^ 62 + f.galois.toNat * 2 ^ 74 +
    f.count.toNat * 2 ^ 91 + f.logN.toNat * 2 ^ 97 + f.pset.toNat * 2 ^ 101 + f.prime.toNat * 2 ^ 109 +
    f.pseq.toNat * 2 ^ 115 + f.order.toNat * 2 ^ 117 + flag f.drain * 2 ^ 119

def autoOf (w : Nat) : AutoF :=
  { drain := bitOf w 119, order := BitVec.ofNat 2 (bits w 118 117), pseq := BitVec.ofNat 2 (bits w 116 115),
    prime := BitVec.ofNat 6 (bits w 114 109), pset := BitVec.ofNat 8 (bits w 108 101),
    logN := BitVec.ofNat 4 (bits w 100 97), count := BitVec.ofNat 6 (bits w 96 91),
    galois := BitVec.ofNat 17 (bits w 90 74), hdr := BitVec.ofNat 12 (bits w 73 62),
    dst := BitVec.ofNat 16 (bits w 61 46), src := BitVec.ofNat 16 (bits w 45 30), com := commonOf w }

/-- ROT (R223). -/
def rotWord (op : Nat) (f : RotF) : Nat :=
  commonWord op f.com + f.src.toNat * 2 ^ 30 + f.dst.toNat * 2 ^ 46 + f.hdr.toNat * 2 ^ 62 + f.c.toNat * 2 ^ 74 +
    f.amount.toNat * 2 ^ 86 + flag f.drain * 2 ^ 104

def rotOf (w : Nat) : RotF :=
  { drain := bitOf w 104, amount := BitVec.ofNat 18 (bits w 103 86), c := BitVec.ofNat 12 (bits w 85 74),
    hdr := BitVec.ofNat 12 (bits w 73 62), dst := BitVec.ofNat 16 (bits w 61 46),
    src := BitVec.ofNat 16 (bits w 45 30), com := commonOf w }

/-- TRANS (R223). -/
def transWord (op : Nat) (f : TransF) : Nat :=
  commonWord op f.com + f.src.toNat * 2 ^ 30 + f.dst.toNat * 2 ^ 46 + f.hdr.toNat * 2 ^ 62 + f.dstride.toNat * 2 ^ 74 +
    f.sstride.toNat * 2 ^ 90 + f.t.toNat * 2 ^ 106 + flag f.drain * 2 ^ 114

def transOf (w : Nat) : TransF :=
  { drain := bitOf w 114, t := BitVec.ofNat 8 (bits w 113 106), sstride := BitVec.ofNat 16 (bits w 105 90),
    dstride := BitVec.ofNat 16 (bits w 89 74), hdr := BitVec.ofNat 12 (bits w 73 62),
    dst := BitVec.ofNat 16 (bits w 61 46), src := BitVec.ofNat 16 (bits w 45 30), com := commonOf w }

/-- MROT (R223). -/
def mrotWord (op : Nat) (f : MrotF) : Nat :=
  commonWord op f.com + f.src.toNat * 2 ^ 30 + f.dst.toNat * 2 ^ 46 + f.amtBase.toNat * 2 ^ 62 +
    f.amtIndex.toNat * 2 ^ 84 + f.amtStride.toNat * 2 ^ 94 + f.pset.toNat * 2 ^ 106 + f.count.toNat * 2 ^ 114 +
    f.logN.toNat * 2 ^ 120 + flag f.neg * 2 ^ 124

def mrotOf (w : Nat) : MrotF :=
  { neg := bitOf w 124, logN := BitVec.ofNat 4 (bits w 123 120), count := BitVec.ofNat 6 (bits w 119 114),
    pset := BitVec.ofNat 8 (bits w 113 106), amtStride := BitVec.ofNat 12 (bits w 105 94),
    amtIndex := BitVec.ofNat 10 (bits w 93 84), amtBase := BitVec.ofNat 22 (bits w 83 62),
    dst := BitVec.ofNat 16 (bits w 61 46), src := BitVec.ofNat 16 (bits w 45 30), com := commonOf w }

/-- KCART (R224). -/
def kcartWord (op : Nat) (f : KcartF) : Nat :=
  commonWord op f.com + f.keyIndex.toNat * 2 ^ 30 + f.cart.toNat * 2 ^ 46 + f.count.toNat * 2 ^ 62 +
    f.rbase.toNat * 2 ^ 72 + f.ring.toNat * 2 ^ 82 + f.roff.toNat * 2 ^ 92 + f.hdr.toNat * 2 ^ 102

def kcartOf (w : Nat) : KcartF :=
  { hdr := BitVec.ofNat 12 (bits w 113 102), roff := BitVec.ofNat 10 (bits w 101 92),
    ring := BitVec.ofNat 10 (bits w 91 82), rbase := BitVec.ofNat 10 (bits w 81 72),
    count := BitVec.ofNat 10 (bits w 71 62), cart := BitVec.ofNat 16 (bits w 61 46),
    keyIndex := BitVec.ofNat 16 (bits w 45 30), com := commonOf w }

/-- ACCT (R211). -/
def acctWord (op : Nat) (f : AcctF) : Nat :=
  commonWord op f.com + f.hdrR.toNat * 2 ^ 30 + f.hdrA.toNat * 2 ^ 42 + f.hdrB.toNat * 2 ^ 54 + f.cls.toNat * 2 ^ 66 +
    f.param.toNat * 2 ^ 70

def acctOf (w : Nat) : AcctF :=
  { param := BitVec.ofNat 32 (bits w 101 70), cls := BitVec.ofNat 4 (bits w 69 66),
    hdrB := BitVec.ofNat 12 (bits w 65 54), hdrA := BitVec.ofNat 12 (bits w 53 42),
    hdrR := BitVec.ofNat 12 (bits w 41 30), com := commonOf w }

/-! ## Engine instructions -/

/-- The coach, the engine and the 128-bit word of an engine instruction (R200 to R224); no other command has one. -/
def instrWord : Instr → Option (CoachId × Engine × Nat)
  | .signal c e f => some (c, e, plainWord 1 f.hold + f.amount.toNat * 2 ^ 30 + f.door.toNat * 2 ^ 46 +
      f.coach.toNat * 2 ^ 54 + flag f.remote * 2 ^ 60)
  | .wait c e door count hold => some (c, e, plainWord 2 hold + count.toNat * 2 ^ 30 + door.toNat * 2 ^ 46)
  | .shutter c e sid hold => some (c, e, plainWord 3 hold + sid.toNat * 2 ^ 30)
  | .loop c e count body hold => some (c, e, plainWord 4 hold + body.toNat * 2 ^ 30 + count.toNat * 2 ^ 43)
  | .idle c e long => some (c, e, 5 + long.toNat * 2 ^ 6)
  | .bankpwr c e up mask hold => some (c, e, plainWord 6 hold + mask.toNat * 2 ^ 30 + flag up * 2 ^ 62)
  | .endPart c e => some (c, e, 7)
  | .stride c e value depth pos hold => some (c, e, plainWord 8 hold + pos.toNat * 2 ^ 30 + depth.toNat * 2 ^ 33 +
      value.toNat * 2 ^ 35)
  | .setWord c e payload word hold => some (c, e, plainWord 9 hold + word.toNat * 2 ^ 30 + payload.toNat * 2 ^ 32)
  | .acct c e f => some (c, e, acctWord 10 f)
  | .fwd c f => some (c, .nte, nteWord 16 f)
  | .inv c f => some (c, .nte, nteWord 17 f)
  | .fcol c f => some (c, .nte, nteWord 18 f)
  | .frow c f => some (c, .nte, nteWord 19 f)
  | .irow c f => some (c, .nte, nteWord 20 f)
  | .icol c f => some (c, .nte, nteWord 21 f)
  | .kmm c f => some (c, .ksa, ksaWord 16 f)
  | .kew c f => some (c, .ksa, ksaWord 17 f)
  | .add c f => some (c, .vec, vecWord 16 f)
  | .sub c f => some (c, .vec, vecWord 17 f)
  | .mul c f => some (c, .vec, vecWord 18 f)
  | .fma c f => some (c, .vec, vecWord 19 f)
  | .minOp c f => some (c, .vec, vecWord 20 f)
  | .maxOp c f => some (c, .vec, vecWord 21 f)
  | .cmp c f => some (c, .vec, vecWord 22 f)
  | .sel c f => some (c, .vec, vecWord 23 f)
  | .cvt c f => some (c, .vec, vecWord 24 f)
  | .decg c f => some (c, .dbu, dbuWord 16 f)
  | .deck c f => some (c, .dbu, dbuWord 17 f)
  | .presc c f => some (c, .dbu, dbuWord 18 f)
  | .bext c f => some (c, .dbu, dbuWord 19 f)
  | .bdrop c f => some (c, .dbu, dbuWord 20 f)
  | .mswb c f => some (c, .dbu, dbuWord 21 f)
  | .extr c f => some (c, .dbu, dbuWord 22 f)
  | .raise c f => some (c, .dbu, dbuWord 23 f)
  | .lower c f => some (c, .dbu, dbuWord 24 f)
  | .ktab c src com => some (c, .ksa, commonWord 18 com + src.toNat * 2 ^ 30)
  | .auto c f => some (c, .pxu, autoWord 16 f)
  | .rot c f => some (c, .pxu, rotWord 17 f)
  | .trans c f => some (c, .pxu, transWord 18 f)
  | .mrot c f => some (c, .pxu, mrotWord 19 f)
  | .gsx c d com => some (c, .pxu, commonWord 20 com + d.toNat * 2 ^ 30)
  | .sinXfer c d com => some (c, .sin, commonWord 16 com + d.toNat * 2 ^ 30)
  | .soutXfer c d com => some (c, .sout, commonWord 16 com + d.toNat * 2 ^ 30)
  | .kcart c f => some (c, .kin, kcartWord 16 f)
  | _ => none

/-- The instruction that the opcode and the fields of a word give for an engine of a coach; none where the engine has no such
opcode (R209). -/
def fieldsOf (c : CoachId) (e : Engine) (w : Nat) : Option Instr :=
  match bits w 5 0 with
  | 1 => some (.signal c e { remote := bitOf w 60, coach := BitVec.ofNat 6 (bits w 59 54), door := BitVec.ofNat 8 (bits w 53 46)
                             amount := BitVec.ofNat 16 (bits w 45 30), hold := BitVec.ofNat 12 (bits w 17 6) })
  | 2 => some (.wait c e (BitVec.ofNat 8 (bits w 53 46)) (BitVec.ofNat 16 (bits w 45 30)) (BitVec.ofNat 12 (bits w 17 6)))
  | 3 => some (.shutter c e (BitVec.ofNat 4 (bits w 33 30)) (BitVec.ofNat 12 (bits w 17 6)))
  | 4 => some (.loop c e (BitVec.ofNat 24 (bits w 66 43)) (BitVec.ofNat 13 (bits w 42 30)) (BitVec.ofNat 12 (bits w 17 6)))
  | 5 => some (.idle c e (BitVec.ofNat 24 (bits w 29 6)))
  | 6 => some (.bankpwr c e (bitOf w 62) (BitVec.ofNat 32 (bits w 61 30)) (BitVec.ofNat 12 (bits w 17 6)))
  | 7 => some (.endPart c e)
  | 8 => some (.stride c e (BitVec.ofNat 16 (bits w 50 35)) (BitVec.ofNat 2 (bits w 34 33)) (BitVec.ofNat 3 (bits w 32 30))
      (BitVec.ofNat 12 (bits w 17 6)))
  | 9 => some (.setWord c e (BitVec.ofNat 96 (bits w 127 32)) (BitVec.ofNat 2 (bits w 31 30)) (BitVec.ofNat 12 (bits w 17 6)))
  | 10 => if eid e ≤ 4 then some (.acct c e (acctOf w)) else none
  | op => match e, op with
    | .nte, 16 => some (.fwd c (nteOf w))
    | .nte, 17 => some (.inv c (nteOf w))
    | .nte, 18 => some (.fcol c (nteOf w))
    | .nte, 19 => some (.frow c (nteOf w))
    | .nte, 20 => some (.irow c (nteOf w))
    | .nte, 21 => some (.icol c (nteOf w))
    | .ksa, 16 => some (.kmm c (ksaOf w))
    | .ksa, 17 => some (.kew c (ksaOf w))
    | .vec, 16 => some (.add c (vecOf w))
    | .vec, 17 => some (.sub c (vecOf w))
    | .vec, 18 => some (.mul c (vecOf w))
    | .vec, 19 => some (.fma c (vecOf w))
    | .vec, 20 => some (.minOp c (vecOf w))
    | .vec, 21 => some (.maxOp c (vecOf w))
    | .vec, 22 => some (.cmp c (vecOf w))
    | .vec, 23 => some (.sel c (vecOf w))
    | .vec, 24 => some (.cvt c (vecOf w))
    | .dbu, 16 => some (.decg c (dbuOf w))
    | .dbu, 17 => some (.deck c (dbuOf w))
    | .dbu, 18 => some (.presc c (dbuOf w))
    | .dbu, 19 => some (.bext c (dbuOf w))
    | .dbu, 20 => some (.bdrop c (dbuOf w))
    | .dbu, 21 => some (.mswb c (dbuOf w))
    | .dbu, 22 => some (.extr c (dbuOf w))
    | .dbu, 23 => some (.raise c (dbuOf w))
    | .dbu, 24 => some (.lower c (dbuOf w))
    | .ksa, 18 => some (.ktab c (BitVec.ofNat 16 (bits w 45 30)) (commonOf w))
    | .pxu, 16 => some (.auto c (autoOf w))
    | .pxu, 17 => some (.rot c (rotOf w))
    | .pxu, 18 => some (.trans c (transOf w))
    | .pxu, 19 => some (.mrot c (mrotOf w))
    | .pxu, 20 => some (.gsx c (BitVec.ofNat 10 (bits w 39 30)) (commonOf w))
    | .sin, 16 => some (.sinXfer c (BitVec.ofNat 10 (bits w 39 30)) (commonOf w))
    | .sout, 16 => some (.soutXfer c (BitVec.ofNat 10 (bits w 39 30)) (commonOf w))
    | .kin, 16 => some (.kcart c (kcartOf w))
    | _, _ => none

/-- A word with what it ignores at zero: HOLD of END (R210). -/
def wordRead (w : Nat) : Nat := if bits w 5 0 = 7 then w - bits w 17 6 * 2 ^ 6 else w

/-- The instruction that a word is for an engine of a coach; none where the engine has no such opcode or a reserved field is not
zero (R202). -/
def instrOf (c : CoachId) (e : Engine) (w : Nat) : Option Instr :=
  (fieldsOf c e w).filter fun i => (instrWord i).any fun x => decide (x.2.2 = wordRead w)

/-- The instruction that an engine's program holds at its PC. -/
def State.nextInstr (s : State) (c : CoachId) (e : Engine) : Option Instr :=
  instrOf c e ((s.coach c).wordAt e ((s.coach c).engine e).pc)

/-- An instruction stands on an engine that has its opcode: only the engines of the data path have ACCT (R211). -/
def hasOpcode : Instr → Bool
  | .acct _ e _ => eid e ≤ 4
  | _ => true

/-! ## Host commands -/

/-- The 1,024-bit word of a host command (R334, R337, R340, R344 to R346); no other command has one. -/
def commandWord : Instr → Option Nat
  | .contextCreate h p => some (contextCreateWord h p)
  | .contextDestroy h c => some (contextDestroyWord h c)
  | .keyRegister h c n a => some (keyRegisterWord h c n a)
  | .programLoad h src n => some (programLoadWord h src n)
  | .taskSubmit h f => some (taskWord h f)
  | .taskAbort h upto => some (taskAbortWord h upto)
  | .fence h own => some (fenceWord h own)
  | .groupSet h f => some (groupWord h f)
  | .syncSummary h n => some (syncSummaryWord h n)
  | _ => none

/-- TASK_SUBMIT's fields (R340). -/
def taskOf (w : Nat) : TaskF :=
  { seed := BitVec.ofNat 128 (bits w 575 448), digestAddr := BitVec.ofNat 64 (bits w 447 384)
    digestCap := BitVec.ofNat 32 (bits w 383 352), runLimit := BitVec.ofNat 48 (bits w 351 304)
    margin := BitVec.ofNat 32 (bits w 303 272), keylistAddr := BitVec.ofNat 40 (bits w 263 224)
    keylistCount := BitVec.ofNat 16 (bits w 223 208), ftag := BitVec.ofNat 16 (bits w 207 192)
    minor := BitVec.ofNat 8 (bits w 190 183), devices := BitVec.ofNat 12 (bits w 182 171)
    nCtx := BitVec.ofNat 7 (bits w 170 164), perCoach := bitOf w 163, hazard := bitOf w 162
    mode := BitVec.ofNat 2 (bits w 161 160), programId := BitVec.ofNat 32 (bits w 159 128) }

/-- GROUP_SET's fields (R345). -/
def groupOf (w : Nat) : GroupF :=
  { members := BitVec.ofNat 12 (bits w 187 176), portMask := BitVec.ofNat 16 (bits w 175 160)
    source := BitVec.ofNat 12 (bits w 155 144), role := BitVec.ofNat 2 (bits w 142 141), delete := bitOf w 140
    group := BitVec.ofNat 12 (bits w 139 128) }

/-- The command that a word fetched from a ring is; none where the opcode is none of R334's. -/
def commandOf (ring index w : Nat) : Option Instr :=
  let h := cmdHdrOf ring index w
  match bits w 7 0 with
  | 1 => some (.contextCreate h (BitVec.ofNat 8 (bits w 135 128)))
  | 2 => some (.contextDestroy h (BitVec.ofNat 14 (bits w 141 128)))
  | 3 => some (.keyRegister h (BitVec.ofNat 14 (bits w 141 128)) (BitVec.ofNat 16 (bits w 159 144))
      (BitVec.ofNat 40 (bits w 199 160)))
  | 4 => some (.programLoad h (bitOf w 128) (BitVec.ofNat 32 (bits w 191 160)))
  | 5 => some (.taskSubmit h (taskOf w))
  | 6 => some (.taskAbort h (bitOf w 128))
  | 7 => some (.fence h (bitOf w 128))
  | 8 => some (.groupSet h (groupOf w))
  | 9 => some (.syncSummary h (BitVec.ofNat 32 (bits w 159 128)))
  | _ => none

/-- The header of a host command. -/
def commandHeader : Instr → Option CmdHdr
  | .contextCreate h _ => some h
  | .contextDestroy h _ => some h
  | .keyRegister h _ _ _ => some h
  | .programLoad h _ _ => some h
  | .taskSubmit h _ => some h
  | .taskAbort h _ => some h
  | .fence h _ => some h
  | .groupSet h _ => some h
  | .syncSummary h _ => some h
  | _ => none

/-- The command that stands fetched at a ring (R331). -/
def State.fetchedCommand (s : State) (ring : Nat) : Option Instr :=
  match (s.sq ring).fetched with
  | some (index, w) => commandOf ring index.toNat w.toNat
  | none => none

end Sys2Proof.Machine
end

