-- ==== Sys2Proof/Safety.lean ====
section
/-! DEFINITION. What holds of every state that a run reaches from a state that has it, and what a safe step is. -/

namespace Sys2Proof.Machine

open Sys2Proof

/-- The invariant of the machine: both memories stand in their canonical form, and the BAR2 window lies wholly below
992 GiB (R328). -/
structure State.Inv (s : State) : Prop where
  host : Memory.wf s.host = true
  hbm : Memory.wf s.hbm.data = true
  window : s.hif.bar2Gib.toNat ≤ 928

/-- A safe outcome: the machine goes on, in a state with the invariant. -/
def SafeOutcome : Answer → Prop
  | .next t => t.Inv
  | .fault _ => False
  | .refused _ => False

/-- Both memories read alike at every address. -/
def SameMemory (s t : State) : Prop :=
  (∀ a, t.hbmByte a = s.hbmByte a) ∧ ∀ a, t.hostByte a = s.hostByte a

/-- What a row of the scratchpad holds once the writes under way have been made. -/
def Coach.row (co : Coach) (r : Nat) : Carriage := look 0 co.landed r

/-- No write to a row is under way. -/
def Coach.calm (co : Coach) (r : Nat) : Prop := ∀ a ∈ co.accs, a.write = true → a.row ≠ r

/-- Engine `e` may read the row of a place, and the row's content is settled in clk `clk` (R87, R111). Whether the bank serves the
access is judged in the clk of the access (`State.serveAcc`). -/
def Coach.readable (co : Coach) (e : Engine) (clk : Nat) (p : Place) : Prop :=
  mayRead p.entry.kind e = true ∧ look 0 co.spadDue p.row ≤ clk ∧ co.calm p.row

/-- Engine `e` may write the row of a place, to which no other write is under way (R87). -/
def Coach.writable (co : Coach) (e : Engine) (p : Place) : Prop := mayWrite p.entry.kind e = true ∧ co.calm p.row

/-- A data-path instruction can issue on engine `e` of coach `c`, and no earlier than R111 asks: `State.atIssue` is the state in
the clk of the issue (R175). -/
def State.onTime (s : State) (c : CoachId) (e : Engine) : Prop :=
  (s.coach c).canIssue e true = true ∧ (((s.atIssue c e).coach c).engine e).busyUntil ≤ (s.atIssue c e).clk

/-- Every carriage of the source may be read and every carriage of the destination written; no row is in both runs, and
no row twice in the destination (R112). -/
def Coach.canMove (co : Coach) (e : Engine) (clk : Nat) (src dst : Run) (so dsto : List Int) : Prop :=
  (∀ o ∈ so, ∃ p, src.place o = some p ∧ co.readable e clk p) ∧
  (∀ o ∈ dsto, ∃ p, dst.place o = some p ∧ co.writable e p) ∧
  (∀ r ∈ src.rows so, r ∉ dst.rows dsto) ∧ (dst.rows dsto).Nodup

/-- Coach `b` is coach `a` but for what a data-path instruction may change in the clk of its issue: what is planned, with the clk from
which rows and registers may be read, registers of data, headers and key tags, engines, signals under way and counts. The rows
themselves, fill bits, banks, tiles, doors, program slots, contexts, the modulus table, reports, stall counters and every setting
are the same. -/
def Coach.Alike (a b : Coach) : Prop :=
  b = { a with
    accs := b.accs, opens := b.opens, spadDue := b.spadDue, vregDue := b.vregDue, actDue := b.actDue, vregs := b.vregs
    accMem := b.accMem, actTable := b.actTable, engines := b.engines, headers := b.headers, hdrLate := b.hdrLate
    regionTags := b.regionTags, tagLate := b.tagLate, poisonCount := b.poisonCount, first := b.first, mismatch := b.mismatch
    mismatchRaised := b.mismatchRaised, sigs := b.sigs, early := b.early }

/-- What every data-path instruction of engine `e` of coach `c` leaves alone: its coach but for data and books, the other engines
(SOUT takes the header images whose clk has come), the other coaches, and all of the device but for tasks, events and free
values. -/
structure Elsewhere (c : CoachId) (e : Engine) (s t : State) : Prop where
  coach : (s.coach c).Alike (t.coach c)
  engine : ∀ f, f ≠ e → (t.coach c).engine f = (s.coach c).engine f ∨
    (t.coach c).engine f = ((s.coach c).takeImages s.clk).engine f
  others : ∀ d, d ≠ c → t.coach d = s.coach d
  rest : t = { s with freeCtr := t.freeCtr, coaches := t.coaches, tasks := t.tasks, evt := t.evt }

/-- Registers of data of a coach: the vector registers, the accumulators and the activation table. -/
def Coach.SameRegisters (a b : Coach) : Prop := b.vregs = a.vregs ∧ b.accMem = a.accMem ∧ b.actTable = a.actTable

/-- What a data-path instruction of engine `e` of coach `c` leaves alone when it changes no row outside `S` and no
register of data. -/
structure OnlyRows (c : CoachId) (e : Engine) (S : Nat → Prop) (s t : State) : Prop where
  row : ∀ r, ¬ S r → (t.coach c).row r = (s.coach c).row r
  registers : (s.coach c).SameRegisters (t.coach c)
  elsewhere : Elsewhere c e s t

/-- A row of a map entry of one of the kinds: what an undefined result may change (R180). -/
def Coach.openRow (co : Coach) (kinds : List Nat) (r : Nat) : Prop :=
  ∃ kv ∈ co.prog.map, (MapEntry.ofWord kv.2.toNat).kind ∈ kinds ∧
    ∃ k, k < (MapEntry.ofWord kv.2.toNat).size ∧ r = (MapEntry.ofWord kv.2.toNat).rowAt k

/-- A carriage of the run lies outside the map entry, with the hazard check off: what is written there makes the result undefined (R87,
R203; log entry 35). -/
def Coach.beyond (co : Coach) (r : Run) (offs : List Int) : Prop := co.hazardOn = false ∧ ∃ o ∈ offs, r.place o = none

/-- A data-path instruction of occupancy `o` has issued on engine `e` of coach `c` in the present clk i: the engine goes on to the
next instruction in clk i + 1 + HOLD, and the unit is taken until i + O (R111, R175). -/
def Issued (c : CoachId) (e : Engine) (com : Common) (o : Nat) (s t : State) : Prop :=
  t.clk = s.clk ∧
  (t.coach c).engine e = { ((s.coach c).engine e).issued s.clk com.hold.toNat with busyUntil := s.clk + o }

/-- What carriage `off` of a run holds; beyond its map entry nothing stands there. -/
def Coach.held (co : Coach) (r : Run) (off : Int) : Carriage :=
  match r.place off with
  | some p => co.row p.row
  | none => 0

/-- An engine that waits at no door, some clk later: requests and images of its transfer may have left, and bank conflicts may
have put off what it has to do. -/
def EngineS.Later (a b : EngineS) : Prop :=
  b = { a with
    busyUntil := b.busyUntil, nextIssue := b.nextIssue, transfer := b.transfer, kin := b.kin, lostTo := b.lostTo } ∧
    b.transfer.isSome = a.transfer.isSome ∧ b.kin.isSome = a.kin.isSome ∧ a.busyUntil ≤ b.busyUntil ∧ a.nextIssue ≤ b.nextIssue

/-- What is due in a coach, and how its engines stand that wait at no door, is as it was. -/
structure Coach.Still (a b : Coach) : Prop where
  accs : b.accs = []
  rows : b.spadDue = a.spadDue ∧ b.tileAt = a.tileAt
  registers : b.vregDue = a.vregDue ∧ b.actDue = a.actDue
  headers : b.hdrLate = a.hdrLate ∧ b.tagLate = a.tagLate
  signals : b.sigs = a.sigs
  digest : b.digest = a.digest
  engine : ∀ e, (∀ d n, (a.engine e).st ≠ .onWait d n) →
    (b.engine e).busyUntil = (a.engine e).busyUntil ∧ (b.engine e).nextIssue = (a.engine e).nextIssue

/-- A coach some clk later. What is planned has been done where its clk has come, and what a bank conflict puts off comes later; an
engine that waits at a door may have gone on. Besides, rows and registers, tiles, doors and banks, counters and reports may
differ, and the digest with what SOUT reads. -/
structure Coach.Later (a b : Coach) : Prop where
  same : b = { a with
    spad := b.spad, ecc := b.ecc, rowCorr := b.rowCorr, eccCorr := b.eccCorr, eccCorrSet := b.eccCorrSet, eccAddr := b.eccAddr
    eccUncorr := b.eccUncorr, eccUncorrSet := b.eccUncorrSet, repairs := b.repairs, fill := b.fill, spadDue := b.spadDue
    vregs := b.vregs, vregDue := b.vregDue, accMem := b.accMem, actTable := b.actTable, actDue := b.actDue, tileAt := b.tileAt
    tileQueue := b.tileQueue, chainIn := b.chainIn, opens := b.opens, banks := b.banks, hdrLate := b.hdrLate, tagLate := b.tagLate
    accs := b.accs, doors := b.doors, engines := b.engines, sigs := b.sigs, stall := b.stall, shutWait := b.shutWait
    wdogCount := b.wdogCount, idleCount := b.idleCount, early := b.early, startTime := b.startTime, sat := b.sat
    satSet := b.satSet, satDoor := b.satDoor, satSeen := b.satSeen, hazard := b.hazard, hazardSet := b.hazardSet
    hazardKind := b.hazardKind, hazardInfo := b.hazardInfo, digest := b.digest }
  engine : ∀ e, (∀ d n, (a.engine e).st ≠ .onWait d n) → (a.engine e).Later (b.engine e)
  quiet : a.accs = [] → a.Still b

/-- What a coach holds stays as it is: rows and fill bits of banks that are not OFF, registers, and the tile queue; and no bank goes
OFF. -/
structure Coach.Holds (a b : Coach) : Prop where
  opens : b.opens = a.opens
  bank : ∀ k, (a.bank k).st ≠ .off → (b.bank k).st ≠ .off
  row : ∀ r, (a.bank (r / 2048)).st ≠ .off → look 0 b.spad r = look 0 a.spad r ∧ look false b.fill r = look false a.fill r
  registers : b.vregs = a.vregs ∧ b.accMem = a.accMem ∧ b.actTable = a.actTable
  tiles : b.tileQueue = a.tileQueue ∧ b.chainIn = a.chainIn

/-- The device some clk later: `Coach.Later` of every coach, and `Coach.Holds` of each where nothing is planned in any. What may
differ besides are tasks that abort, events, packets on their way, host memory that SOUT writes, and what counts the clk. -/
structure Later (s t : State) : Prop where
  coach : ∀ c, (s.coach c).Later (t.coach c)
  holds : (∀ c, (s.coach c).accs = []) → ∀ c, (s.coach c).Holds (t.coach c)
  rest : t = { s with
    clk := t.clk, freeCtr := t.freeCtr, early := t.early, coaches := t.coaches, tasks := t.tasks, evt := t.evt, kst := t.kst
    ehl := t.ehl, board := t.board, host := t.host }

/-- A control instruction of engine `e` of coach `c`, in the clk of its issue: it changes its own engine, what `back` puts back
in its coach as it was, and nothing else. -/
structure OnlyCoach (c : CoachId) (e : Engine) (s t : State) (back : Coach → Coach → Coach) : Prop where
  coach : back (s.coach c) { t.coach c with engines := (s.coach c).engines } = s.coach c
  engine : ∀ f, f ≠ e → (t.coach c).engine f = (s.coach c).engine f
  others : ∀ d, d ≠ c → t.coach d = s.coach d
  rest : t = { s with freeCtr := t.freeCtr, coaches := t.coaches }

/-- A control instruction that changes its own engine alone. -/
abbrev OnlyEngine (c : CoachId) (e : Engine) (s t : State) : Prop := OnlyCoach c e s t fun _ b => b

/-- A command has changed coach `c` in what `back` puts back as it was, and nothing else. -/
structure OnlyAt (c : CoachId) (s t : State) (back : Coach → Coach → Coach) : Prop where
  coach : back (s.coach c) (t.coach c) = s.coach c
  others : ∀ d, d ≠ c → t.coach d = s.coach d
  rest : t = { s with coaches := t.coaches }

/-- An amount waits to be added to a door of a coach at the end of clk `w`, and no other door has changed (R185, R187). -/
def Coach.Added (a b : Coach) (d : BitVec 8) (amount w : Nat) : Prop :=
  b.door d = { a.door d with adds := (a.door d).adds ++ [(w, amount)] } ∧ ∀ x, x ≠ d → b.door x = a.door x

/-- A coach with its doors as another has them. -/
def Coach.doorsBack (a b : Coach) : Coach := { b with doors := a.doors }

/-- A task of the table runs and nothing has told it to abort. -/
def State.runs (s : State) (key : Nat) (k : Task) : Prop := s.task? key = some k ∧ k.st = .running ∧ k.abort = none

/-- The task aborts, with the code given. -/
def State.aborts (s : State) (key code : Nat) : Prop :=
  ∃ k a, s.task? key = some k ∧ k.st = .aborting ∧ k.abort = some a ∧ a.code = BitVec.ofNat 8 code

/-! ## Resets and boots (R347, R371) -/

/-- The host's view of running work has ended (R347): running tasks abort with HOST_FAULT, queued ones are gone, and what
is kept is as it was. -/
structure WorkEnded (s t : State) : Prop where
  running : ∀ key k, s.runs key k → t.aborts key 10
  queued : ∀ k ∈ s.tasks, k.st = .queued → t.task? k.key = none
  memory : SameMemory s t
  contexts : t.contexts = s.contexts
  groups : t.kst.groups = s.kst.groups
  nvm : t.boot.nvm = s.boot.nvm

/-- The effects of a function level reset (R347): work has ended, rings are disabled, registers of the host interface are
at their reset values, sessions are closed, and no load is in progress. -/
structure FunctionReset (s t : State) : Prop where
  work : WorkEnded s t
  submission : ∀ i, (t.sq i).enable = false
  completion : ∀ i, (t.cq i).enable = false
  events : t.evt.enable = false ∧ t.evt.held = []
  interface : t.hif.waiting = [] ∧ t.hif.summaryBusy = false ∧ t.hif.bar2Gib = 0
  sessions : t.sec.sessions = []
  coach : ∀ c, t.coach c = { s.coach c with loadBusy := false }

/-- What a fundamental reset or a loss of power leaves before a boot: nothing but the NVM, the host's memory, the clock and
the pins (R347). -/
structure AllLost (s t : State) : Prop where
  down : t.boot.running = false ∧ t.hif.hostReady = false
  work : t.tasks = [] ∧ t.contexts = [] ∧ t.coaches = []
  memory : (∀ a, t.hbmByte a = 0) ∧ t.host = s.host
  nvm : t.boot.nvm = s.boot.nvm.cut s.freeCtr s.boot.update
  clk : t.clk = s.clk

/-- A boot has reached host-ready (R371) with the firmware copy taken: memory is zero and no context or task stands, the
boot has the next number of the journal and its record stands there, and no copy is on trial in the boot header. -/
structure Booted (s t : State) (fw : Taken) : Prop where
  up : t.boot.running = true ∧ t.hif.hostReady = true
  work : t.tasks = [] ∧ t.contexts = []
  coach : ∀ c, (t.coach c).phase = .idle ∧ (t.coach c).spad = []
  rings : ∀ i, (t.sq i).enable = false ∧ (t.cq i).enable = false
  memory : (∀ a, t.hbmByte a = 0) ∧ t.host = s.host
  number : t.boot.bootNumber = (bootCounts s.boot.nvm.journal).1 + 1
  record : ∃ seq copies fell restricted seal_ missing,
    (JRec.boot t.boot.bootNumber copies fell restricted seal_ missing).word seq ∈ t.boot.nvm.half0 ++ t.boot.nvm.half1
  copy : t.boot.copies.getLsbD 0 = fw.b ∧ (fw.fell = true → t.boot.fallback = true)
  trial : t.boot.nvm.header.trial = 0
  config : ∀ c, t.boot.cfg = some c → t.ehl.nodeId = c.nodeId ∧ t.ehl.fabricId = c.fabricId ∧ t.kst.shares = c.shares
  sealLoop : ∃ k, (t.boot.sealOpen = true ↔ ∃ i, i < 8 ∧ sealReturns s.board.sealBack ((Config.random k (100 + i)).extractLsb' 0 16) = false)
  opened : t.boot.sealOpen = true → t.boot.restricted = true

/-! ## Tiles of the key-switch array (R122, R123, R131 to R133, R215) -/

/-- The settings as an instruction of `n` tiles uses them: KEW takes row form, and the primes of tile 0 for every lane group. -/
def KsaCfg.forOp (g : KsaCfg) (kew : Bool) (n : Nat) : KsaCfg := if kew then { g with outLimb := false, aTiles := n } else g

/-- Carriage and slot of the first operand of cell (r, j) of tile `t` under term group `k`. -/
def KsaCfg.firstAt (g : KsaCfg) (kew : Bool) (t r j k : Nat) : Nat × Nat :=
  if kew then (k * g.xS + 4 * t + (16 * r + j) / 64, (16 * r + j) % 64) else g.aAt (t % g.aTiles) r k

/-- Carriage and slot of the second operand. -/
def KsaCfg.secondAt (g : KsaCfg) (kew : Bool) (t r j k : Nat) : Nat × Nat :=
  if kew then (k * g.yS + 4 * t + (16 * r + j) / 64, (16 * r + j) % 64) else g.bAt (t / g.aTiles) k j

/-- Carriage and slot of a cell's output. -/
def KsaCfg.cellAt (g : KsaCfg) (t r j : Nat) : Nat × Nat := g.outAt t (t % g.aTiles) (t / g.aTiles) r j

/-- How many clk after the issue tile `t` starts, and the tile before it ends. -/
def KsaCfg.startOf (g : KsaCfg) (f : KsaF) (kew : Bool) (t : Nat) : Nat :=
  8 + if kew then t * max (g.groups + g.mulSteps f) 1 else sumNat ((g.tileClks f).take t)

/-- The products of a cell, term by term. -/
def Coach.cellTerms (co : Coach) (g : KsaCfg) (kew : Bool) (ar br : Run) (t r j : Nat) : List (Nat × Nat) :=
  (List.range g.groups).flatMap fun k => g.slotTerms k
    (slotOf (co.held ar ((g.firstAt kew t r j k).1 : Int)) (g.firstAt kew t r j k).2)
    (slotOf (co.held br ((g.secondAt kew t r j k).1 : Int)) (g.secondAt kew t r j k).2)

/-- Tile `t`, which starts in clk `clk`, starts from the sums `from_` with the term counts `count`: those of the tile that has arrived along
the chain, those of its accumulator entries, or zero (R131, R132; log entry 98). -/
def Coach.tileFrom (co : Coach) (g : KsaCfg) (f : KsaF) (clk t : Nat) (from_ : Nat → Nat → Int) (count : Nat → Nat) : Prop :=
  if g.chain = 2 ∨ g.chain = 3 then
    ∃ h, co.chainIn[t]? = some h ∧ h.arrived < clk ∧ h.kind = g.kind ∧
      ∀ r, r < 16 → count r = h.terms ∧ ∀ j, j < 16 → from_ r j = h.sums.getD (16 * r + j) 0
  else if f.accIn = true ∧ g.chain = 0 then
    ∀ r, r < 16 → let row := look accDefault co.accMem ((g.accRow + 16 * t + r) % 512)
      row.kind = g.kind ∧ row.sums.length = 16 ∧ count r = row.terms ∧ ∀ j, j < 16 → from_ r j = row.sums.getD j 0
  else ∀ r, r < 16 → count r = 0 ∧ ∀ j, j < 16 → from_ r j = 0

/-- A KMM or KEW that issues in clk `clk` has defined sums: its settings are valid, its operands may be read, every column has a prime or is
one that a modulus switch excludes, and each tile has what it starts from (R108, R131, R132, R214, R215). -/
structure Coach.MaySum (co : Coach) (clk : Nat) (entry : Option PolicyEntry) (g : KsaCfg) (f : KsaF) (kew : Bool) (ar br : Run)
    (from_ : Nat → Nat → Nat → Int) (count : Nat → Nat → Nat) : Prop where
  ok : g.ok f kew = true
  operands : ∀ t r j k, t ≤ f.t.toNat → r < 16 → j < 16 → k < g.groups →
    (∃ p, ar.place ((g.firstAt kew t r j k).1 : Int) = some p ∧ co.readable .ksa clk p) ∧
    ∃ p, br.place ((g.secondAt kew t r j k).1 : Int) = some p ∧ co.readable .ksa clk p
  primes : g.plain = true ∨ ∀ t j, t ≤ f.t.toNat → j < 16 →
    (g.enabled 3 = true ∧ g.top ≤ g.primeIdx (t / g.aTiles) j) ∨
      ∃ p, entry = some p ∧ (p.prime? (g.primeIdx (t / g.aTiles) j)).isSome = true
  start : ∀ t, t ≤ f.t.toNat → co.tileFrom g f (clk + g.startOf f kew t) t (from_ t) (count t)
  chain : g.chain = 2 ∨ g.chain = 3 → co.chainIn.length ≤ 2

/-- The sum of a cell from what its tile starts from (R124, R125). -/
def Coach.cellSum (co : Coach) (entry : Option PolicyEntry) (g : KsaCfg) (kew : Bool) (ar br : Run) (from_ : Nat → Nat → Nat → Int)
    (count : Nat → Nat → Nat) (t r j : Nat) : Int :=
  g.cell (entry.bind fun p => p.prime? (g.primeIdx (t / g.aTiles) j)) (from_ t r j) (count t r) (co.cellTerms g kew ar br t r j)

/-- What the fused stage makes of a cell's sum (R126 to R129): the constants stand in the slots of the scale row, bias tile and dropped limb
lie as the output does, and in plain mode the bias stands in one carriage; none is undefined. -/
def Coach.cellOut (co : Coach) (clk : Nat) (entry : Option PolicyEntry) (g : KsaCfg) (scale bias aux : Run) (t r j : Nat) (sum : Int) :
    Option Nat :=
  let at_ := g.cellAt t r j
  if g.plain then
    g.fusePlain (if clk < co.actDue then none else co.actTable) sum
      ((slotOf (co.held scale 0) (if g.scaleBc then 0 else j)).toNat % 2 ^ 32)
      ((slotOf (co.held bias 0) (if g.biasBc then 0 else j)).toNat % 2 ^ 32)
  else
    g.fuseResidue (entry.bind fun p => p.prime? (g.primeIdx (t / g.aTiles) j)) (entry.bind fun p => p.prime? g.dropPrime) sum
      (slotOf (co.held scale 0) j).toNat (slotOf (co.held bias (at_.1 : Int)) at_.2).toNat (slotOf (co.held aux (at_.1 : Int)) at_.2).toNat

/-! ## Operands of the vector engine (R218) -/

/-- Where carriage `j` of an operand lives: a row, or a vector register. -/
def VecArg.home (a : VecArg) (j : Nat) : Option (Nat ⊕ Nat) :=
  match a with
  | .run r st => (r.place (Int.ofNat j * st)).map fun p => .inl p.row
  | .reg r => some (.inr ((r + j) % 32))
  | .bcast r _ => some (.inr r)
  | _ => none

/-- What carriage `j` of an operand holds. -/
def Coach.operand (co : Coach) (a : VecArg) (j : Nat) : Carriage :=
  match a with
  | .run r st => co.held r (Int.ofNat j * st)
  | .reg r => look 0 co.vregs ((r + j) % 32)
  | .bcast r s => ofSlots fun _ => (slotOf (look 0 co.vregs r) s).toNat
  | _ => 0

/-- The vector engine may read carriage `j` of an operand in a clk: a row, or a register whose content is settled. -/
def Coach.mayGet (co : Coach) (clk : Nat) (a : VecArg) (j : Nat) : Prop :=
  match a with
  | .run r st => ∃ p, r.place (Int.ofNat j * st) = some p ∧ co.readable .vec clk p
  | .reg r => look 0 co.vregDue ((r + j) % 32) ≤ clk
  | .bcast r _ => look 0 co.vregDue r ≤ clk
  | _ => False

/-- The vector engine may write carriage `j` of a destination. -/
def Coach.mayPut (co : Coach) (d : VecArg) (j : Nat) : Prop :=
  match d with
  | .run r st => ∃ p, r.place (Int.ofNat j * st) = some p ∧ co.writable .vec p
  | .reg _ => True
  | _ => False

/-- No carriage of the destination written before carriage `j` is read is where carriage `j` of the operand lives. -/
def VecArg.steady (a d : VecArg) (n : Nat) : Prop := ∀ i j, i < j → j < n → d.home i ≠ a.home j

end Sys2Proof.Machine
end

