-- ==== Sys2Proof/WellFormed.lean ====
section
/-! DEFINITION. Which commands are well formed: an operand wider than what it names must name something, and a list
must have the length that its rule gives. Every command has a meaning, well formed or not. -/

namespace Sys2Proof

/-- Widths of a register access in bits (R10 gives 32 and 64; the narrower ones reach no register). -/
def accessWidth (n : Nat) : Bool := n = 8 || n = 16 || n = 32 || n = 64

/-- Widths of BAR4 writes in bytes (R329). -/
def writeSize (n : Nat) : Bool := n = 1 || n = 2 || n = 4 || n = 8

/-- Bytes of data that LEN gives (R281). -/
def dataBytes (len : BitVec 2) : Nat :=
  match len.toNat with
  | 0 => 0 | 1 => 32 | 2 => 288 | _ => 576

/-- A packet carries the data its LEN gives (R281). -/
def Packet.wellFormed (k : Packet) : Bool := k.data.length = dataBytes k.len

/-- A source ID of R358. -/
def sourceListed (n : Nat) : Bool :=
  n < 0x41 || (0x48 ≤ n && n < 0x60) || n = 0x60 || n = 0x70 || n = 0x80 || n = 0x81

/-- Four dies and eight stacks are sampled (R413). -/
def ThermalReading.wellFormed (r : ThermalReading) : Bool := r.dieTemps.length = 4 && r.stackTemps.length = 8

/-- The transfer lies in the 64 GiB window of BAR2 (R328). -/
def inWindow (off : BitVec 36) (n : Nat) : Bool := off.toNat + n ≤ 2 ^ 36

def Instr.wellFormed : Instr → Bool
  | .acct _ e _ => e = .nte || e = .ksa || e = .vec || e = .dbu || e = .pxu
  | .streamComplete _ e => e = .sin || e = .sout || e = .kin
  | .grantSlot ch slot _ => ch.toNat < 248 && slot.toNat < 40
  | .memMaintRetrain _ ch => ch.toNat ≤ 30
  | .memMaintEvacuate _ ch => ch.toNat ≤ 30
  | .bar2Read off len => inWindow off len.toNat
  | .bar2Write off data => inWindow off data.length
  | .sqTailDoorbell off size _ => off.toNat < 0x40000 && writeSize size
  | .cqHeadDoorbell off size _ => 0x40000 ≤ off.toNat && off.toNat < 0x80000 && writeSize size
  | .eventHeadDoorbell off size _ => 0x80000 ≤ off.toNat && writeSize size
  | .irqDelayExpire vec => vec.toNat ≤ 64
  | .thermalSample r => r.wellFormed
  | .writePkt _ k => k.packet.wellFormed
  | .readReq _ k => k.packet.wellFormed
  | .readRsp _ k => k.packet.wellFormed
  | .cart _ k => k.packet.wellFormed
  | .cartCredit _ k => k.packet.wellFormed
  | .shutArrive _ k => k.packet.wellFormed
  | .abortPkt _ k => k.packet.wellFormed
  | .taskLost _ k => k.packet.wellFormed
  | .unreach _ k => k.packet.wellFormed
  | .eventRecord source => sourceListed source.toNat
  | .registerWrite _ n v => accessWidth n && decide (v.toNat < 2 ^ n)
  | .rcRead _ n => accessWidth n
  | _ => true

end Sys2Proof
end

