-- ==== Sys2Proof/Certificates/Slice0/Obligations.lean ====
section
/-! DEFINITION. The statements about the machine: what its commands do, what they leave alone, and what every step keeps. -/

open Sys2Proof Sys2Proof.Machine

/-- A step runs the command at the front of the queue on the state with the rest of the queue; on an empty queue one clk passes,
which changes what `Later` names and nothing else (DESIGN CHOICE, log entry 10). -/
def Obligations.StepRunsTheFrontCommand : Prop :=
  (∀ (c : Instr) (rest : List Instr) (s : State), s.pending = c :: rest → step s = exec c { s with pending := rest }) ∧
  (∀ s : State, s.pending = [] → ∃ t, step s = .next t ∧ t.clk = s.clk + 1 ∧ t.pending = [] ∧ Later s t)

/-- No command stops the device, and none touches the queue of what waits (R349). -/
def Obligations.EveryCommandGoesOn : Prop :=
  ∀ (i : Instr) (s : State), ∃ t, exec i s = .next t ∧ t.pending = s.pending

/-- Both memories keep their canonical form and the BAR2 window stays below 992 GiB, whatever command runs (R328). -/
def Obligations.EveryStepKeepsTheInvariant : Prop :=
  ∀ s t : State, s.Inv → step s = .next t → t.Inv

/-- The machine right after reset has the invariant and the reset values of R107, R199, R249, R273, R303, R348, R362, R386, R407 and
R426. -/
def Obligations.ResetHasTheInvariant : Prop :=
  State.reset.Inv ∧ State.reset.hif.hostReady = false ∧ State.reset.pending = [] ∧
    (∀ e ∈ [(0x4, 32, 0), (0x8, 32, 0), (0xC, 32, 0), (0x10, 32, 0),
        (0x400000, 32, 0), (0x400008, 64, 0), (0x400010, 32, 0), (0x400014, 32, 0), (0x400018, 32, 1), (0x400020, 64, 0), (0x400028, 64, 0),
        (0x800000, 32, 0), (0x800008, 32, 0x2625A0), (0x80000C, 32, 0), (0x800010, 64, 0), (0x800018, 64, 0), (0x800020, 64, 0),
        (0x1000008, 64, 0), (0x1000010, 64, 0), (0x1000018, 64, 0), (0x1000020, 64, 0),
        (0x1800000, 32, 0), (0x180000C, 32, 0xF4240), (0x1800010, 64, 0), (0x1800018, 32, 0), (0x1800020, 32, 0), (0x1800028, 64, 0),
        (0x1800030, 64, 0), (0x2800008, 64, 0), (0x2800010, 32, 0), (0x2800018, 32, 0),
        (0x3000000, 32, 0), (0x300000C, 32, 0), (0x3000014, 32, 1024), (0x3000018, 32, 0), (0x3000020, 64, 0),
        (0x3800008, 32, 0), (0x380000C, 32, 0), (0x3800010, 32, 0), (0x3800018, 64, 0)],
      State.reset.regAt (placeOf e.1) e.2.1 = some (e.2.1, e.2.2)) ∧
    (∀ i < 64, ∀ e ∈ [(0x1000, 64, 0), (0x1008, 32, 0), (0x100C, 32, 0), (0x2000, 64, 0), (0x2008, 32, 0), (0x200C, 32, 0), (0x2010, 32, 1)],
      State.reset.regAt (placeOf (e.1 + 0x20 * i)) e.2.1 = some (e.2.1, e.2.2)) ∧
    ∀ c < 64, ∀ e ∈ [(0x0, 32, 0), (0x4, 32, 0), (0x8, 32, 0), (0xC, 32, 0), (0x10, 32, 0x1000000), (0x14, 32, 0), (0x18, 32, 0),
        (0x20, 64, 0), (0xE0, 32, 0), (0x4008, 64, 0xAAAAAAAAAAAAAAAA), (0x4030, 32, 0), (0x4034, 32, 0), (0x4038, 32, 0),
        (0x403C, 32, 0), (0x4040, 32, 0), (0x4048, 64, 0), (0x4054, 32, 1)],
      State.reset.regAt (placeOf (0x2000000 + 0x10000 * c + e.1)) e.2.1 = some (e.2.1, e.2.2)

/-- The words of engine instructions and host commands, laid out as R200 to R224 and R334 to R346 say, read back as the
instructions and commands, whatever their operands. -/
def Obligations.InstructionAndCommandWordsDecodeBack : Prop :=
  (∀ (i : Instr) (c : CoachId) (e : Engine) (w : Nat),
    instrWord i = some (c, e, w) → hasOpcode i = true → w < 2 ^ 128 ∧ instrOf c e w = some i) ∧
  ∀ (i : Instr) (h : CmdHdr) (w : Nat),
    commandHeader i = some h → commandWord i = some w → w < 2 ^ 1024 ∧ commandOf h.sq.toNat h.index.toNat w = some i

/-- ROT (R141). -/
def Obligations.RotationMovesSlots : Prop :=
  ∀ (c : CoachId) (f : RotF) (s : State),
    let u := s.atIssue c .pxu
    let co := u.coach c
    let n := f.c.toNat + 1
    let r := f.amount.toNat
    let src := co.run f.src.toNat ((co.engine .pxu).strideSum 0)
    let dst := co.run f.dst.toNat ((co.engine .pxu).strideSum 1)
    s.onTime c .pxu → r < 64 * n → co.canMove .pxu u.clk src dst (span 0 n) (span 0 n) →
    ∃ t, exec (.rot c f) s = .next t ∧
      (∀ w : Nat, w < 64 * n → slotOf ((t.coach c).held dst (w / 64 : Nat)) (w % 64) =
        slotOf (co.held src (((w + r) % (64 * n) / 64 : Nat))) ((w + r) % (64 * n) % 64)) ∧
      OnlyRows c .pxu (fun row => row ∈ dst.rows (span 0 n)) u t ∧
      Issued c .pxu f.com (if r % 64 = 0 then n + 8 else 2 * n + 8) u t ∧
      ∀ row ∈ dst.rows (span 0 n), look 0 (t.coach c).spadDue row =
        u.clk + (if r % 64 = 0 then n + 8 else 2 * n + 8) + 8

/-- TRANS (R142). -/
def Obligations.TransposeExchangesSlotsAndCarriages : Prop :=
  ∀ (c : CoachId) (f : TransF) (s : State),
    let u := s.atIssue c .pxu
    let co := u.coach c
    let n := f.t.toNat + 1
    let src := co.run f.src.toNat ((co.engine .pxu).strideSum 0)
    let dst := co.run f.dst.toNat ((co.engine .pxu).strideSum 1)
    let so := offsets (64 * n) f.sstride.toNat
    let dsto := offsets (64 * n) f.dstride.toNat
    s.onTime c .pxu → f.sstride ≠ 0 → f.dstride ≠ 0 → co.canMove .pxu u.clk src dst so dsto →
    ∃ t, exec (.trans c f) s = .next t ∧
      (∀ b i j : Nat, b < n → i < 64 → j < 64 →
        slotOf ((t.coach c).held dst (((64 * b + i) * f.dstride.toNat : Nat))) j =
          slotOf (co.held src (((64 * b + j) * f.sstride.toNat : Nat))) i) ∧
      OnlyRows c .pxu (fun row => row ∈ dst.rows dsto) u t ∧ Issued c .pxu f.com (64 * n + 64) u t ∧
      ∀ row ∈ dst.rows dsto, look 0 (t.coach c).spadDue row = u.clk + (64 * n + 64) + 8

/-- AUTO (R140): `autoElem` is the element of the source that an element of the result takes. -/
def Obligations.AutomorphismPermutesEveryLimb : Prop :=
  (∀ (c : CoachId) (f : AutoF) (s : State) (entry : PolicyEntry) (q : Nat → Nat),
     let u := s.atIssue c .pxu
     let co := u.coach c
     let logN := logField f.logN
     let n := f.count.toNat + 1
     let n64 := 2 ^ logN / 64
     let o := n * (2 ^ logN / 32 + 16) + 8
     let src := co.run f.src.toNat ((co.engine .pxu).strideSum 0)
     let dst := co.run f.dst.toNat ((co.engine .pxu).strideSum 1)
     s.onTime c .pxu → 9 ≤ logN → f.galois.toNat % 2 = 1 → f.galois.toNat < 2 * 2 ^ logN → f.order.toNat ≠ 3 →
     (f.order.toNat = 1 → logN ≤ 12) → (f.order.toNat = 2 → 13 ≤ logN) → u.tableEntry? co f.pset = some entry →
     (∀ j, j < n → (entry.seqPrime f.pseq.toNat f.prime.toNat j).bind entry.prime? = some (q j)) →
     co.canMove .pxu u.clk src dst (span 0 (n * n64)) (span 0 (n * n64)) →
     ∃ t, exec (.auto c f) s = .next t ∧
       (∀ j p : Nat, j < n → p < 2 ^ logN → slotOf ((t.coach c).held dst ((j * n64 + p / 64 : Nat))) (p % 64) =
         BitVec.ofNat 36 (autoElem f.order.toNat logN f.galois.toNat (q j)
           (limbOf ((span (j * n64) n64).map (co.held src)) (q j)) p)) ∧
       OnlyRows c .pxu (fun row => row ∈ dst.rows (span 0 (n * n64))) u t ∧ Issued c .pxu f.com o u t ∧
       ∀ row ∈ dst.rows (span 0 (n * n64)), look 0 (t.coach c).spadDue row = u.clk + o + 20) ∧
  (∀ (logN g q : Nat) (a : List Nat) (i : Nat), 0 < logN → g % 2 = 1 → 0 < q → i < 2 ^ logN →
     let n := 2 ^ logN
     let k := g * i % (2 * n)
     if k < n then autoElem 0 logN g q a k = a.getD i 0 % q
     else (autoElem 0 logN g q a (k - n) + a.getD i 0) % q = 0)

/-- MROT (R154). -/
def Obligations.MonomialRotationShiftsCoefficients : Prop :=
  ∀ (c : CoachId) (f : MrotF) (s : State) (entry : PolicyEntry) (amt : Nat → Nat) (place : Nat → Place),
    let u := s.atIssue c .pxu
    let co := u.coach c
    let ng := 2 ^ f.logN.toNat
    let n := f.count.toNat + 1
    let n64 := ng / 64
    let v := co.engine .pxu
    let src := co.run f.src.toNat (v.strideSum 0)
    let dst := co.run f.dst.toNat (v.strideSum 1)
    let limbs := 2 * (entry.glweK + 1)
    s.onTime c .pxu → 9 ≤ f.logN.toNat → f.logN.toNat ≤ 12 → u.tableEntry? co f.pset = some entry →
    entry.torusPa ≠ 0 → entry.torusPb ≠ 0 → n ≤ 8 * limbs →
    (∀ t, t < 8 → ∃ b i : Int, v.plainField f.amtBase.toNat 3 22 = some b ∧ v.plainField f.amtIndex.toNat 7 10 = some i ∧
      b + i + t * f.amtStride.toNat = amt t ∧ amt t < 2 ^ 22 ∧ co.place? (amt t / 64) = some (place t) ∧
      co.readable .pxu u.clk (place t) ∧ amt t / 64 ∉ dst.rows (span 0 (n * n64))) →
    co.canMove .pxu u.clk src dst (span 0 (n * n64)) (span 0 (n * n64)) →
    ∃ t, exec (.mrot c f) s = .next t ∧
      (∀ j p : Nat, j < n → p < ng →
        let raw := (slotOf (co.row (place (j / limbs)).row) (amt (j / limbs) % 64)).toNat % 2 ^ 32 % (2 * ng)
        let e := if f.neg then (2 * ng - raw) % (2 * ng) else raw
        let q := if j % 2 = 0 then entry.torusPa else entry.torusPb
        let a := (slotOf (co.held src ((j * n64 + p / 64 : Nat))) (p % 64)).toNat
        let k := (p + e) % (2 * ng)
        slotOf ((t.coach c).held dst ((j * n64 + k % ng / 64 : Nat))) (k % ng % 64) =
          BitVec.ofNat 36 (if k < ng then a % q else subMod 0 a q)) ∧
      OnlyRows c .pxu (fun row => row ∈ dst.rows (span 0 (n * n64))) u t ∧
      Issued c .pxu f.com (n * ng / 32 + 8) u t ∧
      ∀ row ∈ dst.rows (span 0 (n * n64)), look 0 (t.coach c).spadDue row = u.clk + (n * ng / 32 + 8) + 8

/-- IDLE, STRIDE, SET, LOOP with its loop-back, and END (R175, R177, R178, R207, R208, R210). -/
def Obligations.ControlInstructionsSteerTheirEngine : Prop :=
  (∀ (c : CoachId) (e : Engine) (s : State), (s.coach c).canIssue e false = true →
     let u := s.atIssue c e
     let v := (u.coach c).engine e
     let i := u.clk
     (Later s u ∧ (u.coach c).canIssue e false = true ∧
       ((s.coach c).accs = [] → i = max s.clk ((s.coach c).engine e).nextIssue)) ∧
     (∀ long, ∃ t, exec (.idle c e long) s = .next t ∧ OnlyEngine c e u t ∧
       (t.coach c).engine e = v.issued i long.toNat) ∧
     (∀ value depth pos hold, ∃ t, exec (.stride c e value depth pos hold) s = .next t ∧ OnlyEngine c e u t ∧
       (t.coach c).engine e = { v.issued i hold.toNat with strides := ((t.coach c).engine e).strides } ∧
       ∀ k, look 0 ((t.coach c).engine e).strides k =
         if k = 4 * pos.toNat + depth.toNat then value else look 0 v.strides k) ∧
     (∀ payload word hold, wordOk e word.toNat payload = true →
       ∃ t, exec (.setWord c e payload word hold) s = .next t ∧ OnlyEngine c e u t ∧
       (t.coach c).engine e = { v.issued i hold.toNat with words := ((t.coach c).engine e).words } ∧
       ∀ k, look 0 ((t.coach c).engine e).words k = if k = word.toNat then payload else look 0 v.words k) ∧
     (∀ (count : BitVec 24) (body : BitVec 13) (hold : BitVec 12), body ≠ 0 → v.loops.length < 4 →
       v.pc + body.toNat ≤ 8191 →
       ∃ t, exec (.loop c e count body hold) s = .next t ∧ OnlyEngine c e u t ∧
       (t.coach c).engine e =
         if count = 0 then { v with nextIssue := i + 1 + hold.toNat }.goto (v.pc + 1 + body.toNat)
         else { v with nextIssue := i + 1 + hold.toNat, pc := v.pc + 1
                       loops := { start := v.pc + 1, body := body.toNat, left := count.toNat, index := 0 } :: v.loops }) ∧
     ∃ t, exec (.endPart c e) s = .next t ∧ OnlyEngine c e u t ∧ (t.coach c).engine e = { v with st := .ended }) ∧
  ∀ (v : EngineS) (l : LoopFrame) (outer : List LoopFrame), v.loops = l :: outer → 1 < l.left → l.start ≤ 8191 →
    v.goto (l.start + l.body) =
      { v with pc := l.start, loops := { l with left := l.left - 1, index := l.index + 1 } :: outer }

/-- SIGNAL, WAIT and SHUTTER (R185, R186, R188, R189, R210). -/
def Obligations.SignalWaitAndShutterIssue : Prop :=
  (∀ (c : CoachId) (e : Engine) (s : State), (s.coach c).canIssue e false = true →
     let u := s.atIssue c e
     let v := (u.coach c).engine e
     let i := u.clk
     (∀ (f : SignalF),
       let target := if f.remote then f.coach else c
       (target = c → ∃ t, exec (.signal c e f) s = .next t ∧ OnlyCoach c e u t Coach.doorsBack ∧
         (u.coach c).Added (t.coach c) f.door f.amount.toNat (i + 1) ∧
         (t.coach c).engine e = v.issued i f.hold.toNat) ∧
       (target ≠ c → (∃ k, u.taskOf c = some k ∧ bitOf k.coachMask.toNat target.toNat = true) →
         ∃ t, exec (.signal c e f) s = .next t ∧
         { t.coach c with engines := (u.coach c).engines } = u.coach c ∧
         (∀ d, d ≠ e → (t.coach c).engine d = (u.coach c).engine d) ∧
         (t.coach c).engine e = v.issued i f.hold.toNat ∧
         t.coach target = { u.coach target with inbound := (u.coach target).inbound ++
           [{ engine := e, coach := target, door := f.door, amount := f.amount, due := i + 1 + 36 }] } ∧
         (∀ d, d ≠ c → d ≠ target → t.coach d = u.coach d) ∧
         t = { u with freeCtr := t.freeCtr, coaches := t.coaches })) ∧
     (∀ (door : BitVec 8) (count : BitVec 16) (hold : BitVec 12),
       ∃ t, exec (.wait c e door count hold) s = .next t ∧ OnlyEngine c e u t ∧
         (t.coach c).engine e = { v with st := .onWait door count, afterHold := hold.toNat }) ∧
     (∀ (sid : BitVec 4) (hold : BitVec 12),
       let inside := bitOf ((u.coach c).prog.shutterMask sid.toNat) (eid e)
       ∃ t, exec (.shutter c e sid hold) s = .next t ∧
         { t.coach c with engines := (u.coach c).engines } = u.coach c ∧
         (∀ d, d ≠ e → (t.coach c).engine d = (u.coach c).engine d) ∧ (∀ d, d ≠ c → t.coach d = u.coach d) ∧
         (inside = false → OnlyEngine c e u t ∧ (t.coach c).engine e = v.issued i hold.toNat) ∧
         (inside = true → (v.transfer.isSome || v.kin.isSome) = true → OnlyEngine c e u t ∧
           (t.coach c).engine e = { v with st := .atShutter sid, afterHold := hold.toNat, shutAt := notYet }) ∧
         (inside = true → (v.transfer.isSome || v.kin.isSome) = false →
           t = { u with freeCtr := t.freeCtr, early := t.early, coaches := t.coaches, tasks := t.tasks, evt := t.evt
                        ehl := t.ehl } ∧
           (t.coach c).engine e = { v with st := .atShutter sid, afterHold := hold.toNat, shutAt := i } ∧
           ∀ k, u.taskOf c = some k →
             ∃ k', t.task? k.key = some k' ∧ 8 * c.toNat + eid e ∈ (k'.shutter sid.toNat).arrived ∧
               (k'.shutter sid.toNat).lastAt = max (k.shutter sid.toNat).lastAt i ∧
               (k'.shutter sid.toNat).uses = (k.shutter sid.toNat).uses)))

/-- BANKPWR, the targets of banks, and a bank conflict, which keeps the fill bit that an access put off is checked against (R79, R82,
R84, R106, R247, R432). -/
def Obligations.BankPowerSetsTheTarget : Prop :=
  (∀ (c : CoachId) (e : Engine) (up : Bool) (mask : BitVec 32) (hold : BitVec 12) (s : State),
    (s.coach c).canIssue e false = true →
    let u := s.atIssue c e
    let i := u.clk
    ∃ t, exec (.bankpwr c e up mask hold) s = .next t ∧ OnlyCoach c e u t (fun a b => { b with banks := a.banks }) ∧
      (t.coach c).engine e = ((u.coach c).engine e).issued i hold.toNat ∧
      ∀ b, let old := (u.coach c).bank b
        (t.coach c).bank b =
          if 32 ≤ b ∨ bitOf mask.toNat b = false then old
          else if old.since = i ∧ 0 < i then { old with target := up }
          else match old.st with
            | .on => if up then { old with target := true }
              else { old with target := false, st := .draining, since := i, downAt := some i }
            | .off => if up then { old with target := true, st := .waking, since := i } else { old with target := false }
            | _ => { old with target := up }) ∧
  (∀ s : State, s.pending = [] → ∃ t, step s = .next t ∧ ∀ c b,
    (t.coach c).bank b =
      match ((s.coach c).bank b).st, ((s.coach c).bank b).target with
      | .off, true => { (s.coach c).bank b with st := .waking, since := s.clk + 1 }
      | .on, false => { (s.coach c).bank b with st := .draining, since := s.clk + 1, downAt := none }
      | _, _ => (s.coach c).bank b) ∧
  ∀ (s : State) (c : CoachId) (t : Nat) (e f : Engine) (b : Nat), eid e < eid f →
    (∀ a ∈ (s.coach c).accs, a.clk ≤ t → a.act = .bank ∧ (a.engine = e ∨ a.engine = f) ∧ a.row / 2048 = b) →
    (∃ a ∈ (s.coach c).accs, a.clk ≤ t ∧ a.engine = e) → (∃ a ∈ (s.coach c).accs, a.clk ≤ t ∧ a.engine = f) →
    ((s.coach c).engine f).st = .issuing →
    let co := s.coach c
    let co' := (s.serveAccs t c).coach c
    look 0 co'.stall (8 * eid f + 5) = count48 (look 0 co.stall (8 * eid f + 5) + 1) ∧
      (co'.engine f).nextIssue = (if t < (co.engine f).nextIssue then (co.engine f).nextIssue + 1
        else (co.engine f).nextIssue) ∧
      (∀ a ∈ co'.accs, t < a.clk) ∧
      ∀ a ∈ co.accs, a.clk ≤ t → a.engine = f → ∃ data tile,
        { a with clk := t + 1, full := some (a.full.getD (look false co.fill a.row)), data := data, tile := tile } ∈ co'.accs

/-- ACCT, and the header unit on ciphertexts of one context (R50, R67 to R69, R145, R211). -/
def Obligations.AccountingFollowsTheHeaderRule : Prop :=
  (∀ (c : CoachId) (e : Engine) (f : AcctF) (s : State), s.onTime c e → eid e ≤ 4 →
     acctOk f.cls.toNat f.param.toNat = true →
     let u := s.atIssue c e
     let v := (u.coach c).engine e
     let i := u.clk
     let co := (u.coach c).settle i
     let r := v.hdrField f.hdrR 4
     let ops := [co.headerRaw (v.hdrField f.hdrA 5), co.headerRaw (v.hdrField f.hdrB 6)]
     ∃ t, exec (.acct c e f) s = .next t ∧ OnlyRows c e (fun _ => False) u t ∧ Issued c e f.com 1 u t ∧
       (t.coach c).headers = co.headers ∧
       (t.coach c).hdrLate = if r = 0 then co.hdrLate else
         insertWrite { due := i + 4, engine := eid e, slot := r
                       value := (headerRule u.freed co (some f.cls.toNat) f.param.toNat ops []
                         (BitVec.ofNat 3 (eid e)) (BitVec.ofNat 13 v.pc)).header } co.hdrLate) ∧
  (∀ (s : State) (co : Coach) (p : PolicyEntry) (a b : Header) (e : BitVec 3) (i : BitVec 13),
     s.entry? a.paramSet = some p → p.usable = true → p.packed = true → p.limbs ≤ 48 → a.scheme = .packed →
     b.scheme = .packed → (co.ctx? a.context).isSome = true → b.context = a.context → a.level.toNat < p.limbs →
     let cost := fun k => (p.cost.getD k 0 : Int)
     let own := fun (h : Header) => h.originEngine = e ∧ h.originIndex = i
     (∀ cls param, a.poison = true ∨ b.poison = true →
       let h := (headerRule s co cls param [a, b] [] e i).header
       h.poison = true ∧
         let o := if a.poison then a else b
         h.originEngine = o.originEngine ∧ h.originIndex = o.originIndex) ∧
     (a.poison = false → b.poison = false →
       let h := (headerRule s co (some 0) 0 [a, b] [] e i).header
       let x := (max a.scaleExp.toNat b.scaleExp.toNat : Int)
       let y := (min a.scaleExp.toNat b.scaleExp.toNat : Int)
       let budget := (min a.budget.toNat b.budget.toNat : Int) - cost 0 - cost 7 * (x - y)
       (h.budget.toNat : Int) = max budget 0 ∧ h.level.toNat = min a.level.toNat b.level.toNat ∧ (h.scaleExp.toNat : Int) = x ∧
         (h.poison = true ↔ budget < p.floorPacked) ∧ h.context = a.context ∧ h.scheme = .packed ∧
         (h.poison = true → own h)) ∧
     (a.poison = false →
       let h := (headerRule s co (some 1) 0 [a, Header.fixedPlain] [] e i).header
       let budget := (a.budget.toNat : Int) - cost 1 - cost 7 * a.scaleExp.toNat
       (h.budget.toNat : Int) = max budget 0 ∧ h.level = a.level ∧ h.scaleExp = a.scaleExp ∧
         (h.poison = true ↔ budget < p.floorPacked) ∧ (h.poison = true → own h)) ∧
     (a.poison = false → a.level ≠ 0 → p.primeBits.getD a.level.toNat 0 ≤ a.scaleExp.toNat →
       let h := (headerRule s co (some 5) 0 [a] [] e i).header
       let budget := (a.budget.toNat : Int) - cost 5
       (h.budget.toNat : Int) = max budget 0 ∧ h.level.toNat + 1 = a.level.toNat ∧
         h.scaleExp.toNat + p.primeBits.getD a.level.toNat 0 = a.scaleExp.toNat ∧
         (h.poison = true ↔ budget < p.floorPacked) ∧ (h.poison = true → own h)))

/-- Bank accesses and tiles in their clk (R30, R75, R82, R87, R105, R106, R143, R431): what is done of what a coach has planned, `fill`
being the fill bits before the clk. What clk an access has is log entry 14, that a tile's content is open where it is pushed into a full
queue is R30's. -/
def Obligations.AccessesMeetTheirRows : Prop :=
  ∀ (s : State) (c : CoachId) (fill : SMap Bool) (a : Acc),
    let co := s.coach c
    let t := s.serveAcc fill c a
    let v := t.coach c
    let full := a.full.getD (look false fill a.row)
    let live := ∃ key k, co.task = some key ∧ s.runs key k
    let told := fun code : Nat => ∀ key k, co.task = some key → s.runs key k → t.aborts key code
    let hazard := fun kind : Nat => co.hazardOn = true → live →
      v.hazard = true ∧ v.hazardKind.toNat = kind ∧ v.hazardInfo = a.info ∧ told 5
    let served := a.act = .bank ∧ a.kind ≠ 0 ∧ (co.bank (a.row / 2048)).serves a = true
    let allowed := a.checked = true → (if a.write then mayWrite a.kind a.engine else mayRead a.kind a.engine) = true
    let good := allowed ∧ if a.write then a.kind = 1 ∨ full = false ∨ a.own = true else a.checked = true → full = true
    (a.act = .bank → a.kind = 0 → hazard 4 ∧ (co.hazardOn = false → t = s)) ∧
    (a.act = .bank → a.kind ≠ 0 → (co.bank (a.row / 2048)).serves a = false → told 4 ∧ t.coaches = s.coaches) ∧
    (served → ¬allowed → hazard (if a.write then 3 else 7)) ∧
    (served → allowed → ¬good → hazard (if a.write then 2 else 1)) ∧
    (served → a.write = true → ∀ x, a.data = [x] →
      (∀ i, i < 64 → slotOf (look 0 v.spad a.row) i = if a.slots.contains i then slotOf x i else slotOf (look 0 co.spad a.row) i) ∧
      look false v.fill a.row = true ∧ (∀ i ∈ a.slots, i < 64 → look none v.ecc (64 * a.row + i) = none) ∧
      (co.coupling = 0 → a.engine = .ksa ∨ a.engine = .nte → look 0 v.tileAt a.row = s.clk) ∧
      (∀ r, r ≠ a.row → look 0 v.spad r = look 0 co.spad r ∧ look false v.fill r = look false co.fill r) ∧
      (good ∨ co.hazardOn = false → OnlyAt c s t fun x y => { y with spad := x.spad, fill := x.fill, ecc := x.ecc, tileAt := x.tileAt })) ∧
    (served → a.write = false → a.want ≠ .index →
      v.spad = co.spad ∧ (∀ r, look false v.fill r = (look false co.fill r && !(a.clears && decide (r = a.row)))) ∧
      (∀ o, a.engine ≠ .sin → a.engine ≠ .sout → a.want = .data → co.openOf a = some o → o.spoiled = false →
        ∃ o', v.openOf a = some o' ∧ look (.row (look 0 co.spad a.row)) o'.given a.ord = .row (look 0 co.spad a.row)) ∧
      ∀ i, i < 64 → good ∨ co.hazardOn = false →
        (co.ecc.filter (fun e => decide (e.1 / 64 = a.row)) = [(64 * a.row + i, some .double)] →
          told 6 ∧ v.eccUncorr = true ∧ v.eccAddr.toNat = (2 ^ 22 + i * 2 ^ 16 + a.row) % 2 ^ 32 ∧ a.row ∈ v.repairs) ∧
        (co.ecc.filter (fun e => decide (e.1 / 64 = a.row)) = [(64 * a.row + i, some .single)] → t.tasks = s.tasks ∧
          v.eccCorr = true ∧ look 0 v.rowCorr a.row = look 0 co.rowCorr a.row + 1 ∧ v.ecc = co.ecc)) ∧
    (a.act = .push →
      (co.tileQueue.length < 16 → ∃ e : QTile, v.tileQueue = co.tileQueue ++ [e] ∧ e.clk = s.clk ∧ e.data = a.data) ∧
      (16 ≤ co.tileQueue.length → hazard 5 ∧ (co.hazardOn = true → v.tileQueue = co.tileQueue) ∧
        (co.hazardOn = false → v.tileQueue.dropLast = co.tileQueue ∧ v.tileQueue.length = co.tileQueue.length + 1))) ∧
    (a.act = .pop → a.want ≠ .index →
      (∀ e rest, co.tileQueue = e :: rest → e.clk < s.clk → v.tileQueue = rest ∧
        ∀ o, co.openOf a = some o → o.spoiled = false →
          ∃ o', v.openOf a = some o' ∧ look (.tile e.src e.data) o'.given a.ord = .tile e.src e.data) ∧
      ((∀ e rest, co.tileQueue = e :: rest → s.clk ≤ e.clk) → v.tileQueue = co.tileQueue ∧ hazard 6)) ∧
    ∀ n x rest, nextAcc n co.accs = some (x, rest) → x.clk ≤ n ∧ ∀ b ∈ co.accs, b.clk ≤ n → x.rank ≤ b.rank

/-- A gather, and a scatter without and with REDUCE (R95, R100, R103). A row of the indices must not be written before its access, and
what an element is written to must not be read as an index or as a value: content that changes in between is the model's choice
(DESIGN CHOICE, log entry 14). -/
def Obligations.GatherAndScatterMoveElements : Prop :=
  ∀ (c : CoachId) (desc : BitVec 10) (com : Common) (s : State) (gather : Bool) (idx : Nat → Nat) (ip tp dp : Nat → Place),
    let u := s.atIssue c .pxu
    let co := u.coach c
    let d := (co.engine .pxu).gsxDesc co desc
    let w := d.width
    let n := d.count * w
    let list := (List.range d.count).map idx
    let tslot := fun k => (d.tableOffset + idx (k / w) * w + k % w) % 64
    let dslot := fun k => (d.denseOffset + k) % 64
    let out := fun k => if gather then (dp k).row else (tp k).row
    let oslot := fun k => if gather then dslot k else tslot k
    let old := fun k => slotOf (co.row (out k)) (oslot k)
    let new := fun k => if gather then slotOf (co.row (tp k).row) (tslot k) else slotOf (co.row (dp k).row) (dslot k)
    let reduce := decide (gather = false ∧ d.reduce ≠ 0)
    s.onTime c .pxu → d.mode = (if gather then 1 else 2) →
    (∀ k, k < d.count → co.slotPlace d.indexEntry ((d.indexOffset + k : Nat) : Int) = some (ip k) ∧
      co.readable .pxu u.clk (ip k) ∧
      idx k = (slotOf (co.row (ip k).row) ((d.indexOffset + k) % 64)).toNat % 2 ^ 32 ∧ idx k < d.extent) →
    (∀ k, k < n → co.slotPlace d.tableEntry ((d.tableOffset + idx (k / w) * w + k % w : Nat) : Int) = some (tp k) ∧
      co.slotPlace d.denseEntry ((d.denseOffset + k : Nat) : Int) = some (dp k) ∧
      co.writable .pxu (if gather then dp k else tp k) ∧ co.readable .pxu u.clk (if gather then tp k else dp k) ∧
      (reduce = true → co.readable .pxu u.clk (tp k))) →
    (∀ k m i, k < n → m < n → i < d.count → (dp k).row ≠ (tp m).row ∧ out k ≠ (ip i).row) →
    ∃ t, exec (.gsx c desc com) s = .next t ∧
      (reduce = false → ∀ k, k < n → (∀ m, k < m → m < n → ¬(out m = out k ∧ oslot m = oslot k)) →
        slotOf ((t.coach c).row (out k)) (oslot k) = new k) ∧
      (reduce = true → ∀ k v, k < n →
        ((List.range n).filter fun m => decide (out m = out k ∧ oslot m = oslot k)).foldl
          (fun (acc : Option Slot) m => acc.bind fun x =>
            (reduceSlot (u.reduceModuli co d.paramSet d.modIndex) d.reduce d.fmt (oslot k % 2 = 1) x (new m)).map (BitVec.ofNat 36))
          (some (old k)) = some v →
        slotOf ((t.coach c).row (out k)) (oslot k) = v) ∧
      (∀ r sl, sl < 64 → (∀ m, m < n → out m = r → oslot m ≠ sl) →
        slotOf ((t.coach c).row r) sl = slotOf (co.row r) sl) ∧
      OnlyRows c .pxu (fun r => ∃ k, k < n ∧ r = out k) u t ∧ Issued c .pxu com (d.gsxO co list) u t ∧
      ∀ k, k < n → look 0 (t.coach c).spadDue (out k) = u.clk + d.gsxO co list + 4

/-- Completion, occupancy and frame of the NTE (R111, R117, R118, R120, R121). A LOG_N out of range, a tile pushed in another coupling mode and
a row beyond the map make the result undefined (R29, R87, R202); that this changes rows that the NTE may write, and nothing else, is
the model's choice (DESIGN CHOICE, log entry 35). -/
def Obligations.TransformsRunInTheirTime : Prop :=
  ∀ (op : NteOp) (c : CoachId) (f : NteF) (s : State),
    let u := s.atIssue c .nte
    let co := u.coach c
    let logN := op.logN f
    let n := f.count.toNat + 1
    let m := 2 ^ logN / 64
    let dst := co.run f.dst.toNat ((co.engine .nte).strideSum 1)
    let p := if op.direct then logN * 2 ^ logN / 512 else if op.column then m * (logN - 6 + 4) / 8 else 6 * m / 8
    let inRange := if op.direct then 9 ≤ logN ∧ logN ≤ 12 else 13 ≤ logN ∧ logN ≤ 16
    s.onTime c .nte →
    ∃ t o, exec (op.command c f) s = .next t ∧ Issued c .nte f.com o u t ∧ (inRange → o = n * p + 8) ∧
      OnlyRows c .nte (fun r =>
        (¬inRange ∧ co.openRow [1, 3] r) ∨
        if f.push = true ∧ op.column = false then co.coupling ≠ 2 ∧ co.openRow [1, 3] r
        else r ∈ dst.rows (span 0 (n * m)) ∨ (co.beyond dst (span 0 (n * m)) ∧ co.openRow [1, 3] r)) u t

/-- The results of the NTE (R116 to R120), in rows, or pushed as tiles of four carriages in output order (R121, R143). A tile's clk is one
within the bounds of a write (R433; DESIGN CHOICE, log entry 14). -/
def Obligations.TransformsComputeTheirLimbs : Prop :=
  ∀ (op : NteOp) (c : CoachId) (f : NteF) (s : State) (entry : PolicyEntry) (q : Nat → Nat),
    let u := s.atIssue c .nte
    let co := u.coach c
    let v := co.engine .nte
    let logN := op.logN f
    let n := f.count.toNat + 1
    let m := 2 ^ logN / 64
    let src := co.run f.src.toNat (v.strideSum 0)
    let dst := co.run f.dst.toNat (v.strideSum 1)
    let tw := co.run f.tw.toNat (v.strideSum 2)
    let all := span 0 (n * m)
    let table := fun j => (op.tableUsed logN).map fun k => ((j * op.tableSize logN + k : Nat) : Int)
    let due := u.clk + (n * op.perLimb logN + 8) + 24
    let limb := fun j => op.transform logN (psiOf (2 ^ logN) (q j)) (q j) (limbOf ((span (j * m) m).map (co.held src)) (q j))
    s.onTime c .nte → op.logOk logN = true → u.tableEntry? co f.pset = some entry →
    (∀ j, j < n → (entry.seqPrime f.pseq.toNat f.prime.toNat j).bind entry.prime? = some (q j)) →
    (∀ o ∈ all, ∃ p, src.place o = some p ∧ co.readable .nte u.clk p) →
    (∀ j, j < n → ∀ o ∈ table j, ∃ p, tw.place o = some p ∧ co.readable .nte u.clk p) →
    (∀ j, j < n → op.tableOk logN (psiOf (2 ^ logN) (q j)) (q j)
      ((op.tableUsed logN).zip ((table j).map (co.held tw))) = true) →
    (f.push = false → (∀ o ∈ all, ∃ p, dst.place o = some p ∧ co.writable .nte p) → (dst.rows all).Nodup →
      (∀ j, j < n → ∀ r ∈ tw.rows (table j), r ∉ dst.rows all) →
      (src.rows all = dst.rows all ∨ ∀ r ∈ src.rows all, r ∉ dst.rows all) →
      ∃ t, exec (op.command c f) s = .next t ∧
        (∀ j p : Nat, j < n → p < 2 ^ logN →
          slotOf ((t.coach c).held dst ((j * m + p / 64 : Nat))) (p % 64) = BitVec.ofNat 36 ((limb j).getD p 0)) ∧
        ∀ r ∈ dst.rows all, look 0 (t.coach c).spadDue r = due) ∧
    (f.push = true → op.column = false → co.coupling = 2 →
      ∃ t new, exec (op.command c f) s = .next t ∧ (t.coach c).accs = co.accs ++ new ∧
        (new.filter fun a => a.act = .push).map (·.data) = (List.range n).flatMap (fun j => tilesOf (toCarriages (limb j))) ∧
        (∀ a ∈ new, a.act = .push → u.clk < a.clk ∧ a.clk < due ∧ a.engine = .nte) ∧
        (new.filter fun a => a.act = .push).Pairwise fun a b => a.clk ≤ b.clk)

/-- FWD (R116, R117). -/
def Obligations.ForwardTransformEvaluates : Prop :=
  ∀ (w psi q : Nat) (a : List Nat) (k : Nat), 1 < q → a.length = 2 ^ w → k < 2 ^ w →
    (NteOp.fwd.transform w psi q a).getD (bitrev w k) 0 =
      ((List.range (2 ^ w)).map fun i => a.getD i 0 * psi ^ ((2 * k + 1) * i)).foldl (· + ·) 0 % q

/-- Completion, occupancy and frame of the VEC (R111, R134, R135, R218), and the clk in which it pops its tiles (R30, R143). A destination code
that names neither row nor register, and a row beyond the map, make the result undefined (R87, R218); that this changes registers
and rows that the VEC may write, and nothing else, is the model's choice (DESIGN CHOICE, log entry 35). -/
def Obligations.VectorInstructionsRunInTheirTime : Prop :=
  ∀ (op : VecOp) (c : CoachId) (f : VecF) (s : State),
    let u := s.atIssue c .vec
    let co := u.coach c
    let v := co.engine .vec
    let g := v.vecCfg
    let n := f.count.toNat + 1
    let a := vecArg co v f.a 0 g.strideA
    let b := vecArg co v f.b 1 g.strideB
    let d := vecArg co v f.dst 2 g.strideD
    let beyond := ∃ r st, d = .run r st ∧ co.beyond r (offsets n st)
    s.onTime c .vec →
    ∃ t new, exec (op.command c f) s = .next t ∧ Elsewhere c .vec u t ∧ Issued c .vec f.com (n + 2) u t ∧
      (∀ r, ¬((d.noDst = true ∨ beyond) ∧ co.openRow [1, 3] r) → r ∉ d.places n → (t.coach c).row r = co.row r) ∧
      (∀ r, (d.noDst = true → 32 ≤ r) → (d.noDst = false → ∀ j, j < n → d.home j ≠ some (.inr r)) →
        look 0 (t.coach c).vregs r = look 0 co.vregs r) ∧
      (t.coach c).accMem = co.accMem ∧ (t.coach c).actTable = co.actTable ∧
      (t.coach c).accs = co.accs ++ new ∧
      (new.filter fun x => x.act = .pop).map (·.clk) =
        if co.coupling = 0 then []
        else (List.range (op.counts g n).1).flatMap fun j => if j % 4 = 0 then List.replicate (op.tileOperands a b) (u.clk + j) else []

/-- The results of the VEC but for CVT (R134 to R136), an operand from the tile queue being the oldest tiles there, carriage 0 first (R143); and
the M36 operations. -/
def Obligations.VectorOperationsAreElementwise : Prop :=
  (∀ (op : VecOp) (c : CoachId) (f : VecF) (s : State) (lam : Nat),
    let u := s.atIssue c .vec
    let co := u.coach c
    let v := co.engine .vec
    let g := v.vecCfg
    let n := f.count.toNat + 1
    let a := vecArg co v f.a 0 g.strideA
    let b := vecArg co v f.b 1 g.strideB
    let d := vecArg co v f.dst 2 g.strideD
    let per := op.tileOperands a b
    let value := fun (x : VecArg) (k j : Nat) =>
      if x.isTile then ((co.tileQueue.map (·.data)).getD (j / 4 * per + k) []).getD (j % 4) 0 else co.operand x j
    let readsD := op = .fma ∨ op = .sel
    let torus := match u.modulus? co g.pset 56, u.modulus? co g.pset 57 with
      | some pa, some pb => some (pa, pb)
      | _, _ => none
    op ≠ .cvt → s.onTime c .vec → g.reservedOk = true → op.lambda g.fmt = some lam → vecOverlap a d n n = false →
    vecOverlap b d n n = false → (0 < per → co.coupling ≠ 0 ∧ n % 4 = 0 ∧ n / 4 * per ≤ co.tileQueue.length) →
    (∀ j, j < n → (a.isTile = true ∨ co.mayGet u.clk a j) ∧ (b.isTile = true ∨ co.mayGet u.clk b j) ∧ co.mayPut d j ∧
      (readsD → co.mayGet u.clk d j)) →
    a.steady d n → b.steady d n → (readsD → d.steady d n) →
    ∃ t, exec (op.command c f) s = .next t ∧
      ∀ j w, j < n → (∀ k, j < k → k < n → d.home k ≠ d.home j) →
        op.carriage g (u.modulus? co g.pset g.prime) torus (value a 0 j) (value b (flag a.isTile) j)
          (if readsD then co.operand d j else 0) = some w →
        (t.coach c).operand d j = w ∧
          ∀ r, d.home j = some (.inl r) → look 0 (t.coach c).spadDue r = u.clk + (n + 2) + lam) ∧
  ∀ (g : VecCfg) (q : Nat) (torus : Option (Nat × Nat)) (a b d : Carriage) (sl : Nat), 1 < q → q < 2 ^ 36 → g.fmt = 9 →
    sl < 64 → g.cond < 4 →
    let x := (slotOf a sl).toNat % q
    let y := (slotOf b sl).toNat % q
    let z := (slotOf d sl).toNat % q
    let out := fun (op : VecOp) => (op.carriage g (some q) torus a b d).map fun w => (slotOf w sl).toNat
    out .add = some ((x + y) % q) ∧ out .mul = some (x * y % q) ∧ out .fma = some ((x * y + z) % q) ∧
      (∃ r, out .sub = some r ∧ r < q ∧ (r + y) % q = x) ∧ out .min = some (min x y) ∧ out .max = some (max x y) ∧
      out .cmp = some (if (g.cond = 0 ∧ x = y) ∨ (g.cond = 1 ∧ x ≠ y) ∨ (g.cond = 2 ∧ x < y) ∨ (g.cond = 3 ∧ x ≤ y)
        then 1 else 0) ∧
      out .sel = some (if y % 2 = 1 then x else z)

/-- The results of CVT (R115, R135). -/
def Obligations.ConversionKeepsElementOrder : Prop :=
  ∀ (c : CoachId) (f : VecF) (s : State) (el : Nat → Nat × Nat),
    let u := s.atIssue c .vec
    let co := u.coach c
    let v := co.engine .vec
    let g := v.vecCfg
    let n := f.count.toNat + 1
    let a := vecArg co v f.a 0 g.strideA
    let d := vecArg co v f.dst 2 g.strideD
    let m := elemsPerCarriage g.fmt
    let k := elemsPerCarriage g.dfmt
    let outs := if k ≤ m then n else ceilDiv (n * m) k
    let ins := if k ≤ m then ceilDiv (n * k) m else n
    let value := fun j => if a.isTile then ((co.tileQueue.map (·.data)).getD (j / 4) []).getD (j % 4) 0 else co.operand a j
    let torus := match u.modulus? co g.pset 56, u.modulus? co g.pset 57 with
      | some pa, some pb => some (pa, pb)
      | _, _ => none
    s.onTime c .vec → g.reservedOk = true → vecOverlap a d ins outs = false →
    (a.isTile = true → co.coupling ≠ 0 ∧ n % 4 = 0 ∧ ceilDiv ins 4 ≤ co.tileQueue.length) →
    (∀ j, j < ins → a.isTile = true ∨ co.mayGet u.clk a j) → (∀ j, j < outs → co.mayPut d j) →
    ∃ t, exec (.cvt c f) s = .next t ∧
      ∀ j, j < outs → (∀ l, j < l → l < outs → d.home l ≠ d.home j) →
        (∀ e, e < k → if j * k + e < ins * m then
          convertElem g (u.modulus? co g.pset g.prime) torus (rawElem g.fmt (value ((j * k + e) / m)) ((j * k + e) % m)) = some (el e)
          else el e = (0, 0)) →
        (t.coach c).operand d j = packCarriage g.dfmt fun e => if e < k then el e else (0, 0)

/-- Completion, occupancy and frame of the DBU (R137, R222, R434). What a set outside the modulus table or a row beyond the map leaves
undefined (R87, R108), and that it is rows that the DBU may write and nothing else, is the model's choice (DESIGN CHOICE, log entries 1
and 35). -/
def Obligations.DecomposeUnitRunsInItsTime : Prop :=
  ∀ (op : DbuOp) (c : CoachId) (f : DbuF) (s : State),
    let u := s.atIssue c .dbu
    let co := u.coach c
    let v := co.engine .dbu
    let src := co.run f.src.toNat (v.strideSum 0)
    let dst := co.run f.dst.toNat (v.strideSum 1)
    let aux := co.run f.aux.toNat (v.strideSum 2)
    let x := (s.atIssue c .dbu).startEx c .dbu 0
    s.onTime c .dbu →
    let wrote := fun (offs : List Int) r => r ∈ dst.rows offs ∨ (co.beyond dst offs ∧ co.openRow [1, 3] r)
    (∀ p, u.tableEntry? co f.pset = some p → ∃ t o, exec (op.command c f) s = .next t ∧
      op.occupancy f (some p) = some o ∧ Issued c .dbu f.com o u t ∧
      OnlyRows c .dbu (wrote ((op.data f p src aux false x).1.map fun w => (w.off : Int))) u t) ∧
    (u.tableEntry? co f.pset = none → ∃ t, exec (op.command c f) s = .next t ∧
      OnlyRows c .dbu (wrote (span 0 (f.count.toNat + 1))) u t)

/-- The results of the DBU (R434): `DbuOp.data` gives the values by carriage and slot. Slots of a carriage that no value names keep what they
held (DEDUCED, log entry 27). -/
def Obligations.DecomposeUnitWritesItsSlots : Prop :=
  ∀ (op : DbuOp) (c : CoachId) (f : DbuF) (s : State) (p : PolicyEntry) (o : Nat),
    let u := s.atIssue c .dbu
    let co := u.coach c
    let v := co.engine .dbu
    let src := co.run f.src.toNat (v.strideSum 0)
    let dst := co.run f.dst.toNat (v.strideSum 1)
    let aux := co.run f.aux.toNat (v.strideSum 2)
    let x : Ex := { u.startEx c .dbu (u.clk + (o + op.lambda)) with o := o }
    let data := op.data f p src aux false x
    let vals := data.1
    s.onTime c .dbu → u.tableEntry? co f.pset = some p → op.fieldsOk f p = true → op.partsOk p = true →
    op.occupancy f (some p) = some o →
    (∀ w ∈ vals, ∃ q, dst.place w.off = some q ∧ co.writable .dbu q ∧ q.row ∉ data.2.readRows x) →
    (∀ w ∈ vals, ∀ w' ∈ vals, w.off ≠ w'.off → (dst.place w.off).map Place.row ≠ (dst.place w'.off).map Place.row) →
    ∃ t, exec (op.command c f) s = .next t ∧
      (∀ w ∈ vals, ∀ n, w.slot < 64 → w.val = some n → (∀ w' ∈ vals, w'.off = w.off → w'.slot = w.slot → w' = w) →
        slotOf ((t.coach c).held dst w.off) w.slot = BitVec.ofNat 36 n) ∧
      (∀ w ∈ vals, ∀ sl, sl < 64 → (∀ w' ∈ vals, w'.off = w.off → w'.slot ≠ sl) →
        slotOf ((t.coach c).held dst w.off) sl = slotOf (co.held dst w.off) sl) ∧
      ∀ w ∈ vals, ∀ q, dst.place w.off = some q → look 0 (t.coach c).spadDue q.row = u.clk + (o + op.lambda)

/-- Gadget decomposition (R138). -/
def Obligations.GadgetDigitsAreBalanced : Prop :=
  ∀ (beta l bigQ t : Nat), 0 < beta → 0 < bigQ →
    let b : Int := 2 ^ beta
    let d := gadget beta l bigQ t
    d.length = l ∧ (∀ x ∈ d, -b ≤ 2 * x ∧ 2 * x < b) ∧
      ((List.range l).foldl (fun (a : Int) r => a * b + d.getD r 0) 0 - ((2 * t * 2 ^ (beta * l) + bigQ) / (2 * bigQ) : Nat)) %
        ((2 : Int) ^ (beta * l)) = 0

/-- KMM, KEW and KTAB: completion, occupancy and frame (R111, R123, R129, R131, R133, R143, R215). A tile pushed in another mode than
KSA-to-VEC, and a row beyond the map, make the result undefined (R29, R87); that this changes rows that the KSA may write, and nothing
else, is the model's choice (DESIGN CHOICE, log entry 35). -/
def Obligations.KeySwitchArrayRunsInItsTime : Prop :=
  (∀ (kew : Bool) (c : CoachId) (f : KsaF) (s : State),
     let u := s.atIssue c .ksa
     let co := u.coach c
     let v := co.engine .ksa
     let g := v.ksaCfg
     let n := f.t.toNat + 1
     let dst := co.run f.dst.toNat (v.strideSum 2)
     let outs : List Int := if kew then span 0 (4 * n) else
       (List.range n).flatMap fun t => cells.map fun rc => ((g.outAt t (t % g.aTiles) (t / g.aTiles) rc.1 rc.2).1 : Int)
     s.onTime c .ksa →
     ∃ t o, exec (if kew then .kew c f else .kmm c f) s = .next t ∧ Elsewhere c .ksa u t ∧ Issued c .ksa f.com o u t ∧
       (1 ≤ g.terms → g.terms ≤ 4096 → g.pairSel ≠ 3 → o = if kew then g.kewO f else g.kmmO f) ∧
       (∀ r, ¬(g.exits f = true ∧ f.push = false ∧ (r ∈ dst.rows outs ∨ (co.beyond dst outs ∧ co.openRow [1, 3] r))) →
         ¬(g.exits f = true ∧ f.push = true ∧ co.coupling ≠ 1 ∧ co.openRow [1, 3] r) → (t.coach c).row r = co.row r) ∧
       (∀ k, ¬(f.exit = false ∧ g.passesOn = false ∧ ∃ m, m < 16 * n ∧ k = (g.accRow + m) % 512) →
         look accDefault (t.coach c).accMem k = look accDefault co.accMem k) ∧
       (t.coach c).vregs = co.vregs ∧ (t.coach c).actTable = co.actTable) ∧
  (∀ (c : CoachId) (src : BitVec 16) (com : Common) (s : State) (p : Place),
     let u := s.atIssue c .ksa
     let co := u.coach c
     s.onTime c .ksa → co.place? src.toNat = some p → p.carriage < p.entry.size →
     co.readable .ksa u.clk p →
     ∃ t, exec (.ktab c src com) s = .next t ∧ (t.coach c).actTable = some (co.row p.row) ∧ (t.coach c).actDue = u.clk + 4 ∧
       Elsewhere c .ksa u t ∧ Issued c .ksa com 2 u t ∧ (t.coach c).spad = co.spad ∧ (t.coach c).vregs = co.vregs ∧
       (t.coach c).accMem = co.accMem)

/-- The sums of KMM and KEW: with EXIT clear they go to the accumulator memory, and a chain's first and middle members send them on (R122 to
R125, R131, R132, R215). That the first of a chain ignores ACC_IN, and that EXIT clear keeps the sums of a chain's last member too, is the
model's choice (DESIGN CHOICE, log entry 98). -/
def Obligations.MatrixProductAccumulates : Prop :=
  (∀ (kew : Bool) (c : CoachId) (f : KsaF) (s : State) (from_ : Nat → Nat → Nat → Int) (count : Nat → Nat → Nat),
    let u := s.atIssue c .ksa
    let co := u.coach c
    let v := co.engine .ksa
    let n := f.t.toNat + 1
    let g := v.ksaCfg.forOp kew n
    let ar := co.run f.a.toNat (v.strideSum 0)
    let br := co.run f.b.toNat (v.strideSum 1)
    let entry := u.tableEntry? co g.pset
    let sum := co.cellSum entry g kew ar br from_ count
    s.onTime c .ksa → co.MaySum u.clk entry g f kew ar br from_ count →
    (f.exit = false → g.passesOn = false → n ≤ 32 →
      ∃ t', exec (if kew then .kew c f else .kmm c f) s = .next t' ∧ (t'.coach c).spad = co.spad ∧
        ∀ t r, t < n → r < 16 →
          let row := look accDefault (t'.coach c).accMem ((g.accRow + 16 * t + r) % 512)
          row.kind = g.kind ∧ row.terms = termCount (count t r) g.terms ∧ row.sums.length = 16 ∧
            ∀ j, j < 16 → row.sums.getD j 0 = sum t r j) ∧
    (g.passesOn = true →
      ∃ t' new, exec (if kew then .kew c f else .kmm c f) s = .next t' ∧ (t'.coach c).accs = co.accs ++ new ∧
        (new.filter fun a => a.act = .send).map (fun a => (a.clk, a.tile)) = (List.range n).map fun t =>
          let done := u.clk + g.startOf f kew (t + 1)
          (done, some { kind := g.kind, sums := cells.map fun rc => sum t rc.1 rc.2, terms := termCount (count t 0) g.terms,
                        arrived := done + 19, src := u.freeCtr }))) ∧
  ∀ (g : KsaCfg) (q n : Nat) (start : Int) (l : List (Nat × Nat)), g.plain = false → 0 < q →
    (g.cell (some q) start n l - (start + ((l.map fun p => p.1 * p.2).sum : Nat))) % (q : Int) = 0

/-- A tile that leaves through the fused stage is written in its output form, or pushed 4 clk after its end (R126 to R130, R133, R143, R215); and
the residue stage (R126, R127). -/
def Obligations.TilesLeaveThroughTheFusedStage : Prop :=
  (∀ (kew : Bool) (c : CoachId) (f : KsaF) (s : State) (from_ : Nat → Nat → Nat → Int) (count : Nat → Nat → Nat),
    let u := s.atIssue c .ksa
    let co := u.coach c
    let v := co.engine .ksa
    let n := f.t.toNat + 1
    let g := v.ksaCfg.forOp kew n
    let ar := co.run f.a.toNat (v.strideSum 0)
    let br := co.run f.b.toNat (v.strideSum 1)
    let dst := co.run f.dst.toNat (v.strideSum 2)
    let scale := co.run g.scaleRow 0
    let bias := co.run g.biasRow (v.strideSum 3)
    let aux := co.run g.auxRow (v.strideSum 6)
    let entry := u.tableEntry? co g.pset
    let out := fun t r j => co.cellOut u.clk entry g scale bias aux t r j (co.cellSum entry g kew ar br from_ count t r j)
    let written := fun t j => g.excluded (t / g.aTiles) j = false
    let outs := ((List.range n).flatMap fun t => cells.map fun rc => ((g.cellAt t rc.1 rc.2).1 : Int)).eraseDups
    let apart := fun (rows : List Nat) => ∀ r ∈ rows, r ∉ dst.rows outs
    s.onTime c .ksa → co.MaySum u.clk entry g f kew ar br from_ count → g.exits f = true →
    (g.enabled 0 = true → ∃ p, scale.place 0 = some p ∧ co.readable .ksa u.clk p) →
    (∀ t r j, t < n → r < 16 → j < 16 → written t j →
      (g.enabled 1 = true → ∃ p, bias.place (if g.plain then 0 else ((g.cellAt t r j).1 : Int)) = some p ∧ co.readable .ksa u.clk p) ∧
      (g.enabled 2 = true → g.plain = false → ∃ p, aux.place ((g.cellAt t r j).1 : Int) = some p ∧ co.readable .ksa u.clk p)) →
    (f.push = false →
      (∀ t r j, t < n → r < 16 → j < 16 → (∃ p, dst.place ((g.cellAt t r j).1 : Int) = some p ∧ co.writable .ksa p) ∧
        ∀ t' r' j', t' < n → r' < 16 → j' < 16 → g.cellAt t' r' j' = g.cellAt t r j → t' = t ∧ r' = r ∧ j' = j) →
      (dst.rows outs).Nodup →
      (∀ t r j k, t < n → r < 16 → j < 16 → k < g.groups →
        apart (ar.rows [((g.firstAt kew t r j k).1 : Int)] ++ br.rows [((g.secondAt kew t r j k).1 : Int)])) →
      (g.enabled 0 = true → apart (scale.rows [0])) →
      (g.enabled 1 = true → apart (bias.rows (if g.plain then [0] else outs)) ∨
        (kew = false ∧ g.outLimb = false ∧ g.plain = false ∧ bias.rows outs = dst.rows outs)) →
      (g.enabled 2 = true → g.plain = false → apart (aux.rows outs)) →
      ∃ t', exec (if kew then .kew c f else .kmm c f) s = .next t' ∧
        (∀ t r j x, t < n → r < 16 → j < 16 → written t j → out t r j = some x →
          slotOf ((t'.coach c).held dst ((g.cellAt t r j).1 : Int)) (g.cellAt t r j).2 = BitVec.ofNat 36 x) ∧
        (∀ o ∈ outs, ∀ sl, sl < 64 →
          (∀ t r j, t < n → r < 16 → j < 16 → written t j → g.cellAt t r j ≠ (o.toNat, sl)) →
          slotOf ((t'.coach c).held dst o) sl = slotOf (co.held dst o) sl) ∧
        ∀ t r j p, t < n → r < 16 → j < 16 → written t j → dst.place ((g.cellAt t r j).1 : Int) = some p →
          look 0 (t'.coach c).spadDue p.row = u.clk + (if kew then g.kewO f + 5 else g.kmmL f)) ∧
    (f.push = true → co.coupling = 1 →
      ∃ (t' : State) (new : List Acc) (tile : Nat → List Carriage),
        exec (if kew then .kew c f else .kmm c f) s = .next t' ∧ (t'.coach c).accs = co.accs ++ new ∧
        (new.filter fun a => a.act = .push).map (fun a => (a.clk, a.data)) =
          (List.range n).map (fun t => (u.clk + g.startOf f kew (t + 1) + 4, tile t)) ∧
        ∀ t, t < n → (tile t).length = 4 ∧ ∀ r j x, r < 16 → j < 16 → written t j → out t r j = some x →
          slotOf ((tile t).getD ((16 * r + j) / 64) 0) ((16 * r + j) % 64) = BitVec.ofNat 36 x)) ∧
  ∀ (g : KsaCfg) (q d : Nat) (acc : Int) (scale bias y : Nat), 0 < q → d * invMod (d % q) q % q = 1 % q →
    ∃ x, g.fuseResidue (some q) (some d) acc scale bias y = some x ∧ x < q ∧
      let stage : Int := acc * (if g.enabled 0 then scale else 1) + (if g.enabled 1 then bias else 0)
      (if g.enabled 2 then (x : Int) * d - (stage - centred (y % d) d) else x - stage) % (q : Int) = 0

/-- The bitwise modulus switch (R139). -/
def Obligations.ModulusSwitchRounds : Prop :=
  ∀ (f : DbuF) (p : PolicyEntry) (src aux : Run) (x : Ex) (e : Nat), 0 < p.torusPa → 0 < p.torusPb →
    e < 16 * (f.count.toNat + 1) →
    let read := (x.getSlots src ((List.range (16 * (f.count.toNat + 1))).map (· / 32)) f.drain).1
    let t := crt p.torusPa p.torusPb (torusAt read e).1 (torusAt read e).2
    let bigQ := p.torusPa * p.torusPb
    ∃ m, 2 * bigQ * m ≤ 2 * t * (2 * p.ng) + bigQ ∧ 2 * t * (2 * p.ng) + bigQ < 2 * bigQ * (m + 1) ∧
      (DbuOp.mswb.data f p src aux false x).1[e]? = some ⟨e / 64, e % 64, some (m % (2 * p.ng))⟩

/-- XFER of SIN (R91, R93, R207, R243, R315). All requests stand ready from the clk of the issue (DEDUCED, log entry 34), and header images are
asked for as whole granules (DEDUCED, log entry 30). What an undefined transfer, and a near slot beyond the map, leave undefined (R87,
R202, R223), and that it is rows that SIN may write and nothing else, is the model's choice (DESIGN CHOICE, log entry 35). -/
def Obligations.InputTransferAsksForItsGranules : Prop :=
  ∀ (c : CoachId) (desc : BitVec 10) (com : Common) (s : State) (k : Task),
    (s.coach c).canIssue .sin true = true →
    let u := s.atIssue c .sin
    u.taskOf c = some k →
    let co := u.coach c
    let v := co.engine .sin
    let i := u.clk
    let word := co.descriptor (v.descField desc 3)
    let d := XDesc.ofWord word
    let far := u.farOf c d.farRegion
    let idx := BitVec.ofNat 13 v.pc
    let input := d.mode = 0 ∧ d.len ≠ 0 ∧ d.dir = false
    ∃ t w, exec (.sinXfer c desc com) s = .next t ∧ t.clk = i ∧
      (t.coach c).engine .sin = { v.issued i com.hold.toNat with transfer := some w } ∧
      (¬input → w.reqs = [] ∧ (XDesc.ofWord w.desc.toNat).visits = 0 ∧ i < w.free ∧ SameMemory u t ∧
        ∀ r, ¬ co.openRow [2] r → (t.coach c).row r = co.row r) ∧
      (input → (co.prog.region d.farRegion).kind ≠ 4 → OnlyEngine c .sin u t ∧
        w = { newTransfer word far.1 far.2 i com idx v.remoteCoach with reqs := d.reads far.1 far.2 i }) ∧
      (input → (co.prog.region d.farRegion).kind = 4 →
        w.visits = d.visits ∧ w.reqs = [] ∧ w.remote = v.remoteCoach ∧
        w.free = i + 1 + d.rate true k.f.mode.toNat * (d.movesOf 0 d.visits).length ∧
        (∀ r, (∀ n p, n < d.visits → co.slotPlace d.nearEntry (d.nearAt n) = some p → r ≠ p.row) →
          ¬(co.hazardOn = false ∧ co.openRow [2] r ∧ ∃ n, n < d.visits ∧ co.slotPlace d.nearEntry (d.nearAt n) = none) →
          (t.coach c).row r = co.row r) ∧
        (t.coach c).doors = co.doors ∧ (t.coach c).vregs = co.vregs ∧ SameMemory u t)

/-- HOST_MEMORY_COMPLETION: the carriages that one granule serves are moved (R91, R94, R176); and header images on input (R52, R93). Which visits
go on one carriage is read from R78 and R94 (DEDUCED, log entry 94). -/
def Obligations.GranuleFillsTheWindow : Prop :=
  (∀ (c : CoachId) (s : State) (w0 w : Transfer) (q0 q : Req) (moves : Nat) (place : Nat → Place),
    ((s.coach c).engine .sin).transfer = some w0 → (w0.reqs.find? fun r => r.far = .host) = some q0 →
    let u := s.advance (q0.clkAt + 1)
    let co := u.coach c
    let d := XDesc.ofWord w.desc.toNat
    let n := d.runLen w.visits
    let g := BitVec.ofNat 4608 (leNat (u.hostRead q.addr 576))
    (co.engine .sin).transfer = some w → d.hdrCount = 0 → d.reduce = 0 → w.got = [] → w.visits < d.visits →
    (w.reqs.find? fun r => r.far = .host) = some q → q.first = w.visits →
    ((d.movesOf w.visits (d.visits - w.visits)).take moves).flatten.length = n →
    (∀ i, i < n → co.slotPlace d.nearEntry (d.nearAt (w.visits + i)) = some (place i) ∧ co.writable .sin (place i)) →
    (∀ i j, i < j → j < n → (place i).row = (place j).row →
      d.nearAt (w.visits + i) % 64 ≠ d.nearAt (w.visits + j) % 64) →
    ∃ t w', exec (.hostMemoryCompletion c) s = .next t ∧
      (∀ i, i < n → slotOf ((t.coach c).row (place i).row) (d.nearAt (w.visits + i) % 64).toNat =
        d.slotIn g (w.visits + i)) ∧
      ((t.coach c).engine .sin).transfer = some w' ∧ w'.visits = w.visits + n ∧
      w'.reqs = w.reqs.filter (fun r => decide (r.first ≠ q.first)) ∧
      (∀ r, (∀ i, i < n → r ≠ (place i).row) → (t.coach c).row r = co.row r) ∧ SameMemory u t ∧
      (t.coach c).doors = co.doors ∧ (t.coach c).vregs = co.vregs ∧ (t.coach c).accMem = co.accMem) ∧
  ∀ (s : State) (c : CoachId) (w : Transfer) (i image : Nat),
    let d := XDesc.ofWord w.desc.toNat
    let co := (s.coach c).settle s.clk
    let h := Header.ofImage image
    let known := (co.ctx? h.context).any fun x => x.tag.isSome
    let own : Header := { h with poison := true, originEngine := 5, originIndex := w.index }
    d.hdrSlot + i ≠ 0 →
    ∃ r : Header, ((s.loadImage c w i image).coach c).hdrLate =
        insertWrite { due := max (s.clk + 1) w.free, engine := 5, slot := d.hdrSlot + i, value := r } co.hdrLate ∧
      (h.scheme = .plain → r = { h with context := 0, paramSet := 0 }) ∧
      (h.scheme ≠ .plain → ∀ x, co.ctx? h.context = some x →
        r = { (if known || h.poison then h else own) with paramSet := x.paramSet }) ∧
      (h.scheme ≠ .plain → co.ctx? h.context = none → r = if h.poison then h else own) ∧
      ((s.loadImage c w i image).coach c).mismatch = co.mismatch + if h.scheme ≠ .plain ∧ known = false then 1 else 0

/-- XFER of SOUT, a write that leaves for host memory, and header images on output (R52, R91, R94, R176, R317, R318). Near side and digest
are taken as the rows stand at the issue, and what an access then finds otherwise replaces it (log entries 14 and 30); that the write
stands in host memory in the clk it leaves is the model's choice (DESIGN CHOICE, log entry 37). -/
def Obligations.OutputTransferReadsItsWindow : Prop :=
  (∀ (c : CoachId) (desc : BitVec 10) (com : Common) (s : State) (k : Task) (place : Nat → Place),
    (s.coach c).canIssue .sout true = true →
    let u := s.atIssue c .sout
    u.taskOf c = some k →
    let co := u.coach c
    let v := co.engine .sout
    let i := u.clk
    let word := co.descriptor (v.descField desc 3)
    let d := XDesc.ofWord word
    let far := u.farOf c d.farRegion
    let rate := d.rate false 0
    let moves := d.movesOf 0 d.visits
    let vals := moves.zipIdx.flatMap fun m => m.1.map fun n =>
      (slotOf (co.row (place n).row) (d.nearAt n % 64).toNat, moveClk (i + 1) rate m.2)
    let key := digestKey k.f.seed d.farRegion
    let w : Transfer :=
      { newTransfer word far.1 far.2 i com (BitVec.ofNat 13 v.pc) v.remoteCoach with
        visits := d.visits, free := i + 1 + moves.length * rate, reqs := d.writes far.1 far.2 vals
        images := d.imagesOut vals }
    d.mode = 0 → d.len ≠ 0 → d.dir = true →
    (∀ n, n < d.visits → co.slotPlace d.nearEntry (d.nearAt n) = some (place n) ∧ co.readable .sout i (place n)) →
    ∃ t, exec (.soutXfer c desc com) s = .next t ∧ t.clk = i ∧
      (t.coach c).engine .sout = { v.issued i com.hold.toNat with transfer := some w } ∧
      (t.coach c).digestSlots = co.digestSlots + d.visits ∧
      (t.coach c).digest =
        vals.zipIdx.foldl (fun a e => (a + digestTerm key (d.farAt e.2).toNat e.1.1) % digestPrime) co.digest ∧
      (t.coach c).spad = co.spad ∧ (t.coach c).vregs = co.vregs ∧ (t.coach c).accMem = co.accMem ∧
      (t.coach c).doors = co.doors ∧ SameMemory u t) ∧
  (∀ (c : CoachId) (s : State) (w : Transfer) (q : Req), s.pending = [] → (s.coach c).phase = .running →
    ((s.coach c).engine .sout).transfer = some w → w.reqs = [q] → w.images = [] → q.far = .host → q.left = false →
    q.clkAt ≤ s.clk → (∀ a ∈ (s.coach c).accs, a.engine = .sout → s.clk < a.clk) →
    (∀ d e, (s.coach d).phase = .running → (e = .sin ∨ e = .sout) → (d ≠ c ∨ e ≠ .sout) →
      (s.coach d).leavers s.clk e = []) →
    ∃ t w', step s = .next t ∧ t.host = (s.applyHost q.addr q.wr).host ∧
      ((t.coach c).engine .sout).transfer = some w' ∧ w'.reqs = []) ∧
  (∀ (co : Coach) (clk : Nat) (w : Transfer) (q : Req) (i : Nat × Nat × Nat × Nat), (co.engine .sout).transfer = some w →
    i ∈ w.images → i.1 ≤ clk → (∀ j ∈ w.images, j.2.2.1 = i.2.2.1 → j = i) → q ∈ w.reqs → q.first = i.2.2.1 →
    ∃ w', ((co.takeImages clk).engine .sout).transfer = some w' ∧
      { q with wr := imageBytes (co.headerAt i.2.1 i.1).image i.2.2.2 } ∈ w'.reqs ∧ i ∉ w'.images) ∧
  ∀ (h : Header) (place k : Nat), Header.ofImage h.image = h ∧
    (k < 16 → look ((0 : Byte), (0 : Byte)) (imageBytes h.image place) (place + k) = (0xFF, BitVec.ofNat 8 (h.image / 256 ^ k)))

/-- KCART and CART_ARRIVAL (R61, R62, R64, R224, R236, R237). -/
def Obligations.KeyCartFillsItsRegion : Prop :=
  (∀ (c : CoachId) (f : KcartF) (s : State), (s.coach c).canIssue .kin true = true → (s.coach c).intake = [] →
    let u := s.atIssue c .kin
    let v := (u.coach c).engine .kin
    let i := u.clk
    let cart : Int := f.cart.toNat + v.strideSum 7
    ∃ t k, exec (.kcart c f) s = .next t ∧ OnlyEngine c .kin u t ∧
      (t.coach c).engine .kin = { v.issued i f.com.hold.toNat with kin := some k } ∧ k.f = f ∧ k.done = 0 ∧
      k.issuedAt = i ∧ k.free = i + 1 ∧ k.target = v.hdrField f.hdr 4 ∧ k.roff = f.roff.toNat + v.strideSum 3 ∧
      k.index = BitVec.ofNat 13 v.pc ∧ k.remote = v.remoteCoach ∧ (0 ≤ cart → cart < 65536 → k.cart = cart)) ∧
  ∀ (c : CoachId) (s : State) (n : Nat) (d : Delivery) (k : KinOpen) (m : MapEntry),
    findAt (fun x : Delivery => decide (x.coach = c)) s.kst.flight 0 = some (n, d) →
    let a := d.arrives (s.coach c).intakeAt s.clk
    let u := { s with kst := { s.kst with flight := s.kst.flight.take n ++ s.kst.flight.drop (n + 1) } }.advance a
    let co := u.coach c
    let h := (co.settle u.clk).headerRaw k.target
    let region := k.f.rbase.toNat + ((k.roff + k.done) % ((k.f.ring.toNat : Int) + 1)).toNat
    let place := fun n => ({ entry := m, carriage := 64 * region + n } : Place)
    let free := max (k.free + 64) (a + 2)
    co.phase = .running → co.task = d.task → co.intakeDone = false → co.intake = [] → (co.engine .kin).kin = some k →
    k.done ≤ k.f.count.toNat → co.keyWindow = some m → d.cart.format = 2 ∨ d.cart.format = 3 →
    d.cart.keyIndex = k.f.keyIndex → (d.cart.seq.toNat : Int) = k.cart + k.done →
    (co.settle u.clk).tagOf h.context = some d.cart.tag → d.cart.tag ≠ noKeyTag → 64 * region + 63 < m.size →
    d.cart.body.length = 64 → (∀ l, l < 64 → co.writable .kin (place l)) →
    (∀ l j, l < j → j < 64 → (place l).row ≠ (place j).row) →
    ∃ t k', exec (.cartArrival c) s = .next t ∧ t.clk = u.clk ∧
      (∀ l, l < 64 → (t.coach c).row (place l).row = d.cart.body.getD l 0) ∧
      (t.coach c).tagLate = (co.settle u.clk).tagLate ++ [{ due := free, region := region, tag := d.cart.tag }] ∧
      (t.coach c).regionTags = (co.settle u.clk).regionTags ∧
      ((t.coach c).engine .kin).kin = some k' ∧ k'.done = k.done + 1 ∧ k'.free = free ∧ (t.coach c).intake = [] ∧
      t.kst.back = u.kst.back ++ [{ due := free + 172, recv := d.coach, all := false }] ∧
      (∀ r, (∀ l, l < 64 → r ≠ (place l).row) → (t.coach c).row r = co.row r) ∧ (t.coach c).doors = co.doors ∧
      (t.coach c).hdrLate = (co.settle u.clk).hdrLate ∧ SameMemory u t

/-- COMPLETION_SIGNAL, REMOTE_DOOR_ADD and STREAM_COMPLETE (R176, R185), and the doors at the end of a clk (R186, R187). R185 gives a signal to
another coach 36 to 88 clk; that it takes 36 is the model's choice (DESIGN CHOICE, log entry 60). -/
def Obligations.SignalsReachTheirDoors : Prop :=
  (∀ (c : CoachId) (s : State), (s.coach c).phase = .running →
    (∀ e g rest, firstDue ((s.coach c).sigs.filter fun x => decide (x.engine = e)) = some (g, rest) →
      let u := s.advance g.due
      ∃ t, exec (.completionSignal c e) s = .next t ∧
        (t.coach c).sigs = ((u.coach c).sigs.filter fun x => decide (x.engine ≠ e)) ++ rest ∧
        (g.coach = c → (u.coach c).Added (t.coach c) g.door g.amount.toNat g.due ∧
          OnlyAt c u t (fun a b => { a.doorsBack b with sigs := a.sigs })) ∧
        (g.coach ≠ c → t.coach g.coach = { u.coach g.coach with inbound := (u.coach g.coach).inbound ++
            [{ g with due := g.due + 36 }] } ∧
          { t.coach c with sigs := (u.coach c).sigs } = u.coach c ∧
          (∀ d, d ≠ c → d ≠ g.coach → t.coach d = u.coach d) ∧ t = { u with coaches := t.coaches })) ∧
    (∀ g rest, firstDue (s.coach c).inbound = some (g, rest) →
      let u := s.advance g.due
      ∃ t, exec (.remoteDoorAdd c) s = .next t ∧ (t.coach c).inbound = rest ∧
        (u.coach c).Added (t.coach c) g.door g.amount.toNat g.due ∧
        OnlyAt c u t (fun a b => { a.doorsBack b with inbound := a.inbound })) ∧
    (∀ e n com remote,
      let u := State.reachEnd c e ((s.coach c).accs.length + 2) s
      ((s.coach c).completesAt e = some (n, com, remote) → n ≤ s.clk → u = s) ∧
      ((u.coach c).completesAt e = some (n, com, remote) → (∀ sid, ((u.coach c).engine e).st ≠ .atShutter sid) →
       ∃ t, exec (.streamComplete c e) s = .next t ∧
        OnlyAt c u t (fun a b => { b with engines := a.engines, sigs := a.sigs }) ∧
        (t.coach c).engine e = { (u.coach c).engine e with
          transfer := none, kin := none, nextIssue := max ((u.coach c).engine e).nextIssue u.clk } ∧
        (∀ f, f ≠ e → (t.coach c).engine f = (u.coach c).engine f) ∧
        (com.csAmt = 0 → (t.coach c).sigs = (u.coach c).sigs) ∧
        (com.csAmt ≠ 0 → (com.csRem = true → remote = c) → (t.coach c).sigs = (u.coach c).sigs ++
          [{ engine := e, coach := c, door := com.csDoor, amount := BitVec.ofNat 16 com.csAmt.toNat, due := u.clk }])))) ∧
  (∀ (co : Coach) (t : Nat) (d : BitVec 8),
    let v := (co.door d).value.toNat
    let sum := (((co.door d).adds.filter fun r => decide (r.1 ≤ t)).map (·.2)).sum
    let end_ := co.endClk t
    ((∀ f n, (co.engine f).st ≠ .onWait d n) → (end_.door d).value.toNat = min 65535 (v + sum) ∧
      (65535 < v + sum → end_.sat = true)) ∧
    (∀ e n, (co.engine e).st = .onWait d n → (∀ f m, f ≠ e → (co.engine f).st ≠ .onWait d m) →
      (n.toNat ≤ v → end_.engine e = (co.engine e).resumeAt t ∧ (end_.door d).value.toNat = min 65535 (v - n.toNat + sum)) ∧
      (v < n.toNat → end_.engine e = co.engine e ∧ (end_.door d).value.toNat = min 65535 (v + sum))) ∧
    ∀ e f n m, eid e < eid f → (co.engine e).st = .onWait d n → (co.engine f).st = .onWait d m →
      (∀ g l, g ≠ e → g ≠ f → (co.engine g).st ≠ .onWait d l) → n.toNat ≤ v → v < n.toNat + m.toNat →
      end_.engine e = (co.engine e).resumeAt t ∧ end_.engine f = co.engine f ∧
        (end_.door d).value.toNat = min 65535 (v - n.toNat + sum)) ∧
  ∀ s : State, s.pending = [] → ∃ t, step s = .next t ∧ ∀ c,
    (∀ d, (t.coach c).door d = ((s.coach c).endClk s.clk).door d) ∧
    ∀ e, ((t.coach c).engine e).st = (((s.coach c).endClk s.clk).engine e).st

/-- TASK_START (R183, R196, R197). That all start steps, the wake of the banks among them, stand from the command on, with the clock unmoved, is
the model's choice (DESIGN CHOICE, log entries 1 and 39). -/
def Obligations.TaskStartPreparesItsCoaches : Prop :=
  ∀ (id : TaskId) (s : State) (k : Task),
    (s.tasks.find? fun t => t.id = id && t.st = .queued) = some k → s.startReady k = true → s.queueReady k = true →
    s.board.throttle = false → (∀ c ∈ maskCoaches k.coachMask, (s.coach c).gated = false) →
    (∀ n ∈ k.devices, ∀ u ∈ s.ehl.unreachable, u.1 ≠ n.toNat) →
    ∃ t u t0, exec (.taskStart id) s = .next t ∧ t.task? k.key = some u ∧ u.st = .running ∧ u.t0 = t0 ∧
      (maskCoaches k.coachMask ≠ [] → s.clk + 384 ≤ t0 ∧ t0 ≤ s.clk + 6728) ∧
      (∀ c ∈ maskCoaches k.coachMask,
        let co := t.coach c
        co.phase = .running ∧ co.task = some k.key ∧ co.prog.valid = true ∧ co.prog.progId = k.f.programId ∧
        (∀ b, (co.bank b).st = .on) ∧ co.fill = [] ∧ (∀ i, i ≠ 0 → co.headerRaw i = Header.uninit) ∧ co.hdrLate = [] ∧ co.opens = [] ∧
        co.doors = doorsOf co.prog ∧ (∀ r, co.regionTag r = noKeyTag) ∧ co.actTable = none ∧ co.accs = [] ∧
        co.ctxList = s.contextList k.contexts ∧ co.modTable = (co.ctxList.map (·.paramSet)).eraseDups ∧
        co.tileQueue = [] ∧ co.chainIn = [] ∧ co.sigs = [] ∧ co.wdogActive = max (s.coach c).wdogLimit.toNat 65536 ∧
        ∀ e, co.engine e = { EngineS.zero with st := .issuing, nextIssue := t0 }) ∧
      (∀ c, c ∉ maskCoaches k.coachMask → t.coach c = s.coach c) ∧ SameMemory s t ∧ t.clk = s.clk

/-- COACH_END and DIGEST_RECORD_WRITE (R198, R319). -/
def Obligations.CoachEndPassesItsAccounts : Prop :=
  (∀ (c : CoachId) (s : State) (key : Nat) (k : Task),
    let co := s.coach c
    let last := (maskCoaches k.coachMask).all fun x => (k.endedCoaches ++ [c.toNat]).contains x.toNat
    co.task = some key → co.partOver = true → s.task? key = some k → k.st = .running →
    ∃ t, exec (.coachEnd c) s = .next t ∧ (t.coach c).phase = .idle ∧ (t.coach c).task = none ∧
      (t.coach c).spad = co.spad ∧ (t.coach c).vregs = co.vregs ∧ (t.coach c).accMem = co.accMem ∧
      (t.coach c).doors = co.doors ∧ (t.coach c).headers = co.headers ∧ (t.coach c).banks = co.banks ∧
      (t.coach c).actTable = none ∧ (∀ e, ((t.coach c).engine e).st = .noTask) ∧ SameMemory s t ∧
      (last = false → t.kst.back = s.kst.back ++ [{ due := s.clk + 173, recv := c, all := true }] ∧
        ∃ u, t.task? key = some u ∧ u.st = .running ∧ u.endedCoaches = k.endedCoaches ++ [c.toNat] ∧
        u.poison = k.poison + co.poisonCount ∧ u.mismatch = k.mismatch + co.mismatch) ∧
      (last = true → (∀ u, t.task? key = some u → u.st = .ended) ∧
        ∀ q v, (s.queueOf key) = some (q, v) → (look KeyQueue.idle t.kst.queues q).active = false)) ∧
  ∀ (id : TaskId) (s : State) (k : Task), (s.tasks.find? fun t => t.id = id && !t.records.isEmpty) = some k →
    let base := k.f.digestAddr.toNat + 32 * k.recsWritten
    ∃ t, exec (.digestRecordWrite id) s = .next t ∧
      (∀ i j r, k.records[i]? = some r → j < 32 →
        t.hostByte (base + 32 * i + j) = BitVec.ofNat 8 (r.word.toNat / 2 ^ (8 * j))) ∧
      (∀ a, a < base ∨ base + 32 * k.records.length ≤ a → t.hostByte a = s.hostByte a) ∧
      (∀ a, t.hbmByte a = s.hbmByte a) ∧ t.coaches = s.coaches

/-- DEVICE_SHUTTER_RELEASE and FABRIC_SHUTTER_RELEASE (R190, R191). -/
def Obligations.ShuttersReleaseTogether : Prop :=
  ∀ (id : TaskId) (sid : BitVec 4) (s : State) (k : Task), s.taskNamed id = some k →
    let w := k.shutter sid.toNat
    let released := fun (i : Instr) (r : Nat) =>
      let u := s.advance r
      u.clk = max s.clk r ∧ ∀ x, u.task? k.key = some x → ∃ t v, exec i s = .next t ∧ t.clk = u.clk ∧
        (∀ c e, (t.coach c).engine e =
          if c ∈ maskCoaches x.coachMask ∧ ((u.coach c).engine e).st = .atShutter sid then
            ((u.coach c).engine e).resumeAt r
          else (u.coach c).engine e) ∧
        (∀ c, (t.coach c).doors = (u.coach c).doors ∧ (t.coach c).spad = (u.coach c).spad) ∧ SameMemory u t ∧
        t.task? k.key = some v ∧ (v.shutter sid.toNat).arrived = [] ∧
        (v.shutter sid.toNat).uses = (x.shutter sid.toNat).uses + 1
    (∀ c cs, maskCoaches k.coachMask = c :: cs → k.st = .running → (s.coach c).prog.shutterFabric sid.toNat = false →
      w.arrived ≠ [] → k.participants ((s.coach c).prog.shutterMask sid.toNat) ≤ w.arrived.length →
      released (.deviceShutterRelease id sid) (w.lastAt + 192)) ∧
    ∀ fd, let mine := w.remotes.filter fun x => decide (x.use = w.uses % 2 ^ 16)
      let r := mine.foldl (fun a x => max a x.fd) fd + k.f.margin.toNat
      k.st = .running → w.sentFd = some fd →
      (∀ n ∈ k.devices, n ≠ s.ehl.nodeId → ∃ x ∈ mine, x.node = n.toNat) →
      ((∀ x ∈ mine, x.ftimeAt + 192 ≤ r) → released (.fabricShutterRelease id sid) (s.ehl.clkOf s.clk r) ∧
        (s.ehl.slew = 0 → s.ehl.drift = 0 → s.ehl.ftime < 2 ^ 62 → r < 2 ^ 62 →
          s.ehl.clkOf s.clk r = s.clk + (r - s.ehl.ftime))) ∧
      ∀ y ∈ mine, r < y.ftimeAt + 192 → (∀ x ∈ mine, r < x.ftimeAt + 192 → x.clkAt ≤ y.clkAt) →
        released (.fabricShutterRelease id sid) (y.clkAt + 192)

/-- DEADLOCK_WATCHDOG, TASK_WATCHDOG and RUN_LIMIT (R193 to R195). -/
def Obligations.WatchdogsAbortTheTask : Prop :=
  ∀ (s : State),
    let same := fun (u t : State) => t.clk = u.clk ∧ SameMemory u t ∧
      ∀ c, (t.coach c).spad = (u.coach c).spad ∧ (t.coach c).doors = (u.coach c).doors
    let snap := fun (u t : State) (c : CoachId) => ∀ e, look 0 (t.coach c).snaps (eid e) = (u.coach c).snapshot e u.clk
    (∀ c key since, (s.coach c).task = some key → s.coachStuck (s.coach c) = some since →
      let u := s.advance (firesAt s.clk since (s.coach c).wdogActive (s.coach c).wdogCount)
      let now := fires u.clk (u.coach c).wdogActive (u.coach c).wdogCount (u.coachStuck (u.coach c))
      (since ≤ s.clk → (s.coach c).wdogActive ≤ (s.coach c).wdogCount → u = s ∧ now = true) ∧
      (now = false → exec (.deadlockWatchdog c) s = .next s) ∧
      ∀ k, now = true → u.runs key k →
        ∃ t, exec (.deadlockWatchdog c) s = .next t ∧ t.aborts key 1 ∧ (t.coach c).deadlock = true ∧ same u t ∧ snap u t c) ∧
    (∀ id k c cs since, s.taskNamed id = some k → maskCoaches k.coachMask = c :: cs → s.taskStuck k = some since →
      let limit := (s.coach c).wdogActive
      let u := s.advance (firesAt s.clk since limit k.wdogCount)
      ∀ x, u.task? k.key = some x →
      let now := fires u.clk limit x.wdogCount (u.taskStuck x)
      (now = false → exec (.taskWatchdog id) s = .next s) ∧
      (now = true → u.runs k.key x → ∃ t, exec (.taskWatchdog id) s = .next t ∧ t.aborts k.key 1 ∧
        (t.coach c).deadlock = true ∧ same u t ∧ ∀ d ∈ maskCoaches x.coachMask, snap u t d)) ∧
    (∀ id k x, s.taskNamed id = some k → k.f.runLimit ≠ 0 →
      (∃ c ∈ maskCoaches k.coachMask, (s.coach c).task = some k.key ∧ (s.coach c).phase = .running) →
      let u := s.advance (k.t0 + k.f.runLimit.toNat)
      u.runs k.key x → ∃ t, exec (.runLimit id) s = .next t ∧ t.aborts k.key 8 ∧ same u t ∧
        t.clk = max s.clk (k.t0 + k.f.runLimit.toNat))

/-- ABORT_RECEIPT, ABORT_DRAIN_DONE, SCRUB_DONE and ABORT_COMPLETE (R352 to R356). -/
def Obligations.AbortStopsDrainsAndScrubs : Prop :=
  ∀ (s : State) (c : CoachId),
    let co := s.coach c
    let others := fun (u t : State) => ∀ d, d ≠ c → t.coach d = u.coach d
    (∀ k, s.abortFor c = some k → ∃ t, exec (.abortReceipt c) s = .next t ∧ others s t ∧ SameMemory s t ∧
      (t.coach c).phase = .stopped ∧ (t.coach c).task = some k.key ∧ (t.coach c).sigs = [] ∧ (t.coach c).hdrLate = [] ∧
      (t.coach c).tagLate = [] ∧ (t.coach c).accs = [] ∧ (t.coach c).opens = [] ∧ (t.coach c).spad = co.spad ∧
      (t.coach c).headers = (co.settle s.clk).headers ∧
      ∀ e, ((t.coach c).engine e).st = .noTask ∧ ((t.coach c).engine e).kin = none ∧
        ((t.coach c).engine e).transfer =
          if e = .sout then ((co.settle s.clk).engine .sout).transfer.map Transfer.stop else none) ∧
    (co.phase = .stopped → ∃ t, exec (.abortDrainDone c) s = .next t ∧ others s t ∧ (t.coach c).phase = .scrubbing ∧
      (t.coach c).spad = co.spad ∧ (∀ a, t.hostByte a = s.hostByte a) ∧ ((t.coach c).engine .sout).transfer = none ∧
      (∀ b, b < 32 → ((t.coach c).bank b).st = (co.bank b).st ∧
        ((t.coach c).bank b).target = decide ((co.bank b).st = .on ∨ (co.bank b).st = .waking)) ∧
      ((co.engine .sout).transfer = none → ∀ a, t.hbmByte a = s.hbmByte a) ∧
      ∀ w, (co.engine .sout).transfer = some w → t.hbm = ((w.reqs.filter fun r => decide (r.far = .hbm)).foldl
        (fun (s : State) (r : Req) => if (s.taskOf c).any (fun k => k.lostCh.contains (channelOf (granuleOf r.addr))) then s
          else s.applyHbm r.addr r.wr) s).hbm) ∧
    (∀ key, co.phase = .scrubbing → co.task = some key →
      let u := s.advance co.wakesBy
      let cu := u.coach c
      ∃ t, exec (.scrubDone c) s = .next t ∧ others u t ∧ SameMemory u t ∧ t.kst = u.kst.refill c ∧
      (t.coach c).phase = .idle ∧ (t.coach c).task = none ∧ (∀ r, (t.coach c).row r = 0) ∧ (t.coach c).fill = [] ∧
      (t.coach c).accs = [] ∧ (∀ b, b < 32 → ((t.coach c).bank b).st = if (cu.bank b).st = .on ∨ (cu.bank b).st = .waking then .on else .off) ∧
      (∀ i, i ≠ 0 → (t.coach c).headerRaw i = Header.uninit) ∧ (∀ d, ((t.coach c).door d).value = 0) ∧
      (t.coach c).tileQueue = [] ∧ (t.coach c).intake = [] ∧ (t.coach c).chainIn = [] ∧ (t.coach c).vregs = [] ∧
      (t.coach c).ttile = [] ∧ (∀ i, i < 512 → (look accDefault (t.coach c).accMem i).sums = List.replicate 16 0) ∧
      (∀ r, (t.coach c).regionTag r = noKeyTag) ∧ (t.coach c).slotA = cu.slotA ∧ (t.coach c).slotB = cu.slotB ∧
      (t.coach c).active = cu.active ∧ (t.coach c).stall = cu.stall ∧ (t.coach c).hazardInfo = cu.hazardInfo ∧
      (t.coach c).eccAddr = cu.eccAddr ∧ (t.coach c).snaps = cu.snaps ∧
      ∀ x, u.task? key = some x → t.task? key = some { x with scrubbed := x.scrubbed ++ [c.toNat] }) ∧
    (∀ id k, (s.tasks.find? fun t => t.id = id && t.st = .aborting) = some k →
      ((maskCoaches k.coachMask).all fun x => s.abortDone k x) = true →
      let outside := fun (f : Far) a => ∀ w ∈ k.wrote, w.1 = f → a < w.2.1 ∨ w.2.1 + w.2.2 ≤ a
      ∃ t, exec (.abortComplete id) s = .next t ∧ t.coaches = s.coaches ∧ (∀ a, outside .hbm a → t.hbmByte a = s.hbmByte a) ∧
        (∀ a, outside .host a → t.hostByte a = s.hostByte a) ∧ ∀ u, t.task? k.key = some u → u.st = .ended)

/-- BANK_DRAIN_END, with what the bank held lost at the end of its clk (R84), BANK_WAKE_END, GATE_NOW, COACH_IDLE_GATE and COACH_WAKE (R24, R25,
R82, R83, R432). That a gated coach keeps its vector registers and its header table is the model's choice (DESIGN CHOICE, log entry
104). -/
def Obligations.BanksAndCoachesPowerDownAndUp : Prop :=
  ∀ (s : State) (c : CoachId),
    let co := s.coach c
    let gated := fun (u t : State) => (t.coach c).gated = true ∧ (∀ b, b < 32 → ((t.coach c).bank b).st = .off) ∧
      (∀ r, (t.coach c).row r = 0) ∧ (t.coach c).fill = [] ∧ (t.coach c).slotA = (u.coach c).slotA ∧
      (t.coach c).slotB = (u.coach c).slotB ∧ (t.coach c).stall = (u.coach c).stall ∧
      (t.coach c).vregs = (u.coach c).vregs ∧ (t.coach c).headers = (u.coach c).headers ∧ SameMemory u t ∧
      t.clk = u.clk ∧ ∀ d, d ≠ c → t.coach d = u.coach d
    let emptied := fun (u t : State) (b : BitVec 5) => t.clk = u.clk ∧
      (∀ r, r / 2048 = b.toNat → (∀ a ∈ (u.coach c).accs, a.write = true → a.row ≠ r) →
        (t.coach c).row r = 0 ∧ look false (t.coach c).fill r = false) ∧
      (∀ r, r / 2048 ≠ b.toNat → (t.coach c).row r = (u.coach c).row r ∧
        look false (t.coach c).fill r = look false (u.coach c).fill r) ∧
      (∀ n, n ≠ b.toNat → (t.coach c).bank n = (u.coach c).bank n) ∧
      ((t.coach c).bank b.toNat).target = ((u.coach c).bank b.toNat).target ∧ SameMemory u t
    (∀ b, (co.bank b.toNat).st = .draining →
      let u := State.reachDrain c b.toNat (co.accs.length + 2) s
      (co.drainEnd b.toNat ≤ s.clk → u = s) ∧ (co.bank b.toNat).since < co.drainEnd b.toNat ∧
      co.drainEnd b.toNat ≤ (co.bank b.toNat).since + 5000 ∧
      ∃ t, exec (.bankDrainEnd c b) s = .next t ∧ OnlyAt c u t (fun a b => { b with banks := a.banks }) ∧
        (t.coach c).bank b.toNat = { (u.coach c).bank b.toNat with st := .off, since := u.clk } ∧
        ∀ n, n ≠ b.toNat → (t.coach c).bank n = (u.coach c).bank n) ∧
    (s.pending = [] → ∃ t, step s = .next t ∧ ∀ r, (co.bank (r / 2048)).st = .off → (co.bank (r / 2048)).since = s.clk →
      look 0 (t.coach c).spad r = 0 ∧ look false (t.coach c).fill r = false) ∧
    (∀ b, (co.bank b.toNat).st = .waking →
      let u := s.advance ((co.bank b.toNat).since + 1600)
      ∃ t, exec (.bankWakeEnd c b) s = .next t ∧ emptied u t b ∧ ((t.coach c).bank b.toNat).st = .on ∧
        t.clk = max s.clk ((co.bank b.toNat).since + 1600)) ∧
    (s.coachIdle c = true → co.gated = false → ∃ t, exec (.gateNow c) s = .next t ∧ gated s t) ∧
    (s.coachIdle c = false → exec (.gateNow c) s = .next s) ∧
    (s.coachIdle c = true → co.gated = false → co.idleLimit ≠ 0 →
      let u := s.advance (s.clk + (co.idleLimit.toNat * 65536 - co.idleCount))
      ∃ t, exec (.coachIdleGate c) s = .next t ∧ gated u t ∧
        t.clk = s.clk + (co.idleLimit.toNat * 65536 - co.idleCount)) ∧
    (co.gated = true → co.waking = true →
      (s.board.throttle = false → ∃ t, exec (.coachWake c) s = .next t ∧
        t.coach c = { co with gated := false, waking := false, idleCount := 0 } ∧ SameMemory s t) ∧
      (s.board.throttle = true → exec (.coachWake c) s = .next s))

/-- SPAD_ROW_REPAIR, DBG_READ, DBG_WRITE and DBG_DONE (R76, R77, R81). That a draining bank takes a debug access, and that a write to a bank
without power does nothing, is the model's choice (DESIGN CHOICE, log entries 78 and 99). -/
def Obligations.RepairsAndDebugAccesses : Prop :=
  ∀ (s : State) (c : CoachId),
    let co := s.coach c
    let denied : BitVec 2 := if s.boot.debug = false then 1 else if co.phase ≠ .idle then 2
      else if 1536 ≤ co.dbgAddr.toNat / 64 % 2048 then 3 else 0
    (∀ row : BitVec 16, co.repairs.contains row.toNat = true → co.phase = .idle →
      let used := look 0 co.spares (row.toNat / 2048)
      ∃ t, exec (.spadRowRepair c row) s = .next t ∧ (t.coach c).spad = co.spad ∧ (t.coach c).idleCount = 0 ∧
        row.toNat ∉ (t.coach c).repairs ∧ SameMemory s t ∧
        (used < 16 → look 0 (t.coach c).spares (row.toNat / 2048) = used + 1 ∧
          (∀ e ∈ (t.coach c).ecc, e.1 / 64 ≠ row.toNat) ∧ (t.coach c).degraded = co.degraded ∧
          t.boot.nvm = s.boot.nvm.append (.spadRepair c.toNat (row.toNat / 2048) (row.toNat % 2048) used)) ∧
        (16 ≤ used → (t.coach c).degraded = true)) ∧
    (co.dbgReq = none →
      (denied = 0 → (∃ t, exec (.dbgRead c) s = .next t ∧
          t.coach c = { co with dbgDenied := 0, dbgReq := some { write := false, addr := co.dbgAddr }, idleCount := 0 }) ∧
        ∃ t, exec (.dbgWrite c) s = .next t ∧
          t.coach c = { co with dbgDenied := 0, dbgReq := some { write := true, addr := co.dbgAddr }, idleCount := 0 }) ∧
      (denied ≠ 0 → (∃ t, exec (.dbgRead c) s = .next t ∧ t.coach c = { co with dbgDenied := denied, dbgData := 0 }) ∧
        ∃ t, exec (.dbgWrite c) s = .next t ∧ t.coach c = { co with dbgDenied := denied })) ∧
    ∀ r, co.dbgReq = some r →
      let row := r.addr.toNat / 64
      let sl := r.addr.toNat % 64
      let st := (co.bank (row / 2048)).st
      ∃ t, exec (.dbgDone c) s = .next t ∧ (t.coach c).dbgReq = none ∧ (t.coach c).fill = co.fill ∧ SameMemory s t ∧
        (∀ n, n ≠ row → look 0 (t.coach c).spad n = look 0 co.spad n) ∧
        (st = .off ∨ st = .waking → (t.coach c).spad = co.spad) ∧
        (st = .on ∨ st = .draining →
          (r.write = true → slotOf (look 0 (t.coach c).spad row) sl = co.dbgData ∧ (t.coach c).dbgData = co.dbgData ∧
            ∀ n, n < 64 → n ≠ sl → slotOf (look 0 (t.coach c).spad row) n = slotOf (look 0 co.spad row) n) ∧
          (r.write = false → (t.coach c).spad = co.spad ∧
            (t.coach c).dbgData = if co.isEarly 5 = true then co.dbgData else slotOf (look 0 co.spad row) sl))

/-- CART_SEND (R230, R232, R234 to R237, R245). That asking begins with the command, no earlier than T0, is the model's choice (DESIGN CHOICE, log
entry 50), and so are the slots of a void cart that no directory entry names (log entry 79), and that a coach whose part is over, from
the clk in which its credits have come back, spends none (log entry 100). The KIND of a void cart is open (log entry 1). -/
def Obligations.KeyStreamerSendsItsCarts : Prop :=
  ∀ (q : BitVec 4) (s : State) (k : Task) (h : InHand),
    let u := s.advance k.t0
    let v := u.keyQueue q.toNat
    let job := AskJob.key q.toNat h.task.key
    let ask := fun (addr n place : Nat) =>
      ({ port := 0, chan := channelOf (granuleOf addr), addr := addr, n := n, clkAt := u.clk, job := job place } : Ask)
    let mine := u.keyRole h.e = .read []
    let coaches : List CoachId := (h.e.receivers h.seq).filter (u.takesCarts h.task.key)
    let held := (look none v.hdrs h.entry).any fun x => decide (x.1 = v.hdrGranule h)
    (s.keyQueue q.toNat).active = true → s.task? (s.keyQueue q.toNat).task = some k → k.st = .running → u.inHand v = some h →
    (∀ y, v.stage = 0 → v.got = [] → mine → v.asked h = false → look none u.contexts h.e.context.toNat = some y →
      y.dirAddr.toNat + 32 * h.e.keyIndex + 32 ≤ hbmEnd →
      ∃ t, exec (.cartSend q) s = .next t ∧ t.hbm.asks = u.hbm.asks ++ [ask (y.dirAddr.toNat + 32 * h.e.keyIndex) 32 33] ∧
        t.keyQueue q.toNat = { v with stage := 1 } ∧ t.coaches = u.coaches ∧ SameMemory u t) ∧
    (∀ d, v.stage = 0 → v.void = false → v.got = [] → mine → v.dir h = some d → d.names h.e h.seq = true →
      d.bodyNode = u.ehl.nodeId →
      ∃ t, exec (.cartSend q) s = .next t ∧ t.keyQueue q.toNat = { v with stage := 2 } ∧
        t.hbm.asks = u.hbm.asks ++ (if held then [] else [ask (v.hdrGranule h) 576 0]) ++
          ((List.range 32).map fun i => ask (d.bodyAddr + 18432 * h.seq + 576 * i) 576 (i + 1)) ∧
        t.coaches = u.coaches ∧ SameMemory u t) ∧
    (v.stage = 0 → v.got = [] → u.keyRole h.e = .void ∨ (mine ∧ v.asked h = true ∧ ∀ d, v.dir h = some d → d.names h.e h.seq = false) →
      ((∀ d, v.dir h = some d → d.hdrNode = u.ehl.nodeId ∧ d.bodyNode = u.ehl.nodeId) →
        ∃ t l, exec (.cartSend q) s = .next t ∧ t.keyQueue q.toNat = { v with stage := 2, void := true } ∧
          t.hbm.asks = u.hbm.asks ++ l ∧ l.length = (if held then 32 else 33) ∧
          (∀ a ∈ l, a.port = 0 ∧ a.n = 0 ∧ ∃ i, a.job = job i) ∧ t.coaches = u.coaches ∧ SameMemory u t) ∧
      ∀ d, v.dir h = some d → d.hdrNode ≠ u.ehl.nodeId → d.bodyNode ≠ u.ehl.nodeId →
        (u.fetch q.toNat).hbm.asks = u.hbm.asks ∧ (u.fetch q.toNat).cartReady ((u.fetch q.toNat).keyQueue q.toNat) h = true) ∧
    (u.cartReady v h = true →
      (u.lacking v h ≠ [] → u.turnQueue ≠ some q.toNat) ∧
      (u.turnQueue ≠ some q.toNat → exec (.cartSend q) s = .next u) ∧
      (u.turnQueue = some q.toNat → exec (.cartSend q) s = .next ((u.advance (u.roomAt h)).sendCart q.toNat)) ∧
      (u.turnQueue = some q.toNat → u.roomAt h ≤ u.clk → mine ∨ u.keyRole h.e = .void → ∃ (x : State) (w : Cart),
        exec (.cartSend q) s = .next ((x.setQueue q.toNat (v.sent h.list h.e h.entry h.n)).fetch q.toNat) ∧
        x = { u with freeCtr := x.freeCtr, early := x.early, kst := { u.kst with last := q.toNat, flight := u.kst.flight ++ coaches.map (fun c : CoachId => { clkAt := u.clk + 236, coach := c, task := (u.coach c).task, cart := w }), used := coaches.foldl (fun m (c : CoachId) => store 0 m c.toNat (look 0 m c.toNat + 1)) u.kst.used, nextAt := (h.e.receivers h.seq).foldl (fun m (c : CoachId) => store 0 m c.toNat (u.clk + 64)) u.kst.nextAt, cartsSent := count48 (u.kst.cartsSent + 1), voidCarts := if v.void then count48 (u.kst.voidCarts + 1) else u.kst.voidCarts } } ∧
        (v.void = true → w.format = 3 ∧ w.tag = noKeyTag ∧ w.seq = BitVec.ofNat 32 h.seq ∧
          w.keyIndex = BitVec.ofNat 16 h.e.keyIndex ∧ w.body = List.replicate 64 0) ∧
        ∀ d bs, v.void = false → v.dir h = some d → look none v.hdrs h.entry = some (v.hdrGranule h, bs) →
          w = Cart.ofBytes ((bs.drop ((d.hdrAddr + 32 * h.seq) % 576)).take 32)
            ((List.range 32).flatMap fun i => look [] v.got (i + 1))))

/-- KEY_CREDIT_ARRIVAL, MCAST_TIMEOUT, SERVING_TASK_END, KST_SPLIT_WRITE and SPLIT_APPLY (R237 to R239, R245, R342). -/
def Obligations.KeyCreditsReturnOrTimeOut : Prop :=
  ∀ s : State,
    let quiet := fun (u t : State) => t.clk = u.clk ∧ SameMemory u t ∧ t.coaches = u.coaches
    (∀ (c : CoachId) (b : CreditBack), firstBack (s.kst.back.filter fun b => decide (b.recv = c)) = some b →
      let u := s.advance (b.due - 172)
      ∃ t, exec (.keyCreditArrival c) s = .next t ∧ quiet u t ∧ t.kst.back = u.kst.back.erase b ∧
        (∀ d, look 0 t.kst.used d = if d = c.toNat then (if b.all then 0 else look 0 u.kst.used d - 1) else look 0 u.kst.used d) ∧
        (∀ q, q < 16 → look 0 (t.keyQueue q).timers c.toNat = 0) ∧
        ((∀ q, q < 16 → u.timerFull q c.toNat = false) → t.tasks = u.tasks) ∧
        ∀ q h k, q < 16 → u.timerFull q c.toNat = true → u.inHand (u.keyQueue q) = some h → u.runs h.task.key k →
          t.aborts h.task.key 2 ∧ t.kst.timeout = true) ∧
    (∀ (q : BitVec 4) (r : Receiver), (s.heldFor (s.keyQueue q.toNat)).contains (receiverNumber r) = true →
      let n := receiverNumber r
      let spent := look 0 (s.keyQueue q.toNat).timers n
      let u := s.advance (s.clk + ((s.keyQueue q.toNat).limit - spent))
      ((s.keyQueue q.toNat).limit ≤ spent → u = s ∧ u.timerFull q.toNat n = true) ∧
      (u.timerFull q.toNat n = false → exec (.mcastTimeout q r) s = .next s) ∧
      ∀ h, u.timerFull q.toNat n = true → u.inHand (u.keyQueue q.toNat) = some h →
        ∃ t info, exec (.mcastTimeout q r) s = .next t ∧ quiet u t ∧ t.kst.timeout = true ∧
          t.kst.timeoutSet = satInc u.kst.timeoutSet ∧ t.kst.timeoutInfo = BitVec.ofNat 32 info ∧ info % 2 ^ 4 = q.toNat ∧
          (∀ c, r = .coach c → info = c.toNat * 2 ^ 16 + q.toNat) ∧
          (∀ m, r = .member m → info / 2 ^ 16 = 2 ^ 12 + m.toNat) ∧
          ∀ key k, u.runs key k → (key = h.task.key ∨ ∃ c ∈ h.e.receivers h.seq, bitOf k.coachMask.toNat c.toNat = true) →
            t.aborts key 2) ∧
    (∀ (id : TaskId) (k : Task) (q : Nat) (v : KeyQueue),
      (s.tasks.find? fun t => t.id = id && t.st = .running && t.f.programId = 0) = some k →
      s.queueOf k.key = some (q, v) → s.keysDone k.key = true → (∀ u ∈ v.used, u.2 = 0) →
      ∃ t, exec (.servingTaskEnd id) s = .next t ∧ (∀ u, t.task? k.key = some u → u.st = .ended) ∧
        (t.keyQueue q).active = false ∧ t.coaches = s.coaches ∧ SameMemory s t) ∧
    (∀ value : BitVec 32,
      let l := [bits value.toNat 3 0, bits value.toNat 7 4, bits value.toNat 11 8]
      exec (.kstSplitWrite value) s = .next (if bits value.toNat 3 0 + bits value.toNat 7 4 + bits value.toNat 11 8 = 8
        then { s with kst := { s.kst with sharesPending := some l } } else s)) ∧
    (∀ l, s.kst.sharesPending = some l →
      let u := s.advance s.nextBoundary
      exec .splitApply s = .next (if u.noTask then { u with kst := { u.kst with shares := l, sharesPending := none } } else s))

/-- GRANT_SLOT (R242 to R244, R253, R257, R260). That the requests of the key streamer, of the gateways and of the host wait at their
channel, and that a slot grants once in its frame, is read from these rules (DEDUCED, log entry 79). -/
def Obligations.GrantSlotsServeTheirWinner : Prop :=
  sharePattern [4, 2, 2] = [0, 1, 2, 0, 0, 1, 2, 0] ∧
  ∀ (ch : BitVec 8) (slot : BitVec 6) (err : BitVec 2) (s : State),
    let lam := ch.toNat
    let n := slot.toNat
    let u := (s.advance (s.hbm.frameAt + 18 * n)).closeSlot lam n
    lam < 248 → n < 40 → err ≠ 3 →
    (s.hbm.slots.contains (40 * lam + n) = true → exec (.grantSlot ch slot err) s = .next s) ∧
    (s.hbm.slots.contains (40 * lam + n) = false →
    (u.channelRetrains lam = true ∨ u.refreshing lam n = true →
      ∃ t, exec (.grantSlot ch slot err) s = .next t ∧ t.hbm = u.hbm ∧ t.coaches = u.coaches ∧ t.host = u.host) ∧
    (u.channelRetrains lam = false → u.refreshing lam n = false → u.moving lam true = false → u.moving lam false = false →
      (∀ p a, n % 5 = 4 → (sharePattern u.kst.shares).getD ((n - 4) / 5) 0 = p → u.askOf lam p = some a →
        u.winner lam n = .port a) ∧
      (∀ a, n % 5 ≠ 4 → u.bids lam = [] → u.askOf lam 3 = some a → u.winner lam n = .port a) ∧
      (∀ b, u.winner lam n = .coach b →
        (∀ o ∈ u.bids lam, b.before o = true) ∧
        (b.eng = .sout → exec (.grantSlot ch slot err) s =
          .next ((u.onCoach b.coach fun co => co.accepted u.clk b.req).writeHbm b.coach b.req)) ∧
        (b.eng = .sin → err = 0 → (∀ w, u.wordErr w = none) → exec (.grantSlot ch slot err) s =
          .next (u.feed b.coach b.req (BitVec.ofNat 4608 (leNat (lookList 0 u.hbm.data b.req.addr 576))))) ∧
        (∀ w key k, b.eng = .sin → err = 0 → w ∈ wordsOf b.req.addr 576 → u.wordErr w = some .double →
          (u.coach b.coach).task = some key → u.runs key k →
          ∃ t, exec (.grantSlot ch slot err) s = .next t ∧ t.aborts key 6 ∧ SameMemory u t)) ∧
      (∀ a, u.winner lam n = .port a →
        let w := { u with hbm := { u.hbm with asks := u.hbm.asks.erase a } }
        (∀ q task place, a.job = .key q task place → a.n ≠ 0 → err = 0 → (∀ x, u.wordErr x = none) →
          exec (.grantSlot ch slot err) s = .next (w.granuleCame q task place (lookList 0 u.hbm.data a.addr a.n))) ∧
        (∀ k got, a.job = .respond k got → a.part = a.n → err = 0 → (∀ x, u.wordErr x = none) →
          exec (.grantSlot ch slot err) s = .next (w.sendPacket .readRsp (w.packetTo k.src k.tag
            (BitVec.ofNat 2 (bits k.info.toNat 69 68)) 0 (bits k.info.toNat 85 70 * 2 ^ 70)
            (got ++ lookList 0 u.hbm.data a.addr a.n)))) ∧
        (∀ x data, a.job = .write (some x) data → data.length = a.n →
          (u.stk (stackOf (channelOf (granuleOf a.addr)))).unserved.contains (activeOf (channelOf (granuleOf a.addr))) = false →
          ∃ t, exec (.grantSlot ch slot err) s = .next t ∧ t.coaches = u.coaches ∧ (∀ b, t.hostByte b = u.hostByte b) ∧
            (∀ i, i < a.part → t.hbmByte (a.addr + i) = data.getD i 0) ∧
            (∀ b, b < a.addr ∨ a.addr + a.part ≤ b → t.hbmByte b = u.hbmByte b) ∧
            (a.part = a.n → t.hbm.asks = w.hbm.asks))) ∧
      (u.winner lam n = .nobody → exec (.grantSlot ch slot err) s = .next u)))

/-- HBM_FRAME_BOUNDARY, HBM_RETRAIN_DONE, POISON_FILL_DONE, EVAC_DONE, MEM_MAINT_RETRAIN and MEM_MAINT_EVACUATE (R256 to
R270). That every word of a lost channel is uncorrectable at once, whatever slot the fill has reached, and that EVAC_DONE makes the copies
not made yet, is the model's reading (DEDUCED, log entry 47); that a retraining ends at a frame boundary is log entry 79. -/
def Obligations.ChannelsRetrainAndAreReplaced : Prop :=
  ∀ s : State,
    ((∀ k, k < 8 → (s.stk k).copying = []) →
      let u := s.advance (s.hbm.frameAt + 720)
      ∃ t, exec .hbmFrameBoundary s = .next t ∧ t.clk = max s.clk (s.hbm.frameAt + 720) ∧ t.hbm.frame = s.hbm.frame + 1 ∧
        t.hbm.frameAt = s.hbm.frameAt + 720 ∧ t.hbm.slots = [] ∧ SameMemory u t ∧ t.coaches = u.coaches ∧
        ∀ k, k < 8 →
          (t.stk k).hot = (if 85 ≤ (s.stk k).temp.toNat then true else if (s.stk k).temp.toNat < 80 then false else (s.stk k).hot) ∧
          ((s.stk k).retraining ≠ none → (t.stk k).retraining = (s.stk k).retraining) ∧
          ((s.stk k).retraining = none → (t.stk k).retraining = (u.nextRetrain (u.stk k)).map fun a => (a, 0))) ∧
    ∀ stack : BitVec 3,
      let k := stack.toNat
      let v := s.stk k
      (∀ a f, v.retraining = some (a, f) →
        let u := s.wholeFrames (8 * a + k)
        (∃ t, exec (.hbmRetrainDone stack true) s = .next t ∧ (t.stk k).retraining = none ∧
          look 0 (t.stk k).trainTemp a = v.temp.toNat ∧ look 0 (t.stk k).chState (v.phys a) = 0 ∧ SameMemory u t ∧
          t.clk = max s.clk s.nextBoundary ∧ t.coaches = u.coaches ∧ t.tasks = u.tasks) ∧
        (f + 1 < 3 → exec (.hbmRetrainDone stack false) s = .next (u.setStk k { v with retraining := some (a, f + 1) })) ∧
        (3 ≤ f + 1 → ∃ t, exec (.hbmRetrainDone stack false) s = .next t ∧ (t.stk k).retraining = none ∧ (t.stk k).lost = true ∧
          (∀ key x, u.runs key x → t.aborts key 6) ∧ SameMemory u t ∧ t.coaches = u.coaches ∧
          (v.spareFor = 31 → v.noSpare = false → v.evac = none → (t.stk k).spareFor = BitVec.ofNat 5 a ∧
            (t.stk k).noSpare = true ∧ (t.stk k).filling = true ∧ (t.stk k).evac = some (a, 0)) ∧
          ∀ w, channelOf (granuleOf (8 * w)) = 8 * a + k → t.wordErr w = some .double)) ∧
      exec (.poisonFillDone stack) s =
        .next (if v.filling then s.setStk k { v with filling := false, evac := none } else s) ∧
      (∀ a w, v.evac = some (a, w) → v.filling = false → a < 31 →
        ∃ t, exec (.evacDone stack) s = .next t ∧ (t.stk k).spareFor = BitVec.ofNat 5 a ∧ (t.stk k).noSpare = true ∧
          (t.stk k).evac = none ∧ (v.spareFor = 31 → look 0 (t.stk k).chState a = 3) ∧ look 0 (t.stk k).chState 31 = 0 ∧
          SameMemory s t ∧ t.coaches = s.coaches ∧
          t.boot.nvm = s.boot.nvm.append (.channel k a true false)) ∧
      ∀ ch : BitVec 5,
        exec (.memMaintRetrain stack ch) s = .next (if ch = 31 ∨ v.retrainHost.contains ch.toNat = true then s
          else s.setStk k { v with retrainHost := v.retrainHost ++ [ch.toNat] }) ∧
        (ch = 31 ∨ v.evac ≠ none ∨ v.noSpare = true → exec (.memMaintEvacuate stack ch) s = .next s) ∧
        (ch ≠ 31 → v.evac = none → v.noSpare = false → v.spareFor = 31 →
          ∃ t, exec (.memMaintEvacuate stack ch) s = .next t ∧ (t.stk k).evac = some (ch.toNat, 0) ∧
            (t.stk k).filling = false ∧ t.boot.nvm = s.boot.nvm.append (.channel k ch.toNat false false) ∧
            t.hbm.data = s.hbm.data ∧ t.coaches = s.coaches ∧ t.tasks = s.tasks)

/-- BAR2_READ, BAR2_WRITE and HIF_BAR2_BASE_WRITE (R253, R328). That an access waits at its channel for a grant, granule after granule, is
read from R242 to R244 (DEDUCED, log entry 79). -/
def Obligations.WindowReachesMemory : Prop :=
  (∀ (s : State) (off : BitVec 36),
    let a := s.hif.bar2Gib.toNat * 2 ^ 30 + off.toNat
    let asked := fun (n : Nat) (job : AskJob) => { s with hbm := { s.hbm with asks := s.hbm.asks ++
      [{ port := 3, chan := channelOf (granuleOf a), addr := a, n := n, clkAt := s.clk, job := job }] } }
    (∀ len : BitVec 10,
      let n := min len.toNat (hbmEnd - a)
      (n = 0 → exec (.bar2Read off len) s =
        .next { s with bus := { s.bus with bytes := List.replicate len.toNat 0xFF, ep := false } }) ∧
      (n ≠ 0 → exec (.bar2Read off len) s = .next (asked n (.host (len.toNat - n) [] false)))) ∧
    (∀ data : List Byte, exec (.bar2Write off data) s =
      .next (if data.take (hbmEnd - a) = [] then s else asked (data.take (hbmEnd - a)).length (.write none (data.take (hbmEnd - a))))) ∧
    ∀ value : BitVec 32, exec (.hifBar2BaseWrite value) s =
      .next (if value.toNat % 1024 ≤ 928 then { s with hif := { s.hif with bar2Gib := value.extractLsb' 0 10 } } else s)) ∧
  ∀ (s : State) (x : Ask), x.n ≠ 0 →
    let w := { s with hbm := { s.hbm with asks := s.hbm.asks.erase x } }
    let t := s.serveAsk x
    (∀ pad got bad, x.job = .host pad got bad →
      ((∀ i, s.wordErr i = none) →
        (x.part = x.n → t = { w with bus := { s.bus with
          bytes := got ++ lookList 0 s.hbm.data x.addr x.n ++ List.replicate pad 0xFF, ep := bad } }) ∧
        (x.part < x.n → t = { w with hbm := { w.hbm with asks := w.hbm.asks ++ [{ x with
          chan := channelOf (granuleOf (x.addr + x.part)), addr := x.addr + x.part, n := x.n - x.part
          job := .host pad (got ++ lookList 0 s.hbm.data x.addr x.part) bad }] } })) ∧
      (∀ i, i < x.part → x.part = x.n → s.wordErr ((x.addr + i) / 8) = some .double →
        t.bus.ep = true ∧ t.bus.bytes.length = got.length + x.n + pad ∧ t.hbm.uncorr = true ∧ SameMemory s t ∧
        t.coaches = s.coaches ∧ t.tasks = s.tasks)) ∧
    ∀ data, x.job = .write none data → data.length = x.n →
      let lam := channelOf (granuleOf x.addr)
      ((s.stk (stackOf lam)).unserved.contains (activeOf lam) = false → ∀ i, i < x.part →
        (∀ r ∈ s.boundRegions, x.addr + i < r.1 ∨ r.1 + r.2 ≤ x.addr + i) → t.hbmByte (x.addr + i) = data.getD i 0) ∧
      (∀ b, b < x.addr ∨ x.addr + x.part ≤ b → t.hbmByte b = s.hbmByte b) ∧
      t = { s with freeCtr := t.freeCtr, hbm := t.hbm, tasks := t.tasks, ehl := t.ehl }

/-- SQ_ENABLE, CQ_ENABLE, EVENT_RING_ENABLE and the three doorbells (R329, R330, R348, R362). That LOG_SIZE and CQ are written even where
enabling is refused, and that a doorbell of a disabled ring stores its index, is the model's reading (DEDUCED, log entry 61). -/
def Obligations.RingsFollowTheirControlsAndDoorbells : Prop :=
  ∀ (s : State) (i : BitVec 6) (v : BitVec 32),
    let size := v.extractLsb' 4 5
    let fits := 4 ≤ size.toNat ∧ size.toNat ≤ 16
    let on := v.getLsbD 0
    let rejected := fun (t : State) => t = { s with
      early := t.early
      hif := { s.hif with dbErr := true, dbErrSet := satInc s.hif.dbErrSet, pba := t.hif.pba, raised := t.hif.raised } }
    (let q := s.sq i.toNat
     let new := { q with cq := v.extractLsb' 10 6, logSize := size }
     let set := fun (x : Sq) => exec (.sqEnable i v) s = .next ((s.hit (320 + i.toNat) 0).setSq i.toNat x)
     (q.enable = false → on = true → fits → set { new with enable := true, head := 0, tail := 0 }) ∧
     (q.enable = false → on = false ∨ ¬fits → set new) ∧ (q.enable = true → set { q with enable := on })) ∧
    (let q := s.cq i.toNat
     let set := fun (x : Cq) => exec (.cqEnable i v) s = .next ((s.hit (384 + i.toNat) 0).setCq i.toNat x)
     (q.enable = false → on = true → fits → set { q with logSize := size, enable := true, head := 0, tail := 0, phase := true }) ∧
     (q.enable = false → on = false ∨ ¬fits → set { q with logSize := size }) ∧ (q.enable = true → set { q with enable := on })) ∧
    (let e := s.evt
     ∃ t, exec (.eventRingEnable v) s = .next t ∧ t.evt.held = e.held ∧ t.evt.base = e.base ∧
       t.evt.dropped = (e.dropped && (!v.getLsbD 9 || s.isEarly 2)) ∧ t.evt.logSize = (if e.enable then e.logSize else size) ∧
       t.evt.enable = (if e.enable then on else (on && decide fits)) ∧
       (e.enable = false → on = true → fits → t.evt.head = 0 ∧ t.evt.tail = 0 ∧ t.evt.phase = true ∧ t.evt.resetAborts = []) ∧
       (e.enable = true ∨ on = false ∨ ¬fits → t.evt.head = e.head ∧ t.evt.tail = e.tail ∧ t.evt.phase = e.phase) ∧
       SameMemory s t ∧ t.coaches = s.coaches ∧ t.tasks = s.tasks) ∧
    (let q := s.sq i.toNat
     let c := s.cq i.toNat
     let sqAt := BitVec.ofNat 24 (0x1000 * i.toNat)
     let cqAt := BitVec.ofNat 24 (0x40000 + 0x1000 * i.toNat)
     let ok := v.toNat < 2 ^ 16 ∧ s.hif.hostReady = true
     (ok → v.toNat < 2 ^ q.logSize.toNat →
       exec (.sqTailDoorbell sqAt 4 v) s = .next (s.setSq i.toNat { q with tail := BitVec.ofNat 16 v.toNat })) ∧
     (ok → v.toNat < 2 ^ c.logSize.toNat →
       exec (.cqHeadDoorbell cqAt 4 v) s = .next (s.setCq i.toNat { c with head := BitVec.ofNat 16 v.toNat })) ∧
     (ok → v.toNat < 2 ^ s.evt.logSize.toNat → exec (.eventHeadDoorbell 0x80000 4 v) s =
       .next { s with evt := { s.evt with head := BitVec.ofNat 16 v.toNat } }) ∧
     ∀ n : Nat,
       (n ≠ 4 ∨ ¬ok ∨ 2 ^ q.logSize.toNat ≤ v.toNat → ∃ t, exec (.sqTailDoorbell sqAt n v) s = .next t ∧ rejected t) ∧
       (n ≠ 4 ∨ ¬ok ∨ 2 ^ c.logSize.toNat ≤ v.toNat → ∃ t, exec (.cqHeadDoorbell cqAt n v) s = .next t ∧ rejected t) ∧
       (n ≠ 4 ∨ ¬ok ∨ 2 ^ s.evt.logSize.toNat ≤ v.toNat →
         ∃ t, exec (.eventHeadDoorbell 0x80000 n v) s = .next t ∧ rejected t))

/-- COMMAND_FETCH, COMPLETION_WRITE, EVENT_RECORD, EVENT_RING_WRITE and IRQ_DELAY_EXPIRE (R331 to R333, R360, R361). -/
def Obligations.CommandsAreFetchedAndAnswered : Prop :=
  ∀ (s : State) (i : BitVec 6),
    let q := s.sq i.toNat
    let c := s.cq i.toNat
    let e := s.evt
    let w := leNat (lookList 0 s.host (q.base.toNat + 128 * q.head.toNat) 128)
    let next := { q with head := BitVec.ofNat 16 ((q.head.toNat + 1) % 2 ^ q.logSize.toNat) }
    let failed := fun (t : State) (info : Nat) => t.hif.ringErr = true ∧ t.hif.ringErrSet = satInc s.hif.ringErrSet ∧
      t.hif.ringErrInfo = BitVec.ofNat 32 info ∧ SameMemory s t ∧ t.coaches = s.coaches ∧ t.tasks = s.tasks
    let raised := fun (t : State) (n : Nat) => (look Msix.reset s.hif.msix n).ctrl.getLsbD 0 = false →
      look 0 t.hif.raised n = look 0 s.hif.raised n + 1
    (s.turn = some i.toNat →
      (malformedAt w = none → exec (.commandFetch i false) s =
        .next ({ s with hif := { s.hif with nextSq := (i.toNat + 1) % 64 } }.setSq i.toNat
          { next with fetched := some (q.head, BitVec.ofNat 1024 w) })) ∧
      (∀ d, malformedAt w = some d → ∃ t k, exec (.commandFetch i false) s = .next t ∧
        (t.cq q.cq.toNat).held = (s.cq q.cq.toNat).held ++ [k] ∧ bits k.word.toNat 15 8 = 1 ∧
        bits k.word.toNat 471 424 = d % 2 ^ 48 ∧ t.sq i.toNat = next ∧ SameMemory s t ∧ t.coaches = s.coaches) ∧
      ∃ t, exec (.commandFetch i true) s = .next t ∧
        t.sq i.toNat = { q with enable := q.enable && s.isEarly (320 + i.toNat) } ∧ failed t (2 ^ 8 + i.toNat) ∧ raised t 65) ∧
    (s.turn ≠ some i.toNat → ∀ error, exec (.commandFetch i error) s = .next s) ∧
    (∀ k rest, c.held = k :: rest → c.enable = true → c.full = false →
      (∃ t, exec (.completionWrite i false) s = .next t ∧ (∃ more, (t.cq i.toNat).held = rest ++ more) ∧
        (t.cq i.toNat).tail.toNat = (c.tail.toNat + 1) % 2 ^ c.logSize.toNat % 2 ^ 16 ∧
        (t.cq i.toNat).phase = (if (c.tail.toNat + 1) % 2 ^ c.logSize.toNat = 0 then !c.phase else c.phase) ∧
        (∀ j, j < 64 → t.hostByte (c.base.toNat + 64 * c.tail.toNat + j) =
          BitVec.ofNat 8 ((k.word.toNat + flag c.phase * 2 ^ 48) / 2 ^ (8 * j))) ∧
        (∀ a, a < c.base.toNat + 64 * c.tail.toNat ∨ c.base.toNat + 64 * c.tail.toNat + 64 ≤ a → t.hostByte a = s.hostByte a) ∧
        (∀ a, t.hbmByte a = s.hbmByte a) ∧ t.coaches = s.coaches ∧
        (k.noIrq = false → c.delay = 0 → raised t i.toNat)) ∧
      ∃ t, exec (.completionWrite i true) s = .next t ∧ t.cq i.toNat = { c with enable := s.isEarly (384 + i.toNat) } ∧
        failed t (2 * 2 ^ 8 + 2 ^ 7 + i.toNat) ∧ raised t 65) ∧
    (∀ (src : BitVec 15) x rest,
      let n := src.toNat
      let u := s.advance ((look EvSource.zero e.sources n).recordAt n s.clk)
      let v := look EvSource.zero u.evt.sources n
      let r := recordWord x v.seq n u.ehl.ftime
      (look EvSource.zero e.sources n).waiting ≠ [] → v.waiting = x :: rest → u.evt.held.length < 256 → x.replayed = false →
      ∃ t, exec (.eventRecord src) s = .next t ∧ t.evt.held = (u.evt.take u.clk n r).held ∧
        ((∀ o ∈ u.evt.held, u.evt.after u.clk n o = false) → t.evt.held = u.evt.held ++ [r]) ∧
        (∀ l o, u.evt.held = l ++ [o] → u.evt.after u.clk n o = true → (∀ p ∈ l, u.evt.after u.clk n p = false) →
          t.evt.held = l ++ [r, o]) ∧
        look EvSource.zero t.evt.sources n =
          { seq := v.seq + 1, waiting := rest, lastClk := some u.clk, lastTs := BitVec.ofNat 64 u.ehl.ftime } ∧
        (∀ m, m ≠ n → look EvSource.zero t.evt.sources m = look EvSource.zero u.evt.sources m) ∧
        t = { u with early := t.early, evt := t.evt }) ∧
    (∀ r rest, e.held = r :: rest → e.enable = true → e.full = false →
      (∃ t, exec (.eventRingWrite false) s = .next t ∧ t.evt.held = rest ∧
        (∀ j, j < 32 → t.hostByte (e.base.toNat + 32 * e.tail.toNat + j) =
          BitVec.ofNat 8 ((r.toNat + flag e.phase * 2 ^ 79) / 2 ^ (8 * j))) ∧
        (∀ a, a < e.base.toNat + 32 * e.tail.toNat ∨ e.base.toNat + 32 * e.tail.toNat + 32 ≤ a → t.hostByte a = s.hostByte a) ∧
        (e.delay = 0 → raised t 64)) ∧
      ∃ t, exec (.eventRingWrite true) s = .next t ∧ t.evt.held = e.held ∧ t.evt.enable = s.isEarly 448 ∧
        failed t (2 * 2 ^ 8 + 2 ^ 6) ∧ raised t 65) ∧
    (c.unsignalled ≠ 0 →
      let u := s.advance (c.oldestAt + c.delay.toNat * 256)
      ∃ t, exec (.irqDelayExpire (i.setWidth 7)) s = .next t ∧ t.clk = max s.clk (c.oldestAt + c.delay.toNat * 256) ∧
        (t.cq i.toNat) = { c with unsignalled := 0 } ∧ raised t i.toNat ∧ SameMemory u t) ∧
    (e.unsignalled ≠ 0 →
      let u := s.advance (e.oldestAt + e.delay.toNat * 256)
      ∃ t, exec (.irqDelayExpire 64) s = .next t ∧ t.clk = max s.clk (e.oldestAt + e.delay.toNat * 256) ∧
        t.evt = { u.evt with unsignalled := 0 } ∧ raised t 64 ∧ SameMemory u t)

/-- CONTEXT_CREATE, CONTEXT_DESTROY, KEY_REGISTER, KEY_REGISTER_DONE and GROUP_SET (R53 to R58, R240, R345), and the
completion of a command (R335). -/
def Obligations.ContextsKeysAndGroupsAreKept : Prop :=
  (∀ (i : Instr) (h : CmdHdr) (w d : Nat) (s : State), commandHeader i = some h → commandWord i = some w →
    malformedAt w = some d → exec i s = .next (s.refuse (bits w 7 0) h .malformed d)) ∧
  (∀ (op : Nat) (h : CmdHdr) (r : Report) (s : State), op < 256 → r.abortCode < 256 →
    let q := (s.sq h.sq.toNat).cq.toNat
    ∃ k, ((s.post op h r).cq q).held = (s.cq q).held ++ [k] ∧ k.noIrq = h.noIrq ∧ bits k.word.toNat 7 0 = op ∧
      bits k.word.toNat 15 8 = r.status.code ∧ bits k.word.toNat 29 24 = h.sq.toNat ∧ bits k.word.toNat 47 32 = h.index.toNat ∧
      bits k.word.toNat 95 64 = h.taskId.toNat ∧ bits k.word.toNat 127 96 = r.result % 2 ^ 32 ∧
      bits k.word.toNat 191 128 = r.value % 2 ^ 64 ∧ bits k.word.toNat 471 424 = r.detail % 2 ^ 48) ∧
  ∀ (h : CmdHdr) (s : State),
    (∀ set : BitVec 8, h.taskId = 0 → h.argAddr = 0 →
      (s.usable? set = none → exec (.contextCreate h set) s = .next (s.refuse 1 h .paramUnusable set.toNat)) ∧
      (∀ p, s.usable? set = some p → (∀ j, j < 16384 → look none s.contexts j ≠ none) →
        exec (.contextCreate h set) s = .next (s.refuse 1 h .noContext 0)) ∧
      ∀ p i, s.usable? set = some p → i < 16384 → look none s.contexts i = none →
        (∀ j, j < i → look none s.contexts j ≠ none) →
        let x : Context := { bound := false, paramSet := set, tag := noKeyTag, dirAddr := 0 }
        exec (.contextCreate h set) s =
          .next ({ s with contexts := store none s.contexts i (some x) }.post 1 h { Report.of .ok 0 with result := i })) ∧
    (∀ c : BitVec 14, h.taskId = 0 → h.argAddr = 0 → s.hif.waiting = [] →
      let named := s.tasks.any fun t => !t.posted && t.contexts.contains c
      (look none s.contexts c.toNat = none → exec (.contextDestroy h c) s = .next (s.refuse 2 h .notFound 0)) ∧
      (look none s.contexts c.toNat ≠ none → named = true →
        exec (.contextDestroy h c) s = .next (s.await (.destroy h c))) ∧
      (look none s.contexts c.toNat ≠ none → named = false → exec (.contextDestroy h c) s =
        .next ({ s with contexts := store none s.contexts c.toNat none }.post 2 h (Report.of .ok 0)))) ∧
    (∀ (c : BitVec 14) (count : BitVec 16) (dir : BitVec 40) x, h.taskId = 0 → h.argAddr.toNat % 64 = 0 → dir.toNat % 32 = 0 →
      look none s.contexts c.toNat = some x →
      let bs := lookList 0 s.host h.argAddr.toNat (32 + 64 * count.toNat)
      let tag := BitVec.ofNat 64 (leNat ((sha256 bs).take 8))
      match manifestTag (s.entry? x.paramSet) x.paramSet.toNat count.toNat bs with
      | .inl d => exec (.keyRegister h c count dir) s = .next (s.refuse 3 h .manifestInvalid d)
      | .inr y => y = tag ∧ tag ≠ noKeyTag ∧ exec (.keyRegister h c count dir) s = .next (s.await (.keyRegister h c tag dir))) ∧
    (∀ (c : BitVec 14) (tag : Word64) (dir : BitVec 40) x rest, s.hif.waiting = .keyRegister h c tag dir :: rest →
      look none s.contexts c.toNat = some x → exec (.keyRegisterDone h.sq) s =
        .next ({ s with
          hif := { s.hif with waiting := rest }
          contexts := store none s.contexts c.toNat (some { x with bound := true, tag := tag, dirAddr := dir }) }.post 3 h
            { Report.of .ok 0 with value := tag.toNat })) ∧
    ∀ f : GroupF, h.taskId = 0 →
      (f.delete = false → h.argAddr.toNat % 64 = 0 ∧ f.role ≠ 3 ∧ f.members ≠ 0) →
      (f.delete = true → h.argAddr = 0 ∧ f.role = 0 ∧ f.source = 0 ∧ f.portMask = 0 ∧ f.members = 0) →
      let g := f.group.toNat
      let entry := fun (n : Nat) => leNat (lookList 0 s.host (h.argAddr.toNat + 2 * n) 2)
      let members := (List.range f.members.toNat).map fun n => BitVec.ofNat 12 (entry n)
      let fit := (∀ n, n < f.members.toNat → entry n < 2 ^ 12) ∧ (f.role = 0 → f.source = s.ehl.nodeId) ∧
        (f.role = 1 → s.ehl.nodeId ∈ members)
      (f.delete = false → fit → look none s.kst.groups g = none →
        let x : Group := { role := f.role, source := f.source, portMask := f.portMask, members := members }
        exec (.groupSet h f) s =
          .next ({ s with kst := { s.kst with groups := store none s.kst.groups g (some x) } }.post 8 h (Report.of .ok 0))) ∧
      (f.delete = false → fit → look none s.kst.groups g ≠ none →
        exec (.groupSet h f) s = .next (s.refuse 8 h .noGroup g)) ∧
      (f.delete = true → look none s.kst.groups g = none → exec (.groupSet h f) s = .next (s.refuse 8 h .notFound 0)) ∧
      (f.delete = true → look none s.kst.groups g ≠ none → s.hif.waiting = [] →
        (∀ t ∈ s.tasks, ∀ e ∈ t.keylist, ¬((KeyEntry.ofWord e.toNat).groupEn = true ∧ (KeyEntry.ofWord e.toNat).group = f.group)) →
        exec (.groupSet h f) s =
          .next ({ s with kst := { s.kst with groups := store none s.kst.groups g none } }.post 8 h (Report.of .ok 0)))

/-- PROGRAM_LOAD, PROGRAM_LOAD_DONE and TASK_SUBMIT (R182, R337 to R343, R428). That IMEM_BUSY comes after the MALFORMED rules of the
image, that the header is read as 64 bytes, the address rules of SRC 1 and the RESULT of a refused load are the model's reading (DEDUCED,
log entry 63). -/
def Obligations.ProgramsLoadAndTasksAreAccepted : Prop :=
  (∀ (h : CmdHdr) (src : Bool) (len : BitVec 32) (s : State),
    let n := max len.toNat 64
    let ws := if src then imageWords s.hbm.data (h.argAddr.toNat % 2 ^ 40) n else imageWords s.host h.argAddr.toNat n
    let refused := fun (status : Status) (d : Nat) =>
      s.post 4 h { Report.of status d with result := bits (imageHeader ws) 47 16 }
    let cs := maskCoaches (imageMask (imageHeader ws))
    let load : Waiting := .load h (BitVec.ofNat 32 (bits (imageHeader ws) 47 16)) (imageMask (imageHeader ws)) (imageSlots ws)
      (s.imageFault (imageSlots ws))
    h.taskId = 0 → (src = false → h.argAddr.toNat % 64 = 0) →
    (src = true → h.argAddr.toNat % 2 ^ 40 % 576 = 0 ∧ h.argAddr.toNat % 2 ^ 40 + len.toNat ≤ hbmEnd ∧ ∀ w, s.wordErr w = none) →
    (∀ d, imageMalformed ws len.toNat = some d → exec (.programLoad h src len) s = .next (refused .malformed d)) ∧
    (imageMalformed ws len.toNat = none →
      (∀ c, (cs.find? fun c => s.slotBusy c) = some c →
        exec (.programLoad h src len) s = .next (refused .imemBusy c.toNat)) ∧
      ((∀ c ∈ cs, s.slotBusy c = false) → ∃ t, exec (.programLoad h src len) s = .next t ∧
        (∀ c ∈ cs, (t.coach c).loadBusy = true ∧ (t.coach c).spareSlot = ProgSlot.empty ∧ (t.coach c).prog = (s.coach c).prog) ∧
        (∀ c, c ∉ cs → t.coach c = s.coach c) ∧
        t = { s with coaches := t.coaches, hif := { s.hif with waiting := s.hif.waiting ++ [load] } }))) ∧
  (∀ (h : CmdHdr) (s : State) (id : BitVec 32) (mask : BitVec 64) (slots : List (Nat × ProgSlot)) (rest : List Waiting),
    s.hif.waiting = .load h id mask slots none :: rest → (slots.map (·.1)).Nodup →
    (∀ e ∈ slots, e.1 < 64 ∧ mask.getLsbD e.1 = true) →
    ∃ t, exec (.programLoadDone h.sq) s = .next t ∧ t.hif.waiting = rest ∧
      (∀ e ∈ slots, (t.coach (BitVec.ofNat 6 e.1)).spareSlot = e.2 ∧
        (t.coach (BitVec.ofNat 6 e.1)).prog = (s.coach (BitVec.ofNat 6 e.1)).prog) ∧
      (∀ c ∈ maskCoaches mask, (t.coach c).loadBusy = false) ∧ (∀ c, c ∉ maskCoaches mask → t.coach c = s.coach c) ∧
      SameMemory s t ∧ t.tasks = s.tasks ∧
      let q := (s.sq h.sq.toNat).cq.toNat
      (t.cq q).held = (s.cq q).held ++
        [{ word := { Report.of .ok 0 with result := id.toNat }.word 4 h s.ehl.ftime, noIrq := h.noIrq }]) ∧
  (∀ (h : CmdHdr) (s : State) (id : BitVec 32) (mask : BitVec 64) (slots : List (Nat × ProgSlot)) (rest : List Waiting)
    (alias_ : Bool) (d : Nat), s.hif.waiting = .load h id mask slots (some (alias_, d)) :: rest →
    (∀ k ∈ s.tasks, k.st = .queued → k.f.programId ≠ id) →
    ∃ t, exec (.programLoadDone h.sq) s = .next t ∧ t.hif.waiting = rest ∧ t.tasks = s.tasks ∧
      (∀ c, t.coach c = if c ∈ maskCoaches mask then { s.coach c with loadBusy := false } else s.coach c) ∧
      let q := (s.sq h.sq.toNat).cq.toNat
      let status : Status := if alias_ then .descAlias else .descRange
      (t.cq q).held = (s.cq q).held ++
        [{ word := { Report.of status d with result := id.toNat }.word 4 h s.ehl.ftime, noIrq := h.noIrq }]) ∧
  ∀ (h : CmdHdr) (f : TaskF) (s : State),
    let u := (Submission.read s h f).1
    h.argAddr.toNat % 64 = 0 → f.mode ≠ 3 → (f.keylistCount ≠ 0 → f.keylistAddr.toNat % 32 = 0) → (∀ w, s.wordErr w = none) →
    (∀ status d, s.checkTask u = some (status, d) → exec (.taskSubmit h f) s = .next (s.refuse 5 h status d).freed) ∧
    ((∃ t ∈ s.tasks, t.id = h.taskId) → rowOne f (s.hostList16 (h.argAddr.toNat + 0x880) (f.devices.toNat + 1)) = none →
      s.checkTask u = some (.taskIdBusy, 0)) ∧
    (∀ p, f.programId ≠ 0 → s.imageOf f.programId = some p → (∀ t ∈ s.tasks, t.id ≠ h.taskId) →
      (∀ c ∈ maskCoaches (imageMask p.header.toNat), (s.imageOn c f.programId).isSome = true) →
      f.nCtx = 0 → f.keylistCount = 0 → f.devices = 0 → f.ftag = 0 → f.digestCap = 0 →
      bits p.header.toNat 133 122 = 0 → f.mode.toNat ≤ bits p.header.toNat 113 112 →
      (if bits p.header.toNat 15 0 = 2 then 1 else bits p.header.toNat 121 114) ≤ f.minor.toNat →
      (∀ r, r < 256 → (p.region r).kind = 0 ∧ leNat (lookList 0 s.host (h.argAddr.toNat + 0x80 + 8 * r) 8) = 0) →
      leNat (lookList 0 s.host (h.argAddr.toNat + 0x880) 2) = s.ehl.nodeId.toNat → s.checkTask u = none) ∧
    (s.checkTask u = none → ∃ t k, exec (.taskSubmit h f) s = .next t ∧ t.tasks = s.tasks ++ [k] ∧ k.id = h.taskId ∧
      k.st = .queued ∧ k.f = f ∧ k.key = s.hif.acceptCount ∧ t.hif.acceptCount = s.hif.acceptCount + 1 ∧
      (∀ p, s.imageOf f.programId = some p → k.coachMask = imageMask p.header.toNat) ∧
      k.contexts = (List.range f.nCtx.toNat).map (fun n => BitVec.ofNat 14 (leNat (lookList 0 s.host (h.argAddr.toNat + 2 * n) 2))) ∧
      k.devices = (List.range (f.devices.toNat + 1)).map
        (fun n => BitVec.ofNat 12 (leNat (lookList 0 s.host (h.argAddr.toNat + 0x880 + 2 * n) 2))) ∧
      (∀ c, t.coach c = if c ∈ maskCoaches k.coachMask ∧ (s.coach c).gated = true then { s.coach c with waking := true }
        else s.coach c) ∧
      (∀ v, (s.sq h.sq.toNat).fetched = some (h.index, v) → (t.sq h.sq.toNat).fetched = none) ∧ SameMemory s t)

/-- TASK_ABORT, FENCE, SYNC_SUMMARY, SYNC_SUMMARY_DONE and HOST_MEMORY_ERROR (R344 to R347). That a summary shows the state at its
command and stands in host memory from then on is the model's reading (DEDUCED, log entry 66), and so is what HOST_MEMORY_ERROR
concerns (log entry 83). -/
def Obligations.AbortsFencesAndSummaries : Prop :=
  ∀ (h : CmdHdr) (s : State),
    (∀ upto : Bool, h.argAddr = 0 → s.hif.waiting = [] →
      (∀ k ∈ s.tasks, s.task? k.key = some k) →
      let named := fun (k : Task) => k.id = h.taskId ∨ (upto = true ∧ (h.taskId - k.id).toNat < 2 ^ 31)
      ∃ t, exec (.taskAbort h upto) s = .next t ∧ SameMemory s t ∧ t.coaches = s.coaches ∧
        (∀ k ∈ s.tasks, named k → k.st = .running → k.abort = none → t.aborts k.key 9) ∧
        (∀ k ∈ s.tasks, named k → k.st = .queued → ∀ u, t.task? k.key = some u →
          u.st = .ended ∧ ∃ a, u.abort = some a ∧ a.code = 9 ∧ a.coach = none) ∧
        (∀ k ∈ s.tasks, ¬named k → t.task? k.key = some k) ∧
        ((∀ k ∈ s.tasks, named k → k.st = .ended) → t = s.refuse 6 h .notFound 0)) ∧
    (∀ own : Bool, h.taskId = 0 → h.argAddr = 0 → s.hif.waiting = [] →
      exec (.fence h own) s =
        .next (if s.tasks.any fun t => decide (t.key < s.hif.acceptCount) && !t.posted && (!own || decide (t.hdr.sq = h.sq))
          then s.await (.fence h s.hif.acceptCount own) else s.post 7 h (Report.of .ok 0))) ∧
    (∀ capacity : BitVec 32, h.taskId = 0 → h.argAddr.toNat % 4096 = 0 →
      let a := h.argAddr.toNat
      (capacity.toNat < 311296 → exec (.syncSummary h capacity) s = .next (s.refuse 9 h .summarySpace 311296)) ∧
      (311296 ≤ capacity.toNat → s.tableTasks.length ≤ 1024 → s.usedSources.length ≤ 256 →
        SMap.wf none s.contexts = true → (∀ c ∈ s.contexts, c.1 < 16384) →
        ∃ t, exec (.syncSummary h capacity) s = .next t ∧
          t = { s with host := t.host, hif := { s.hif with summaryBusy := true, waiting := s.hif.waiting ++ [.summary h] } } ∧
          (∀ b, b < a ∨ a + 311296 ≤ b → t.hostByte b = s.hostByte b) ∧
          let entry := fun (place n w : Nat) => ∀ j, j < n → t.hostByte (a + place + j) = BitVec.ofNat 8 (w / 2 ^ (8 * j))
          entry 0 64 s.summaryHeader ∧ entry 0x900 16 (eventWord s.evt) ∧
          (∀ i, i < 64 → entry (0x100 + 16 * i) 16 (sqWord (s.sq i)) ∧ entry (0x500 + 16 * i) 16 (cqWord (s.cq i))) ∧
          (∀ c : CoachId, entry (0x1000 + 128 * c.toNat) 128 (s.coachWord (s.coach c))) ∧
          (∀ i k, s.tableTasks[i]? = some k → entry (0x3000 + 32 * i) 32 (s.taskEntry k)) ∧
          (∀ i v, s.usedSources[i]? = some v → entry (0xB000 + 16 * i) 16 (sourceEntry v.1 v.2)) ∧
          ∀ i, i < 16384 → entry (0xC000 + 16 * i) 16 (match look none s.contexts i with
            | some x => s.contextEntry i x
            | none => 0))) ∧
    (∀ rest, s.hif.waiting = .summary h :: rest → exec .syncSummaryDone s =
      .next ({ s with hif := { s.hif with waiting := rest, summaryBusy := false } }.post 9 h (Report.of .ok 0))) ∧
    ∀ (id : TaskId) (r : BitVec 8) (k : Task), s.taskNamed id = some k → s.runs k.key k →
      (∃ c ∈ maskCoaches k.coachMask, ((s.coach c).prog.region r.toNat).kind = 2) →
      ∃ t, exec (.hostMemoryError id r) s = .next t ∧ t.aborts k.key 10 ∧ SameMemory s t ∧ t.coaches = s.coaches ∧
        ∀ u, u ≠ k.key → t.task? u = s.task? u

/-- FLR, HOT_RESET, D3HOT_ENTRY, D3HOT_EXIT, PCIE_LINK_DOWN, PCIE_LINK_UP, CONFIGURATION_REQUEST, PERST_ASSERT,
VIN_UNDERVOLTAGE, VIN_OVERVOLTAGE, VIN_TURN_ON, SHUTDOWN_RELEASE and THERMAL_SAMPLE (R347, R380, R410 to R415). That HOST_READY returns
at once (log entry 69), that a fundamental reset and a loss of power cut an update under way, which leaves a part of its image (log
entry 70), and that VIN_TURN_ON and SHUTDOWN_RELEASE only start the rails (log entry 74) is the model's reading (DEDUCED); what a power
sample spans is log entry 88. -/
def Obligations.ResetsAndPowerEndTheWork : Prop :=
  ∀ s : State, (∀ k ∈ s.tasks, s.task? k.key = some k) →
    let powered := fun (m : Module) => if m.vinGood && !m.perst && !m.shutdown then { m with railsOn := true } else m
    let off := fun (t : State) => AllLost s t ∧ t.board.railsOn = false ∧ t.board.pwrgd = false
    (∃ t, exec .flr s = .next t ∧ FunctionReset s t ∧ t.hif.hostReady = s.boot.running) ∧
    (∃ t, exec .hotReset s = .next t ∧ FunctionReset s t ∧ t.hif.hostReady = s.boot.running) ∧
    (∃ t, exec .d3hotEntry s = .next t ∧ FunctionReset s t ∧ t.hif.hostReady = false ∧ t.hif.d3hot = true) ∧
    (s.hif.d3hot = true →
      exec .d3hotExit s = .next { s with hif := { s.hif with d3hot := false, hostReady := s.boot.running } }) ∧
    (∃ t, exec .pcieLinkDown s = .next t ∧ WorkEnded s t ∧ t.coaches = s.coaches ∧
      t.hif = { s.hif with linkUp := false }) ∧
    (∀ full, (s.hif.linkUp = false → ∃ t, exec (.pcieLinkUp full) s = .next t ∧ FunctionReset s t ∧
        t.hif.linkUp = true ∧ t.hif.linkDegraded = !full ∧ t.hif.hostReady = s.boot.running) ∧
      (s.hif.linkUp = true → exec (.pcieLinkUp full) s = .next { s with hif := { s.hif with linkDegraded := !full } })) ∧
    exec .configurationRequest s = .next { s with bus := { s.bus with retryStatus := !s.boot.running } } ∧
    (∀ low : PerstLow, (low.nanoseconds < 1000 → exec (.perstAssert low) s = .next s) ∧
      (1000 ≤ low.nanoseconds → ∃ t u, exec (.perstAssert low) s = .next t ∧ t.board.perst = true ∧ AllLost s u ∧
        t.boot.nvmToDebug = s.board.maintPin ∧ t = { u with
          board := t.board
          boot := { u.boot with
            nvmToDebug := t.boot.nvmToDebug
            nvm := if s.board.maintPin then low.programmed.foldl (fun n e => n.putByte e.1 e.2) u.boot.nvm else u.boot.nvm } })) ∧
    (∃ t, exec .vinUndervoltage s = .next t ∧ off t ∧ t.board.vinGood = false) ∧
    (∃ t, exec .vinOvervoltage s = .next t ∧ off t ∧ t.board.vinGood = false) ∧
    exec .vinTurnOn s = .next { s with
      board := powered { s.board with vinGood := true, cycled := s.board.cycled || s.board.shutdown } } ∧
    (s.board.shutdown = true → s.board.cycled = true → exec .shutdownRelease s = .next { s with
      board := powered { s.board with shutdown := false, cycled := false, thermLow := false } }) ∧
    (s.board.shutdown = false ∨ s.board.cycled = false → exec .shutdownRelease s = .next s) ∧
    ∀ r : ThermalReading, s.boot.running = true →
      let l := s.limits
      let hot := fun (die stack : Nat) =>
        (∃ i, i < 4 ∧ die ≤ (r.dieTemps.getD i 0).toNat) ∨ ∃ i, i < 8 ∧ stack ≤ (r.stackTemps.getD i 0).toNat
      (hot l.dieShutdown l.hbmShutdown ∨ 2000 < r.power.toNat → ∃ t, exec (.thermalSample r) s = .next t ∧ off t ∧
        t.board.shutdown = true ∧ t.board.thermLow = true ∧ t.board.alertLow = true) ∧
      let power := sustained (s.board.logged r.power)
      (¬hot l.dieShutdown l.hbmShutdown → r.power.toNat ≤ 2000 → ∃ t, exec (.thermalSample r) s = .next t ∧
        (∀ k, k < 8 → t.stk k = { s.stk k with temp := r.stackTemps.getD k 0 }) ∧
        (t.board.causeTemp = true ↔
          hot l.dieThrottle l.hbmThrottle ∨
            ((s.board.causeTemp = true ∨ s.board.throttle = true) ∧ hot l.dieRelease l.hbmRelease)) ∧
        (t.board.causePower = true ↔ l.powerCap < power) ∧
        t.board.throttle = (t.board.causeTemp || t.board.causePower) ∧
        (t.board.throttle = true → t.board.alertLow = true) ∧
        t.board.powerReg.toNat = power * 2 ^ 16 + r.vin.toNat ∧ t.coaches = s.coaches ∧ t.tasks = s.tasks ∧
        SameMemory s t)

/-- POWER_GOOD, PERST_RELEASE and D3COLD (R347, R371, R372, R381, R410). That an update under way is cut, and the choice of a copy where no
header verifies, is the model's reading (DEDUCED, log entry 70), and so is which of the rows boot (log entries 69 and 74). -/
def Obligations.TheDeviceBoots : Prop :=
  ∀ s : State,
    let n := s.boot.nvm.cut s.freeCtr s.boot.update
    let k : Boot := .reset n s.boot.rom s.board.maintPin
    let b : State := { s with boot := { s.boot with nvm := n } }
    let ready := (s.board.straps &&& s.board.strapsStable).getLsbD 6 = false
    let reaches := fun (c : Instr) => (∀ fw, ready → k.take 0 = some fw → ∃ t, exec c s = .next t ∧ Booted b t fw) ∧
      (k.take 0 = none → ∃ t, exec c s = .next t ∧ t.boot.running = false ∧ t.hif.hostReady = false ∧ t.boot.nvm = n)
    (s.board.railsOn = true → s.board.perst = false → s.boot.running = false → reaches .powerGood) ∧
    (s.board.perst = true → s.board.railsOn = true → s.board.pwrgd = true → reaches .perstRelease) ∧
    (s.board.perst = true → s.board.railsOn = false → exec .perstRelease s = .next { s with
      board := { s.board with
        perst := false, strapReg := 0, cycled := s.board.cycled || s.board.shutdown
        railsOn := s.board.vinGood && !s.board.shutdown }
      boot := { s.boot with nvmToDebug := false } }) ∧
    (s.board.perst = false → exec .perstRelease s = .next s) ∧
    (s.board.mayPower = true → reaches .d3cold)

/-- BOOT_UPDATE, UPDATE_DONE, COMMIT, DEBUG_EN, MAINT_EN_CHANGE and SEAL_CHECK (R378 to R385). The order of an update's checks is the
model's reading (DEDUCED, log entry 71). -/
def Obligations.UpdatesSealAndDebug : Prop :=
  ∀ s : State, s.boot.running = true →
    let b := s.boot
    let refused := fun (code : BitVec 4) => ({ s with boot := { b with updResult := code } } : State)
    (∀ kind : BitVec 2, b.update = none →
      let badRange := b.updLen = 0 ∨ regionBytes kind.toNat < b.updLen.toNat ∨ hbmEnd < b.updAddr.toNat + b.updLen.toNat
      (b.maintEn = false → exec (.bootUpdate kind) s = .next (refused 1)) ∧
      (b.maintEn = true → kind = 3 → exec (.bootUpdate kind) s = .next (refused 4)) ∧
      (b.maintEn = true → kind ≠ 3 → b.trial.getLsbD kind.toNat = true → exec (.bootUpdate kind) s = .next (refused 6)) ∧
      (b.maintEn = true → kind ≠ 3 → b.trial.getLsbD kind.toNat = false → badRange →
        exec (.bootUpdate kind) s = .next (refused 4)) ∧
      (b.maintEn = true → kind ≠ 3 → b.trial.getLsbD kind.toNat = false → ¬badRange → (∀ w, s.wordErr w = none) →
        exec (.bootUpdate kind) s = .next (match s.checkUpdate kind (lookList 0 s.hbm.data b.updAddr.toNat b.updLen.toNat) with
          | (.ok, u) => { s with boot := { b with update := some u, updProgress := 0 } }
          | (r, _) => refused r.code))) ∧
    (∀ u, b.update = some u → (∀ kind, exec (.bootUpdate kind) s = .next s) ∧
      (∃ t, exec (.updateDone true) s = .next t ∧ t.boot.update = none ∧ t.boot.updResult = 0 ∧
        t.boot.nvm.header.activeB = b.nvm.header.activeB ∧
        t.boot.nvm.header.trial = b.nvm.header.trial ||| BitVec.twoPow 3 u.kind.toNat ∧
        (u.kind = 0 → t.boot.nvm.mcA = b.nvm.mcA ∧ t.boot.nvm.mcB = b.nvm.mcB ∧
          (u.copyB = true → t.boot.nvm.fwB = u.bytes ∧ t.boot.nvm.fwA = b.nvm.fwA) ∧
          (u.copyB = false → t.boot.nvm.fwA = u.bytes ∧ t.boot.nvm.fwB = b.nvm.fwB)) ∧
        (u.kind = 1 → t.boot.nvm.fwA = b.nvm.fwA ∧ t.boot.nvm.fwB = b.nvm.fwB ∧
          (u.copyB = true → t.boot.nvm.mcB = u.bytes ∧ t.boot.nvm.mcA = b.nvm.mcA) ∧
          (u.copyB = false → t.boot.nvm.mcA = u.bytes ∧ t.boot.nvm.mcB = b.nvm.mcB)) ∧
        (u.kind = 2 → t.boot.nvm.fwA = b.nvm.fwA ∧ t.boot.nvm.fwB = b.nvm.fwB ∧
          (u.copyB = true → t.boot.nvm.cfgB = u.bytes ∧ t.boot.nvm.cfgA = b.nvm.cfgA) ∧
          (u.copyB = false → t.boot.nvm.cfgA = u.bytes ∧ t.boot.nvm.cfgB = b.nvm.cfgB)) ∧
        t = { s with boot := { b with nvm := t.boot.nvm, update := none, updResult := 0, updProgress := 100 } }) ∧
      ∃ t, exec (.updateDone false) s = .next t ∧ t.boot.update = none ∧ t.boot.updResult = 5 ∧
        t.boot.nvm.header = b.nvm.header ∧ t.boot.nvm.journal = b.nvm.journal) ∧
    (b.trial = 0 → exec .commit s = .next s) ∧
    (b.trial ≠ 0 → ∃ t, exec .commit s = .next t ∧ t.boot.trial = 0 ∧
      t.boot.nvm.header.activeB = (b.nvm.header.activeB &&& ~~~b.trial) ||| (b.copies &&& b.trial) ∧
      (∀ k, k < 3 → b.trial.getLsbD k = true → (s.runningVersion k).toNat ≤ t.boot.nvm.minimum (k + 1)) ∧
      t = { s with boot := { b with trial := 0, nvm := t.boot.nvm } }) ∧
    (b.maintEn = false → exec .debugEn s = .next (refused 1)) ∧
    (b.maintEn = true → ∃ t, exec .debugEn s = .next t ∧ t.boot.debug = true ∧ t.boot.restricted = true ∧
      t.sec.sessions = [] ∧ t.sec.store = KeyStore.cleared ∧ t.boot.nvm = b.nvm.append (.debug b.bootNumber) ∧
      t = { s with boot := t.boot, sec := t.sec }) ∧
    (∀ fitted, exec (.maintEnChange fitted) s = .next { s with
      board := { s.board with maintPin := fitted }
      boot := { b with maintEn := fitted, nvmToDebug := fitted && s.board.perst } }) ∧
    ∀ back : Option (BitVec 16),
      let pattern := s.drawPattern 0
      let b : Boot := { b with sealPattern := pattern }
      let v : State := { s.freed with board := { s.board with sealBack := back } }
      (back = none ∨ back = some pattern →
        exec (.sealCheck back) s = .next { v with boot := { b with sealClosed := true, sealMiss := 0 } }) ∧
      (∀ x, back = some x → x ≠ pattern →
        (b.sealMiss ≠ 1 → exec (.sealCheck back) s =
          .next { v with boot := { b with sealClosed := false, sealMiss := min (b.sealMiss + 1) 2 } }) ∧
        (b.sealMiss = 1 → ∃ t, exec (.sealCheck back) s = .next t ∧ t.boot.sealClosed = false ∧ t.boot.sealOpen = true ∧
          t.boot.restricted = true ∧ t.sec.store = KeyStore.cleared ∧ t.sec.sessions = [] ∧
          t.boot.nvm = b.nvm.append (.sealRec b.bootNumber true) ∧ SameMemory s t ∧ t.coaches = s.coaches ∧ t.tasks = s.tasks))

/-- PORT_TRAIN_ATTEMPT, TRAINING_END, CAPABILITY_EXCHANGE, HELD_RETRY, NEGOTIATE_TIMEOUT, PORT_RETRAIN_REQUEST,
PORT_RETRAIN_END, LOSS_OF_SIGNAL and PORT_DISABLE (R287 to R294). How the credits stand when a port enters UP is read from R278
(DEDUCED, log entry 52); where a replay goes on after a retraining is log entry 31. -/
def Obligations.PortsFollowTheirStates : Prop :=
  ∀ (p : BitVec 4) (s : State),
    let v := s.port p.toNat
    let record : CapRecord := { fabricId := s.ehl.fabricId, major := 3, minor := 2, port := p, node := s.ehl.nodeId }
    let softly := fun t : State => SameMemory s t ∧ ∀ c : CoachId,
      t.coach c = { s.coach c with engines := (t.coach c).engines } ∧ ∀ e, e ≠ .sout → (t.coach c).engine e = (s.coach c).engine e
    let others := fun t : State => (∀ q, q ≠ p.toNat → t.port q = s.port q) ∧ t.tasks = s.tasks
    let alone := fun t : State => others t ∧ SameMemory s t ∧ t.coaches = s.coaches
    let moves := fun (c : Instr) (st : PortSt) => ∃ t, exec c s = .next t ∧ (t.port p.toNat).st = st ∧ t.ehl.link = true ∧ alone t
    let lost := fun (c : Instr) (st : PortSt) => ∃ t, exec c s = .next t ∧ (t.port p.toNat).st = st ∧
      (t.port p.toNat).replay = [] ∧ softly t ∧
      ∀ key k tag nodes, s.runs key k → s.taggedTask k.f.ftag = some k → (tag, nodes) ∈ s.lostTags v → k.f.ftag.toNat = tag →
        t.aborts key 7
    (∀ lanes, (v.st = .down ∧ lanes = BitVec.allOnes 8 → moves (.portTrainAttempt p lanes) .training) ∧
      (v.st ≠ .down ∨ lanes ≠ BitVec.allOnes 8 → exec (.portTrainAttempt p lanes) s = .next s)) ∧
    (v.st = .training → moves (.trainingEnd p false) .down ∧ ∃ t, exec (.trainingEnd p true) s = .next t ∧ alone t ∧
      (t.port p.toNat).st = .negotiate ∧ (t.port p.toNat).capSent = some record ∧ t.ehl.link = true) ∧
    (v.st ≠ .training → ∀ ok, exec (.trainingEnd p ok) s = .next s) ∧
    (∀ r : CapRecord,
      let why : BitVec 3 := if r.major ≠ 3 then 1 else if r.fabricId ≠ s.ehl.fabricId then 2
        else if v.expectAny = false ∧ v.expect ≠ r.node then 3 else if r.node = s.ehl.nodeId then 4 else 0
      let up := fun t : State => why = 0 → v.waiting = [] → others t ∧ softly t ∧
        (t.port p.toNat).st = .up ∧ (t.port p.toNat).neighbour = r.node ∧
        (t.port p.toNat).negMinor.toNat = min r.minor.toNat 2 ∧ (t.port p.toNat).resv0 = 64 ∧ (t.port p.toNat).resv1 = 64 ∧
        (t.port p.toNat).shared = 6016 ∧ (t.port p.toNat).replay = []
      let held := fun t : State => why ≠ 0 → alone t ∧ (t.port p.toNat).st = .held ∧ (t.port p.toNat).reason = why ∧
        (t.port p.toNat).neighbour = r.node
      (v.st = .negotiate → ∃ t, exec (.capabilityExchange p r) s = .next t ∧ up t ∧ held t) ∧
      (v.st = .held → ∃ t, exec (.heldRetry p r) s = .next t ∧ up t ∧ held t ∧ (t.port p.toNat).capSent = some record) ∧
      (v.st ≠ .negotiate → exec (.capabilityExchange p r) s = .next s) ∧
      (v.st ≠ .held → exec (.heldRetry p r) s = .next s)) ∧
    (v.st = .negotiate → moves (.negotiateTimeout p) .down) ∧ (v.st ≠ .negotiate → exec (.negotiateTimeout p) s = .next s) ∧
    (v.st = .up → moves (.portRetrainRequest p) .retrain) ∧ (v.st ≠ .up → exec (.portRetrainRequest p) s = .next s) ∧
    (v.st = .retrain →
      (v.waiting = [] → ∃ t, exec (.portRetrainEnd p true) s = .next t ∧ others t ∧ softly t ∧ (t.port p.toNat).st = .up ∧
        (t.port p.toNat).retrainFails = 0 ∧ (t.port p.toNat).replay = v.replay ∧ (t.port p.toNat).txSeq = v.txSeq ∧
        (v.replayDue = true → (t.port p.toNat).replayUntil = s.clk + 4 * v.held ∧ (t.port p.toNat).replayDue = false)) ∧
      (v.retrainFails < 2 →
        exec (.portRetrainEnd p false) s = .next (s.setPort p.toNat { v with retrainFails := v.retrainFails + 1 })) ∧
      (2 ≤ v.retrainFails → lost (.portRetrainEnd p false) .down)) ∧
    (v.st ≠ .retrain → ∀ ok, exec (.portRetrainEnd p ok) s = .next s) ∧
    (v.st = .training ∨ v.st = .negotiate ∨ v.st = .held → moves (.lossOfSignal p) .down) ∧
    (v.st = .up ∨ v.st = .retrain → lost (.lossOfSignal p) .down ∧ lost (.portDisable p true) .disabled) ∧
    (v.st = .down ∨ v.st = .disabled → exec (.lossOfSignal p) s = .next s) ∧
    (v.st ≠ .up → v.st ≠ .retrain → v.st ≠ .disabled → moves (.portDisable p true) .disabled) ∧
    (v.st = .disabled → moves (.portDisable p false) .down ∧
      exec (.portDisable p true) s = .next (s.setPort p.toNat { v with disable := true })) ∧
    (v.st ≠ .disabled → exec (.portDisable p false) s = .next (s.setPort p.toNat { v with disable := false }))

/-- FLIT_CRC_ERROR, NAK, LINK_CREDIT_RETURN, ROUTE_RESTORE, ROUTE_RESTORE_APPLY and REACHABLE_TIMEOUT (R275 to R279, R287,
R290, R291, R303). Which packets share a flit and that a full replay buffer holds flits back (log entry 31), and the order in which
credits are taken and return (log entry 52), are read from these rules (DEDUCED); that a flit header brings the number of corrected
symbols is the model's choice (DESIGN CHOICE, log entry 57). -/
def Obligations.LinksReplayAndRoutesReturn : Prop :=
  ∀ s : State,
    let restored := fun (t : State) => t.ehl.switched = [] ∧ t.ehl.restorePending = false ∧ t.ehl.ports = s.ehl.ports ∧
      SameMemory s t ∧ t.coaches = s.coaches ∧ t.tasks = s.tasks
    (∀ p : BitVec 4, let v := s.port p.toNat
      let others := fun t : State => (∀ q, q ≠ p.toNat → t.port q = s.port q) ∧ SameMemory s t ∧ t.tasks = s.tasks
      let counted := fun (t : State) (ack : BitVec 12) => others t ∧ t.coaches = s.coaches ∧
        (t.port p.toNat).replay = v.replay.filter (fun f => decide (2048 ≤ (ack - f.1).toNat)) ∧
        (t.port p.toNat).replays = count48 (v.replays + 1)
      (v.st ≠ .up → exec (.flitCrcError p) s = .next s ∧
        (v.st ≠ .retrain ∨ v.since / 2 ≠ s.clk / 2 → ∀ ack, exec (.nak p ack) s = .next s) ∧
        ∀ vc n ack, exec (.linkCreditReturn p vc n ack) s = .next s) ∧
      (v.st = .retrain → v.since / 2 = s.clk / 2 → ∀ ack, ∃ t, exec (.nak p ack) s = .next t ∧ counted t ack ∧
        (t.port p.toNat).st = .retrain ∧ (t.port p.toNat).replayDue = true) ∧
      (v.st = .up →
        exec (.flitCrcError p) s = .next (s.setPort p.toNat { v with discarding := true, nakSent := v.nakSent + 1 }) ∧
        (∀ ack : BitVec 12, let recent := v.replayTimes.filter fun t => decide (s.clk < t + 2500000)
          ∃ t, exec (.nak p ack) s = .next t ∧ counted t ack ∧
          (63 ≤ recent.length → (t.port p.toNat).st = .retrain ∧ (t.port p.toNat).replayDue = true) ∧
          (recent.length < 63 → (t.port p.toNat).st = .up ∧
            (t.port p.toNat).replayUntil = s.clk + 4 * (t.port p.toNat).held ∧
            (t.port p.toNat).flits = count48 (v.flits + (t.port p.toNat).held))) ∧
        ∀ (vc : Bool) (n ack : BitVec 12) (corr : Nat),
          let replay := v.replay.filter fun f => decide (2048 ≤ (ack - f.1).toNat)
          let r := if vc then v.resv1 else v.resv0
          let r' := min 64 (r + n.toNat)
          let shared := min 6016 (v.shared + (n.toNat - (64 - r)))
          let w := if vc then { v with replay := replay, resv1 := r', shared := shared }
            else { v with replay := replay, resv0 := r', shared := shared }
          let c := Instr.linkCreditReturn p vc n { ack := ack, corr := corr }
          let sum := (v.corr.filter fun t => decide (s.clk < t.1 + 2500000)).foldl (fun a t => a + t.2) 0 + corr
          (corr = 0 → r ≤ 64 → v.waiting = [] → ∃ t, exec c s = .next t ∧ t.port p.toNat = w ∧ others t ∧
            t = { s with ehl := { s.ehl with ports := t.ehl.ports }, coaches := t.coaches }) ∧
          (∀ o, corr = 0 → r ≤ 64 → v.waiting = [o] → o.ty ≠ .cart → o.via = none → v.replayUntil ≤ s.clk →
            Packet.credits o.k ≤ (if o.ty.vc1 then w.resv1 else w.resv0) + shared →
            let sent := fun (seq : BitVec 12) (t : State) => exec c s = .next t ∧ (t.port p.toNat).waiting = [] ∧
              (seq, o.atMinor v) ∈ (t.port p.toNat).replay ∧ others t
            (w.shares o s.clk = true → ∃ t, sent (v.txSeq - 1) t ∧ (t.port p.toNat).txSeq = v.txSeq) ∧
            (w.shares o s.clk = false → v.flitAt ≤ s.clk → w.held < 640 → ∃ t, sent v.txSeq t ∧
              (t.port p.toNat).txSeq = v.txSeq + 1 ∧ (t.port p.toNat).flitAt = s.clk + 4 ∧
              (t.port p.toNat).flits = count48 (v.flits + 1))) ∧
          (corr ≠ 0 → ∃ t, exec c s = .next t ∧ (t.port p.toNat).fecCorr = count48 (v.fecCorr + corr) ∧
            (t.port p.toNat).st = (if 320000000 < sum * 100000 then .retrain else .up) ∧ SameMemory s t ∧ t.tasks = s.tasks))) ∧
    (s.noFabricTask = true → ∃ t, exec .routeRestore s = .next t ∧ restored t) ∧
    (s.noFabricTask = false →
      exec .routeRestore s = .next { s with ehl := { s.ehl with restorePending := true } }) ∧
    (s.ehl.restorePending = true → s.noFabricTask = true → ∃ t, exec .routeRestoreApply s = .next t ∧ restored t) ∧
    (s.ehl.restorePending = false ∨ s.noFabricTask = false → exec .routeRestoreApply s = .next s) ∧
    ∀ (n : NodeId) (e : Nat), (s.ehl.unreachable.find? fun u => u.1 = n.toNat) = some (n.toNat, some e) →
      let u := s.advance e
      ∃ t, exec (.reachableTimeout n) s = .next t ∧ t.clk = max s.clk e ∧
        t.ehl.unreachable = u.ehl.unreachable.filter (fun u => decide (u.1 ≠ n.toNat)) ∧ SameMemory u t ∧
        t.coaches = u.coaches ∧ t.tasks = u.tasks

/-- The nine packets and REMOTE_REQ_TIMEOUT (R276 to R278, R281, R282, R284, R289 to R292, R297, R301, R302). That the copies of a CART
packet go out together (log entry 50), that a READ_REQ of reserved length and a WRITE past the memory are discarded (log entry 55) and
that a packet which ends a queued task removes it (log entry 67) is the model's reading (DEDUCED). -/
def Obligations.PacketsActAtTheirDevice : Prop :=
  ∀ (p : BitVec 4) (x : InFlit) (s : State),
    let k := x.packet
    let v := s.port p.toNat
    let inTurn := x.seq = v.rxGood + 1 ∨ (x.seq = v.rxGood ∧ v.discarding = false)
    let s0 := fun ty : PktType => s.setPort p.toNat { ((v.pass { ty := ty, k := k, via := none } s.clk).take ty
      (Packet.credits k)) with rxGood := x.seq, discarding := false }
    let done := fun (ty : PktType) (t : State) => t.release { ty := ty, k := k, via := some p.toNat }
    let kinds : List (PktType × Instr) := [(.write, .writePkt p x), (.readReq, .readReq p x), (.readRsp, .readRsp p x),
      (.cartCredit, .cartCredit p x), (.shutArrive, .shutArrive p x), (.abort, .abortPkt p x), (.taskLost, .taskLost p x),
      (.unreach, .unreach p x)]
    let n := lenBytes k.len
    let a := k.addr.toNat
    let rid := bits k.info.toNat 85 70
    let still := fun (t : State) => SameMemory s t ∧ t.coaches = s.coaches
    let sends := fun (q : Nat) (o : OutPkt) => (s.port q).st = .up ∧ (s.port q).replayUntil ≤ s.clk ∧
      ((s.port q).shares o s.clk = true ∨ ((s.port q).flitAt ≤ s.clk ∧ (s.port q).held < 640)) ∧
      (∀ w ∈ (s.port q).waiting, w.ty.vc1 ≠ o.ty.vc1) ∧
      Packet.credits o.k ≤ (if o.ty.vc1 then (s.port q).resv1 else (s.port q).resv0) + (s.port q).shared
    (v.st ≠ .up ∨ ¬ inTurn → (∀ e ∈ kinds, exec e.2 s = .next s) ∧ exec (.cart p x) s = .next s) ∧
    (v.st = .up → inTurn → k.dst ≠ s.ehl.nodeId → ∀ e ∈ kinds,
      (∀ q, 2 ≤ k.ttl.toNat → s.routePort k.dst = some q →
        let o : OutPkt := { ty := e.1, k := { k with ttl := k.ttl - 1 }, via := some p.toNat }
        exec e.2 s = .next ((s0 e.1).sendAt q o) ∧
        (sends q o → ∃ seq : BitVec 12, (seq, o.atMinor (s.port q)) ∈ (((s0 e.1).sendAt q o).port q).replay)) ∧
      (k.ttl.toNat < 2 ∨ s.routePort k.dst = none → ∃ t, exec e.2 s = .next t ∧
        count48 (s.ehl.discards + 1) ≤ t.ehl.discards ∧ still t ∧ t.tasks = s.tasks)) ∧
    (v.st = .up → inTurn → k.dst = s.ehl.nodeId →
      (hbmEnd < a + n → exec (.writePkt p x) s = .next (done .write (s0 .write).discard)) ∧
      (a + n ≤ hbmEnd → n ≠ 0 → k.data.length = n → exec (.writePkt p x) s =
        .next (done .write ({ s0 .write with ehl := { (s0 .write).ehl with writesIn := s.ehl.writesIn + 1 } }.ask 1 a n s.clk
          (.write (some (k.src, k.tag, s.ehl.writesIn)) k.data)))) ∧
      (n = 0 → a ≤ hbmEnd → exec (.writePkt p x) s = .next (done .write (s0 .write))) ∧
      (let m := lenBytes (BitVec.ofNat 2 (bits k.info.toNat 69 68))
       (2 ≤ bits k.info.toNat 69 68 → hbmEnd < a + m → exec (.readReq p x) s = .next (done .readReq ((s0 .readReq).sendPacket
         .readRsp (s.packetTo k.src k.tag 0 0 (rid * 2 ^ 70 + 2 * 2 ^ 68) [])))) ∧
       (2 ≤ bits k.info.toNat 69 68 → a + m ≤ hbmEnd →
         exec (.readReq p x) s = .next (done .readReq ((s0 .readReq).ask 2 a m s.clk (.respond k [])))) ∧
       (bits k.info.toNat 69 68 < 2 → exec (.readReq p x) s = .next (done .readReq (s0 .readReq).discard))) ∧
      ((s.ehl.reads.find? fun r => r.rid = rid) = none → exec (.readRsp p x) s = .next (done .readRsp (s0 .readRsp))) ∧
      (∀ o, (s.ehl.reads.find? fun r => r.rid = rid) = some o →
        let s1 := { s0 .readRsp with ehl := { (s0 .readRsp).ehl with reads := s.ehl.reads.erase o } }
        let live := ∃ u, s.task? o.task = some u ∧ u.st = .running
        (¬ live → exec (.readRsp p x) s = .next (done .readRsp s1)) ∧
        (∀ c w r, bits k.info.toNat 69 68 = 0 → live → o.reader = .coach c → s.transferOf c .sin = some w →
          (w.reqs.find? fun r => r.rid = o.rid + 1) = some r →
          exec (.readRsp p x) s = .next (done .readRsp (s1.feed c r (BitVec.ofNat 4608 (leNat k.data))))) ∧
        (∀ q place, bits k.info.toNat 69 68 = 0 → live → o.reader = .queue q place → exec (.readRsp p x) s =
          .next (done .readRsp (s1.granuleCame q o.task place k.data))) ∧
        (∀ u, bits k.info.toNat 69 68 ≠ 0 → s.runs o.task u → ∃ t, exec (.readRsp p x) s = .next t ∧ t.aborts o.task 6 ∧ still t)) ∧
      (let q := bits k.info.toNat 53 50
       let w := s.keyQueue q
       let r := 64 + k.src.toNat
       (s.timerFull q r = false →
         exec (.cartCredit p x) s = .next (done .cartCredit (if w.active then (s0 .cartCredit).setQueue q { w with
           used := store 0 w.used r (look 0 w.used r - 1), timers := store 0 w.timers r 0 } else s0 .cartCredit))) ∧
       ∀ h u, s.timerFull q r = true → s.inHand w = some h → s.runs h.task.key u →
         ∃ t, exec (.cartCredit p x) s = .next t ∧ t.aborts h.task.key 2 ∧ t.kst.timeout = true ∧ still t) ∧
      (s.writesBefore k s.ehl.writesIn = true → exec (.shutArrive p x) s = .next (done .shutArrive { s0 .shutArrive with
        ehl := { (s0 .shutArrive).ehl with heldArrivals := s.ehl.heldArrivals ++ [(k, s.ehl.writesIn)] } })) ∧
      (∀ u, s.taggedTask k.tag = some u → s.task? u.key = some u →
        let sid := bits k.info.toNat 85 82
        (s.writesBefore k s.ehl.writesIn = false → ∃ (t : State) (u' : Task), exec (.shutArrive p x) s = .next t ∧ still t ∧ t.task? u.key = some u' ∧
          (u'.shutter sid).remotes = (u.shutter sid).remotes ++
            [{ use := bits k.info.toNat 81 66, node := k.src.toNat, fd := bits k.info.toNat 63 0, clkAt := s.clk, ftimeAt := s.ehl.ftime }]) ∧
        (s.runs u.key u → let code := bits k.info.toNat 85 78
          (∃ t, exec (.abortPkt p x) s = .next t ∧ still t ∧ t.aborts u.key code) ∧
          ∃ t, exec (.taskLost p x) s = .next t ∧ still t ∧ t.aborts u.key (if code = 0 then 7 else code)) ∧
        (u.st = .queued → (∃ t, exec (.abortPkt p x) s = .next t ∧ still t ∧ ∀ x, t.task? u.key = some x → x.st = .ended) ∧
          ∃ t, exec (.taskLost p x) s = .next t ∧ still t ∧ ∀ x, t.task? u.key = some x → x.st = .ended)) ∧
      (let node := BitVec.ofNat 12 (bits k.info.toNat 85 74)
       ∃ t, exec (.unreach p x) s = .next t ∧ still t ∧ (node.toNat, some (s.clk + 25000000)) ∈ t.ehl.unreachable ∧
         t.ehl.unreachF = true ∧ ∀ key u, s.runs key u → node ∈ u.devices → t.aborts key 7)) ∧
    (v.st = .up → inTurn →
      (look none s.kst.groups k.group.toNat = none → exec (.cart p x) s = .next (done .cart (s0 .cart).discard)) ∧
      ∀ g, look none s.kst.groups k.group.toNat = some g →
        let copy : OutPkt := { ty := .cart, k := { k with ttl := k.ttl - 1 }, via := some p.toNat }
        let way := fun q : Nat => q < 16 ∧ bitOf g.portMask.toNat q = true ∧ q ≠ p.toNat
        ((∀ q, way q → (s.port q).st ≠ .up ∧ (s.port q).st ≠ .retrain) →
          exec (.cart p x) s = .next (if g.role = 1 then (done .cart (s0 .cart)).takePiece k else done .cart (s0 .cart))) ∧
        (k.ttl.toNat < 2 → (∃ q, way q ∧ (s.port q).st = .up) → ∃ t, exec (.cart p x) s = .next t ∧ still t ∧
          count48 (s.ehl.discards + 1) ≤ t.ehl.discards) ∧
        (2 ≤ k.ttl.toNat → (∀ q, (s.port q).waiting = []) → (∀ q, way q → (s.port q).st = .up → sends q copy) →
          (∀ q, way q → (s.port q).st ≠ .retrain) →
          ∃ t, exec (.cart p x) s = .next t ∧ still t ∧
            ∀ q, way q → (s.port q).st = .up → ∃ seq : BitVec 12, (seq, copy) ∈ (t.port q).replay ∧
              ((s.port q).flitAt ≤ s.clk → seq = (s.port q).txSeq ∧ (t.port q).txSeq = (s.port q).txSeq + 1))) ∧
    ∀ (id : BitVec 16) o u, (s.ehl.reads.find? fun r => r.rid = id.toNat) = some o →
      let w := s.advance (o.clkAt + o.limit)
      w.runs o.task u → ∃ t, exec (.remoteReqTimeout id) s = .next t ∧ t.clk = max s.clk (o.clkAt + o.limit) ∧
        t.aborts o.task 7 ∧ t.ehl.reads = w.ehl.reads.erase o ∧ SameMemory w t

/-- The passage of clk, SYNC_EXCHANGE, TIME_HOLDOVER and TIME_STEP (R298 to R300; log entry 58). -/
def Obligations.FabricTimeFollowsItsParent : Prop :=
  ∀ s : State,
    let e := s.ehl
    let only := fun (t : State) => t = { s with ehl := t.ehl, evt := t.evt, early := t.early }
    (∀ d : Nat, (e.slew = 0 → e.drift = 0 → (s.pass d).ehl.ftime = (e.ftime + d) % 2 ^ 64) ∧
      ∃ y : Int, y.natAbs ≤ d / 32 + 1 ∧ (s.pass d).ehl.ftime = ((e.ftime : Int) + d + y).toNat % 2 ^ 64) ∧
    (∀ (p : BitVec 4) (time : BitVec 64) (delay2 : Nat),
      let o := s.offsetFrom time delay2
      let count := if o.natAbs ≤ 2 then min (e.goodSyncs + 1) 4 else 0
      ((s.port p.toNat).st ≠ .up → exec (.syncExchange p time delay2) s = .next s) ∧
      ((s.port p.toNat).st = .up → e.rootSelf = true ∨ e.parentPort ≠ p → exec (.syncExchange p time delay2) s =
        .next (s.setPort p.toNat { (s.port p.toNat) with syncSent := some (BitVec.ofNat 64 e.ftime) })) ∧
      (e.rootSelf = false → e.parentPort = p → (s.port p.toNat).st = .up →
        ∃ t, exec (.syncExchange p time delay2) s = .next t ∧ only t ∧ t.ehl.lastSync = s.clk ∧ t.ehl.ftime = e.ftime ∧
          t.port p.toNat = { s.port p.toNat with syncSent := some (BitVec.ofNat 64 e.ftime) } ∧
          (e.stepped = false ∨ 1024 < o.natAbs →
            t.ehl.stepDue = some o ∧ t.ehl.locked = false ∧ t.ehl.goodSyncs = 0) ∧
          (e.stepped = true → o.natAbs ≤ 1024 →
            t.ehl.slew = o ∧ t.ehl.stepDue = none ∧ t.ehl.goodSyncs = count ∧
            t.ehl.locked = (decide (count = 4) && decide (e.depth.toNat ≤ 16)) ∧
            (count = 4 → e.depth.toNat ≤ 16 → t.ehl.holdover = false) ∧
            (e.slew = 0 → e.drift = 0 → o ≠ 0 →
              t.ehl.drift = (if o < 0 then -1 else 1) * (max 32 ((s.clk - e.lastSync) / o.natAbs) : Nat)) ∧
            (e.slew = 0 → e.drift = 0 → o = 0 → t.ehl.drift = 0)))) ∧
    (e.rootSelf = false → e.holdover = false →
      let u := s.advance (e.lastSync + 4096)
      ∃ t, exec .timeHoldover s = .next t ∧ t.clk = max s.clk (e.lastSync + 4096) ∧ t.ehl.holdover = true ∧
        t.ehl.locked = false ∧ t.ehl.time = true ∧ t.ehl.ftime = u.ehl.ftime ∧ SameMemory u t ∧ t.coaches = u.coaches) ∧
    (e.rootSelf = true ∨ e.holdover = true → exec .timeHoldover s = .next s) ∧
    (∀ o, e.stepDue = some o → s.noFabricTask = true → ∃ t, exec .timeStep s = .next t ∧ only t ∧ t.ehl.stepDue = none ∧
      t.ehl.stepped = true ∧ t.ehl.slew = 0 ∧
      (t.ehl.ftime : Int) = ((e.ftime : Int) + o) % 2 ^ 64 ∧ (t.ehl.timeStepReg.toNat : Int) = o % 2 ^ 64 ∧ t.ehl.time = true) ∧
    (e.stepDue = none ∨ s.noFabricTask = false → exec .timeStep s = .next s)

/-- IDENTITY_PUB, BAK_CERT, BAK_ROTATE, QUOTE, SESSION_OPEN, SESSION_QUOTE and SESSION_CLOSE (R390 to R393, R395, R400 to R403). The order
of an operation's checks is the model's reading, and whether a signature comes out faulty is the hardware's (DESIGN CHOICE, log
entry 45). -/
def Obligations.SecurityCommandsCheckAndRun : Prop :=
  ∀ (n : BitVec 4) (s : State),
    let cmds : List (Instr × Nat) := [(.identityPub, 1), (.bakCert, 2), (.bakRotate, 3), (.quote, 4), (.sessionOpen, 5),
      (.sessionQuote n, 6), (.sessionClose n, 7)]
    let v := s.sec
    let i := v.input
    let ends := fun (c : Instr) (P : State → SecOp → Prop) => ∃ t r, exec c s = .next t ∧ t.sec.running = some r ∧ P t r
    let gives := fun (c : Instr) (status : Nat) (out : List Byte) => ends c fun t r => r.status.toNat = status ∧ r.output = out ∧
      t = { s with sec := { v with running := some r, mboxOut := [] } }
    let may := fun (op : Nat) => v.noEngine = false ∧ i.unusedZero op = true ∧ (s.boot.restricted = true → op = 1 ∨ op = 7)
    (v.running.isSome = true → ∀ e ∈ cmds,
      ∃ t, exec e.1 s = .next t ∧ t = { s with sec := { v with cmdErr := true, cmdErrSet := satInc v.cmdErrSet }, early := t.early }) ∧
    (v.running = none →
      (∀ e ∈ cmds,
        (ends e.1 fun t r => r.op.toNat = e.2 ∧ t.sec.mboxOut = [] ∧ t.sec.done = v.done ∧ SameMemory s t ∧
          t.coaches = s.coaches ∧ t.tasks = s.tasks ∧ t.boot.restricted = s.boot.restricted) ∧
        (v.noEngine = true → gives e.1 11 []) ∧
        (v.noEngine = false → i.unusedZero e.2 = false → gives e.1 1 []) ∧
        (v.noEngine = false → i.unusedZero e.2 = true → s.boot.restricted = true → e.2 ≠ 1 → e.2 ≠ 7 → gives e.1 3 [])) ∧
      (may 1 → if v.publicKey = [] then gives .identityPub 4 [] else gives .identityPub 0 v.publicKey) ∧
      (may 2 → v.store.bak.isSome = true → gives .bakCert 0 v.store.cert) ∧
      (∀ e ∈ [(Instr.bakCert, 2), (Instr.bakRotate, 3)], may e.2 → (e.2 = 2 → v.store.bak = none) →
        (v.store.seed = none → gives e.1 4 []) ∧
        (v.store.seed.isSome = true →
          let b := match s.boot.nvm.lastBlock v.generation with | some x => x + 1 | none => 0
          let signs := fun (block leaf : Nat) (P : State → Prop) => ends e.1 fun t r => P t ∧
            (∃ top, r.leaf = some (block, leaf + 1, top)) ∧
            ((r.status = 0 ∧ r.newBak.isSome = true ∧ r.newCert = r.output ∧
                hssVerify v.publicKey (r.output.take 128) (r.output.drop 128) = true) ∨
              (r.status = 6 ∧ r.newBak = none ∧ r.output = []))
          (v.store.nextLeaf < 1024 → signs v.store.block v.store.nextLeaf fun t => t.boot = s.boot ∧ t.sec.store = v.store) ∧
          (1024 ≤ v.store.nextLeaf → b ≤ 1023 → signs b 0 fun t =>
            t.sec.store = { v.store with block := b, nextLeaf := 0, topSig := none } ∧
            t.boot.nvm = s.boot.nvm.append (.lmsReserve s.boot.bootNumber b v.generation)) ∧
          (1024 ≤ v.store.nextLeaf → 1023 < b → gives e.1 5 []))) ∧
      (may 4 → (v.store.bak = none → gives .quote 10 []) ∧
        ∀ k, v.store.bak = some k → ends .quote fun t r => t.sec.store = v.store ∧
          ((r.status = 0 ∧ r.output.take 256 = s.attestation i 15 ∧
            bakVerify k (s.attestation i 15) (r.output.drop 256) = true) ∨ (r.status = 6 ∧ r.output = []))) ∧
      (may 5 → (v.store.bak = none → gives .sessionOpen 10 []) ∧
        (∀ k, v.store.bak = some k →
          (v.freeSession = none → gives .sessionOpen 9 []) ∧
          ∀ x, v.freeSession = some x →
            (pointOk i.peerX i.peerY = false → gives .sessionOpen 2 []) ∧
            ends .sessionOpen fun t r => t.sec.store = v.store ∧ t.sec.sessions = v.sessions ∧
              ((r.status = 0 ∧ r.openIndex.toNat = x ∧ (∃ key, r.session = some (x, key)) ∧
                  bakVerify k (leBytes 48 i.peerX ++ leBytes 48 i.peerY ++ r.output.take 96 ++ i.nonce ++ [BitVec.ofNat 8 x])
                    (r.output.drop 96) = true) ∨
                ((r.status = 2 ∨ r.status = 6) ∧ r.session = none ∧ r.output = [])))) ∧
      (may 6 →
        (look [] v.sessions n.toNat = [] → gives (.sessionQuote n) 8 []) ∧
        (look [] v.sessions n.toNat ≠ [] → gives (.sessionQuote n) 0
          (s.attestation i n.toNat ++ hmac256 (look [] v.sessions n.toNat) (s.attestation i n.toNat)))) ∧
      (may 7 →
        (look [] v.sessions n.toNat = [] → gives (.sessionClose n) 8 []) ∧
        (look [] v.sessions n.toNat ≠ [] → ends (.sessionClose n) fun t r => r.status = 0 ∧ r.output = [] ∧
          look [] t.sec.sessions n.toNat = [] ∧ ∀ m, m ≠ n.toNat → look [] t.sec.sessions m = look [] v.sessions m)))

/-- SEC_DONE and SEC_ABORT (R390, R393, R395, R396, R406). How far an operation had come that is cut short is open (DESIGN CHOICE, log
entry 45). -/
def Obligations.SecurityOperationsCompleteOrAbort : Prop :=
  ∀ s : State,
    let v := s.sec
    (v.running = none → exec .secDone s = .next s ∧ exec .secAbort s = .next s) ∧
    ∀ o, v.running = some o →
      (∃ part, exec .secAbort s = .next { s.freed with
        sec := { v with sessions := [], running := some (o.cut 7), store := v.store.takesPart o.leaf part } }) ∧
      ∃ t, exec .secDone s = .next t ∧ SameMemory s t ∧ t.coaches = s.coaches ∧ t.tasks = s.tasks ∧
        t.sec.running = none ∧ t.sec.done = true ∧ t.sec.doneSet = satInc v.doneSet ∧ t.sec.status = o.status ∧
        t.sec.outBytes = BitVec.ofNat 16 o.output.length ∧ t.sec.resSession = o.openIndex ∧
        t.sec.mboxOut = mboxOf o.output ∧ t.sec.ops = count48 (v.ops + 1) ∧
        (o.status ≠ 6 → t.sec.faults = v.faults ∧ t.sec.bootFaults = v.bootFaults ∧ t.boot = s.boot) ∧
        (o.status = 6 → t.sec.faults = satInc v.faults ∧ t.sec.bootFaults = v.bootFaults + 1) ∧
        (o.status = 6 ∧ 2 ≤ v.bootFaults → t.boot.restricted = true ∧ t.sec.store = .cleared ∧ t.sec.sessions = []) ∧
        (o.status ≠ 6 ∨ v.bootFaults < 2 → t.boot = s.boot ∧
          t.sec.store = (match o.newBak with
            | some k => { v.store.takes o.leaf with bak := some k, cert := o.newCert }
            | none => v.store.takes o.leaf) ∧
          t.sec.sessions = match o.session with | some (i, k) => store [] v.sessions i k | none => v.sessions)

/-- SMBUS_DIE_TEMP, SMBUS_STACK_TEMP, SMBUS_POWER, SMBUS_STATUS, SMBUS_SLOT, SMBUS_ALERT_RESPONSE, BYPASS, IDCODE,
SAMPLE_PRELOAD, EXTEST, UART_RX, PLL_LOCK_LOSS, RC_READ and REGISTER_WRITE (R10, R11, R327, R348, R420, R422 to R426). That the SMBus
answers once the device has booted (log entry 75) and what a register access of another width or at no register does (log entry 76) are
the model's reading (DEDUCED); what the alert response answers (log entry 86) and the first bit after BYPASS (log entry 77) are
PRESUMED. -/
def Obligations.BusesAndRegistersAnswer : Prop :=
  ∀ s : State,
    let m := s.board
    let bytes := fun (i : Instr) (bs : List Byte) => exec i s = .next { s with bus := { s.bus with
      bytes := if s.boot.running then bs else [], acked := s.boot.running
      addr := 0x58 + BitVec.ofNat 8 (bits m.strapReg.toNat 1 0) } }
    let scans := fun (i : Instr) (j : Jtag) => ∃ t, exec i s = .next t ∧
      t = { s with board := { m with jtag := j }, bus := t.bus, freeCtr := t.freeCtr } ∧
      (m.perst = true ∧ m.maintPin = true → t.board.jtagActs = j) ∧
      (m.perst = false ∨ m.maintPin = false → t.board.jtagActs = .bypass ∧ t.bus = { s.bus with jtagOut := 0 } ∧ t.freeCtr = s.freeCtr)
    bytes .smbusDieTemp (leBytes 4 m.dieTemp.toNat) ∧
    bytes .smbusStackTemp ((List.range 8).map fun k => (s.stk k).temp) ∧
    bytes .smbusPower (leBytes 4 m.powerReg.toNat) ∧
    bytes .smbusStatus (leBytes 4 (flag m.throttle + 2 * flag m.causeTemp + 4 * flag m.causePower + 8 * flag s.hif.hostReady +
      16 * flag s.boot.restricted + 32 * flag s.boot.sealClosed)) ∧
    bytes .smbusSlot (leBytes 2 (bits m.strapReg.toNat 5 2 + 0xB0 * 2 ^ 8)) ∧
    (s.boot.running = true → m.alertLow = true → exec .smbusAlertResponse s = .next { s with
      board := { m with alertLow := m.throttle || m.shutdown }
      bus := { s.bus with bytes := [m.smbAddress * 2 + 1], acked := true, addr := 0x0C } }) ∧
    (s.boot.running = false ∨ m.alertLow = false → exec .smbusAlertResponse s =
      .next { s with bus := { s.bus with bytes := [], acked := false, addr := 0x0C } }) ∧
    exec .bypass s = .next { s with board := { m with jtag := .bypass }, bus := { s.bus with jtagOut := 0 } } ∧
    exec .idcode s = .next { s with board := { m with jtag := .idcode }, bus := { s.bus with jtagOut := 0x28100001 } } ∧
    scans .samplePreload .samplePreload ∧ scans .extest .extest ∧
    (∀ ch, exec (.uartRx ch) s = .next (if s.boot.debug then { s with board := { m with uart := m.uart ++ [ch] } } else s)) ∧
    (∀ root phy, exec (.pllLockLoss root phy) s = .next { s with board := { m with rootLocked := root, phyLocked := phy } }) ∧
    (∀ off n v, s.access off.toNat n = none → exec (.registerWrite off n v) s = .next s ∧
      exec (.rcRead off n) s = .next { s with bus := { s.bus with readData := BitVec.ofNat 64 (2 ^ min n 64 - 1) } }) ∧
    (∀ off n p, s.access off.toNat n = some p → ∃ t, exec (.rcRead off n) s = .next t ∧
      t.bus.readData = BitVec.ofNat 64 (s.readValue p n) ∧
      (∀ w x, s.earlyOf p = [] → s.regAt p n = some (w, x) → s.readValue p n = x) ∧
      SameMemory s t ∧ t.tasks = s.tasks ∧ t.boot.nvm = s.boot.nvm ∧ t.clk = s.clk) ∧
    (s.hif.hostReady = false → ∀ off : BitVec 26, 0x400000 ≤ off.toNat → ∀ n, s.access off.toNat n = none) ∧
    (s.hif.hostReady = true →
      (∀ e ∈ [((0x400020 : BitVec 26), 64), (0x400028, 64), (0x800010, 64), (0x800018, 64), (0x800020, 64), (0x1000018, 64),
          (0x1000020, 64), (0x1800030, 64), (0x3000018, 32), (0x3000020, 64), (0x3800018, 64)],
        ∃ t u, exec (.rcRead e.1 e.2) s = .next t ∧ exec (.rcRead e.1 e.2) t = .next u ∧ u.bus.readData = 0) ∧
      (∀ c : CoachId, ∀ v, exec (.registerWrite (BitVec.ofNat 26 (0x2000010 + 0x10000 * c.toNat)) 32 v) s =
        .next (s.setCoach c { s.coach c with wdogLimit := BitVec.ofNat 32 v.toNat })) ∧
      (∀ v, exec (.registerWrite 0x3000004 32 v) s = .next (s.secCommand (bits v.toNat 7 0) (bits v.toNat 11 8))) ∧
      exec (.registerWrite 0x280001C 32 1) s = exec .commit s ∧ exec (.registerWrite 0x280001C 32 2) s = exec .debugEn s ∧
      (∀ v, exec (.registerWrite 0x400010 32 v) s = exec (.eventRingEnable (BitVec.ofNat 32 v.toNat)) s) ∧
      (∀ v, exec (.registerWrite 0x800004 32 v) s = exec (.kstSplitWrite (BitVec.ofNat 32 v.toNat)) s)) ∧
    (∀ v, exec (.registerWrite 0x4 32 v) s = .next { s with hif := { s.hif with
      ringErr := s.hif.ringErr && (s.isEarly 0 || !(v.getLsbD 2)), dbErr := s.hif.dbErr && (s.isEarly 1 || !(v.getLsbD 1)) } }) ∧
    (∃ t, exec (.rcRead 0x4 32) s = .next t ∧ t.coaches = s.coaches ∧
      t.hif = { s.hif with ringErrSet := t.hif.ringErrSet, dbErrSet := t.hif.dbErrSet } ∧
      (s.isEarly 0 = true → t.hif.ringErrSet ≠ 0) ∧ (s.isEarly 1 = true → t.hif.dbErrSet ≠ 0) ∧
      (s.isEarly 0 = false → s.isEarly 1 = false → t.hif.ringErrSet = 0 ∧ t.hif.dbErrSet = 0 ∧
        t.bus.readData.toNat = s.hif.ringErrSet.toNat * 2 ^ 24 + s.hif.dbErrSet.toNat * 2 ^ 16 + flag s.hif.linkDegraded * 16 +
          flag s.hif.summaryBusy * 8 + flag s.hif.ringErr * 4 + flag s.hif.dbErr * 2 + flag s.hif.hostReady)) ∧
    (∀ v, exec (.registerWrite 0x8 32 v) s = exec (.hifBar2BaseWrite (BitVec.ofNat 32 v.toNat)) s) ∧
    ∀ (q : BitVec 6) (v : BitVec 64),
      exec (.registerWrite (BitVec.ofNat 26 (0x1008 + 0x20 * q.toNat)) 32 v) s = exec (.sqEnable q (BitVec.ofNat 32 v.toNat)) s ∧
      exec (.registerWrite (BitVec.ofNat 26 (0x2008 + 0x20 * q.toNat)) 32 v) s = exec (.cqEnable q (BitVec.ofNat 32 v.toNat)) s ∧
      (exec (.registerWrite (BitVec.ofNat 26 (0x1000 + 0x20 * q.toNat)) 64 v) s = .next (if (s.sq q.toNat).enable then s
        else s.setSq q.toNat { s.sq q.toNat with base := v &&& ~~~4095 }))
end

