-- ==== Sys2Proof/Laws/Bits.lean ====
section
/-! SUPPORT. Numbers packed side by side: the slots of a carriage, the elements of a slot, the bytes of a number. -/

set_option Elab.async false

namespace Sys2Proof.Machine

open Sys2Proof

/-- Fields of `w` bits side by side, the first lowest. -/
theorem packed_lt (w : Nat) (f : Nat → Nat) (n : Nat) :
    (List.range n).foldl (fun a e => a + (f e % 2 ^ w) * 2 ^ (w * e)) 0 < 2 ^ (w * n) := by
  induction n with
  | zero => simp
  | succ n ih =>
    rw [List.range_succ, List.foldl_append]
    simp only [List.foldl_cons, List.foldl_nil]
    have h : f n % 2 ^ w < 2 ^ w := Nat.mod_lt _ (Nat.two_pow_pos w)
    have k : 2 ^ (w * (n + 1)) = 2 ^ w * 2 ^ (w * n) := by rw [← Nat.pow_add]; congr 1; rw [Nat.mul_succ, Nat.add_comm]
    rw [k]
    calc _ < 2 ^ (w * n) + f n % 2 ^ w * 2 ^ (w * n) := by omega
      _ = (f n % 2 ^ w + 1) * 2 ^ (w * n) := by rw [Nat.add_mul]; omega
      _ ≤ 2 ^ w * 2 ^ (w * n) := Nat.mul_le_mul_right _ h

theorem packed_field (w : Nat) (f : Nat → Nat) (n s : Nat) (h : s < n) :
    (List.range n).foldl (fun a e => a + (f e % 2 ^ w) * 2 ^ (w * e)) 0 / 2 ^ (w * s) % 2 ^ w = f s % 2 ^ w := by
  induction n with
  | zero => omega
  | succ n ih =>
    rw [List.range_succ, List.foldl_append]
    simp only [List.foldl_cons, List.foldl_nil]
    by_cases e : s = n
    · subst e
      rw [Nat.add_mul_div_right _ _ (Nat.two_pow_pos _), Nat.div_eq_of_lt (packed_lt w f s), Nat.zero_add, Nat.mod_mod]
    · have hs : s < n := by omega
      have k : f n % 2 ^ w * 2 ^ (w * n) = 2 ^ w * (f n % 2 ^ w * 2 ^ (w * (n - s - 1))) * 2 ^ (w * s) := by
        have : w * n = w + w * (n - s - 1) + w * s := by
          have : n = 1 + (n - s - 1) + s := by omega
          conv => lhs; rw [this]
          rw [Nat.mul_add, Nat.mul_add, Nat.mul_one]
        rw [this, Nat.pow_add, Nat.pow_add]
        simp only [Nat.mul_comm, Nat.mul_left_comm]
      rw [k, Nat.add_mul_div_right _ _ (Nat.two_pow_pos _), Nat.add_mul_mod_self_left]
      exact ih hs

/-- The number in slot `s` of a carriage. -/
theorem slotOf_toNat (v : Carriage) (s : Nat) : (slotOf v s).toNat = v.toNat / 2 ^ (36 * s) % 2 ^ 36 := by
  unfold slotOf
  rw [BitVec.extractLsb'_toNat, Nat.shiftRight_eq_div_pow]

theorem slotOf_ofSlots (f : Nat → Nat) (s : Nat) (h : s < 64) : slotOf (ofSlots f) s = BitVec.ofNat 36 (f s) := by
  apply BitVec.eq_of_toNat_eq
  rw [slotOf_toNat]
  unfold ofSlots
  have b : (List.range 64).foldl (fun a e => a + (f e % 2 ^ 36) * 2 ^ (36 * e)) 0 < 2 ^ 2304 := packed_lt 36 f 64
  rw [BitVec.toNat_ofNat, Nat.mod_eq_of_lt b, packed_field 36 f 64 s h, BitVec.toNat_ofNat]

/-- Two carriages with equal slots are equal. -/
theorem carriage_ext (v w : Carriage) (h : ∀ s, s < 64 → slotOf v s = slotOf w s) : v = w := by
  apply BitVec.eq_of_getLsbD_eq
  intro i hi
  have k := h (i / 36) (by omega)
  have e := congrArg (fun x : Slot => x.getLsbD (i % 36)) k
  simp only [slotOf, BitVec.getLsbD_extractLsb'] at e
  have : 36 * (i / 36) + i % 36 = i := by omega
  rw [this] at e
  have l : i % 36 < 36 := by omega
  simpa [l] using e

theorem slotOf_mergeSlots (old new : Carriage) (f : Nat → Bool) (s : Nat) (h : s < 64) :
    slotOf (mergeSlots old new f) s = if f s then slotOf new s else slotOf old s := by
  unfold mergeSlots
  rw [slotOf_ofSlots _ _ h]
  split <;> simp

theorem mergeSlots_all (old new : Carriage) (f : Nat → Bool) (hf : ∀ s, f s = true) : mergeSlots old new f = new :=
  carriage_ext _ _ fun s h => by rw [slotOf_mergeSlots _ _ _ _ h, hf]; rfl

theorem slotOf_setSlot (v : Carriage) (s : Nat) (x : Slot) (i : Nat) (h : i < 64) :
    slotOf (setSlot v s x) i = if i = s then x else slotOf v i := by
  unfold setSlot
  rw [slotOf_ofSlots _ _ h]
  split <;> simp

/-- Little-endian bytes read back. -/
theorem leNat_leBytes (n x : Nat) : leNat (leBytes n x) = x % 256 ^ n := by
  induction n generalizing x with
  | zero => simp [leBytes, leNat, Nat.mod_one]
  | succ n ih =>
    rw [leBytes, leNat, ih, BitVec.toNat_ofNat, show 2 ^ 8 = 256 from rfl, Nat.pow_succ 256 n, Nat.mul_comm (256 ^ n), Nat.mod_mul]

@[simp] theorem length_leBytes (n x : Nat) : (leBytes n x).length = n := by
  induction n generalizing x with
  | zero => rfl
  | succ n ih => simp [leBytes, ih]

end Sys2Proof.Machine
end

