-- ==== Sys2Proof/Laws/Map.lean ====
section
/-! SUPPORT. Laws of the sparse tables: a read after a write, and the canonical form under every operation. -/

set_option Elab.async false

namespace Sys2Proof.Machine

variable {α : Type}

/-! ## Reads after writes -/

theorem look_nil (d : α) (k : Nat) : look d [] k = d := rfl

theorem look_insert_same (d : α) (m : SMap α) (k : Nat) (v : α) : look d (insert m k v) k = v := by
  induction m with
  | nil => simp [insert, look]
  | cons e r ih =>
    obtain ⟨j, w⟩ := e
    unfold insert
    split
    · have : j ≠ k := by omega
      simp [look, this, ih]
    · split <;> simp [look]

theorem look_insert_other (d : α) (m : SMap α) {k j : Nat} (v : α) (h : j ≠ k) :
    look d (insert m k v) j = look d m j := by
  induction m with
  | nil => simp [insert, look, Ne.symm h]
  | cons e r ih =>
    obtain ⟨i, w⟩ := e
    unfold insert
    split
    · simp [look, ih]
    · split
      · rename_i hik
        subst hik
        simp [look, Ne.symm h]
      · simp [look, Ne.symm h]

theorem look_drop_same (d : α) (m : SMap α) (k : Nat) : look d (drop m k) k = d := by
  induction m with
  | nil => rfl
  | cons e r ih =>
    obtain ⟨j, w⟩ := e
    by_cases h : j = k
    · subst h
      simpa [drop, look] using ih
    · simp only [drop, List.filter_cons, ne_eq, h, not_false_eq_true, decide_true, ↓reduceIte, look] at ih ⊢
      exact ih

theorem look_drop_other (d : α) (m : SMap α) {k j : Nat} (h : j ≠ k) : look d (drop m k) j = look d m j := by
  induction m with
  | nil => rfl
  | cons e r ih =>
    obtain ⟨i, w⟩ := e
    by_cases hi : i = k
    · have hij : i ≠ j := by omega
      simp only [drop, List.filter_cons, hi, ne_eq, not_true_eq_false, decide_false, Bool.false_eq_true, ↓reduceIte] at ih ⊢
      rw [ih]
      simp [look, ← hi, hij]
    · simp only [drop, List.filter_cons, hi, ne_eq, not_false_eq_true, decide_true, ↓reduceIte, look] at ih ⊢
      split <;> simp_all

@[simp] theorem look_store_same [DecidableEq α] (d : α) (m : SMap α) (k : Nat) (v : α) : look d (store d m k v) k = v := by
  unfold store
  split
  · rename_i h
    rw [look_drop_same, h]
  · exact look_insert_same d m k v

theorem look_store_other [DecidableEq α] (d : α) (m : SMap α) {k j : Nat} (v : α) (h : j ≠ k) :
    look d (store d m k v) j = look d m j := by
  unfold store
  split
  · exact look_drop_other d m h
  · exact look_insert_other d m v h

theorem look_store [DecidableEq α] (d : α) (m : SMap α) (k j : Nat) (v : α) :
    look d (store d m k v) j = if j = k then v else look d m j := by
  split
  · rename_i h; subst h; exact look_store_same d m j v
  · rename_i h; exact look_store_other d m v h

/-- Outside the keys written, a table reads as before. -/
theorem look_storeList_out [DecidableEq α] (d : α) (m : SMap α) (k : Nat) (vs : List α) (j : Nat)
    (h : j < k ∨ k + vs.length ≤ j) : look d (storeList d m k vs) j = look d m j := by
  induction vs generalizing m k with
  | nil => rfl
  | cons v vs ih =>
    simp only [List.length_cons] at h
    rw [storeList, ih _ _ (by omega), look_store_other d m v (by omega)]

/-- The keys written read as written. -/
theorem look_storeList_in [DecidableEq α] (d : α) (m : SMap α) (k : Nat) (vs : List α) (i : Nat) (h : i < vs.length) :
    look d (storeList d m k vs) (k + i) = vs[i] := by
  induction vs generalizing m k i with
  | nil => simp at h
  | cons v vs ih =>
    cases i with
    | zero =>
      simp only [Nat.add_zero, storeList]
      rw [look_storeList_out d _ _ _ _ (by omega), look_store_same]
      rfl
    | succ i =>
      simp only [List.length_cons] at h
      have := ih (store d m k v) (k + 1) i (by omega)
      rw [storeList, show k + (i + 1) = k + 1 + i by omega, this]
      rfl

/-! ## The canonical form -/

section Canonical

variable [DecidableEq α] (d : α)

/-- The canonical form, as a statement about the list: keys rise strictly and no value is the default. -/
theorem SMap.wf_iff (m : SMap α) :
    SMap.wf d m = true ↔ m.Pairwise (fun a b => a.1 < b.1) ∧ ∀ e ∈ m, e.2 ≠ d := by
  induction m with
  | nil => simp [SMap.wf]
  | cons e r ih =>
    obtain ⟨j, v⟩ := e
    cases r with
    | nil => simp [SMap.wf]
    | cons f r =>
      obtain ⟨k, w⟩ := f
      rw [SMap.wf, Bool.and_eq_true, Bool.and_eq_true, ih]
      simp only [bne_iff_ne, decide_eq_true_eq, List.pairwise_cons, List.mem_cons, forall_eq_or_imp]
      constructor
      · rintro ⟨⟨hv, hjk⟩, ⟨hk, hr⟩, hw, hd⟩
        exact ⟨⟨⟨hjk, fun a ha => Nat.lt_trans hjk (hk a ha)⟩, hk, hr⟩, hv, hw, hd⟩
      · rintro ⟨⟨⟨hjk, _⟩, hk, hr⟩, hv, hw, hd⟩
        exact ⟨⟨hv, hjk⟩, ⟨hk, hr⟩, hw, hd⟩

theorem SMap.wf_filter (m : SMap α) (p : Nat × α → Bool) (h : SMap.wf d m = true) : SMap.wf d (m.filter p) = true := by
  rw [SMap.wf_iff] at h ⊢
  exact ⟨h.1.filter p, fun e he => h.2 e (List.mem_filter.mp he).1⟩

omit [DecidableEq α] in
theorem mem_insert (m : SMap α) (k : Nat) (v : α) (e : Nat × α) (h : e ∈ insert m k v) : e = (k, v) ∨ e ∈ m := by
  induction m with
  | nil => simpa [insert] using h
  | cons f r ih =>
    obtain ⟨j, w⟩ := f
    unfold insert at h
    split at h
    · rcases List.mem_cons.mp h with rfl | h
      · exact .inr (List.mem_cons_self ..)
      · rcases ih h with h | h
        · exact .inl h
        · exact .inr (List.mem_cons_of_mem _ h)
    · split at h
      · rcases List.mem_cons.mp h with rfl | h
        · exact .inl rfl
        · exact .inr (List.mem_cons_of_mem _ h)
      · rcases List.mem_cons.mp h with rfl | h
        · exact .inl rfl
        · exact .inr h

theorem SMap.wf_insert (m : SMap α) (k : Nat) (v : α) (hv : v ≠ d) (h : SMap.wf d m = true) :
    SMap.wf d (insert m k v) = true := by
  rw [SMap.wf_iff] at h ⊢
  refine ⟨?_, fun e he => ?_⟩
  · induction m with
    | nil => simp [insert]
    | cons f r ih =>
      obtain ⟨j, w⟩ := f
      obtain ⟨⟨hj, hr⟩, hd⟩ := And.imp_left List.pairwise_cons.mp h
      have ih := ih ⟨hr, fun e he => hd e (List.mem_cons_of_mem _ he)⟩
      unfold insert
      split
      · rename_i hjk
        refine List.pairwise_cons.mpr ⟨fun a ha => ?_, ih⟩
        rcases mem_insert r k v a ha with rfl | ha
        · exact hjk
        · exact hj a ha
      · split
        · rename_i hjk
          subst hjk
          exact List.pairwise_cons.mpr ⟨hj, hr⟩
        · have hkj : k < j := by omega
          refine List.pairwise_cons.mpr ⟨fun a ha => ?_, List.pairwise_cons.mpr ⟨hj, hr⟩⟩
          rcases List.mem_cons.mp ha with rfl | ha
          · exact hkj
          · exact Nat.lt_trans hkj (hj a ha)
  · rcases mem_insert m k v e he with rfl | he
    · exact hv
    · exact h.2 e he

/-- A write keeps the canonical form. -/
theorem SMap.wf_store (m : SMap α) (k : Nat) (v : α) (h : SMap.wf d m = true) : SMap.wf d (store d m k v) = true := by
  unfold store
  split
  · exact SMap.wf_filter d m _ h
  · exact SMap.wf_insert d m k v ‹_› h

theorem SMap.wf_storeList (m : SMap α) (k : Nat) (vs : List α) (h : SMap.wf d m = true) :
    SMap.wf d (storeList d m k vs) = true := by
  induction vs generalizing m k with
  | nil => exact h
  | cons v vs ih => exact ih _ _ (SMap.wf_store d m k v h)

/-- Two tables in canonical form that read alike are equal data. -/
theorem SMap.ext_of_look (m n : SMap α) (hm : SMap.wf d m = true) (hn : SMap.wf d n = true)
    (h : ∀ k, look d m k = look d n k) : m = n := by
  rw [SMap.wf_iff] at hm hn
  induction m generalizing n with
  | nil =>
    cases n with
    | nil => rfl
    | cons f r => exact absurd (by simpa [look] using (h f.1).symm) (hn.2 f (List.mem_cons_self ..))
  | cons e r ih =>
    obtain ⟨j, v⟩ := e
    have hv : v ≠ d := hm.2 (j, v) (List.mem_cons_self ..)
    cases n with
    | nil => exact absurd (by simpa [look] using h j) hv
    | cons f q =>
      obtain ⟨k, w⟩ := f
      have hw : w ≠ d := hn.2 (k, w) (List.mem_cons_self ..)
      have below (l : SMap α) (i : Nat) (hl : ∀ a ∈ l, i < a.1) : look d l i = d := by
        induction l with
        | nil => rfl
        | cons a l ih =>
          have := hl a (List.mem_cons_self ..)
          simp only [look, show a.1 ≠ i by omega, if_false]
          exact ih fun b hb => hl b (List.mem_cons_of_mem _ hb)
      have hj := (List.pairwise_cons.mp hm.1).1
      have hk := (List.pairwise_cons.mp hn.1).1
      have hjk : j = k := by
        rcases Nat.lt_trichotomy j k with hlt | he | hlt
        · have e1 := h j
          rw [below ((k, w) :: q) j (by
            intro a ha
            rcases List.mem_cons.mp ha with rfl | ha
            · exact hlt
            · exact Nat.lt_trans hlt (hk a ha))] at e1
          exact absurd (by simpa [look] using e1) hv
        · exact he
        · have e1 := h k
          rw [below ((j, v) :: r) k (by
            intro a ha
            rcases List.mem_cons.mp ha with rfl | ha
            · exact hlt
            · exact Nat.lt_trans hlt (hj a ha))] at e1
          exact absurd (by simpa [look] using e1.symm) hw
      subst hjk
      have hvw : v = w := by simpa [look] using h j
      subst hvw
      congr 1
      refine ih q ?_ ?_ fun i => ?_
      · exact ⟨(List.pairwise_cons.mp hm.1).2, fun e he => hm.2 e (List.mem_cons_of_mem _ he)⟩
      · exact ⟨(List.pairwise_cons.mp hn.1).2, fun e he => hn.2 e (List.mem_cons_of_mem _ he)⟩
      · by_cases hi : j = i
        · subst hi
          rw [below r j hj, below q j hk]
        · simpa [look, hi] using h i

end Canonical

end Sys2Proof.Machine
end

