-- ==== Sys2Proof/Laws/State.lean ====
section
/-! SUPPORT. Reading a state after one of the small updates: one lemma for each field and each update, and what each
accessor reads back. -/

set_option Elab.async false

namespace Sys2Proof.Machine

open Sys2Proof

/-! ## setCoach -/

@[simp] theorem State.setCoach_clk (s : State) (c : CoachId) (v : Coach) : (s.setCoach c v).clk = s.clk := rfl
@[simp] theorem State.setCoach_freeCtr (s : State) (c : CoachId) (v : Coach) : (s.setCoach c v).freeCtr = s.freeCtr := rfl
@[simp] theorem State.setCoach_contexts (s : State) (c : CoachId) (v : Coach) : (s.setCoach c v).contexts = s.contexts := rfl
@[simp] theorem State.setCoach_policy (s : State) (c : CoachId) (v : Coach) : (s.setCoach c v).policy = s.policy := rfl
@[simp] theorem State.setCoach_policyHash (s : State) (c : CoachId) (v : Coach) : (s.setCoach c v).policyHash = s.policyHash := rfl
@[simp] theorem State.setCoach_tasks (s : State) (c : CoachId) (v : Coach) : (s.setCoach c v).tasks = s.tasks := rfl
@[simp] theorem State.setCoach_hif (s : State) (c : CoachId) (v : Coach) : (s.setCoach c v).hif = s.hif := rfl
@[simp] theorem State.setCoach_evt (s : State) (c : CoachId) (v : Coach) : (s.setCoach c v).evt = s.evt := rfl
@[simp] theorem State.setCoach_kst (s : State) (c : CoachId) (v : Coach) : (s.setCoach c v).kst = s.kst := rfl
@[simp] theorem State.setCoach_hbm (s : State) (c : CoachId) (v : Coach) : (s.setCoach c v).hbm = s.hbm := rfl
@[simp] theorem State.setCoach_ehl (s : State) (c : CoachId) (v : Coach) : (s.setCoach c v).ehl = s.ehl := rfl
@[simp] theorem State.setCoach_boot (s : State) (c : CoachId) (v : Coach) : (s.setCoach c v).boot = s.boot := rfl
@[simp] theorem State.setCoach_sec (s : State) (c : CoachId) (v : Coach) : (s.setCoach c v).sec = s.sec := rfl
@[simp] theorem State.setCoach_board (s : State) (c : CoachId) (v : Coach) : (s.setCoach c v).board = s.board := rfl
@[simp] theorem State.setCoach_bus (s : State) (c : CoachId) (v : Coach) : (s.setCoach c v).bus = s.bus := rfl
@[simp] theorem State.setCoach_host (s : State) (c : CoachId) (v : Coach) : (s.setCoach c v).host = s.host := rfl
@[simp] theorem State.setCoach_pending (s : State) (c : CoachId) (v : Coach) : (s.setCoach c v).pending = s.pending := rfl
@[simp] theorem State.setCoach_early (s : State) (c : CoachId) (v : Coach) : (s.setCoach c v).early = s.early := rfl

/-! ## onCoach -/

@[simp] theorem State.onCoach_clk (s : State) (c : CoachId) (f : Coach → Coach) : (s.onCoach c f).clk = s.clk := rfl
@[simp] theorem State.onCoach_freeCtr (s : State) (c : CoachId) (f : Coach → Coach) : (s.onCoach c f).freeCtr = s.freeCtr := rfl
@[simp] theorem State.onCoach_contexts (s : State) (c : CoachId) (f : Coach → Coach) : (s.onCoach c f).contexts = s.contexts := rfl
@[simp] theorem State.onCoach_policy (s : State) (c : CoachId) (f : Coach → Coach) : (s.onCoach c f).policy = s.policy := rfl
@[simp] theorem State.onCoach_policyHash (s : State) (c : CoachId) (f : Coach → Coach) : (s.onCoach c f).policyHash = s.policyHash := rfl
@[simp] theorem State.onCoach_tasks (s : State) (c : CoachId) (f : Coach → Coach) : (s.onCoach c f).tasks = s.tasks := rfl
@[simp] theorem State.onCoach_hif (s : State) (c : CoachId) (f : Coach → Coach) : (s.onCoach c f).hif = s.hif := rfl
@[simp] theorem State.onCoach_evt (s : State) (c : CoachId) (f : Coach → Coach) : (s.onCoach c f).evt = s.evt := rfl
@[simp] theorem State.onCoach_kst (s : State) (c : CoachId) (f : Coach → Coach) : (s.onCoach c f).kst = s.kst := rfl
@[simp] theorem State.onCoach_hbm (s : State) (c : CoachId) (f : Coach → Coach) : (s.onCoach c f).hbm = s.hbm := rfl
@[simp] theorem State.onCoach_ehl (s : State) (c : CoachId) (f : Coach → Coach) : (s.onCoach c f).ehl = s.ehl := rfl
@[simp] theorem State.onCoach_boot (s : State) (c : CoachId) (f : Coach → Coach) : (s.onCoach c f).boot = s.boot := rfl
@[simp] theorem State.onCoach_sec (s : State) (c : CoachId) (f : Coach → Coach) : (s.onCoach c f).sec = s.sec := rfl
@[simp] theorem State.onCoach_board (s : State) (c : CoachId) (f : Coach → Coach) : (s.onCoach c f).board = s.board := rfl
@[simp] theorem State.onCoach_bus (s : State) (c : CoachId) (f : Coach → Coach) : (s.onCoach c f).bus = s.bus := rfl
@[simp] theorem State.onCoach_host (s : State) (c : CoachId) (f : Coach → Coach) : (s.onCoach c f).host = s.host := rfl
@[simp] theorem State.onCoach_pending (s : State) (c : CoachId) (f : Coach → Coach) : (s.onCoach c f).pending = s.pending := rfl
@[simp] theorem State.onCoach_early (s : State) (c : CoachId) (f : Coach → Coach) : (s.onCoach c f).early = s.early := rfl

/-! ## onTask -/

@[simp] theorem State.onTask_clk (s : State) (k : Nat) (f : Task → Task) : (s.onTask k f).clk = s.clk := rfl
@[simp] theorem State.onTask_freeCtr (s : State) (k : Nat) (f : Task → Task) : (s.onTask k f).freeCtr = s.freeCtr := rfl
@[simp] theorem State.onTask_coaches (s : State) (k : Nat) (f : Task → Task) : (s.onTask k f).coaches = s.coaches := rfl
@[simp] theorem State.onTask_contexts (s : State) (k : Nat) (f : Task → Task) : (s.onTask k f).contexts = s.contexts := rfl
@[simp] theorem State.onTask_policy (s : State) (k : Nat) (f : Task → Task) : (s.onTask k f).policy = s.policy := rfl
@[simp] theorem State.onTask_policyHash (s : State) (k : Nat) (f : Task → Task) : (s.onTask k f).policyHash = s.policyHash := rfl
@[simp] theorem State.onTask_hif (s : State) (k : Nat) (f : Task → Task) : (s.onTask k f).hif = s.hif := rfl
@[simp] theorem State.onTask_evt (s : State) (k : Nat) (f : Task → Task) : (s.onTask k f).evt = s.evt := rfl
@[simp] theorem State.onTask_kst (s : State) (k : Nat) (f : Task → Task) : (s.onTask k f).kst = s.kst := rfl
@[simp] theorem State.onTask_hbm (s : State) (k : Nat) (f : Task → Task) : (s.onTask k f).hbm = s.hbm := rfl
@[simp] theorem State.onTask_ehl (s : State) (k : Nat) (f : Task → Task) : (s.onTask k f).ehl = s.ehl := rfl
@[simp] theorem State.onTask_boot (s : State) (k : Nat) (f : Task → Task) : (s.onTask k f).boot = s.boot := rfl
@[simp] theorem State.onTask_sec (s : State) (k : Nat) (f : Task → Task) : (s.onTask k f).sec = s.sec := rfl
@[simp] theorem State.onTask_board (s : State) (k : Nat) (f : Task → Task) : (s.onTask k f).board = s.board := rfl
@[simp] theorem State.onTask_bus (s : State) (k : Nat) (f : Task → Task) : (s.onTask k f).bus = s.bus := rfl
@[simp] theorem State.onTask_host (s : State) (k : Nat) (f : Task → Task) : (s.onTask k f).host = s.host := rfl
@[simp] theorem State.onTask_pending (s : State) (k : Nat) (f : Task → Task) : (s.onTask k f).pending = s.pending := rfl
@[simp] theorem State.onTask_early (s : State) (k : Nat) (f : Task → Task) : (s.onTask k f).early = s.early := rfl

/-! ## freed -/

@[simp] theorem State.freed_clk (s : State) : s.freed.clk = s.clk := rfl
@[simp] theorem State.freed_coaches (s : State) : s.freed.coaches = s.coaches := rfl
@[simp] theorem State.freed_contexts (s : State) : s.freed.contexts = s.contexts := rfl
@[simp] theorem State.freed_policy (s : State) : s.freed.policy = s.policy := rfl
@[simp] theorem State.freed_policyHash (s : State) : s.freed.policyHash = s.policyHash := rfl
@[simp] theorem State.freed_tasks (s : State) : s.freed.tasks = s.tasks := rfl
@[simp] theorem State.freed_hif (s : State) : s.freed.hif = s.hif := rfl
@[simp] theorem State.freed_evt (s : State) : s.freed.evt = s.evt := rfl
@[simp] theorem State.freed_kst (s : State) : s.freed.kst = s.kst := rfl
@[simp] theorem State.freed_hbm (s : State) : s.freed.hbm = s.hbm := rfl
@[simp] theorem State.freed_ehl (s : State) : s.freed.ehl = s.ehl := rfl
@[simp] theorem State.freed_boot (s : State) : s.freed.boot = s.boot := rfl
@[simp] theorem State.freed_sec (s : State) : s.freed.sec = s.sec := rfl
@[simp] theorem State.freed_board (s : State) : s.freed.board = s.board := rfl
@[simp] theorem State.freed_bus (s : State) : s.freed.bus = s.bus := rfl
@[simp] theorem State.freed_host (s : State) : s.freed.host = s.host := rfl
@[simp] theorem State.freed_pending (s : State) : s.freed.pending = s.pending := rfl
@[simp] theorem State.freed_early (s : State) : s.freed.early = s.early := rfl

/-! ## raise -/

@[simp] theorem State.raise_clk (s : State) (i c p : Nat) : (s.raise i c p).clk = s.clk := rfl
@[simp] theorem State.raise_freeCtr (s : State) (i c p : Nat) : (s.raise i c p).freeCtr = s.freeCtr := rfl
@[simp] theorem State.raise_coaches (s : State) (i c p : Nat) : (s.raise i c p).coaches = s.coaches := rfl
@[simp] theorem State.raise_contexts (s : State) (i c p : Nat) : (s.raise i c p).contexts = s.contexts := rfl
@[simp] theorem State.raise_policy (s : State) (i c p : Nat) : (s.raise i c p).policy = s.policy := rfl
@[simp] theorem State.raise_policyHash (s : State) (i c p : Nat) : (s.raise i c p).policyHash = s.policyHash := rfl
@[simp] theorem State.raise_tasks (s : State) (i c p : Nat) : (s.raise i c p).tasks = s.tasks := rfl
@[simp] theorem State.raise_hif (s : State) (i c p : Nat) : (s.raise i c p).hif = s.hif := rfl
@[simp] theorem State.raise_kst (s : State) (i c p : Nat) : (s.raise i c p).kst = s.kst := rfl
@[simp] theorem State.raise_hbm (s : State) (i c p : Nat) : (s.raise i c p).hbm = s.hbm := rfl
@[simp] theorem State.raise_ehl (s : State) (i c p : Nat) : (s.raise i c p).ehl = s.ehl := rfl
@[simp] theorem State.raise_boot (s : State) (i c p : Nat) : (s.raise i c p).boot = s.boot := rfl
@[simp] theorem State.raise_sec (s : State) (i c p : Nat) : (s.raise i c p).sec = s.sec := rfl
@[simp] theorem State.raise_board (s : State) (i c p : Nat) : (s.raise i c p).board = s.board := rfl
@[simp] theorem State.raise_bus (s : State) (i c p : Nat) : (s.raise i c p).bus = s.bus := rfl
@[simp] theorem State.raise_host (s : State) (i c p : Nat) : (s.raise i c p).host = s.host := rfl
@[simp] theorem State.raise_pending (s : State) (i c p : Nat) : (s.raise i c p).pending = s.pending := rfl
@[simp] theorem State.raise_early (s : State) (i c p : Nat) : (s.raise i c p).early = s.early := rfl

/-! ## journal -/

@[simp] theorem State.journal_clk (s : State) (r : JRec) : (s.journal r).clk = s.clk := rfl
@[simp] theorem State.journal_freeCtr (s : State) (r : JRec) : (s.journal r).freeCtr = s.freeCtr := rfl
@[simp] theorem State.journal_coaches (s : State) (r : JRec) : (s.journal r).coaches = s.coaches := rfl
@[simp] theorem State.journal_contexts (s : State) (r : JRec) : (s.journal r).contexts = s.contexts := rfl
@[simp] theorem State.journal_policy (s : State) (r : JRec) : (s.journal r).policy = s.policy := rfl
@[simp] theorem State.journal_policyHash (s : State) (r : JRec) : (s.journal r).policyHash = s.policyHash := rfl
@[simp] theorem State.journal_tasks (s : State) (r : JRec) : (s.journal r).tasks = s.tasks := rfl
@[simp] theorem State.journal_hif (s : State) (r : JRec) : (s.journal r).hif = s.hif := rfl
@[simp] theorem State.journal_evt (s : State) (r : JRec) : (s.journal r).evt = s.evt := rfl
@[simp] theorem State.journal_kst (s : State) (r : JRec) : (s.journal r).kst = s.kst := rfl
@[simp] theorem State.journal_hbm (s : State) (r : JRec) : (s.journal r).hbm = s.hbm := rfl
@[simp] theorem State.journal_ehl (s : State) (r : JRec) : (s.journal r).ehl = s.ehl := rfl
@[simp] theorem State.journal_sec (s : State) (r : JRec) : (s.journal r).sec = s.sec := rfl
@[simp] theorem State.journal_board (s : State) (r : JRec) : (s.journal r).board = s.board := rfl
@[simp] theorem State.journal_bus (s : State) (r : JRec) : (s.journal r).bus = s.bus := rfl
@[simp] theorem State.journal_host (s : State) (r : JRec) : (s.journal r).host = s.host := rfl
@[simp] theorem State.journal_pending (s : State) (r : JRec) : (s.journal r).pending = s.pending := rfl
@[simp] theorem State.journal_early (s : State) (r : JRec) : (s.journal r).early = s.early := rfl

/-! ## hostWrite -/

@[simp] theorem State.hostWrite_clk (s : State) (a : Nat) (bs : List Byte) : (s.hostWrite a bs).clk = s.clk := rfl
@[simp] theorem State.hostWrite_freeCtr (s : State) (a : Nat) (bs : List Byte) : (s.hostWrite a bs).freeCtr = s.freeCtr := rfl
@[simp] theorem State.hostWrite_coaches (s : State) (a : Nat) (bs : List Byte) : (s.hostWrite a bs).coaches = s.coaches := rfl
@[simp] theorem State.hostWrite_contexts (s : State) (a : Nat) (bs : List Byte) : (s.hostWrite a bs).contexts = s.contexts := rfl
@[simp] theorem State.hostWrite_policy (s : State) (a : Nat) (bs : List Byte) : (s.hostWrite a bs).policy = s.policy := rfl
@[simp] theorem State.hostWrite_policyHash (s : State) (a : Nat) (bs : List Byte) : (s.hostWrite a bs).policyHash = s.policyHash := rfl
@[simp] theorem State.hostWrite_tasks (s : State) (a : Nat) (bs : List Byte) : (s.hostWrite a bs).tasks = s.tasks := rfl
@[simp] theorem State.hostWrite_hif (s : State) (a : Nat) (bs : List Byte) : (s.hostWrite a bs).hif = s.hif := rfl
@[simp] theorem State.hostWrite_evt (s : State) (a : Nat) (bs : List Byte) : (s.hostWrite a bs).evt = s.evt := rfl
@[simp] theorem State.hostWrite_kst (s : State) (a : Nat) (bs : List Byte) : (s.hostWrite a bs).kst = s.kst := rfl
@[simp] theorem State.hostWrite_hbm (s : State) (a : Nat) (bs : List Byte) : (s.hostWrite a bs).hbm = s.hbm := rfl
@[simp] theorem State.hostWrite_ehl (s : State) (a : Nat) (bs : List Byte) : (s.hostWrite a bs).ehl = s.ehl := rfl
@[simp] theorem State.hostWrite_boot (s : State) (a : Nat) (bs : List Byte) : (s.hostWrite a bs).boot = s.boot := rfl
@[simp] theorem State.hostWrite_sec (s : State) (a : Nat) (bs : List Byte) : (s.hostWrite a bs).sec = s.sec := rfl
@[simp] theorem State.hostWrite_board (s : State) (a : Nat) (bs : List Byte) : (s.hostWrite a bs).board = s.board := rfl
@[simp] theorem State.hostWrite_bus (s : State) (a : Nat) (bs : List Byte) : (s.hostWrite a bs).bus = s.bus := rfl
@[simp] theorem State.hostWrite_pending (s : State) (a : Nat) (bs : List Byte) : (s.hostWrite a bs).pending = s.pending := rfl
@[simp] theorem State.hostWrite_early (s : State) (a : Nat) (bs : List Byte) : (s.hostWrite a bs).early = s.early := rfl

/-! ## answer -/

@[simp] theorem State.answer_clk (s : State) (v : Nat) : (s.answer v).clk = s.clk := rfl
@[simp] theorem State.answer_freeCtr (s : State) (v : Nat) : (s.answer v).freeCtr = s.freeCtr := rfl
@[simp] theorem State.answer_coaches (s : State) (v : Nat) : (s.answer v).coaches = s.coaches := rfl
@[simp] theorem State.answer_contexts (s : State) (v : Nat) : (s.answer v).contexts = s.contexts := rfl
@[simp] theorem State.answer_policy (s : State) (v : Nat) : (s.answer v).policy = s.policy := rfl
@[simp] theorem State.answer_policyHash (s : State) (v : Nat) : (s.answer v).policyHash = s.policyHash := rfl
@[simp] theorem State.answer_tasks (s : State) (v : Nat) : (s.answer v).tasks = s.tasks := rfl
@[simp] theorem State.answer_hif (s : State) (v : Nat) : (s.answer v).hif = s.hif := rfl
@[simp] theorem State.answer_evt (s : State) (v : Nat) : (s.answer v).evt = s.evt := rfl
@[simp] theorem State.answer_kst (s : State) (v : Nat) : (s.answer v).kst = s.kst := rfl
@[simp] theorem State.answer_hbm (s : State) (v : Nat) : (s.answer v).hbm = s.hbm := rfl
@[simp] theorem State.answer_ehl (s : State) (v : Nat) : (s.answer v).ehl = s.ehl := rfl
@[simp] theorem State.answer_boot (s : State) (v : Nat) : (s.answer v).boot = s.boot := rfl
@[simp] theorem State.answer_sec (s : State) (v : Nat) : (s.answer v).sec = s.sec := rfl
@[simp] theorem State.answer_board (s : State) (v : Nat) : (s.answer v).board = s.board := rfl
@[simp] theorem State.answer_host (s : State) (v : Nat) : (s.answer v).host = s.host := rfl
@[simp] theorem State.answer_pending (s : State) (v : Nat) : (s.answer v).pending = s.pending := rfl
@[simp] theorem State.answer_early (s : State) (v : Nat) : (s.answer v).early = s.early := rfl

/-! ## setPort -/

@[simp] theorem State.setPort_clk (s : State) (p : Nat) (v : Port) : (s.setPort p v).clk = s.clk := rfl
@[simp] theorem State.setPort_freeCtr (s : State) (p : Nat) (v : Port) : (s.setPort p v).freeCtr = s.freeCtr := rfl
@[simp] theorem State.setPort_coaches (s : State) (p : Nat) (v : Port) : (s.setPort p v).coaches = s.coaches := rfl
@[simp] theorem State.setPort_contexts (s : State) (p : Nat) (v : Port) : (s.setPort p v).contexts = s.contexts := rfl
@[simp] theorem State.setPort_policy (s : State) (p : Nat) (v : Port) : (s.setPort p v).policy = s.policy := rfl
@[simp] theorem State.setPort_policyHash (s : State) (p : Nat) (v : Port) : (s.setPort p v).policyHash = s.policyHash := rfl
@[simp] theorem State.setPort_tasks (s : State) (p : Nat) (v : Port) : (s.setPort p v).tasks = s.tasks := rfl
@[simp] theorem State.setPort_hif (s : State) (p : Nat) (v : Port) : (s.setPort p v).hif = s.hif := rfl
@[simp] theorem State.setPort_evt (s : State) (p : Nat) (v : Port) : (s.setPort p v).evt = s.evt := rfl
@[simp] theorem State.setPort_kst (s : State) (p : Nat) (v : Port) : (s.setPort p v).kst = s.kst := rfl
@[simp] theorem State.setPort_hbm (s : State) (p : Nat) (v : Port) : (s.setPort p v).hbm = s.hbm := rfl
@[simp] theorem State.setPort_boot (s : State) (p : Nat) (v : Port) : (s.setPort p v).boot = s.boot := rfl
@[simp] theorem State.setPort_sec (s : State) (p : Nat) (v : Port) : (s.setPort p v).sec = s.sec := rfl
@[simp] theorem State.setPort_board (s : State) (p : Nat) (v : Port) : (s.setPort p v).board = s.board := rfl
@[simp] theorem State.setPort_bus (s : State) (p : Nat) (v : Port) : (s.setPort p v).bus = s.bus := rfl
@[simp] theorem State.setPort_host (s : State) (p : Nat) (v : Port) : (s.setPort p v).host = s.host := rfl
@[simp] theorem State.setPort_pending (s : State) (p : Nat) (v : Port) : (s.setPort p v).pending = s.pending := rfl
@[simp] theorem State.setPort_early (s : State) (p : Nat) (v : Port) : (s.setPort p v).early = s.early := rfl

/-! ## setStk -/

@[simp] theorem State.setStk_clk (s : State) (k : Nat) (v : Stack) : (s.setStk k v).clk = s.clk := rfl
@[simp] theorem State.setStk_freeCtr (s : State) (k : Nat) (v : Stack) : (s.setStk k v).freeCtr = s.freeCtr := rfl
@[simp] theorem State.setStk_coaches (s : State) (k : Nat) (v : Stack) : (s.setStk k v).coaches = s.coaches := rfl
@[simp] theorem State.setStk_contexts (s : State) (k : Nat) (v : Stack) : (s.setStk k v).contexts = s.contexts := rfl
@[simp] theorem State.setStk_policy (s : State) (k : Nat) (v : Stack) : (s.setStk k v).policy = s.policy := rfl
@[simp] theorem State.setStk_policyHash (s : State) (k : Nat) (v : Stack) : (s.setStk k v).policyHash = s.policyHash := rfl
@[simp] theorem State.setStk_tasks (s : State) (k : Nat) (v : Stack) : (s.setStk k v).tasks = s.tasks := rfl
@[simp] theorem State.setStk_hif (s : State) (k : Nat) (v : Stack) : (s.setStk k v).hif = s.hif := rfl
@[simp] theorem State.setStk_evt (s : State) (k : Nat) (v : Stack) : (s.setStk k v).evt = s.evt := rfl
@[simp] theorem State.setStk_kst (s : State) (k : Nat) (v : Stack) : (s.setStk k v).kst = s.kst := rfl
@[simp] theorem State.setStk_ehl (s : State) (k : Nat) (v : Stack) : (s.setStk k v).ehl = s.ehl := rfl
@[simp] theorem State.setStk_boot (s : State) (k : Nat) (v : Stack) : (s.setStk k v).boot = s.boot := rfl
@[simp] theorem State.setStk_sec (s : State) (k : Nat) (v : Stack) : (s.setStk k v).sec = s.sec := rfl
@[simp] theorem State.setStk_board (s : State) (k : Nat) (v : Stack) : (s.setStk k v).board = s.board := rfl
@[simp] theorem State.setStk_bus (s : State) (k : Nat) (v : Stack) : (s.setStk k v).bus = s.bus := rfl
@[simp] theorem State.setStk_host (s : State) (k : Nat) (v : Stack) : (s.setStk k v).host = s.host := rfl
@[simp] theorem State.setStk_pending (s : State) (k : Nat) (v : Stack) : (s.setStk k v).pending = s.pending := rfl
@[simp] theorem State.setStk_early (s : State) (k : Nat) (v : Stack) : (s.setStk k v).early = s.early := rfl

/-! ## setSq -/

@[simp] theorem State.setSq_clk (s : State) (i : Nat) (v : Sq) : (s.setSq i v).clk = s.clk := rfl
@[simp] theorem State.setSq_freeCtr (s : State) (i : Nat) (v : Sq) : (s.setSq i v).freeCtr = s.freeCtr := rfl
@[simp] theorem State.setSq_coaches (s : State) (i : Nat) (v : Sq) : (s.setSq i v).coaches = s.coaches := rfl
@[simp] theorem State.setSq_contexts (s : State) (i : Nat) (v : Sq) : (s.setSq i v).contexts = s.contexts := rfl
@[simp] theorem State.setSq_policy (s : State) (i : Nat) (v : Sq) : (s.setSq i v).policy = s.policy := rfl
@[simp] theorem State.setSq_policyHash (s : State) (i : Nat) (v : Sq) : (s.setSq i v).policyHash = s.policyHash := rfl
@[simp] theorem State.setSq_tasks (s : State) (i : Nat) (v : Sq) : (s.setSq i v).tasks = s.tasks := rfl
@[simp] theorem State.setSq_evt (s : State) (i : Nat) (v : Sq) : (s.setSq i v).evt = s.evt := rfl
@[simp] theorem State.setSq_kst (s : State) (i : Nat) (v : Sq) : (s.setSq i v).kst = s.kst := rfl
@[simp] theorem State.setSq_hbm (s : State) (i : Nat) (v : Sq) : (s.setSq i v).hbm = s.hbm := rfl
@[simp] theorem State.setSq_ehl (s : State) (i : Nat) (v : Sq) : (s.setSq i v).ehl = s.ehl := rfl
@[simp] theorem State.setSq_boot (s : State) (i : Nat) (v : Sq) : (s.setSq i v).boot = s.boot := rfl
@[simp] theorem State.setSq_sec (s : State) (i : Nat) (v : Sq) : (s.setSq i v).sec = s.sec := rfl
@[simp] theorem State.setSq_board (s : State) (i : Nat) (v : Sq) : (s.setSq i v).board = s.board := rfl
@[simp] theorem State.setSq_bus (s : State) (i : Nat) (v : Sq) : (s.setSq i v).bus = s.bus := rfl
@[simp] theorem State.setSq_host (s : State) (i : Nat) (v : Sq) : (s.setSq i v).host = s.host := rfl
@[simp] theorem State.setSq_pending (s : State) (i : Nat) (v : Sq) : (s.setSq i v).pending = s.pending := rfl
@[simp] theorem State.setSq_early (s : State) (i : Nat) (v : Sq) : (s.setSq i v).early = s.early := rfl

/-! ## setCq -/

@[simp] theorem State.setCq_clk (s : State) (i : Nat) (v : Cq) : (s.setCq i v).clk = s.clk := rfl
@[simp] theorem State.setCq_freeCtr (s : State) (i : Nat) (v : Cq) : (s.setCq i v).freeCtr = s.freeCtr := rfl
@[simp] theorem State.setCq_coaches (s : State) (i : Nat) (v : Cq) : (s.setCq i v).coaches = s.coaches := rfl
@[simp] theorem State.setCq_contexts (s : State) (i : Nat) (v : Cq) : (s.setCq i v).contexts = s.contexts := rfl
@[simp] theorem State.setCq_policy (s : State) (i : Nat) (v : Cq) : (s.setCq i v).policy = s.policy := rfl
@[simp] theorem State.setCq_policyHash (s : State) (i : Nat) (v : Cq) : (s.setCq i v).policyHash = s.policyHash := rfl
@[simp] theorem State.setCq_tasks (s : State) (i : Nat) (v : Cq) : (s.setCq i v).tasks = s.tasks := rfl
@[simp] theorem State.setCq_evt (s : State) (i : Nat) (v : Cq) : (s.setCq i v).evt = s.evt := rfl
@[simp] theorem State.setCq_kst (s : State) (i : Nat) (v : Cq) : (s.setCq i v).kst = s.kst := rfl
@[simp] theorem State.setCq_hbm (s : State) (i : Nat) (v : Cq) : (s.setCq i v).hbm = s.hbm := rfl
@[simp] theorem State.setCq_ehl (s : State) (i : Nat) (v : Cq) : (s.setCq i v).ehl = s.ehl := rfl
@[simp] theorem State.setCq_boot (s : State) (i : Nat) (v : Cq) : (s.setCq i v).boot = s.boot := rfl
@[simp] theorem State.setCq_sec (s : State) (i : Nat) (v : Cq) : (s.setCq i v).sec = s.sec := rfl
@[simp] theorem State.setCq_board (s : State) (i : Nat) (v : Cq) : (s.setCq i v).board = s.board := rfl
@[simp] theorem State.setCq_bus (s : State) (i : Nat) (v : Cq) : (s.setCq i v).bus = s.bus := rfl
@[simp] theorem State.setCq_host (s : State) (i : Nat) (v : Cq) : (s.setCq i v).host = s.host := rfl
@[simp] theorem State.setCq_pending (s : State) (i : Nat) (v : Cq) : (s.setCq i v).pending = s.pending := rfl
@[simp] theorem State.setCq_early (s : State) (i : Nat) (v : Cq) : (s.setCq i v).early = s.early := rfl

@[simp] theorem State.freed_freeCtr (s : State) : s.freed.freeCtr = s.freeCtr + 1 := rfl

/-! ## Coaches -/

@[simp] theorem State.coach_setCoach (s : State) (c : CoachId) (v : Coach) : (s.setCoach c v).coach c = v :=
  look_store_same _ _ _ _

theorem State.coach_setCoach_other (s : State) {c d : CoachId} (v : Coach) (h : d ≠ c) :
    (s.setCoach c v).coach d = s.coach d :=
  look_store_other _ _ _ fun e => h (BitVec.eq_of_toNat_eq e)

@[simp] theorem State.coach_onCoach (s : State) (c : CoachId) (f : Coach → Coach) :
    (s.onCoach c f).coach c = f (s.coach c) :=
  look_store_same _ _ _ _

theorem State.coach_onCoach_other (s : State) {c d : CoachId} (f : Coach → Coach) (h : d ≠ c) :
    (s.onCoach c f).coach d = s.coach d :=
  State.coach_setCoach_other s _ h

@[simp] theorem State.coach_onTask (s : State) (k : Nat) (f : Task → Task) (c : CoachId) :
    (s.onTask k f).coach c = s.coach c := rfl

@[simp] theorem State.coach_freed (s : State) (c : CoachId) : s.freed.coach c = s.coach c := rfl

@[simp] theorem State.coach_raise (s : State) (i d p : Nat) (c : CoachId) : (s.raise i d p).coach c = s.coach c := rfl

@[simp] theorem State.coach_setPort (s : State) (p : Nat) (v : Port) (c : CoachId) :
    (s.setPort p v).coach c = s.coach c := rfl

/-! ## Ports, stacks and rings -/

@[simp] theorem State.port_setPort (s : State) (p : Nat) (v : Port) : (s.setPort p v).port p = v :=
  look_store_same _ _ _ _

theorem State.port_setPort_other (s : State) {p q : Nat} (v : Port) (h : q ≠ p) : (s.setPort p v).port q = s.port q :=
  look_store_other _ _ _ h

@[simp] theorem State.stk_setStk (s : State) (k : Nat) (v : Stack) : (s.setStk k v).stk k = v := look_store_same _ _ _ _

theorem State.stk_setStk_other (s : State) {k j : Nat} (v : Stack) (h : j ≠ k) : (s.setStk k v).stk j = s.stk j :=
  look_store_other _ _ _ h

@[simp] theorem State.sq_setSq (s : State) (i : Nat) (v : Sq) : (s.setSq i v).sq i = v := look_store_same _ _ _ _

theorem State.sq_setSq_other (s : State) {i j : Nat} (v : Sq) (h : j ≠ i) : (s.setSq i v).sq j = s.sq j :=
  look_store_other _ _ _ h

@[simp] theorem State.cq_setCq (s : State) (i : Nat) (v : Cq) : (s.setCq i v).cq i = v := look_store_same _ _ _ _

theorem State.cq_setCq_other (s : State) {i j : Nat} (v : Cq) (h : j ≠ i) : (s.setCq i v).cq j = s.cq j :=
  look_store_other _ _ _ h

/-! ## Engines, doors and banks of a coach -/

theorem eid_injective {e f : Engine} (h : eid e = eid f) : e = f := by
  cases e <;> cases f <;> first | rfl | exact absurd h (by decide)

@[simp] theorem Coach.engine_setEngine (co : Coach) (e : Engine) (v : EngineS) : (co.setEngine e v).engine e = v :=
  look_store_same _ _ _ _

theorem Coach.engine_setEngine_other (co : Coach) {e f : Engine} (v : EngineS) (h : f ≠ e) :
    (co.setEngine e v).engine f = co.engine f :=
  look_store_other _ _ _ fun k => h (eid_injective k)

@[simp] theorem Coach.door_setDoor (co : Coach) (d : BitVec 8) (v : Door) : (co.setDoor d v).door d = v :=
  look_store_same _ _ _ _

theorem Coach.door_setDoor_other (co : Coach) {d e : BitVec 8} (v : Door) (h : e ≠ d) :
    (co.setDoor d v).door e = co.door e :=
  look_store_other _ _ _ fun k => h (BitVec.eq_of_toNat_eq k)

@[simp] theorem Coach.bank_setBank (co : Coach) (b : Nat) (v : Bank) : (co.setBank b v).bank b = v :=
  look_store_same _ _ _ _

theorem Coach.bank_setBank_other (co : Coach) {b d : Nat} (v : Bank) (h : d ≠ b) : (co.setBank b v).bank d = co.bank d :=
  look_store_other _ _ _ h

@[simp] theorem Coach.door_setEngine (co : Coach) (e : Engine) (v : EngineS) (d : BitVec 8) :
    (co.setEngine e v).door d = co.door d := rfl

@[simp] theorem Coach.engine_setDoor (co : Coach) (d : BitVec 8) (v : Door) (e : Engine) :
    (co.setDoor d v).engine e = co.engine e := rfl

@[simp] theorem Coach.bank_setEngine (co : Coach) (e : Engine) (v : EngineS) (b : Nat) :
    (co.setEngine e v).bank b = co.bank b := rfl

/-! ## setEngine -/

@[simp] theorem Coach.setEngine_spad (co : Coach) (e : Engine) (v : EngineS) : (co.setEngine e v).spad = co.spad := rfl
@[simp] theorem Coach.setEngine_fill (co : Coach) (e : Engine) (v : EngineS) : (co.setEngine e v).fill = co.fill := rfl
@[simp] theorem Coach.setEngine_ecc (co : Coach) (e : Engine) (v : EngineS) : (co.setEngine e v).ecc = co.ecc := rfl
@[simp] theorem Coach.setEngine_rowCorr (co : Coach) (e : Engine) (v : EngineS) : (co.setEngine e v).rowCorr = co.rowCorr := rfl
@[simp] theorem Coach.setEngine_repairs (co : Coach) (e : Engine) (v : EngineS) : (co.setEngine e v).repairs = co.repairs := rfl
@[simp] theorem Coach.setEngine_spares (co : Coach) (e : Engine) (v : EngineS) : (co.setEngine e v).spares = co.spares := rfl
@[simp] theorem Coach.setEngine_degraded (co : Coach) (e : Engine) (v : EngineS) : (co.setEngine e v).degraded = co.degraded := rfl
@[simp] theorem Coach.setEngine_banks (co : Coach) (e : Engine) (v : EngineS) : (co.setEngine e v).banks = co.banks := rfl
@[simp] theorem Coach.setEngine_headers (co : Coach) (e : Engine) (v : EngineS) : (co.setEngine e v).headers = co.headers := rfl
@[simp] theorem Coach.setEngine_hdrLate (co : Coach) (e : Engine) (v : EngineS) : (co.setEngine e v).hdrLate = co.hdrLate := rfl
@[simp] theorem Coach.setEngine_spadDue (co : Coach) (e : Engine) (v : EngineS) : (co.setEngine e v).spadDue = co.spadDue := rfl
@[simp] theorem Coach.setEngine_doors (co : Coach) (e : Engine) (v : EngineS) : (co.setEngine e v).doors = co.doors := rfl
@[simp] theorem Coach.setEngine_slotA (co : Coach) (e : Engine) (v : EngineS) : (co.setEngine e v).slotA = co.slotA := rfl
@[simp] theorem Coach.setEngine_slotB (co : Coach) (e : Engine) (v : EngineS) : (co.setEngine e v).slotB = co.slotB := rfl
@[simp] theorem Coach.setEngine_active (co : Coach) (e : Engine) (v : EngineS) : (co.setEngine e v).active = co.active := rfl
@[simp] theorem Coach.setEngine_loadBusy (co : Coach) (e : Engine) (v : EngineS) : (co.setEngine e v).loadBusy = co.loadBusy := rfl
@[simp] theorem Coach.setEngine_phase (co : Coach) (e : Engine) (v : EngineS) : (co.setEngine e v).phase = co.phase := rfl
@[simp] theorem Coach.setEngine_task (co : Coach) (e : Engine) (v : EngineS) : (co.setEngine e v).task = co.task := rfl
@[simp] theorem Coach.setEngine_taskId (co : Coach) (e : Engine) (v : EngineS) : (co.setEngine e v).taskId = co.taskId := rfl
@[simp] theorem Coach.setEngine_startTime (co : Coach) (e : Engine) (v : EngineS) : (co.setEngine e v).startTime = co.startTime := rfl
@[simp] theorem Coach.setEngine_hazardOn (co : Coach) (e : Engine) (v : EngineS) : (co.setEngine e v).hazardOn = co.hazardOn := rfl
@[simp] theorem Coach.setEngine_coupling (co : Coach) (e : Engine) (v : EngineS) : (co.setEngine e v).coupling = co.coupling := rfl
@[simp] theorem Coach.setEngine_ctxList (co : Coach) (e : Engine) (v : EngineS) : (co.setEngine e v).ctxList = co.ctxList := rfl
@[simp] theorem Coach.setEngine_modTable (co : Coach) (e : Engine) (v : EngineS) : (co.setEngine e v).modTable = co.modTable := rfl
@[simp] theorem Coach.setEngine_sigs (co : Coach) (e : Engine) (v : EngineS) : (co.setEngine e v).sigs = co.sigs := rfl
@[simp] theorem Coach.setEngine_inbound (co : Coach) (e : Engine) (v : EngineS) : (co.setEngine e v).inbound = co.inbound := rfl
@[simp] theorem Coach.setEngine_wdogLimit (co : Coach) (e : Engine) (v : EngineS) : (co.setEngine e v).wdogLimit = co.wdogLimit := rfl
@[simp] theorem Coach.setEngine_wdogActive (co : Coach) (e : Engine) (v : EngineS) : (co.setEngine e v).wdogActive = co.wdogActive := rfl
@[simp] theorem Coach.setEngine_wdogCount (co : Coach) (e : Engine) (v : EngineS) : (co.setEngine e v).wdogCount = co.wdogCount := rfl
@[simp] theorem Coach.setEngine_deadlock (co : Coach) (e : Engine) (v : EngineS) : (co.setEngine e v).deadlock = co.deadlock := rfl
@[simp] theorem Coach.setEngine_deadlockSet (co : Coach) (e : Engine) (v : EngineS) : (co.setEngine e v).deadlockSet = co.deadlockSet := rfl
@[simp] theorem Coach.setEngine_snaps (co : Coach) (e : Engine) (v : EngineS) : (co.setEngine e v).snaps = co.snaps := rfl
@[simp] theorem Coach.setEngine_shutWait (co : Coach) (e : Engine) (v : EngineS) : (co.setEngine e v).shutWait = co.shutWait := rfl
@[simp] theorem Coach.setEngine_stall (co : Coach) (e : Engine) (v : EngineS) : (co.setEngine e v).stall = co.stall := rfl
@[simp] theorem Coach.setEngine_sat (co : Coach) (e : Engine) (v : EngineS) : (co.setEngine e v).sat = co.sat := rfl
@[simp] theorem Coach.setEngine_satSet (co : Coach) (e : Engine) (v : EngineS) : (co.setEngine e v).satSet = co.satSet := rfl
@[simp] theorem Coach.setEngine_satDoor (co : Coach) (e : Engine) (v : EngineS) : (co.setEngine e v).satDoor = co.satDoor := rfl
@[simp] theorem Coach.setEngine_satSeen (co : Coach) (e : Engine) (v : EngineS) : (co.setEngine e v).satSeen = co.satSeen := rfl
@[simp] theorem Coach.setEngine_eccUncorr (co : Coach) (e : Engine) (v : EngineS) : (co.setEngine e v).eccUncorr = co.eccUncorr := rfl
@[simp] theorem Coach.setEngine_eccCorr (co : Coach) (e : Engine) (v : EngineS) : (co.setEngine e v).eccCorr = co.eccCorr := rfl
@[simp] theorem Coach.setEngine_eccUncorrSet (co : Coach) (e : Engine) (v : EngineS) : (co.setEngine e v).eccUncorrSet = co.eccUncorrSet := rfl
@[simp] theorem Coach.setEngine_eccCorrSet (co : Coach) (e : Engine) (v : EngineS) : (co.setEngine e v).eccCorrSet = co.eccCorrSet := rfl
@[simp] theorem Coach.setEngine_eccAddr (co : Coach) (e : Engine) (v : EngineS) : (co.setEngine e v).eccAddr = co.eccAddr := rfl
@[simp] theorem Coach.setEngine_hazard (co : Coach) (e : Engine) (v : EngineS) : (co.setEngine e v).hazard = co.hazard := rfl
@[simp] theorem Coach.setEngine_hazardSet (co : Coach) (e : Engine) (v : EngineS) : (co.setEngine e v).hazardSet = co.hazardSet := rfl
@[simp] theorem Coach.setEngine_hazardKind (co : Coach) (e : Engine) (v : EngineS) : (co.setEngine e v).hazardKind = co.hazardKind := rfl
@[simp] theorem Coach.setEngine_hazardInfo (co : Coach) (e : Engine) (v : EngineS) : (co.setEngine e v).hazardInfo = co.hazardInfo := rfl
@[simp] theorem Coach.setEngine_dbgAddr (co : Coach) (e : Engine) (v : EngineS) : (co.setEngine e v).dbgAddr = co.dbgAddr := rfl
@[simp] theorem Coach.setEngine_dbgData (co : Coach) (e : Engine) (v : EngineS) : (co.setEngine e v).dbgData = co.dbgData := rfl
@[simp] theorem Coach.setEngine_dbgDenied (co : Coach) (e : Engine) (v : EngineS) : (co.setEngine e v).dbgDenied = co.dbgDenied := rfl
@[simp] theorem Coach.setEngine_dbgReq (co : Coach) (e : Engine) (v : EngineS) : (co.setEngine e v).dbgReq = co.dbgReq := rfl
@[simp] theorem Coach.setEngine_idleLimit (co : Coach) (e : Engine) (v : EngineS) : (co.setEngine e v).idleLimit = co.idleLimit := rfl
@[simp] theorem Coach.setEngine_gated (co : Coach) (e : Engine) (v : EngineS) : (co.setEngine e v).gated = co.gated := rfl
@[simp] theorem Coach.setEngine_waking (co : Coach) (e : Engine) (v : EngineS) : (co.setEngine e v).waking = co.waking := rfl
@[simp] theorem Coach.setEngine_idleCount (co : Coach) (e : Engine) (v : EngineS) : (co.setEngine e v).idleCount = co.idleCount := rfl
@[simp] theorem Coach.setEngine_accMem (co : Coach) (e : Engine) (v : EngineS) : (co.setEngine e v).accMem = co.accMem := rfl
@[simp] theorem Coach.setEngine_actTable (co : Coach) (e : Engine) (v : EngineS) : (co.setEngine e v).actTable = co.actTable := rfl
@[simp] theorem Coach.setEngine_chainIn (co : Coach) (e : Engine) (v : EngineS) : (co.setEngine e v).chainIn = co.chainIn := rfl
@[simp] theorem Coach.setEngine_vregs (co : Coach) (e : Engine) (v : EngineS) : (co.setEngine e v).vregs = co.vregs := rfl
@[simp] theorem Coach.setEngine_ttile (co : Coach) (e : Engine) (v : EngineS) : (co.setEngine e v).ttile = co.ttile := rfl
@[simp] theorem Coach.setEngine_tileQueue (co : Coach) (e : Engine) (v : EngineS) : (co.setEngine e v).tileQueue = co.tileQueue := rfl
@[simp] theorem Coach.setEngine_regionTags (co : Coach) (e : Engine) (v : EngineS) : (co.setEngine e v).regionTags = co.regionTags := rfl
@[simp] theorem Coach.setEngine_intake (co : Coach) (e : Engine) (v : EngineS) : (co.setEngine e v).intake = co.intake := rfl
@[simp] theorem Coach.setEngine_intakeDone (co : Coach) (e : Engine) (v : EngineS) : (co.setEngine e v).intakeDone = co.intakeDone := rfl
@[simp] theorem Coach.setEngine_mismatch (co : Coach) (e : Engine) (v : EngineS) : (co.setEngine e v).mismatch = co.mismatch := rfl
@[simp] theorem Coach.setEngine_mismatchRaised (co : Coach) (e : Engine) (v : EngineS) : (co.setEngine e v).mismatchRaised = co.mismatchRaised := rfl
@[simp] theorem Coach.setEngine_poisonCount (co : Coach) (e : Engine) (v : EngineS) : (co.setEngine e v).poisonCount = co.poisonCount := rfl
@[simp] theorem Coach.setEngine_first (co : Coach) (e : Engine) (v : EngineS) : (co.setEngine e v).first = co.first := rfl
@[simp] theorem Coach.setEngine_digest (co : Coach) (e : Engine) (v : EngineS) : (co.setEngine e v).digest = co.digest := rfl
@[simp] theorem Coach.setEngine_digestSlots (co : Coach) (e : Engine) (v : EngineS) : (co.setEngine e v).digestSlots = co.digestSlots := rfl
@[simp] theorem Coach.setEngine_vregDue (co : Coach) (e : Engine) (v : EngineS) : (co.setEngine e v).vregDue = co.vregDue := rfl
@[simp] theorem Coach.setEngine_accs (co : Coach) (e : Engine) (v : EngineS) : (co.setEngine e v).accs = co.accs := rfl
@[simp] theorem Coach.setEngine_opens (co : Coach) (e : Engine) (v : EngineS) : (co.setEngine e v).opens = co.opens := rfl
@[simp] theorem Coach.setEngine_actDue (co : Coach) (e : Engine) (v : EngineS) : (co.setEngine e v).actDue = co.actDue := rfl
@[simp] theorem Coach.setEngine_tileAt (co : Coach) (e : Engine) (v : EngineS) : (co.setEngine e v).tileAt = co.tileAt := rfl
@[simp] theorem Coach.setEngine_tagLate (co : Coach) (e : Engine) (v : EngineS) : (co.setEngine e v).tagLate = co.tagLate := rfl
@[simp] theorem Coach.setEngine_intakeAt (co : Coach) (e : Engine) (v : EngineS) : (co.setEngine e v).intakeAt = co.intakeAt := rfl
@[simp] theorem Coach.setEngine_early (co : Coach) (e : Engine) (v : EngineS) : (co.setEngine e v).early = co.early := rfl

/-! ## setDoor -/

@[simp] theorem Coach.setDoor_spad (co : Coach) (d : BitVec 8) (v : Door) : (co.setDoor d v).spad = co.spad := rfl
@[simp] theorem Coach.setDoor_fill (co : Coach) (d : BitVec 8) (v : Door) : (co.setDoor d v).fill = co.fill := rfl
@[simp] theorem Coach.setDoor_ecc (co : Coach) (d : BitVec 8) (v : Door) : (co.setDoor d v).ecc = co.ecc := rfl
@[simp] theorem Coach.setDoor_rowCorr (co : Coach) (d : BitVec 8) (v : Door) : (co.setDoor d v).rowCorr = co.rowCorr := rfl
@[simp] theorem Coach.setDoor_repairs (co : Coach) (d : BitVec 8) (v : Door) : (co.setDoor d v).repairs = co.repairs := rfl
@[simp] theorem Coach.setDoor_spares (co : Coach) (d : BitVec 8) (v : Door) : (co.setDoor d v).spares = co.spares := rfl
@[simp] theorem Coach.setDoor_degraded (co : Coach) (d : BitVec 8) (v : Door) : (co.setDoor d v).degraded = co.degraded := rfl
@[simp] theorem Coach.setDoor_banks (co : Coach) (d : BitVec 8) (v : Door) : (co.setDoor d v).banks = co.banks := rfl
@[simp] theorem Coach.setDoor_headers (co : Coach) (d : BitVec 8) (v : Door) : (co.setDoor d v).headers = co.headers := rfl
@[simp] theorem Coach.setDoor_hdrLate (co : Coach) (d : BitVec 8) (v : Door) : (co.setDoor d v).hdrLate = co.hdrLate := rfl
@[simp] theorem Coach.setDoor_spadDue (co : Coach) (d : BitVec 8) (v : Door) : (co.setDoor d v).spadDue = co.spadDue := rfl
@[simp] theorem Coach.setDoor_engines (co : Coach) (d : BitVec 8) (v : Door) : (co.setDoor d v).engines = co.engines := rfl
@[simp] theorem Coach.setDoor_slotA (co : Coach) (d : BitVec 8) (v : Door) : (co.setDoor d v).slotA = co.slotA := rfl
@[simp] theorem Coach.setDoor_slotB (co : Coach) (d : BitVec 8) (v : Door) : (co.setDoor d v).slotB = co.slotB := rfl
@[simp] theorem Coach.setDoor_active (co : Coach) (d : BitVec 8) (v : Door) : (co.setDoor d v).active = co.active := rfl
@[simp] theorem Coach.setDoor_loadBusy (co : Coach) (d : BitVec 8) (v : Door) : (co.setDoor d v).loadBusy = co.loadBusy := rfl
@[simp] theorem Coach.setDoor_phase (co : Coach) (d : BitVec 8) (v : Door) : (co.setDoor d v).phase = co.phase := rfl
@[simp] theorem Coach.setDoor_task (co : Coach) (d : BitVec 8) (v : Door) : (co.setDoor d v).task = co.task := rfl
@[simp] theorem Coach.setDoor_taskId (co : Coach) (d : BitVec 8) (v : Door) : (co.setDoor d v).taskId = co.taskId := rfl
@[simp] theorem Coach.setDoor_startTime (co : Coach) (d : BitVec 8) (v : Door) : (co.setDoor d v).startTime = co.startTime := rfl
@[simp] theorem Coach.setDoor_hazardOn (co : Coach) (d : BitVec 8) (v : Door) : (co.setDoor d v).hazardOn = co.hazardOn := rfl
@[simp] theorem Coach.setDoor_coupling (co : Coach) (d : BitVec 8) (v : Door) : (co.setDoor d v).coupling = co.coupling := rfl
@[simp] theorem Coach.setDoor_ctxList (co : Coach) (d : BitVec 8) (v : Door) : (co.setDoor d v).ctxList = co.ctxList := rfl
@[simp] theorem Coach.setDoor_modTable (co : Coach) (d : BitVec 8) (v : Door) : (co.setDoor d v).modTable = co.modTable := rfl
@[simp] theorem Coach.setDoor_sigs (co : Coach) (d : BitVec 8) (v : Door) : (co.setDoor d v).sigs = co.sigs := rfl
@[simp] theorem Coach.setDoor_inbound (co : Coach) (d : BitVec 8) (v : Door) : (co.setDoor d v).inbound = co.inbound := rfl
@[simp] theorem Coach.setDoor_wdogLimit (co : Coach) (d : BitVec 8) (v : Door) : (co.setDoor d v).wdogLimit = co.wdogLimit := rfl
@[simp] theorem Coach.setDoor_wdogActive (co : Coach) (d : BitVec 8) (v : Door) : (co.setDoor d v).wdogActive = co.wdogActive := rfl
@[simp] theorem Coach.setDoor_wdogCount (co : Coach) (d : BitVec 8) (v : Door) : (co.setDoor d v).wdogCount = co.wdogCount := rfl
@[simp] theorem Coach.setDoor_deadlock (co : Coach) (d : BitVec 8) (v : Door) : (co.setDoor d v).deadlock = co.deadlock := rfl
@[simp] theorem Coach.setDoor_deadlockSet (co : Coach) (d : BitVec 8) (v : Door) : (co.setDoor d v).deadlockSet = co.deadlockSet := rfl
@[simp] theorem Coach.setDoor_snaps (co : Coach) (d : BitVec 8) (v : Door) : (co.setDoor d v).snaps = co.snaps := rfl
@[simp] theorem Coach.setDoor_shutWait (co : Coach) (d : BitVec 8) (v : Door) : (co.setDoor d v).shutWait = co.shutWait := rfl
@[simp] theorem Coach.setDoor_stall (co : Coach) (d : BitVec 8) (v : Door) : (co.setDoor d v).stall = co.stall := rfl
@[simp] theorem Coach.setDoor_sat (co : Coach) (d : BitVec 8) (v : Door) : (co.setDoor d v).sat = co.sat := rfl
@[simp] theorem Coach.setDoor_satSet (co : Coach) (d : BitVec 8) (v : Door) : (co.setDoor d v).satSet = co.satSet := rfl
@[simp] theorem Coach.setDoor_satDoor (co : Coach) (d : BitVec 8) (v : Door) : (co.setDoor d v).satDoor = co.satDoor := rfl
@[simp] theorem Coach.setDoor_satSeen (co : Coach) (d : BitVec 8) (v : Door) : (co.setDoor d v).satSeen = co.satSeen := rfl
@[simp] theorem Coach.setDoor_eccUncorr (co : Coach) (d : BitVec 8) (v : Door) : (co.setDoor d v).eccUncorr = co.eccUncorr := rfl
@[simp] theorem Coach.setDoor_eccCorr (co : Coach) (d : BitVec 8) (v : Door) : (co.setDoor d v).eccCorr = co.eccCorr := rfl
@[simp] theorem Coach.setDoor_eccUncorrSet (co : Coach) (d : BitVec 8) (v : Door) : (co.setDoor d v).eccUncorrSet = co.eccUncorrSet := rfl
@[simp] theorem Coach.setDoor_eccCorrSet (co : Coach) (d : BitVec 8) (v : Door) : (co.setDoor d v).eccCorrSet = co.eccCorrSet := rfl
@[simp] theorem Coach.setDoor_eccAddr (co : Coach) (d : BitVec 8) (v : Door) : (co.setDoor d v).eccAddr = co.eccAddr := rfl
@[simp] theorem Coach.setDoor_hazard (co : Coach) (d : BitVec 8) (v : Door) : (co.setDoor d v).hazard = co.hazard := rfl
@[simp] theorem Coach.setDoor_hazardSet (co : Coach) (d : BitVec 8) (v : Door) : (co.setDoor d v).hazardSet = co.hazardSet := rfl
@[simp] theorem Coach.setDoor_hazardKind (co : Coach) (d : BitVec 8) (v : Door) : (co.setDoor d v).hazardKind = co.hazardKind := rfl
@[simp] theorem Coach.setDoor_hazardInfo (co : Coach) (d : BitVec 8) (v : Door) : (co.setDoor d v).hazardInfo = co.hazardInfo := rfl
@[simp] theorem Coach.setDoor_dbgAddr (co : Coach) (d : BitVec 8) (v : Door) : (co.setDoor d v).dbgAddr = co.dbgAddr := rfl
@[simp] theorem Coach.setDoor_dbgData (co : Coach) (d : BitVec 8) (v : Door) : (co.setDoor d v).dbgData = co.dbgData := rfl
@[simp] theorem Coach.setDoor_dbgDenied (co : Coach) (d : BitVec 8) (v : Door) : (co.setDoor d v).dbgDenied = co.dbgDenied := rfl
@[simp] theorem Coach.setDoor_dbgReq (co : Coach) (d : BitVec 8) (v : Door) : (co.setDoor d v).dbgReq = co.dbgReq := rfl
@[simp] theorem Coach.setDoor_idleLimit (co : Coach) (d : BitVec 8) (v : Door) : (co.setDoor d v).idleLimit = co.idleLimit := rfl
@[simp] theorem Coach.setDoor_gated (co : Coach) (d : BitVec 8) (v : Door) : (co.setDoor d v).gated = co.gated := rfl
@[simp] theorem Coach.setDoor_waking (co : Coach) (d : BitVec 8) (v : Door) : (co.setDoor d v).waking = co.waking := rfl
@[simp] theorem Coach.setDoor_idleCount (co : Coach) (d : BitVec 8) (v : Door) : (co.setDoor d v).idleCount = co.idleCount := rfl
@[simp] theorem Coach.setDoor_accMem (co : Coach) (d : BitVec 8) (v : Door) : (co.setDoor d v).accMem = co.accMem := rfl
@[simp] theorem Coach.setDoor_actTable (co : Coach) (d : BitVec 8) (v : Door) : (co.setDoor d v).actTable = co.actTable := rfl
@[simp] theorem Coach.setDoor_chainIn (co : Coach) (d : BitVec 8) (v : Door) : (co.setDoor d v).chainIn = co.chainIn := rfl
@[simp] theorem Coach.setDoor_vregs (co : Coach) (d : BitVec 8) (v : Door) : (co.setDoor d v).vregs = co.vregs := rfl
@[simp] theorem Coach.setDoor_ttile (co : Coach) (d : BitVec 8) (v : Door) : (co.setDoor d v).ttile = co.ttile := rfl
@[simp] theorem Coach.setDoor_tileQueue (co : Coach) (d : BitVec 8) (v : Door) : (co.setDoor d v).tileQueue = co.tileQueue := rfl
@[simp] theorem Coach.setDoor_regionTags (co : Coach) (d : BitVec 8) (v : Door) : (co.setDoor d v).regionTags = co.regionTags := rfl
@[simp] theorem Coach.setDoor_intake (co : Coach) (d : BitVec 8) (v : Door) : (co.setDoor d v).intake = co.intake := rfl
@[simp] theorem Coach.setDoor_intakeDone (co : Coach) (d : BitVec 8) (v : Door) : (co.setDoor d v).intakeDone = co.intakeDone := rfl
@[simp] theorem Coach.setDoor_mismatch (co : Coach) (d : BitVec 8) (v : Door) : (co.setDoor d v).mismatch = co.mismatch := rfl
@[simp] theorem Coach.setDoor_mismatchRaised (co : Coach) (d : BitVec 8) (v : Door) : (co.setDoor d v).mismatchRaised = co.mismatchRaised := rfl
@[simp] theorem Coach.setDoor_poisonCount (co : Coach) (d : BitVec 8) (v : Door) : (co.setDoor d v).poisonCount = co.poisonCount := rfl
@[simp] theorem Coach.setDoor_first (co : Coach) (d : BitVec 8) (v : Door) : (co.setDoor d v).first = co.first := rfl
@[simp] theorem Coach.setDoor_digest (co : Coach) (d : BitVec 8) (v : Door) : (co.setDoor d v).digest = co.digest := rfl
@[simp] theorem Coach.setDoor_digestSlots (co : Coach) (d : BitVec 8) (v : Door) : (co.setDoor d v).digestSlots = co.digestSlots := rfl
@[simp] theorem Coach.setDoor_vregDue (co : Coach) (d : BitVec 8) (v : Door) : (co.setDoor d v).vregDue = co.vregDue := rfl
@[simp] theorem Coach.setDoor_accs (co : Coach) (d : BitVec 8) (v : Door) : (co.setDoor d v).accs = co.accs := rfl
@[simp] theorem Coach.setDoor_opens (co : Coach) (d : BitVec 8) (v : Door) : (co.setDoor d v).opens = co.opens := rfl
@[simp] theorem Coach.setDoor_actDue (co : Coach) (d : BitVec 8) (v : Door) : (co.setDoor d v).actDue = co.actDue := rfl
@[simp] theorem Coach.setDoor_tileAt (co : Coach) (d : BitVec 8) (v : Door) : (co.setDoor d v).tileAt = co.tileAt := rfl
@[simp] theorem Coach.setDoor_tagLate (co : Coach) (d : BitVec 8) (v : Door) : (co.setDoor d v).tagLate = co.tagLate := rfl
@[simp] theorem Coach.setDoor_intakeAt (co : Coach) (d : BitVec 8) (v : Door) : (co.setDoor d v).intakeAt = co.intakeAt := rfl
@[simp] theorem Coach.setDoor_early (co : Coach) (d : BitVec 8) (v : Door) : (co.setDoor d v).early = co.early := rfl

/-! ## setBank -/

@[simp] theorem Coach.setBank_spad (co : Coach) (b : Nat) (v : Bank) : (co.setBank b v).spad = co.spad := rfl
@[simp] theorem Coach.setBank_fill (co : Coach) (b : Nat) (v : Bank) : (co.setBank b v).fill = co.fill := rfl
@[simp] theorem Coach.setBank_ecc (co : Coach) (b : Nat) (v : Bank) : (co.setBank b v).ecc = co.ecc := rfl
@[simp] theorem Coach.setBank_rowCorr (co : Coach) (b : Nat) (v : Bank) : (co.setBank b v).rowCorr = co.rowCorr := rfl
@[simp] theorem Coach.setBank_repairs (co : Coach) (b : Nat) (v : Bank) : (co.setBank b v).repairs = co.repairs := rfl
@[simp] theorem Coach.setBank_spares (co : Coach) (b : Nat) (v : Bank) : (co.setBank b v).spares = co.spares := rfl
@[simp] theorem Coach.setBank_degraded (co : Coach) (b : Nat) (v : Bank) : (co.setBank b v).degraded = co.degraded := rfl
@[simp] theorem Coach.setBank_headers (co : Coach) (b : Nat) (v : Bank) : (co.setBank b v).headers = co.headers := rfl
@[simp] theorem Coach.setBank_hdrLate (co : Coach) (b : Nat) (v : Bank) : (co.setBank b v).hdrLate = co.hdrLate := rfl
@[simp] theorem Coach.setBank_spadDue (co : Coach) (b : Nat) (v : Bank) : (co.setBank b v).spadDue = co.spadDue := rfl
@[simp] theorem Coach.setBank_doors (co : Coach) (b : Nat) (v : Bank) : (co.setBank b v).doors = co.doors := rfl
@[simp] theorem Coach.setBank_engines (co : Coach) (b : Nat) (v : Bank) : (co.setBank b v).engines = co.engines := rfl
@[simp] theorem Coach.setBank_slotA (co : Coach) (b : Nat) (v : Bank) : (co.setBank b v).slotA = co.slotA := rfl
@[simp] theorem Coach.setBank_slotB (co : Coach) (b : Nat) (v : Bank) : (co.setBank b v).slotB = co.slotB := rfl
@[simp] theorem Coach.setBank_active (co : Coach) (b : Nat) (v : Bank) : (co.setBank b v).active = co.active := rfl
@[simp] theorem Coach.setBank_loadBusy (co : Coach) (b : Nat) (v : Bank) : (co.setBank b v).loadBusy = co.loadBusy := rfl
@[simp] theorem Coach.setBank_phase (co : Coach) (b : Nat) (v : Bank) : (co.setBank b v).phase = co.phase := rfl
@[simp] theorem Coach.setBank_task (co : Coach) (b : Nat) (v : Bank) : (co.setBank b v).task = co.task := rfl
@[simp] theorem Coach.setBank_taskId (co : Coach) (b : Nat) (v : Bank) : (co.setBank b v).taskId = co.taskId := rfl
@[simp] theorem Coach.setBank_startTime (co : Coach) (b : Nat) (v : Bank) : (co.setBank b v).startTime = co.startTime := rfl
@[simp] theorem Coach.setBank_hazardOn (co : Coach) (b : Nat) (v : Bank) : (co.setBank b v).hazardOn = co.hazardOn := rfl
@[simp] theorem Coach.setBank_coupling (co : Coach) (b : Nat) (v : Bank) : (co.setBank b v).coupling = co.coupling := rfl
@[simp] theorem Coach.setBank_ctxList (co : Coach) (b : Nat) (v : Bank) : (co.setBank b v).ctxList = co.ctxList := rfl
@[simp] theorem Coach.setBank_modTable (co : Coach) (b : Nat) (v : Bank) : (co.setBank b v).modTable = co.modTable := rfl
@[simp] theorem Coach.setBank_sigs (co : Coach) (b : Nat) (v : Bank) : (co.setBank b v).sigs = co.sigs := rfl
@[simp] theorem Coach.setBank_inbound (co : Coach) (b : Nat) (v : Bank) : (co.setBank b v).inbound = co.inbound := rfl
@[simp] theorem Coach.setBank_wdogLimit (co : Coach) (b : Nat) (v : Bank) : (co.setBank b v).wdogLimit = co.wdogLimit := rfl
@[simp] theorem Coach.setBank_wdogActive (co : Coach) (b : Nat) (v : Bank) : (co.setBank b v).wdogActive = co.wdogActive := rfl
@[simp] theorem Coach.setBank_wdogCount (co : Coach) (b : Nat) (v : Bank) : (co.setBank b v).wdogCount = co.wdogCount := rfl
@[simp] theorem Coach.setBank_deadlock (co : Coach) (b : Nat) (v : Bank) : (co.setBank b v).deadlock = co.deadlock := rfl
@[simp] theorem Coach.setBank_deadlockSet (co : Coach) (b : Nat) (v : Bank) : (co.setBank b v).deadlockSet = co.deadlockSet := rfl
@[simp] theorem Coach.setBank_snaps (co : Coach) (b : Nat) (v : Bank) : (co.setBank b v).snaps = co.snaps := rfl
@[simp] theorem Coach.setBank_shutWait (co : Coach) (b : Nat) (v : Bank) : (co.setBank b v).shutWait = co.shutWait := rfl
@[simp] theorem Coach.setBank_stall (co : Coach) (b : Nat) (v : Bank) : (co.setBank b v).stall = co.stall := rfl
@[simp] theorem Coach.setBank_sat (co : Coach) (b : Nat) (v : Bank) : (co.setBank b v).sat = co.sat := rfl
@[simp] theorem Coach.setBank_satSet (co : Coach) (b : Nat) (v : Bank) : (co.setBank b v).satSet = co.satSet := rfl
@[simp] theorem Coach.setBank_satDoor (co : Coach) (b : Nat) (v : Bank) : (co.setBank b v).satDoor = co.satDoor := rfl
@[simp] theorem Coach.setBank_satSeen (co : Coach) (b : Nat) (v : Bank) : (co.setBank b v).satSeen = co.satSeen := rfl
@[simp] theorem Coach.setBank_eccUncorr (co : Coach) (b : Nat) (v : Bank) : (co.setBank b v).eccUncorr = co.eccUncorr := rfl
@[simp] theorem Coach.setBank_eccCorr (co : Coach) (b : Nat) (v : Bank) : (co.setBank b v).eccCorr = co.eccCorr := rfl
@[simp] theorem Coach.setBank_eccUncorrSet (co : Coach) (b : Nat) (v : Bank) : (co.setBank b v).eccUncorrSet = co.eccUncorrSet := rfl
@[simp] theorem Coach.setBank_eccCorrSet (co : Coach) (b : Nat) (v : Bank) : (co.setBank b v).eccCorrSet = co.eccCorrSet := rfl
@[simp] theorem Coach.setBank_eccAddr (co : Coach) (b : Nat) (v : Bank) : (co.setBank b v).eccAddr = co.eccAddr := rfl
@[simp] theorem Coach.setBank_hazard (co : Coach) (b : Nat) (v : Bank) : (co.setBank b v).hazard = co.hazard := rfl
@[simp] theorem Coach.setBank_hazardSet (co : Coach) (b : Nat) (v : Bank) : (co.setBank b v).hazardSet = co.hazardSet := rfl
@[simp] theorem Coach.setBank_hazardKind (co : Coach) (b : Nat) (v : Bank) : (co.setBank b v).hazardKind = co.hazardKind := rfl
@[simp] theorem Coach.setBank_hazardInfo (co : Coach) (b : Nat) (v : Bank) : (co.setBank b v).hazardInfo = co.hazardInfo := rfl
@[simp] theorem Coach.setBank_dbgAddr (co : Coach) (b : Nat) (v : Bank) : (co.setBank b v).dbgAddr = co.dbgAddr := rfl
@[simp] theorem Coach.setBank_dbgData (co : Coach) (b : Nat) (v : Bank) : (co.setBank b v).dbgData = co.dbgData := rfl
@[simp] theorem Coach.setBank_dbgDenied (co : Coach) (b : Nat) (v : Bank) : (co.setBank b v).dbgDenied = co.dbgDenied := rfl
@[simp] theorem Coach.setBank_dbgReq (co : Coach) (b : Nat) (v : Bank) : (co.setBank b v).dbgReq = co.dbgReq := rfl
@[simp] theorem Coach.setBank_idleLimit (co : Coach) (b : Nat) (v : Bank) : (co.setBank b v).idleLimit = co.idleLimit := rfl
@[simp] theorem Coach.setBank_gated (co : Coach) (b : Nat) (v : Bank) : (co.setBank b v).gated = co.gated := rfl
@[simp] theorem Coach.setBank_waking (co : Coach) (b : Nat) (v : Bank) : (co.setBank b v).waking = co.waking := rfl
@[simp] theorem Coach.setBank_idleCount (co : Coach) (b : Nat) (v : Bank) : (co.setBank b v).idleCount = co.idleCount := rfl
@[simp] theorem Coach.setBank_accMem (co : Coach) (b : Nat) (v : Bank) : (co.setBank b v).accMem = co.accMem := rfl
@[simp] theorem Coach.setBank_actTable (co : Coach) (b : Nat) (v : Bank) : (co.setBank b v).actTable = co.actTable := rfl
@[simp] theorem Coach.setBank_chainIn (co : Coach) (b : Nat) (v : Bank) : (co.setBank b v).chainIn = co.chainIn := rfl
@[simp] theorem Coach.setBank_vregs (co : Coach) (b : Nat) (v : Bank) : (co.setBank b v).vregs = co.vregs := rfl
@[simp] theorem Coach.setBank_ttile (co : Coach) (b : Nat) (v : Bank) : (co.setBank b v).ttile = co.ttile := rfl
@[simp] theorem Coach.setBank_tileQueue (co : Coach) (b : Nat) (v : Bank) : (co.setBank b v).tileQueue = co.tileQueue := rfl
@[simp] theorem Coach.setBank_regionTags (co : Coach) (b : Nat) (v : Bank) : (co.setBank b v).regionTags = co.regionTags := rfl
@[simp] theorem Coach.setBank_intake (co : Coach) (b : Nat) (v : Bank) : (co.setBank b v).intake = co.intake := rfl
@[simp] theorem Coach.setBank_intakeDone (co : Coach) (b : Nat) (v : Bank) : (co.setBank b v).intakeDone = co.intakeDone := rfl
@[simp] theorem Coach.setBank_mismatch (co : Coach) (b : Nat) (v : Bank) : (co.setBank b v).mismatch = co.mismatch := rfl
@[simp] theorem Coach.setBank_mismatchRaised (co : Coach) (b : Nat) (v : Bank) : (co.setBank b v).mismatchRaised = co.mismatchRaised := rfl
@[simp] theorem Coach.setBank_poisonCount (co : Coach) (b : Nat) (v : Bank) : (co.setBank b v).poisonCount = co.poisonCount := rfl
@[simp] theorem Coach.setBank_first (co : Coach) (b : Nat) (v : Bank) : (co.setBank b v).first = co.first := rfl
@[simp] theorem Coach.setBank_digest (co : Coach) (b : Nat) (v : Bank) : (co.setBank b v).digest = co.digest := rfl
@[simp] theorem Coach.setBank_digestSlots (co : Coach) (b : Nat) (v : Bank) : (co.setBank b v).digestSlots = co.digestSlots := rfl
@[simp] theorem Coach.setBank_vregDue (co : Coach) (b : Nat) (v : Bank) : (co.setBank b v).vregDue = co.vregDue := rfl
@[simp] theorem Coach.setBank_accs (co : Coach) (b : Nat) (v : Bank) : (co.setBank b v).accs = co.accs := rfl
@[simp] theorem Coach.setBank_opens (co : Coach) (b : Nat) (v : Bank) : (co.setBank b v).opens = co.opens := rfl
@[simp] theorem Coach.setBank_actDue (co : Coach) (b : Nat) (v : Bank) : (co.setBank b v).actDue = co.actDue := rfl
@[simp] theorem Coach.setBank_tileAt (co : Coach) (b : Nat) (v : Bank) : (co.setBank b v).tileAt = co.tileAt := rfl
@[simp] theorem Coach.setBank_tagLate (co : Coach) (b : Nat) (v : Bank) : (co.setBank b v).tagLate = co.tagLate := rfl
@[simp] theorem Coach.setBank_intakeAt (co : Coach) (b : Nat) (v : Bank) : (co.setBank b v).intakeAt = co.intakeAt := rfl
@[simp] theorem Coach.setBank_early (co : Coach) (b : Nat) (v : Bank) : (co.setBank b v).early = co.early := rfl

/-! ## addStall -/

@[simp] theorem Coach.addStall_spad (co : Coach) (e : Engine) (k n : Nat) : (co.addStall e k n).spad = co.spad := rfl
@[simp] theorem Coach.addStall_fill (co : Coach) (e : Engine) (k n : Nat) : (co.addStall e k n).fill = co.fill := rfl
@[simp] theorem Coach.addStall_ecc (co : Coach) (e : Engine) (k n : Nat) : (co.addStall e k n).ecc = co.ecc := rfl
@[simp] theorem Coach.addStall_rowCorr (co : Coach) (e : Engine) (k n : Nat) : (co.addStall e k n).rowCorr = co.rowCorr := rfl
@[simp] theorem Coach.addStall_repairs (co : Coach) (e : Engine) (k n : Nat) : (co.addStall e k n).repairs = co.repairs := rfl
@[simp] theorem Coach.addStall_spares (co : Coach) (e : Engine) (k n : Nat) : (co.addStall e k n).spares = co.spares := rfl
@[simp] theorem Coach.addStall_degraded (co : Coach) (e : Engine) (k n : Nat) : (co.addStall e k n).degraded = co.degraded := rfl
@[simp] theorem Coach.addStall_banks (co : Coach) (e : Engine) (k n : Nat) : (co.addStall e k n).banks = co.banks := rfl
@[simp] theorem Coach.addStall_headers (co : Coach) (e : Engine) (k n : Nat) : (co.addStall e k n).headers = co.headers := rfl
@[simp] theorem Coach.addStall_hdrLate (co : Coach) (e : Engine) (k n : Nat) : (co.addStall e k n).hdrLate = co.hdrLate := rfl
@[simp] theorem Coach.addStall_spadDue (co : Coach) (e : Engine) (k n : Nat) : (co.addStall e k n).spadDue = co.spadDue := rfl
@[simp] theorem Coach.addStall_doors (co : Coach) (e : Engine) (k n : Nat) : (co.addStall e k n).doors = co.doors := rfl
@[simp] theorem Coach.addStall_engines (co : Coach) (e : Engine) (k n : Nat) : (co.addStall e k n).engines = co.engines := rfl
@[simp] theorem Coach.addStall_slotA (co : Coach) (e : Engine) (k n : Nat) : (co.addStall e k n).slotA = co.slotA := rfl
@[simp] theorem Coach.addStall_slotB (co : Coach) (e : Engine) (k n : Nat) : (co.addStall e k n).slotB = co.slotB := rfl
@[simp] theorem Coach.addStall_active (co : Coach) (e : Engine) (k n : Nat) : (co.addStall e k n).active = co.active := rfl
@[simp] theorem Coach.addStall_loadBusy (co : Coach) (e : Engine) (k n : Nat) : (co.addStall e k n).loadBusy = co.loadBusy := rfl
@[simp] theorem Coach.addStall_phase (co : Coach) (e : Engine) (k n : Nat) : (co.addStall e k n).phase = co.phase := rfl
@[simp] theorem Coach.addStall_task (co : Coach) (e : Engine) (k n : Nat) : (co.addStall e k n).task = co.task := rfl
@[simp] theorem Coach.addStall_taskId (co : Coach) (e : Engine) (k n : Nat) : (co.addStall e k n).taskId = co.taskId := rfl
@[simp] theorem Coach.addStall_startTime (co : Coach) (e : Engine) (k n : Nat) : (co.addStall e k n).startTime = co.startTime := rfl
@[simp] theorem Coach.addStall_hazardOn (co : Coach) (e : Engine) (k n : Nat) : (co.addStall e k n).hazardOn = co.hazardOn := rfl
@[simp] theorem Coach.addStall_coupling (co : Coach) (e : Engine) (k n : Nat) : (co.addStall e k n).coupling = co.coupling := rfl
@[simp] theorem Coach.addStall_ctxList (co : Coach) (e : Engine) (k n : Nat) : (co.addStall e k n).ctxList = co.ctxList := rfl
@[simp] theorem Coach.addStall_modTable (co : Coach) (e : Engine) (k n : Nat) : (co.addStall e k n).modTable = co.modTable := rfl
@[simp] theorem Coach.addStall_sigs (co : Coach) (e : Engine) (k n : Nat) : (co.addStall e k n).sigs = co.sigs := rfl
@[simp] theorem Coach.addStall_inbound (co : Coach) (e : Engine) (k n : Nat) : (co.addStall e k n).inbound = co.inbound := rfl
@[simp] theorem Coach.addStall_wdogLimit (co : Coach) (e : Engine) (k n : Nat) : (co.addStall e k n).wdogLimit = co.wdogLimit := rfl
@[simp] theorem Coach.addStall_wdogActive (co : Coach) (e : Engine) (k n : Nat) : (co.addStall e k n).wdogActive = co.wdogActive := rfl
@[simp] theorem Coach.addStall_wdogCount (co : Coach) (e : Engine) (k n : Nat) : (co.addStall e k n).wdogCount = co.wdogCount := rfl
@[simp] theorem Coach.addStall_deadlock (co : Coach) (e : Engine) (k n : Nat) : (co.addStall e k n).deadlock = co.deadlock := rfl
@[simp] theorem Coach.addStall_deadlockSet (co : Coach) (e : Engine) (k n : Nat) : (co.addStall e k n).deadlockSet = co.deadlockSet := rfl
@[simp] theorem Coach.addStall_snaps (co : Coach) (e : Engine) (k n : Nat) : (co.addStall e k n).snaps = co.snaps := rfl
@[simp] theorem Coach.addStall_shutWait (co : Coach) (e : Engine) (k n : Nat) : (co.addStall e k n).shutWait = co.shutWait := rfl
@[simp] theorem Coach.addStall_sat (co : Coach) (e : Engine) (k n : Nat) : (co.addStall e k n).sat = co.sat := rfl
@[simp] theorem Coach.addStall_satSet (co : Coach) (e : Engine) (k n : Nat) : (co.addStall e k n).satSet = co.satSet := rfl
@[simp] theorem Coach.addStall_satDoor (co : Coach) (e : Engine) (k n : Nat) : (co.addStall e k n).satDoor = co.satDoor := rfl
@[simp] theorem Coach.addStall_satSeen (co : Coach) (e : Engine) (k n : Nat) : (co.addStall e k n).satSeen = co.satSeen := rfl
@[simp] theorem Coach.addStall_eccUncorr (co : Coach) (e : Engine) (k n : Nat) : (co.addStall e k n).eccUncorr = co.eccUncorr := rfl
@[simp] theorem Coach.addStall_eccCorr (co : Coach) (e : Engine) (k n : Nat) : (co.addStall e k n).eccCorr = co.eccCorr := rfl
@[simp] theorem Coach.addStall_eccUncorrSet (co : Coach) (e : Engine) (k n : Nat) : (co.addStall e k n).eccUncorrSet = co.eccUncorrSet := rfl
@[simp] theorem Coach.addStall_eccCorrSet (co : Coach) (e : Engine) (k n : Nat) : (co.addStall e k n).eccCorrSet = co.eccCorrSet := rfl
@[simp] theorem Coach.addStall_eccAddr (co : Coach) (e : Engine) (k n : Nat) : (co.addStall e k n).eccAddr = co.eccAddr := rfl
@[simp] theorem Coach.addStall_hazard (co : Coach) (e : Engine) (k n : Nat) : (co.addStall e k n).hazard = co.hazard := rfl
@[simp] theorem Coach.addStall_hazardSet (co : Coach) (e : Engine) (k n : Nat) : (co.addStall e k n).hazardSet = co.hazardSet := rfl
@[simp] theorem Coach.addStall_hazardKind (co : Coach) (e : Engine) (k n : Nat) : (co.addStall e k n).hazardKind = co.hazardKind := rfl
@[simp] theorem Coach.addStall_hazardInfo (co : Coach) (e : Engine) (k n : Nat) : (co.addStall e k n).hazardInfo = co.hazardInfo := rfl
@[simp] theorem Coach.addStall_dbgAddr (co : Coach) (e : Engine) (k n : Nat) : (co.addStall e k n).dbgAddr = co.dbgAddr := rfl
@[simp] theorem Coach.addStall_dbgData (co : Coach) (e : Engine) (k n : Nat) : (co.addStall e k n).dbgData = co.dbgData := rfl
@[simp] theorem Coach.addStall_dbgDenied (co : Coach) (e : Engine) (k n : Nat) : (co.addStall e k n).dbgDenied = co.dbgDenied := rfl
@[simp] theorem Coach.addStall_dbgReq (co : Coach) (e : Engine) (k n : Nat) : (co.addStall e k n).dbgReq = co.dbgReq := rfl
@[simp] theorem Coach.addStall_idleLimit (co : Coach) (e : Engine) (k n : Nat) : (co.addStall e k n).idleLimit = co.idleLimit := rfl
@[simp] theorem Coach.addStall_gated (co : Coach) (e : Engine) (k n : Nat) : (co.addStall e k n).gated = co.gated := rfl
@[simp] theorem Coach.addStall_waking (co : Coach) (e : Engine) (k n : Nat) : (co.addStall e k n).waking = co.waking := rfl
@[simp] theorem Coach.addStall_idleCount (co : Coach) (e : Engine) (k n : Nat) : (co.addStall e k n).idleCount = co.idleCount := rfl
@[simp] theorem Coach.addStall_accMem (co : Coach) (e : Engine) (k n : Nat) : (co.addStall e k n).accMem = co.accMem := rfl
@[simp] theorem Coach.addStall_actTable (co : Coach) (e : Engine) (k n : Nat) : (co.addStall e k n).actTable = co.actTable := rfl
@[simp] theorem Coach.addStall_chainIn (co : Coach) (e : Engine) (k n : Nat) : (co.addStall e k n).chainIn = co.chainIn := rfl
@[simp] theorem Coach.addStall_vregs (co : Coach) (e : Engine) (k n : Nat) : (co.addStall e k n).vregs = co.vregs := rfl
@[simp] theorem Coach.addStall_ttile (co : Coach) (e : Engine) (k n : Nat) : (co.addStall e k n).ttile = co.ttile := rfl
@[simp] theorem Coach.addStall_tileQueue (co : Coach) (e : Engine) (k n : Nat) : (co.addStall e k n).tileQueue = co.tileQueue := rfl
@[simp] theorem Coach.addStall_regionTags (co : Coach) (e : Engine) (k n : Nat) : (co.addStall e k n).regionTags = co.regionTags := rfl
@[simp] theorem Coach.addStall_intake (co : Coach) (e : Engine) (k n : Nat) : (co.addStall e k n).intake = co.intake := rfl
@[simp] theorem Coach.addStall_intakeDone (co : Coach) (e : Engine) (k n : Nat) : (co.addStall e k n).intakeDone = co.intakeDone := rfl
@[simp] theorem Coach.addStall_mismatch (co : Coach) (e : Engine) (k n : Nat) : (co.addStall e k n).mismatch = co.mismatch := rfl
@[simp] theorem Coach.addStall_mismatchRaised (co : Coach) (e : Engine) (k n : Nat) : (co.addStall e k n).mismatchRaised = co.mismatchRaised := rfl
@[simp] theorem Coach.addStall_poisonCount (co : Coach) (e : Engine) (k n : Nat) : (co.addStall e k n).poisonCount = co.poisonCount := rfl
@[simp] theorem Coach.addStall_first (co : Coach) (e : Engine) (k n : Nat) : (co.addStall e k n).first = co.first := rfl
@[simp] theorem Coach.addStall_digest (co : Coach) (e : Engine) (k n : Nat) : (co.addStall e k n).digest = co.digest := rfl
@[simp] theorem Coach.addStall_digestSlots (co : Coach) (e : Engine) (k n : Nat) : (co.addStall e k n).digestSlots = co.digestSlots := rfl
@[simp] theorem Coach.addStall_vregDue (co : Coach) (e : Engine) (k n : Nat) : (co.addStall e k n).vregDue = co.vregDue := rfl
@[simp] theorem Coach.addStall_accs (co : Coach) (e : Engine) (k n : Nat) : (co.addStall e k n).accs = co.accs := rfl
@[simp] theorem Coach.addStall_opens (co : Coach) (e : Engine) (k n : Nat) : (co.addStall e k n).opens = co.opens := rfl
@[simp] theorem Coach.addStall_actDue (co : Coach) (e : Engine) (k n : Nat) : (co.addStall e k n).actDue = co.actDue := rfl
@[simp] theorem Coach.addStall_tileAt (co : Coach) (e : Engine) (k n : Nat) : (co.addStall e k n).tileAt = co.tileAt := rfl
@[simp] theorem Coach.addStall_tagLate (co : Coach) (e : Engine) (k n : Nat) : (co.addStall e k n).tagLate = co.tagLate := rfl
@[simp] theorem Coach.addStall_intakeAt (co : Coach) (e : Engine) (k n : Nat) : (co.addStall e k n).intakeAt = co.intakeAt := rfl
@[simp] theorem Coach.addStall_early (co : Coach) (e : Engine) (k n : Nat) : (co.addStall e k n).early = co.early := rfl

/-! ## addShutWait -/

@[simp] theorem Coach.addShutWait_spad (co : Coach) (e : Engine) (n : Nat) : (co.addShutWait e n).spad = co.spad := rfl
@[simp] theorem Coach.addShutWait_fill (co : Coach) (e : Engine) (n : Nat) : (co.addShutWait e n).fill = co.fill := rfl
@[simp] theorem Coach.addShutWait_ecc (co : Coach) (e : Engine) (n : Nat) : (co.addShutWait e n).ecc = co.ecc := rfl
@[simp] theorem Coach.addShutWait_rowCorr (co : Coach) (e : Engine) (n : Nat) : (co.addShutWait e n).rowCorr = co.rowCorr := rfl
@[simp] theorem Coach.addShutWait_repairs (co : Coach) (e : Engine) (n : Nat) : (co.addShutWait e n).repairs = co.repairs := rfl
@[simp] theorem Coach.addShutWait_spares (co : Coach) (e : Engine) (n : Nat) : (co.addShutWait e n).spares = co.spares := rfl
@[simp] theorem Coach.addShutWait_degraded (co : Coach) (e : Engine) (n : Nat) : (co.addShutWait e n).degraded = co.degraded := rfl
@[simp] theorem Coach.addShutWait_banks (co : Coach) (e : Engine) (n : Nat) : (co.addShutWait e n).banks = co.banks := rfl
@[simp] theorem Coach.addShutWait_headers (co : Coach) (e : Engine) (n : Nat) : (co.addShutWait e n).headers = co.headers := rfl
@[simp] theorem Coach.addShutWait_hdrLate (co : Coach) (e : Engine) (n : Nat) : (co.addShutWait e n).hdrLate = co.hdrLate := rfl
@[simp] theorem Coach.addShutWait_spadDue (co : Coach) (e : Engine) (n : Nat) : (co.addShutWait e n).spadDue = co.spadDue := rfl
@[simp] theorem Coach.addShutWait_doors (co : Coach) (e : Engine) (n : Nat) : (co.addShutWait e n).doors = co.doors := rfl
@[simp] theorem Coach.addShutWait_engines (co : Coach) (e : Engine) (n : Nat) : (co.addShutWait e n).engines = co.engines := rfl
@[simp] theorem Coach.addShutWait_slotA (co : Coach) (e : Engine) (n : Nat) : (co.addShutWait e n).slotA = co.slotA := rfl
@[simp] theorem Coach.addShutWait_slotB (co : Coach) (e : Engine) (n : Nat) : (co.addShutWait e n).slotB = co.slotB := rfl
@[simp] theorem Coach.addShutWait_active (co : Coach) (e : Engine) (n : Nat) : (co.addShutWait e n).active = co.active := rfl
@[simp] theorem Coach.addShutWait_loadBusy (co : Coach) (e : Engine) (n : Nat) : (co.addShutWait e n).loadBusy = co.loadBusy := rfl
@[simp] theorem Coach.addShutWait_phase (co : Coach) (e : Engine) (n : Nat) : (co.addShutWait e n).phase = co.phase := rfl
@[simp] theorem Coach.addShutWait_task (co : Coach) (e : Engine) (n : Nat) : (co.addShutWait e n).task = co.task := rfl
@[simp] theorem Coach.addShutWait_taskId (co : Coach) (e : Engine) (n : Nat) : (co.addShutWait e n).taskId = co.taskId := rfl
@[simp] theorem Coach.addShutWait_startTime (co : Coach) (e : Engine) (n : Nat) : (co.addShutWait e n).startTime = co.startTime := rfl
@[simp] theorem Coach.addShutWait_hazardOn (co : Coach) (e : Engine) (n : Nat) : (co.addShutWait e n).hazardOn = co.hazardOn := rfl
@[simp] theorem Coach.addShutWait_coupling (co : Coach) (e : Engine) (n : Nat) : (co.addShutWait e n).coupling = co.coupling := rfl
@[simp] theorem Coach.addShutWait_ctxList (co : Coach) (e : Engine) (n : Nat) : (co.addShutWait e n).ctxList = co.ctxList := rfl
@[simp] theorem Coach.addShutWait_modTable (co : Coach) (e : Engine) (n : Nat) : (co.addShutWait e n).modTable = co.modTable := rfl
@[simp] theorem Coach.addShutWait_sigs (co : Coach) (e : Engine) (n : Nat) : (co.addShutWait e n).sigs = co.sigs := rfl
@[simp] theorem Coach.addShutWait_inbound (co : Coach) (e : Engine) (n : Nat) : (co.addShutWait e n).inbound = co.inbound := rfl
@[simp] theorem Coach.addShutWait_wdogLimit (co : Coach) (e : Engine) (n : Nat) : (co.addShutWait e n).wdogLimit = co.wdogLimit := rfl
@[simp] theorem Coach.addShutWait_wdogActive (co : Coach) (e : Engine) (n : Nat) : (co.addShutWait e n).wdogActive = co.wdogActive := rfl
@[simp] theorem Coach.addShutWait_wdogCount (co : Coach) (e : Engine) (n : Nat) : (co.addShutWait e n).wdogCount = co.wdogCount := rfl
@[simp] theorem Coach.addShutWait_deadlock (co : Coach) (e : Engine) (n : Nat) : (co.addShutWait e n).deadlock = co.deadlock := rfl
@[simp] theorem Coach.addShutWait_deadlockSet (co : Coach) (e : Engine) (n : Nat) : (co.addShutWait e n).deadlockSet = co.deadlockSet := rfl
@[simp] theorem Coach.addShutWait_snaps (co : Coach) (e : Engine) (n : Nat) : (co.addShutWait e n).snaps = co.snaps := rfl
@[simp] theorem Coach.addShutWait_stall (co : Coach) (e : Engine) (n : Nat) : (co.addShutWait e n).stall = co.stall := rfl
@[simp] theorem Coach.addShutWait_sat (co : Coach) (e : Engine) (n : Nat) : (co.addShutWait e n).sat = co.sat := rfl
@[simp] theorem Coach.addShutWait_satSet (co : Coach) (e : Engine) (n : Nat) : (co.addShutWait e n).satSet = co.satSet := rfl
@[simp] theorem Coach.addShutWait_satDoor (co : Coach) (e : Engine) (n : Nat) : (co.addShutWait e n).satDoor = co.satDoor := rfl
@[simp] theorem Coach.addShutWait_satSeen (co : Coach) (e : Engine) (n : Nat) : (co.addShutWait e n).satSeen = co.satSeen := rfl
@[simp] theorem Coach.addShutWait_eccUncorr (co : Coach) (e : Engine) (n : Nat) : (co.addShutWait e n).eccUncorr = co.eccUncorr := rfl
@[simp] theorem Coach.addShutWait_eccCorr (co : Coach) (e : Engine) (n : Nat) : (co.addShutWait e n).eccCorr = co.eccCorr := rfl
@[simp] theorem Coach.addShutWait_eccUncorrSet (co : Coach) (e : Engine) (n : Nat) : (co.addShutWait e n).eccUncorrSet = co.eccUncorrSet := rfl
@[simp] theorem Coach.addShutWait_eccCorrSet (co : Coach) (e : Engine) (n : Nat) : (co.addShutWait e n).eccCorrSet = co.eccCorrSet := rfl
@[simp] theorem Coach.addShutWait_eccAddr (co : Coach) (e : Engine) (n : Nat) : (co.addShutWait e n).eccAddr = co.eccAddr := rfl
@[simp] theorem Coach.addShutWait_hazard (co : Coach) (e : Engine) (n : Nat) : (co.addShutWait e n).hazard = co.hazard := rfl
@[simp] theorem Coach.addShutWait_hazardSet (co : Coach) (e : Engine) (n : Nat) : (co.addShutWait e n).hazardSet = co.hazardSet := rfl
@[simp] theorem Coach.addShutWait_hazardKind (co : Coach) (e : Engine) (n : Nat) : (co.addShutWait e n).hazardKind = co.hazardKind := rfl
@[simp] theorem Coach.addShutWait_hazardInfo (co : Coach) (e : Engine) (n : Nat) : (co.addShutWait e n).hazardInfo = co.hazardInfo := rfl
@[simp] theorem Coach.addShutWait_dbgAddr (co : Coach) (e : Engine) (n : Nat) : (co.addShutWait e n).dbgAddr = co.dbgAddr := rfl
@[simp] theorem Coach.addShutWait_dbgData (co : Coach) (e : Engine) (n : Nat) : (co.addShutWait e n).dbgData = co.dbgData := rfl
@[simp] theorem Coach.addShutWait_dbgDenied (co : Coach) (e : Engine) (n : Nat) : (co.addShutWait e n).dbgDenied = co.dbgDenied := rfl
@[simp] theorem Coach.addShutWait_dbgReq (co : Coach) (e : Engine) (n : Nat) : (co.addShutWait e n).dbgReq = co.dbgReq := rfl
@[simp] theorem Coach.addShutWait_idleLimit (co : Coach) (e : Engine) (n : Nat) : (co.addShutWait e n).idleLimit = co.idleLimit := rfl
@[simp] theorem Coach.addShutWait_gated (co : Coach) (e : Engine) (n : Nat) : (co.addShutWait e n).gated = co.gated := rfl
@[simp] theorem Coach.addShutWait_waking (co : Coach) (e : Engine) (n : Nat) : (co.addShutWait e n).waking = co.waking := rfl
@[simp] theorem Coach.addShutWait_idleCount (co : Coach) (e : Engine) (n : Nat) : (co.addShutWait e n).idleCount = co.idleCount := rfl
@[simp] theorem Coach.addShutWait_accMem (co : Coach) (e : Engine) (n : Nat) : (co.addShutWait e n).accMem = co.accMem := rfl
@[simp] theorem Coach.addShutWait_actTable (co : Coach) (e : Engine) (n : Nat) : (co.addShutWait e n).actTable = co.actTable := rfl
@[simp] theorem Coach.addShutWait_chainIn (co : Coach) (e : Engine) (n : Nat) : (co.addShutWait e n).chainIn = co.chainIn := rfl
@[simp] theorem Coach.addShutWait_vregs (co : Coach) (e : Engine) (n : Nat) : (co.addShutWait e n).vregs = co.vregs := rfl
@[simp] theorem Coach.addShutWait_ttile (co : Coach) (e : Engine) (n : Nat) : (co.addShutWait e n).ttile = co.ttile := rfl
@[simp] theorem Coach.addShutWait_tileQueue (co : Coach) (e : Engine) (n : Nat) : (co.addShutWait e n).tileQueue = co.tileQueue := rfl
@[simp] theorem Coach.addShutWait_regionTags (co : Coach) (e : Engine) (n : Nat) : (co.addShutWait e n).regionTags = co.regionTags := rfl
@[simp] theorem Coach.addShutWait_intake (co : Coach) (e : Engine) (n : Nat) : (co.addShutWait e n).intake = co.intake := rfl
@[simp] theorem Coach.addShutWait_intakeDone (co : Coach) (e : Engine) (n : Nat) : (co.addShutWait e n).intakeDone = co.intakeDone := rfl
@[simp] theorem Coach.addShutWait_mismatch (co : Coach) (e : Engine) (n : Nat) : (co.addShutWait e n).mismatch = co.mismatch := rfl
@[simp] theorem Coach.addShutWait_mismatchRaised (co : Coach) (e : Engine) (n : Nat) : (co.addShutWait e n).mismatchRaised = co.mismatchRaised := rfl
@[simp] theorem Coach.addShutWait_poisonCount (co : Coach) (e : Engine) (n : Nat) : (co.addShutWait e n).poisonCount = co.poisonCount := rfl
@[simp] theorem Coach.addShutWait_first (co : Coach) (e : Engine) (n : Nat) : (co.addShutWait e n).first = co.first := rfl
@[simp] theorem Coach.addShutWait_digest (co : Coach) (e : Engine) (n : Nat) : (co.addShutWait e n).digest = co.digest := rfl
@[simp] theorem Coach.addShutWait_digestSlots (co : Coach) (e : Engine) (n : Nat) : (co.addShutWait e n).digestSlots = co.digestSlots := rfl
@[simp] theorem Coach.addShutWait_vregDue (co : Coach) (e : Engine) (n : Nat) : (co.addShutWait e n).vregDue = co.vregDue := rfl
@[simp] theorem Coach.addShutWait_accs (co : Coach) (e : Engine) (n : Nat) : (co.addShutWait e n).accs = co.accs := rfl
@[simp] theorem Coach.addShutWait_opens (co : Coach) (e : Engine) (n : Nat) : (co.addShutWait e n).opens = co.opens := rfl
@[simp] theorem Coach.addShutWait_actDue (co : Coach) (e : Engine) (n : Nat) : (co.addShutWait e n).actDue = co.actDue := rfl
@[simp] theorem Coach.addShutWait_tileAt (co : Coach) (e : Engine) (n : Nat) : (co.addShutWait e n).tileAt = co.tileAt := rfl
@[simp] theorem Coach.addShutWait_tagLate (co : Coach) (e : Engine) (n : Nat) : (co.addShutWait e n).tagLate = co.tagLate := rfl
@[simp] theorem Coach.addShutWait_intakeAt (co : Coach) (e : Engine) (n : Nat) : (co.addShutWait e n).intakeAt = co.intakeAt := rfl
@[simp] theorem Coach.addShutWait_early (co : Coach) (e : Engine) (n : Nat) : (co.addShutWait e n).early = co.early := rfl

/-! ## hit -/

@[simp] theorem State.hit_clk (s : State) (k n : Nat) : (s.hit k n).clk = s.clk := rfl
@[simp] theorem State.hit_freeCtr (s : State) (k n : Nat) : (s.hit k n).freeCtr = s.freeCtr := rfl
@[simp] theorem State.hit_coaches (s : State) (k n : Nat) : (s.hit k n).coaches = s.coaches := rfl
@[simp] theorem State.hit_contexts (s : State) (k n : Nat) : (s.hit k n).contexts = s.contexts := rfl
@[simp] theorem State.hit_policy (s : State) (k n : Nat) : (s.hit k n).policy = s.policy := rfl
@[simp] theorem State.hit_policyHash (s : State) (k n : Nat) : (s.hit k n).policyHash = s.policyHash := rfl
@[simp] theorem State.hit_tasks (s : State) (k n : Nat) : (s.hit k n).tasks = s.tasks := rfl
@[simp] theorem State.hit_hif (s : State) (k n : Nat) : (s.hit k n).hif = s.hif := rfl
@[simp] theorem State.hit_evt (s : State) (k n : Nat) : (s.hit k n).evt = s.evt := rfl
@[simp] theorem State.hit_kst (s : State) (k n : Nat) : (s.hit k n).kst = s.kst := rfl
@[simp] theorem State.hit_hbm (s : State) (k n : Nat) : (s.hit k n).hbm = s.hbm := rfl
@[simp] theorem State.hit_ehl (s : State) (k n : Nat) : (s.hit k n).ehl = s.ehl := rfl
@[simp] theorem State.hit_boot (s : State) (k n : Nat) : (s.hit k n).boot = s.boot := rfl
@[simp] theorem State.hit_sec (s : State) (k n : Nat) : (s.hit k n).sec = s.sec := rfl
@[simp] theorem State.hit_board (s : State) (k n : Nat) : (s.hit k n).board = s.board := rfl
@[simp] theorem State.hit_bus (s : State) (k n : Nat) : (s.hit k n).bus = s.bus := rfl
@[simp] theorem State.hit_host (s : State) (k n : Nat) : (s.hit k n).host = s.host := rfl
@[simp] theorem State.hit_pending (s : State) (k n : Nat) : (s.hit k n).pending = s.pending := rfl

@[simp] theorem Coach.hit_spad (co : Coach) (k n : Nat) : (co.hit k n).spad = co.spad := rfl
@[simp] theorem Coach.hit_fill (co : Coach) (k n : Nat) : (co.hit k n).fill = co.fill := rfl
@[simp] theorem Coach.hit_ecc (co : Coach) (k n : Nat) : (co.hit k n).ecc = co.ecc := rfl
@[simp] theorem Coach.hit_rowCorr (co : Coach) (k n : Nat) : (co.hit k n).rowCorr = co.rowCorr := rfl
@[simp] theorem Coach.hit_repairs (co : Coach) (k n : Nat) : (co.hit k n).repairs = co.repairs := rfl
@[simp] theorem Coach.hit_spares (co : Coach) (k n : Nat) : (co.hit k n).spares = co.spares := rfl
@[simp] theorem Coach.hit_degraded (co : Coach) (k n : Nat) : (co.hit k n).degraded = co.degraded := rfl
@[simp] theorem Coach.hit_banks (co : Coach) (k n : Nat) : (co.hit k n).banks = co.banks := rfl
@[simp] theorem Coach.hit_headers (co : Coach) (k n : Nat) : (co.hit k n).headers = co.headers := rfl
@[simp] theorem Coach.hit_hdrLate (co : Coach) (k n : Nat) : (co.hit k n).hdrLate = co.hdrLate := rfl
@[simp] theorem Coach.hit_spadDue (co : Coach) (k n : Nat) : (co.hit k n).spadDue = co.spadDue := rfl
@[simp] theorem Coach.hit_vregDue (co : Coach) (k n : Nat) : (co.hit k n).vregDue = co.vregDue := rfl
@[simp] theorem Coach.hit_accs (co : Coach) (k n : Nat) : (co.hit k n).accs = co.accs := rfl
@[simp] theorem Coach.hit_doors (co : Coach) (k n : Nat) : (co.hit k n).doors = co.doors := rfl
@[simp] theorem Coach.hit_engines (co : Coach) (k n : Nat) : (co.hit k n).engines = co.engines := rfl
@[simp] theorem Coach.hit_slotA (co : Coach) (k n : Nat) : (co.hit k n).slotA = co.slotA := rfl
@[simp] theorem Coach.hit_slotB (co : Coach) (k n : Nat) : (co.hit k n).slotB = co.slotB := rfl
@[simp] theorem Coach.hit_active (co : Coach) (k n : Nat) : (co.hit k n).active = co.active := rfl
@[simp] theorem Coach.hit_loadBusy (co : Coach) (k n : Nat) : (co.hit k n).loadBusy = co.loadBusy := rfl
@[simp] theorem Coach.hit_phase (co : Coach) (k n : Nat) : (co.hit k n).phase = co.phase := rfl
@[simp] theorem Coach.hit_task (co : Coach) (k n : Nat) : (co.hit k n).task = co.task := rfl
@[simp] theorem Coach.hit_taskId (co : Coach) (k n : Nat) : (co.hit k n).taskId = co.taskId := rfl
@[simp] theorem Coach.hit_startTime (co : Coach) (k n : Nat) : (co.hit k n).startTime = co.startTime := rfl
@[simp] theorem Coach.hit_hazardOn (co : Coach) (k n : Nat) : (co.hit k n).hazardOn = co.hazardOn := rfl
@[simp] theorem Coach.hit_coupling (co : Coach) (k n : Nat) : (co.hit k n).coupling = co.coupling := rfl
@[simp] theorem Coach.hit_ctxList (co : Coach) (k n : Nat) : (co.hit k n).ctxList = co.ctxList := rfl
@[simp] theorem Coach.hit_modTable (co : Coach) (k n : Nat) : (co.hit k n).modTable = co.modTable := rfl
@[simp] theorem Coach.hit_sigs (co : Coach) (k n : Nat) : (co.hit k n).sigs = co.sigs := rfl
@[simp] theorem Coach.hit_inbound (co : Coach) (k n : Nat) : (co.hit k n).inbound = co.inbound := rfl
@[simp] theorem Coach.hit_wdogLimit (co : Coach) (k n : Nat) : (co.hit k n).wdogLimit = co.wdogLimit := rfl
@[simp] theorem Coach.hit_wdogActive (co : Coach) (k n : Nat) : (co.hit k n).wdogActive = co.wdogActive := rfl
@[simp] theorem Coach.hit_wdogCount (co : Coach) (k n : Nat) : (co.hit k n).wdogCount = co.wdogCount := rfl
@[simp] theorem Coach.hit_deadlock (co : Coach) (k n : Nat) : (co.hit k n).deadlock = co.deadlock := rfl
@[simp] theorem Coach.hit_deadlockSet (co : Coach) (k n : Nat) : (co.hit k n).deadlockSet = co.deadlockSet := rfl
@[simp] theorem Coach.hit_snaps (co : Coach) (k n : Nat) : (co.hit k n).snaps = co.snaps := rfl
@[simp] theorem Coach.hit_shutWait (co : Coach) (k n : Nat) : (co.hit k n).shutWait = co.shutWait := rfl
@[simp] theorem Coach.hit_stall (co : Coach) (k n : Nat) : (co.hit k n).stall = co.stall := rfl
@[simp] theorem Coach.hit_sat (co : Coach) (k n : Nat) : (co.hit k n).sat = co.sat := rfl
@[simp] theorem Coach.hit_satSet (co : Coach) (k n : Nat) : (co.hit k n).satSet = co.satSet := rfl
@[simp] theorem Coach.hit_satDoor (co : Coach) (k n : Nat) : (co.hit k n).satDoor = co.satDoor := rfl
@[simp] theorem Coach.hit_satSeen (co : Coach) (k n : Nat) : (co.hit k n).satSeen = co.satSeen := rfl
@[simp] theorem Coach.hit_eccUncorr (co : Coach) (k n : Nat) : (co.hit k n).eccUncorr = co.eccUncorr := rfl
@[simp] theorem Coach.hit_eccCorr (co : Coach) (k n : Nat) : (co.hit k n).eccCorr = co.eccCorr := rfl
@[simp] theorem Coach.hit_eccUncorrSet (co : Coach) (k n : Nat) : (co.hit k n).eccUncorrSet = co.eccUncorrSet := rfl
@[simp] theorem Coach.hit_eccCorrSet (co : Coach) (k n : Nat) : (co.hit k n).eccCorrSet = co.eccCorrSet := rfl
@[simp] theorem Coach.hit_eccAddr (co : Coach) (k n : Nat) : (co.hit k n).eccAddr = co.eccAddr := rfl
@[simp] theorem Coach.hit_hazard (co : Coach) (k n : Nat) : (co.hit k n).hazard = co.hazard := rfl
@[simp] theorem Coach.hit_hazardSet (co : Coach) (k n : Nat) : (co.hit k n).hazardSet = co.hazardSet := rfl
@[simp] theorem Coach.hit_hazardKind (co : Coach) (k n : Nat) : (co.hit k n).hazardKind = co.hazardKind := rfl
@[simp] theorem Coach.hit_hazardInfo (co : Coach) (k n : Nat) : (co.hit k n).hazardInfo = co.hazardInfo := rfl
@[simp] theorem Coach.hit_dbgAddr (co : Coach) (k n : Nat) : (co.hit k n).dbgAddr = co.dbgAddr := rfl
@[simp] theorem Coach.hit_dbgData (co : Coach) (k n : Nat) : (co.hit k n).dbgData = co.dbgData := rfl
@[simp] theorem Coach.hit_dbgDenied (co : Coach) (k n : Nat) : (co.hit k n).dbgDenied = co.dbgDenied := rfl
@[simp] theorem Coach.hit_dbgReq (co : Coach) (k n : Nat) : (co.hit k n).dbgReq = co.dbgReq := rfl
@[simp] theorem Coach.hit_idleLimit (co : Coach) (k n : Nat) : (co.hit k n).idleLimit = co.idleLimit := rfl
@[simp] theorem Coach.hit_gated (co : Coach) (k n : Nat) : (co.hit k n).gated = co.gated := rfl
@[simp] theorem Coach.hit_waking (co : Coach) (k n : Nat) : (co.hit k n).waking = co.waking := rfl
@[simp] theorem Coach.hit_idleCount (co : Coach) (k n : Nat) : (co.hit k n).idleCount = co.idleCount := rfl
@[simp] theorem Coach.hit_accMem (co : Coach) (k n : Nat) : (co.hit k n).accMem = co.accMem := rfl
@[simp] theorem Coach.hit_actTable (co : Coach) (k n : Nat) : (co.hit k n).actTable = co.actTable := rfl
@[simp] theorem Coach.hit_chainIn (co : Coach) (k n : Nat) : (co.hit k n).chainIn = co.chainIn := rfl
@[simp] theorem Coach.hit_vregs (co : Coach) (k n : Nat) : (co.hit k n).vregs = co.vregs := rfl
@[simp] theorem Coach.hit_ttile (co : Coach) (k n : Nat) : (co.hit k n).ttile = co.ttile := rfl
@[simp] theorem Coach.hit_tileQueue (co : Coach) (k n : Nat) : (co.hit k n).tileQueue = co.tileQueue := rfl
@[simp] theorem Coach.hit_opens (co : Coach) (k n : Nat) : (co.hit k n).opens = co.opens := rfl
@[simp] theorem Coach.hit_actDue (co : Coach) (k n : Nat) : (co.hit k n).actDue = co.actDue := rfl
@[simp] theorem Coach.hit_tileAt (co : Coach) (k n : Nat) : (co.hit k n).tileAt = co.tileAt := rfl
@[simp] theorem Coach.hit_regionTags (co : Coach) (k n : Nat) : (co.hit k n).regionTags = co.regionTags := rfl
@[simp] theorem Coach.hit_tagLate (co : Coach) (k n : Nat) : (co.hit k n).tagLate = co.tagLate := rfl
@[simp] theorem Coach.hit_intake (co : Coach) (k n : Nat) : (co.hit k n).intake = co.intake := rfl
@[simp] theorem Coach.hit_intakeAt (co : Coach) (k n : Nat) : (co.hit k n).intakeAt = co.intakeAt := rfl
@[simp] theorem Coach.hit_intakeDone (co : Coach) (k n : Nat) : (co.hit k n).intakeDone = co.intakeDone := rfl
@[simp] theorem Coach.hit_mismatch (co : Coach) (k n : Nat) : (co.hit k n).mismatch = co.mismatch := rfl
@[simp] theorem Coach.hit_mismatchRaised (co : Coach) (k n : Nat) : (co.hit k n).mismatchRaised = co.mismatchRaised := rfl
@[simp] theorem Coach.hit_poisonCount (co : Coach) (k n : Nat) : (co.hit k n).poisonCount = co.poisonCount := rfl
@[simp] theorem Coach.hit_first (co : Coach) (k n : Nat) : (co.hit k n).first = co.first := rfl
@[simp] theorem Coach.hit_digest (co : Coach) (k n : Nat) : (co.hit k n).digest = co.digest := rfl
@[simp] theorem Coach.hit_digestSlots (co : Coach) (k n : Nat) : (co.hit k n).digestSlots = co.digestSlots := rfl

/-! ## All coaches -/

theorem mem_allCoaches (c : CoachId) : c ∈ allCoaches :=
  List.mem_map.mpr ⟨c.toNat, List.mem_range.mpr c.isLt, (BitVec.ofNat_toNat ..).trans (by simp)⟩

theorem nodup_allCoaches : allCoaches.Nodup := by decide

/-- A fold that changes each coach of a list once. -/
theorem State.coach_foldl_onCoach (f : CoachId → Coach → Coach) (c : CoachId) :
    ∀ (l : List CoachId), l.Nodup → ∀ s : State,
      (l.foldl (fun s d => s.onCoach d (f d)) s).coach c = if c ∈ l then f c (s.coach c) else s.coach c
  | [], _, s => by simp
  | d :: l, h, s => by
    have n := List.nodup_cons.mp h
    rw [List.foldl_cons, State.coach_foldl_onCoach f c l n.2]
    by_cases e : c = d
    · subst e; simp [n.1]
    · rw [State.coach_onCoach_other s _ e]; simp [e]

/-- Every coach that the table lists changes once, any other stays as reset left it. -/
theorem State.coach_mapCoaches (s : State) (f : CoachId → Coach → Coach) (c : CoachId) :
    (s.mapCoaches f).coach c = if c ∈ s.listed then f c (s.coach c) else s.coach c :=
  State.coach_foldl_onCoach f c _ (nodup_allCoaches.filter _) s

/-- A key that a table does not list reads as the default. -/
theorem look_unlisted {α : Type} (d : α) : ∀ (m : SMap α) (k : Nat), k ∉ keys m → look d m k = d
  | [], _, _ => rfl
  | (j, v) :: rest, k, h => by
    unfold look
    simp only [keys, List.map_cons, List.mem_cons, not_or] at h
    rw [if_neg fun e => h.1 e.symm]
    exact look_unlisted d rest k h.2

/-- A coach that the table does not list is as reset left it. -/
theorem State.coach_unlisted (s : State) (c : CoachId) (h : c ∉ s.listed) : s.coach c = Coach.reset := by
  unfold State.listed at h
  simp only [List.mem_filter, mem_allCoaches, true_and, List.contains_iff_mem] at h
  exact look_unlisted _ _ _ h
end Sys2Proof.Machine
end

