-- ==== Sys2Proof/Laws/Operands.lean ====
section
/-! SUPPORT. What reads and writes of rows do: a read leaves every row's content, a write changes the row of its place
alone, and the writes that an execution plans leave in the coach what the execution's copy holds. -/

set_option Elab.async false

namespace Sys2Proof.Machine

open Sys2Proof

/-! ## Writes that land -/

/-- Rows after the writes of a list of accesses. -/
def landOn (m : SMap Carriage) (l : List Acc) : SMap Carriage :=
  (l.filter fun a => a.act = .bank && a.write && a.kind ≠ 0).foldl (fun m a => store 0 m a.row (a.put (look 0 m a.row))) m

theorem Coach.landed_eq (co : Coach) : co.landed = landOn co.spad co.accs := rfl

@[simp] theorem landOn_nil (m : SMap Carriage) : landOn m [] = m := rfl

theorem landOn_append (m : SMap Carriage) (l k : List Acc) : landOn m (l ++ k) = landOn (landOn m l) k := by
  unfold landOn
  rw [List.filter_append, List.foldl_append]

theorem landOn_single (m : SMap Carriage) (a : Acc) (h : a.act = .bank) (w : a.write = true) (k : a.kind ≠ 0) :
    landOn m [a] = store 0 m a.row (a.put (look 0 m a.row)) := by
  unfold landOn
  rw [List.filter_cons_of_pos (by simp [h, w, k]), List.filter_nil, List.foldl_cons, List.foldl_nil]

/-- Accesses that write nothing leave every row. -/
theorem landOn_reads (m : SMap Carriage) (l : List Acc) (h : ∀ a ∈ l, a.write = false) : landOn m l = m := by
  unfold landOn
  rw [List.filter_eq_nil_iff.mpr fun a n => by simp [h a n]]
  rfl

/-- A row depends on what it held before alone. -/
theorem landOn_congr (l : List Acc) (r : Nat) : ∀ (m n : SMap Carriage), look 0 m r = look 0 n r →
    look 0 (landOn m l) r = look 0 (landOn n l) r := by
  unfold landOn
  induction l.filter (fun a => a.act = .bank && a.write && a.kind ≠ 0) with
  | nil => exact fun _ _ h => h
  | cons a l ih =>
    intro m n h
    rw [List.foldl_cons, List.foldl_cons]
    apply ih
    rw [look_store, look_store]
    split
    · rename_i e; rw [← e, h]
    · exact h

/-- A row that no access writes is as before. -/
theorem landOn_other (l : List Acc) (r : Nat) (h : ∀ a ∈ l, a.write = true → a.row ≠ r) (m : SMap Carriage) :
    look 0 (landOn m l) r = look 0 m r := by
  unfold landOn
  have h' : ∀ a ∈ l.filter (fun a => a.act = .bank && a.write && a.kind ≠ 0), a.row ≠ r := fun a n => by
    rw [List.mem_filter] at n
    exact h a n.1 (by have := n.2; simp only [Bool.and_eq_true] at this; exact this.1.2)
  generalize l.filter (fun a => a.act = .bank && a.write && a.kind ≠ 0) = k at h'
  induction k generalizing m with
  | nil => rfl
  | cons a k ih =>
    rw [List.foldl_cons, ih _ fun b n => h' b (by simp [n]), look_store_other _ _ _ (h' a (by simp)).symm]

/-- What a row holds where no write to it is under way. -/
theorem Coach.row_calm {co : Coach} {r : Nat} (h : co.calm r) : co.row r = look 0 co.spad r := landOn_other _ _ h _

/-! ## Reads -/

/-- No content is given under the numbers to come. -/
def Ex.Fresh (x : Ex) : Prop := ∀ (g : Got) (k : Nat), x.ords ≤ k → look g x.given k = g

/-- An execution after some reads: accesses have been planned, and content taken. -/
structure Ex.Reads (x y : Ex) : Prop where
  rest : y = { x with
    place := y.place, given := y.given, ords := y.ords, regions := y.regions, accs := y.accs, pace := y.pace }
  accs : ∃ l, y.accs = x.accs ++ l ∧ ∀ a ∈ l, a.write = false
  fresh : x.Fresh → y.Fresh

theorem Ex.Reads.refl (x : Ex) : x.Reads x := ⟨rfl, ⟨[], by simp, by simp⟩, id⟩

theorem Ex.Reads.trans {x y z : Ex} (h : x.Reads y) (k : y.Reads z) : x.Reads z := by
  obtain ⟨l, hl, hw⟩ := h.accs
  obtain ⟨m, km, kw⟩ := k.accs
  refine ⟨by rw [k.rest, h.rest], ⟨l ++ m, by rw [km, hl, List.append_assoc], fun a n => ?_⟩, fun f => k.fresh (h.fresh f)⟩
  rcases List.mem_append.mp n with n | n
  · exact hw a n
  · exact kw a n

theorem Ex.Reads.co {x y : Ex} (h : x.Reads y) : y.co = x.co := by rw [h.rest]
theorem Ex.Reads.eng {x y : Ex} (h : x.Reads y) : y.eng = x.eng := by rw [h.rest]
theorem Ex.Reads.clk {x y : Ex} (h : x.Reads y) : y.clk = x.clk := by rw [h.rest]
theorem Ex.Reads.due {x y : Ex} (h : x.Reads y) : y.due = x.due := by rw [h.rest]
theorem Ex.Reads.filled {x y : Ex} (h : x.Reads y) : y.filled = x.filled := by rw [h.rest]

theorem Ex.Reads.free {x y : Ex} (h : x.Reads y) : x.Reads y.free.2 := h.trans ⟨rfl, ⟨[], by simp [Ex.free], by simp⟩, id⟩

theorem Ex.reads_touch (x : Ex) (row kind : Nat) (c k : Bool) (w : Want) (sl : List Nat) (d : List Carriage) :
    x.Reads (x.touch row kind false c k w sl d) := ⟨rfl, ⟨_, rfl, by simp⟩, id⟩

theorem Ex.reads_noteRegion (x : Ex) (p : Place) : x.Reads (x.noteRegion p) := by
  unfold Ex.noteRegion
  split
  · exact ⟨rfl, ⟨[], by simp, by simp⟩, id⟩
  · exact .refl x

theorem Ex.reads_recallRow (x : Ex) (v : Carriage) : x.Reads (x.recallRow v).2 := by
  refine ⟨rfl, ⟨[], by simp [Ex.recallRow, Ex.recall], by simp⟩, fun f g k n => ?_⟩
  have n' : x.ords + 1 ≤ k := n
  show look g (insert x.given x.ords _) k = g
  rw [look_insert_other _ _ _ (by omega)]
  exact f g k (by omega)

/-- Content under a number that nothing has been given for is what is expected. -/
theorem Ex.recallRow_value (x : Ex) (v : Carriage) (h : x.Fresh) : (x.recallRow v).1 = v := by
  unfold Ex.recallRow Ex.recall
  dsimp only
  rw [h _ _ (Nat.le_refl _)]

theorem Ex.reads_readFor (want : Want) (again : Bool) (x : Ex) (p : Option Place) (named : Nat) (drain : Bool) :
    x.Reads (Ex.readFor want again x p named drain).2 := by
  unfold Ex.readFor
  dsimp only
  split
  · exact ((Ex.Reads.refl x).free.trans (Ex.reads_touch _ _ _ _ _ _ _ _)).trans (Ex.reads_recallRow _ _)
  · exact (((Ex.Reads.refl x).free.trans (Ex.reads_touch _ _ _ _ _ _ _ _)).trans (Ex.reads_noteRegion _ _)).trans
      (Ex.reads_recallRow _ _)

theorem Ex.reads_read (x : Ex) (p : Option Place) (named : Nat) (drain : Bool) : x.Reads (x.read p named drain).2 :=
  Ex.reads_readFor _ _ _ _ _ _

/-- A row that may be read gives its content. -/
theorem Ex.read_value (x : Ex) (p : Place) (named : Nat) (drain : Bool) (hf : x.Fresh) (hr : mayRead p.entry.kind x.eng = true)
    (hd : look 0 x.co.spadDue p.row ≤ x.clk) : (x.read (some p) named drain).1 = look 0 x.co.spad p.row := by
  have ok : (mayRead p.entry.kind x.eng && x.settled p.row) = true := by
    unfold Ex.settled
    simp [hr, hd]
  unfold Ex.read Ex.readFor
  dsimp only
  rw [ok]
  refine Ex.recallRow_value _ _ ?_
  exact (((Ex.Reads.refl x).free.trans (Ex.reads_touch _ _ _ _ _ _ _ _)).trans (Ex.reads_noteRegion _ _)).fresh hf

/-! ## Rows that change -/

/-- An execution whose reads and writes have changed no row outside `S`, and nothing outside the map. -/
structure Ex.Touches (x y : Ex) (S : Nat → Prop) : Prop where
  co : y.co = { x.co with spad := y.co.spad, spadDue := y.co.spadDue }
  row : ∀ r, ¬ S r → look 0 y.co.spad r = look 0 x.co.spad r
  due_row : ∀ r, ¬ S r → look 0 y.co.spadDue r = look 0 x.co.spadDue r
  rest : y = { x with
    co := y.co, place := y.place, given := y.given, ords := y.ords, regions := y.regions, accs := y.accs, pace := y.pace
    filled := y.filled }
  accs : ∃ l, y.accs = x.accs ++ l ∧ landOn x.co.spad l = y.co.spad ∧ ∀ a ∈ l, a.write = true → S a.row
  fresh : x.Fresh → y.Fresh

theorem Ex.Reads.touches {x y : Ex} (h : x.Reads y) (S : Nat → Prop) : x.Touches y S := by
  obtain ⟨l, hl, hw⟩ := h.accs
  exact ⟨by rw [h.co], fun r _ => by rw [h.co], fun r _ => by rw [h.co], by rw [h.rest],
    ⟨l, hl, by rw [landOn_reads _ _ hw, h.co], fun a n w => by rw [hw a n] at w; cases w⟩, h.fresh⟩

theorem Ex.Touches.eng {x y : Ex} {S : Nat → Prop} (h : x.Touches y S) : y.eng = x.eng := by rw [h.rest]
theorem Ex.Touches.clk {x y : Ex} {S : Nat → Prop} (h : x.Touches y S) : y.clk = x.clk := by rw [h.rest]
theorem Ex.Touches.due {x y : Ex} {S : Nat → Prop} (h : x.Touches y S) : y.due = x.due := by rw [h.rest]
theorem Ex.Touches.wild {x y : Ex} {S : Nat → Prop} (h : x.Touches y S) : y.wild = x.wild := by rw [h.rest]

theorem Ex.Touches.refl (x : Ex) (S : Nat → Prop) : x.Touches x S := (Ex.Reads.refl x).touches S

theorem Ex.Touches.trans {x y z : Ex} {S : Nat → Prop} (h : x.Touches y S) (k : y.Touches z S) : x.Touches z S := by
  obtain ⟨l, hl, hm, hw⟩ := h.accs
  obtain ⟨m, kl, km, kw⟩ := k.accs
  refine ⟨by rw [k.co, h.co], fun r n => (k.row r n).trans (h.row r n), fun r n => (k.due_row r n).trans (h.due_row r n),
    by rw [k.rest, h.rest], ⟨l ++ m, by rw [kl, hl, List.append_assoc], by rw [landOn_append, hm, km], fun a n => ?_⟩,
    fun f => k.fresh (h.fresh f)⟩
  rcases List.mem_append.mp n with n | n
  · exact hw a n
  · exact kw a n

theorem Ex.Touches.mono {x y : Ex} {S T : Nat → Prop} (h : x.Touches y S) (k : ∀ r, S r → T r) : x.Touches y T := by
  obtain ⟨l, hl, hm, hw⟩ := h.accs
  exact ⟨h.co, fun r n => h.row r fun m => n (k r m), fun r n => h.due_row r fun m => n (k r m), h.rest,
    ⟨l, hl, hm, fun a n w => k _ (hw a n w)⟩, h.fresh⟩

/-- Slots that a predicate selects, as a list. -/
theorem mem_slotsOf (f : Nat → Bool) {s : Nat} (h : s < 64) : (slotsOf f).contains s = f s := by
  unfold slotsOf
  rw [Bool.eq_iff_iff]
  simp [h]

theorem Ex.spadDue_setRow (x : Ex) (row : Nat) (new : Carriage) : (x.setRow row new).co.spadDue =
    if eid x.eng ≤ 4 then store 0 x.co.spadDue row x.due else x.co.spadDue := rfl

theorem Ex.spadDue_write (x : Ex) (p : Place) (named : Nat) (f : Nat → Bool) (v : Carriage) :
    (x.write (some p) named f v).co.spadDue = if eid x.eng ≤ 4 then store 0 x.co.spadDue p.row x.due else x.co.spadDue := by
  unfold Ex.write
  dsimp only
  rw [Ex.spadDue_setRow]
  rfl

theorem Ex.spad_setRow (x : Ex) (row : Nat) (new : Carriage) : (x.setRow row new).co.spad = store 0 x.co.spad row new := rfl

/-- The copy after a write. -/
theorem Ex.spad_write (x : Ex) (p : Place) (named : Nat) (f : Nat → Bool) (v : Carriage) :
    (x.write (some p) named f v).co.spad = store 0 x.co.spad p.row
      (mergeSlots (look 0 x.co.spad p.row) (if mayWrite p.entry.kind x.eng then v else x.free.1) f) := by
  unfold Ex.write
  dsimp only
  rw [Ex.spad_setRow]
  rfl

theorem Ex.co_setRow {x y : Ex} (h : y.co = x.co) (row : Nat) (new : Carriage) : (y.setRow row new).co =
    { x.co with spad := (y.setRow row new).co.spad, spadDue := (y.setRow row new).co.spadDue } := by
  rw [← h]; rfl

theorem Ex.co_write (x : Ex) (p : Place) (named : Nat) (f : Nat → Bool) (v : Carriage) : (x.write (some p) named f v).co =
    { x.co with spad := (x.write (some p) named f v).co.spad, spadDue := (x.write (some p) named f v).co.spadDue } := by
  obtain ⟨y, w, e, h⟩ : ∃ y w, x.write (some p) named f v = Ex.setRow y p.row w ∧ y.co = x.co := ⟨_, _, rfl, rfl⟩
  rw [e]
  exact Ex.co_setRow h _ _

theorem Ex.given_write (x : Ex) (p : Place) (named : Nat) (f : Nat → Bool) (v : Carriage) :
    (x.write (some p) named f v).given = x.given := by
  obtain ⟨y, w, e, h⟩ : ∃ y w, x.write (some p) named f v = Ex.setRow y p.row w ∧ y.given = x.given := ⟨_, _, rfl, rfl⟩
  rw [e]
  exact h

theorem Ex.ords_write (x : Ex) (p : Place) (named : Nat) (f : Nat → Bool) (v : Carriage) :
    (x.write (some p) named f v).ords = x.ords + 1 := by
  obtain ⟨y, w, e, h⟩ : ∃ y w, x.write (some p) named f v = Ex.setRow y p.row w ∧ y.ords = x.ords + 1 := ⟨_, _, rfl, rfl⟩
  rw [e]
  exact h

/-- A write changes no row but that of its place. -/
theorem Ex.touches_write (x : Ex) (p : Place) (named : Nat) (f : Nat → Bool) (v : Carriage) (hk : p.entry.kind ≠ 0) :
    x.Touches (x.write (some p) named f v) (fun r => r = p.row) := by
  have hs : ∀ (old new : Carriage), mergeSlots old new (fun s => (slotsOf f).contains s) = mergeSlots old new f := fun old new =>
    carriage_ext _ _ fun s h => by rw [slotOf_mergeSlots _ _ _ _ h, slotOf_mergeSlots _ _ _ _ h, mem_slotsOf f h]
  refine ⟨Ex.co_write _ _ _ _ _, fun r n => ?_, fun r n => ?_, ?_, ⟨_, rfl, ?_, ?_⟩, fun g k e n => ?_⟩
  · rw [Ex.spad_write, look_store_other _ _ _ n]
  · rw [Ex.spadDue_write]
    split
    · exact look_store_other _ _ _ n
    · rfl
  · rfl
  · rw [landOn_single _ _ rfl rfl hk, Ex.spad_write, ← hs]
    dsimp only [Acc.put, List.headD]
  · intro a m _
    simp only [List.mem_singleton] at m
    subst m
    dsimp only
  · rw [Ex.given_write]
    rw [Ex.ords_write] at n
    exact g k e (by omega)

/-- A row that may be written takes the selected slots of the value, to be read from the clk of the results on where R111 speaks of the
engine. -/
theorem Ex.write_value (x : Ex) (p : Place) (named : Nat) (f : Nat → Bool) (v : Carriage) (h : mayWrite p.entry.kind x.eng = true)
    (e : eid x.eng ≤ 4) :
    look 0 (x.write (some p) named f v).co.spad p.row = mergeSlots (look 0 x.co.spad p.row) v f ∧
      look 0 (x.write (some p) named f v).co.spadDue p.row = x.due := by
  refine ⟨?_, ?_⟩
  · rw [Ex.spad_write, look_store_same, if_pos h]
  · rw [Ex.spadDue_write, if_pos e]
    exact look_store_same _ _ _ _

/-! ## Runs -/

/-- A place of the map has a kind. -/
theorem mayWrite_kind {k : Nat} {e : Engine} (h : mayWrite k e = true) : k ≠ 0 := by
  rintro rfl; cases h

/-- Reading carriages leaves every row. -/
theorem Ex.reads_readAll (x : Ex) (r : Run) (offs : List Int) (drain : Bool) : x.Reads (x.readAll r offs drain).2 := by
  unfold Ex.readAll
  suffices h : ∀ (offs : List Int) (a : List Carriage × Ex), x.Reads a.2 →
      x.Reads (offs.foldl (fun (a : List Carriage × Ex) o =>
        let q := a.2.readAt r o drain
        (a.1 ++ [q.1], q.2)) a).2 from h offs ([], x) (.refl x)
  intro offs
  induction offs with
  | nil => intro a h; exact h
  | cons o offs ih => intro a h; exact ih _ (h.trans (Ex.reads_read _ _ _ _))

/-- Carriages that may be read give what their rows hold. -/
theorem Ex.readAll_values (x : Ex) (r : Run) (offs : List Int) (drain : Bool) (hf : x.Fresh)
    (h : ∀ o ∈ offs, ∃ p, r.place o = some p ∧ x.co.readable x.eng x.clk p) :
    (x.readAll r offs drain).1 = offs.map (x.co.held r) := by
  unfold Ex.readAll
  suffices k : ∀ (offs : List Int) (a : List Carriage × Ex), x.Reads a.2 →
      (∀ o ∈ offs, ∃ p, r.place o = some p ∧ x.co.readable x.eng x.clk p) →
      (offs.foldl (fun (a : List Carriage × Ex) o =>
        let q := a.2.readAt r o drain
        (a.1 ++ [q.1], q.2)) a).1 = a.1 ++ offs.map (x.co.held r) by
    simpa using k offs ([], x) (.refl x) h
  intro offs
  induction offs with
  | nil => intro a _ _; simp
  | cons o offs ih =>
    intro a ha hp
    obtain ⟨p, e, hr⟩ := hp o (by simp)
    rw [List.foldl_cons, ih _ (ha.trans (Ex.reads_read _ _ _ _)) fun o' m => hp o' (by simp [m])]
    have v : (a.2.readAt r o drain).1 = x.co.held r o := by
      unfold Ex.readAt Coach.held
      rw [e, Ex.read_value _ _ _ _ (ha.fresh hf) (by rw [ha.eng]; exact hr.1) (by rw [ha.co, ha.clk]; exact hr.2.1), ha.co]
      exact (Coach.row_calm hr.2.2).symm
    simp [v]

theorem Ex.touches_writeAt (x : Ex) (r : Run) (off : Int) (v : Carriage) (p : Place) (e : r.place off = some p) (hk : p.entry.kind ≠ 0) :
    x.Touches (x.writeAt r off v) (fun row => row = p.row) := by
  unfold Ex.writeAt
  rw [e]
  exact x.touches_write _ _ _ _ hk

/-- What a row of the execution's copy holds, and the clk from which it may be read. -/
def Coach.rowIs (co : Coach) (r : Nat) (v : Carriage) (due : Nat) : Prop := look 0 co.spad r = v ∧ look 0 co.spadDue r = due

/-- A carriage that may be written holds the value. -/
theorem Ex.writeAt_value (x : Ex) (r : Run) (off : Int) (v : Carriage) (p : Place) (e : r.place off = some p)
    (h : mayWrite p.entry.kind x.eng = true) (he : eid x.eng ≤ 4) : (x.writeAt r off v).co.rowIs p.row v x.due := by
  unfold Ex.writeAt
  rw [e]
  have k := Ex.write_value x p r.named allSlots v h he
  exact ⟨k.1.trans (mergeSlots_all _ _ allSlots fun _ => rfl), k.2⟩

/-- A sequence of steps, each of which gives one row its value and touches no other of the rows: at the end every row
holds its value. -/
theorem Ex.foldl_rows {ι : Type} (x : Ex) (f : Ex → ι → Ex) (row : ι → Nat) (val : ι → Carriage) (S : Nat → Prop)
    (l : List ι) (hs : ∀ i ∈ l, S (row i)) (hn : (l.map row).Nodup)
    (hf : ∀ y, x.Touches y S → ∀ i ∈ l, y.Touches (f y i) (fun r => r = row i) ∧ (f y i).co.rowIs (row i) (val i) y.due) :
    x.Touches (l.foldl f x) S ∧ ∀ i ∈ l, (l.foldl f x).co.rowIs (row i) (val i) x.due := by
  suffices k : ∀ (l : List ι) (y : Ex), x.Touches y S → (∀ i ∈ l, S (row i)) → (l.map row).Nodup →
      (∀ y, x.Touches y S → ∀ i ∈ l, y.Touches (f y i) (fun r => r = row i) ∧ (f y i).co.rowIs (row i) (val i) y.due) →
      x.Touches (l.foldl f y) S ∧ (∀ i ∈ l, (l.foldl f y).co.rowIs (row i) (val i) x.due) ∧
        ∀ r, r ∉ l.map row → look 0 (l.foldl f y).co.spad r = look 0 y.co.spad r ∧
          look 0 (l.foldl f y).co.spadDue r = look 0 y.co.spadDue r by
    have := k l x (.refl x S) hs hn hf
    exact ⟨this.1, this.2.1⟩
  intro l
  induction l with
  | nil => intro y hy _ _ _; exact ⟨hy, by simp, fun _ _ => ⟨rfl, rfl⟩⟩
  | cons i l ih =>
    intro y hy hs hn hf
    have hi := hf y hy i (by simp)
    have hy' : x.Touches (f y i) S := hy.trans (hi.1.mono fun r e => e ▸ hs i (by simp))
    rw [List.map_cons, List.nodup_cons] at hn
    have k := ih (f y i) hy' (fun j m => hs j (by simp [m])) hn.2 fun z hz j m => hf z hz j (by simp [m])
    rw [List.foldl_cons]
    refine ⟨k.1, fun j m => ?_, fun r n => ?_⟩
    · rcases List.mem_cons.mp m with e | m
      · subst e; exact ⟨(k.2.2 _ hn.1).1.trans hi.2.1, (k.2.2 _ hn.1).2.trans (hi.2.2.trans hy.due)⟩
      · exact k.2.1 j m
    · simp only [List.map_cons, List.mem_cons, not_or] at n
      exact ⟨(k.2.2 r n.2).1.trans (hi.1.row r n.1), (k.2.2 r n.2).2.trans (hi.1.due_row r n.1)⟩

end Sys2Proof.Machine
end

