-- ==== Sys2Proof/Laws/Time.lean ====
section
/-! SUPPORT. What the passage of clk changes: `Later` holds of any two states between which nothing but clk has passed. -/

set_option Elab.async false

namespace Sys2Proof.Machine

open Sys2Proof

/-! ## What latches, packets and requests leave alone -/

/-- Tasks, events, packets and free values aside, nothing has changed. -/
structure Quiet (s t : State) : Prop where
  rest : t = { s with freeCtr := t.freeCtr, early := t.early, tasks := t.tasks, evt := t.evt, ehl := t.ehl }

theorem Quiet.refl (s : State) : Quiet s s := ⟨rfl⟩

theorem Quiet.trans {s t u : State} (h : Quiet s t) (k : Quiet t u) : Quiet s u := ⟨by rw [k.1, h.1]⟩

theorem Quiet.foldl {α : Type} {s : State} {f : State → α → State} (hf : ∀ t x, Quiet s t → Quiet s (f t x)) :
    ∀ (l : List α) {t : State}, Quiet s t → Quiet s (l.foldl f t)
  | [], _, h => h
  | x :: l, _, h => Quiet.foldl hf l (hf _ x h)

theorem Quiet.foldl_snd {α β : Type} {s : State} {f : β × State → α → β × State}
    (hf : ∀ p x, Quiet s p.2 → Quiet s (f p x).2) :
    ∀ (l : List α) {p : β × State}, Quiet s p.2 → Quiet s (l.foldl f p).2
  | [], _, h => h
  | x :: l, _, h => Quiet.foldl_snd hf l (hf _ x h)

theorem Quiet.upd {u t : State} {freeCtr early tasks evt ehl} (h : Quiet u t) :
    Quiet u ⟨t.clk, freeCtr, early, t.coaches, t.contexts, t.policy, t.policyHash, tasks, t.hif, evt, t.kst, t.hbm, ehl, t.boot,
      t.sec, t.board, t.bus, t.host, t.pending⟩ :=
  h.trans ⟨rfl⟩

theorem Quiet.coach {s t : State} (h : Quiet s t) (c : CoachId) : t.coach c = s.coach c := by
  unfold State.coach; rw [h.1]

theorem State.onTask_quiet {u : State} (s : State) (key : Nat) (f : Task → Task) (hk : Quiet u s) :
    Quiet u (s.onTask key f) := by
  unfold State.onTask
  iterate 40 all_goals try first
    | with_reducible first | assumption
    | split | dsimp only | with_reducible refine Quiet.upd ?_

theorem State.freed_quiet {u : State} (s : State) (hk : Quiet u s) : Quiet u s.freed := by
  exact hk.upd

theorem State.hit_quiet {u : State} (s : State) (k before : Nat) (hk : Quiet u s) : Quiet u (s.hit k before) := by
  exact hk.upd

theorem State.raise_quiet {u : State} (s : State) (source code payload : Nat) (hk : Quiet u s) :
    Quiet u (s.raise source code payload) := by
  exact hk.upd

theorem State.setPort_quiet {u : State} (s : State) (p : Nat) (v : Port) (hk : Quiet u s) :
    Quiet u (s.setPort p v) := by
  exact hk.upd

theorem State.release_quiet {u : State} (s : State) (o : OutPkt) (hk : Quiet u s) : Quiet u (s.release o) := by
  unfold State.release
  iterate 40 all_goals try first
    | with_reducible first | assumption | apply State.setPort_quiet
    | split | dsimp only | with_reducible refine Quiet.upd ?_

theorem State.emitAt_quiet {u : State} (s : State) (p : Nat) (o : OutPkt) (hk : Quiet u s) :
    ∀ t, s.emitAt p o = some t → Quiet u t := by
  intro t e
  unfold State.emitAt at e
  dsimp only at e
  split at e
  · split at e
    · cases e
      exact State.setPort_quiet _ _ _ (State.hit_quiet _ _ _ hk)
    · cases e
  · cases e

theorem State.sendAt_quiet {u : State} (s : State) (p : Nat) (o : OutPkt) (hk : Quiet u s) :
    Quiet u (s.sendAt p o) := by
  unfold State.sendAt
  iterate 40 all_goals try first
    | with_reducible first | assumption | apply State.setPort_quiet | apply State.release_quiet
                            | (apply State.emitAt_quiet <;> assumption)
    | split | dsimp only | with_reducible refine Quiet.upd ?_

theorem State.flushOne_quiet {u : State} (s : State) (p : Nat) (hk : Quiet u s) : Quiet u (s.flushOne p) := by
  unfold State.flushOne
  iterate 40 all_goals try first
    | with_reducible first | assumption | apply Quiet.foldl | apply State.setPort_quiet | apply State.sendAt_quiet
                            | intro _
    | split | dsimp only | with_reducible refine Quiet.upd ?_

theorem State.discard_quiet {u : State} (s : State) (hk : Quiet u s) : Quiet u s.discard := by
  unfold State.discard
  iterate 40 all_goals try first
    | with_reducible first | assumption | apply State.hit_quiet
    | split | dsimp only | with_reducible refine Quiet.upd ?_

theorem State.sendStamped_quiet {u : State} (s : State) (t : PktType) (k : Packet) (x : Option Stamp) (hk : Quiet u s) :
    Quiet u (s.sendStamped t k x) := by
  unfold State.sendStamped
  iterate 40 all_goals try first
    | with_reducible first | assumption | apply State.sendAt_quiet | apply State.discard_quiet
    | split | dsimp only | with_reducible refine Quiet.upd ?_

theorem State.sendPacket_quiet {u : State} (s : State) (t : PktType) (k : Packet) (hk : Quiet u s) :
    Quiet u (s.sendPacket t k) := State.sendStamped_quiet s t k none hk

theorem State.sendCopies_quiet {u : State} (s : State) (o : OutPkt) (hk : Quiet u s) : Quiet u (s.sendCopies o) := by
  unfold State.sendCopies
  dsimp only
  split
  · exact hk
  · refine State.release_quiet _ _ (Quiet.foldl (fun v p hv => ?_) _ hk)
    split
    · exact State.emitAt_quiet _ _ _ (State.setPort_quiet _ _ _ hv) _ ‹_›
    · exact hv

theorem State.flushPort_quiet {u : State} (s : State) (p : Nat) (hk : Quiet u s) : ∀ n, Quiet u (s.flushPort p n) := by
  intro n
  induction n generalizing s with
  | zero => exact hk
  | succ n ih =>
    unfold State.flushPort
    iterate 40 all_goals try first
      | with_reducible first | assumption | apply ih | apply Quiet.foldl | apply State.flushOne_quiet
                              | apply State.sendCopies_quiet | intro _
      | split | dsimp only | with_reducible refine Quiet.upd ?_

theorem State.portsGoOn_quiet {u : State} (s : State) (hk : Quiet u s) : Quiet u s.portsGoOn :=
  Quiet.foldl (fun t _ h => State.flushPort_quiet t _ h _) _ hk

theorem State.sendAborts_quiet {u : State} (s : State) (t : Task) (code : BitVec 8) (hk : Quiet u s) :
    Quiet u (s.sendAborts t code) := by
  unfold State.sendAborts
  split
  · exact hk
  · exact Quiet.foldl (fun t _ h => State.sendPacket_quiet t _ _ h) _ hk

theorem State.latch_quiet {u : State} (s : State) (key : Nat) (a : AbortCond) (hk : Quiet u s) :
    Quiet u (s.latch key a) := by
  unfold State.latch
  iterate 40 all_goals try first
    | with_reducible first | assumption | apply State.onTask_quiet
    | split | dsimp only | with_reducible refine Quiet.upd ?_

theorem State.holdAbort_quiet {u : State} (s : State) (t : Task) (a : AbortCond) (hk : Quiet u s) : Quiet u (s.holdAbort t a) := hk.upd

theorem State.announce_quiet {u : State} (s : State) (t : Task) (hk : Quiet u s) : Quiet u (s.announce t) := by
  unfold State.announce
  dsimp only
  repeat' split
  all_goals first
    | exact hk
    | exact State.sendAborts_quiet _ _ _ (State.holdAbort_quiet _ _ _ hk)
    | exact State.sendAborts_quiet _ _ _ (State.raise_quiet _ _ _ _ hk)
    | exact State.holdAbort_quiet _ _ _ hk
    | exact State.raise_quiet _ _ _ _ hk

theorem State.tellAborts_quiet {u : State} (s : State) (hk : Quiet u s) : Quiet u s.tellAborts :=
  Quiet.foldl (fun t _ h => State.announce_quiet t _ h) _ hk

theorem State.latchCoach_quiet {u : State} (s : State) (c : CoachId) (code : AbortCode) (payload : Nat)
    (hk : Quiet u s) :
    Quiet u (s.latchCoach c code payload) := by
  unfold State.latchCoach
  split
  · exact State.latch_quiet _ _ _ hk
  · exact hk

theorem State.newRid_quiet {u : State} (s : State) (hk : Quiet u s) : Quiet u (s.newRid).2 := by
  exact hk.upd

theorem State.readRemote_quiet {u : State} (s : State) (who : Reader) (tkey : Nat) (tag : BitVec 16) (n : NodeId)
    (addr : Nat) (x : Option Stamp) (hk : Quiet u s) :
    Quiet u (s.readRemote who tkey tag n addr x).2 := by
  unfold State.readRemote
  iterate 40 all_goals try first
    | with_reducible first | assumption | apply State.sendStamped_quiet | apply State.newRid_quiet
    | split | dsimp only | with_reducible refine Quiet.upd ?_

theorem State.applyFabric_quiet {u : State} (s : State) (n : NodeId) (tag : BitVec 16) (addr : Nat)
    (wr : SMap (Byte × Byte)) (x : Option Stamp) (hk : Quiet u s) :
    Quiet u (s.applyFabric n tag addr wr x) := by
  unfold State.applyFabric
  iterate 40 all_goals try first
    | with_reducible first | assumption | apply State.freed_quiet | apply State.sendStamped_quiet
    | split | dsimp only | with_reducible refine Quiet.upd ?_

/-! ## Coaches some clk later -/

theorem EngineS.Later.refl (a : EngineS) : a.Later a := ⟨rfl, rfl, rfl, Nat.le_refl _, Nat.le_refl _⟩

theorem EngineS.Later.trans {a b c : EngineS} (h : a.Later b) (k : b.Later c) : a.Later c :=
  ⟨by rw [k.1, h.1], k.2.1.trans h.2.1, k.2.2.1.trans h.2.2.1, Nat.le_trans h.2.2.2.1 k.2.2.2.1, Nat.le_trans h.2.2.2.2 k.2.2.2.2⟩

theorem EngineS.Later.st {a b : EngineS} (h : a.Later b) : b.st = a.st := by rw [h.1]

/-- A transfer changes and stays open. -/
theorem EngineS.later_transfer (v : EngineS) (t : Option Transfer) (h : t.isSome = v.transfer.isSome) :
    v.Later { v with transfer := t } :=
  ⟨rfl, h, rfl, Nat.le_refl _, Nat.le_refl _⟩

/-- A coach in which accesses may have been made. -/
structure Coach.Loose (a b : Coach) : Prop where
  same : b = { a with
    spad := b.spad, ecc := b.ecc, rowCorr := b.rowCorr, eccCorr := b.eccCorr, eccCorrSet := b.eccCorrSet, eccAddr := b.eccAddr
    eccUncorr := b.eccUncorr, eccUncorrSet := b.eccUncorrSet, repairs := b.repairs, fill := b.fill, spadDue := b.spadDue
    vregs := b.vregs, vregDue := b.vregDue, accMem := b.accMem, actTable := b.actTable, actDue := b.actDue, tileAt := b.tileAt
    tileQueue := b.tileQueue, chainIn := b.chainIn, opens := b.opens, banks := b.banks, hdrLate := b.hdrLate, tagLate := b.tagLate
    accs := b.accs, doors := b.doors, engines := b.engines, sigs := b.sigs, stall := b.stall, shutWait := b.shutWait
    wdogCount := b.wdogCount, idleCount := b.idleCount, early := b.early, startTime := b.startTime, sat := b.sat
    satSet := b.satSet, satDoor := b.satDoor, satSeen := b.satSeen, hazard := b.hazard, hazardSet := b.hazardSet
    hazardKind := b.hazardKind, hazardInfo := b.hazardInfo, digest := b.digest }
  engine : ∀ e, (∀ d n, (a.engine e).st ≠ .onWait d n) → (a.engine e).Later (b.engine e)

theorem Coach.Later.loose {a b : Coach} (h : a.Later b) : a.Loose b := ⟨h.same, h.engine⟩

theorem Coach.Loose.later {a b : Coach} (h : a.Loose b) (n : a.accs ≠ []) : a.Later b := ⟨h.same, h.engine, fun q => absurd q n⟩

theorem Coach.Loose.trans {a b c : Coach} (h : a.Loose b) (k : b.Loose c) : a.Loose c :=
  ⟨by rw [k.same, h.same], fun e w => (h.engine e w).trans (k.engine e (by rw [(h.engine e w).st]; exact w))⟩

theorem Coach.Later.trans {a b c : Coach} (h : a.Later b) (k : b.Later c) : a.Later c := by
  have l := h.loose.trans k.loose
  refine ⟨l.same, l.engine, fun q => ?_⟩
  have p := h.quiet q
  have r := k.quiet p.accs
  exact ⟨r.accs, ⟨r.rows.1.trans p.rows.1, r.rows.2.trans p.rows.2⟩, ⟨r.registers.1.trans p.registers.1, r.registers.2.trans p.registers.2⟩,
    ⟨r.headers.1.trans p.headers.1, r.headers.2.trans p.headers.2⟩, r.signals.trans p.signals, r.digest.trans p.digest, fun e w => by
      have x := r.engine e (by rw [(h.engine e w).st]; exact w)
      have y := p.engine e w
      exact ⟨x.1.trans y.1, x.2.trans y.2⟩⟩

theorem Coach.Holds.trans {a b c : Coach} (h : a.Holds b) (k : b.Holds c) : a.Holds c := by
  refine ⟨k.opens.trans h.opens, fun b n => k.bank b (h.bank b n), fun r n => ?_, ?_, ?_⟩
  · have x := h.row r n
    have y := k.row r (h.bank _ n)
    exact ⟨y.1.trans x.1, y.2.trans x.2⟩
  · exact ⟨k.registers.1.trans h.registers.1, k.registers.2.1.trans h.registers.2.1, k.registers.2.2.trans h.registers.2.2⟩
  · exact ⟨k.tiles.1.trans h.tiles.1, k.tiles.2.trans h.tiles.2⟩

/-- A coach some clk later that holds what it held. -/
def Coach.Passes (a b : Coach) : Prop := a.Later b ∧ a.Holds b

theorem Coach.Passes.trans {a b c : Coach} (h : a.Passes b) (k : b.Passes c) : a.Passes c := ⟨h.1.trans k.1, h.2.trans k.2⟩

theorem Coach.Passes.foldl {α : Type} {f : Coach → α → Coach} (hf : ∀ (co : Coach) (x : α), co.Passes (f co x)) (h : ∀ co : Coach, co.Passes co) :
    ∀ (l : List α) (co : Coach), co.Passes (l.foldl f co)
  | [], co => h co
  | x :: l, co => (hf co x).trans (Coach.Passes.foldl hf h l (f co x))

/-- A coach whose counts, reports and doors alone have changed. -/
def Coach.Booked (a b : Coach) : Prop :=
  b = { a with
    doors := b.doors, stall := b.stall, shutWait := b.shutWait, wdogCount := b.wdogCount, idleCount := b.idleCount, early := b.early
    startTime := b.startTime, sat := b.sat, satSet := b.satSet, satDoor := b.satDoor, satSeen := b.satSeen, hazard := b.hazard
    hazardSet := b.hazardSet, hazardKind := b.hazardKind, hazardInfo := b.hazardInfo, rowCorr := b.rowCorr, eccCorr := b.eccCorr
    eccCorrSet := b.eccCorrSet, eccAddr := b.eccAddr, eccUncorr := b.eccUncorr, eccUncorrSet := b.eccUncorrSet, repairs := b.repairs }

theorem Coach.Booked.refl (a : Coach) : a.Booked a := rfl

theorem Coach.Booked.trans {a b c : Coach} (h : a.Booked b) (k : b.Booked c) : a.Booked c := by
  unfold Coach.Booked at *
  rw [k, h]

theorem Coach.Booked.engine {a b : Coach} (h : a.Booked b) (e : Engine) : b.engine e = a.engine e := by
  unfold Coach.engine; rw [h]

theorem Coach.Booked.bank {a b : Coach} (h : a.Booked b) (k : Nat) : b.bank k = a.bank k := by
  unfold Coach.bank; rw [h]

theorem Coach.Booked.passes {a b : Coach} (h : a.Booked b) : a.Passes b := by
  refine ⟨⟨by rw [h], fun e _ => by rw [h.engine e]; exact .refl _, fun q => ⟨?_, ?_, ?_, ?_, ?_, ?_, fun e _ => ?_⟩⟩,
    ⟨?_, fun k n => by rw [h.bank k]; exact n, fun r _ => ?_, ?_, ?_⟩⟩
  · rw [h]; exact q
  · rw [h]; exact ⟨rfl, rfl⟩
  · rw [h]; exact ⟨rfl, rfl⟩
  · rw [h]; exact ⟨rfl, rfl⟩
  · rw [h]
  · rw [h]
  · rw [h.engine e]; exact ⟨rfl, rfl⟩
  · rw [h]
  · rw [h]; exact ⟨rfl, rfl⟩
  · rw [h]; exact ⟨rfl, rfl, rfl⟩
  · rw [h]; exact ⟨rfl, rfl⟩

theorem Coach.Passes.refl (a : Coach) : a.Passes a := (Coach.Booked.refl a).passes

theorem Coach.Later.refl (a : Coach) : a.Later a := (Coach.Passes.refl a).1

theorem Coach.Loose.refl (a : Coach) : a.Loose a := (Coach.Later.refl a).loose

theorem Coach.Booked.foldl {α : Type} {f : Coach → α → Coach} (hf : ∀ (co : Coach) (x : α), co.Booked (f co x)) :
    ∀ (l : List α) (co : Coach), co.Booked (l.foldl f co)
  | [], co => .refl co
  | x :: l, co => (hf co x).trans (Coach.Booked.foldl hf l (f co x))

theorem Coach.Loose.foldl {α : Type} {f : Coach → α → Coach} (hf : ∀ (co : Coach) (x : α), co.Loose (f co x)) :
    ∀ (l : List α) (co : Coach), co.Loose (l.foldl f co)
  | [], co => .refl co
  | x :: l, co => (hf co x).trans (Coach.Loose.foldl hf l (f co x))

/-- An engine of a coach has changed as clk may change it. -/
theorem Coach.passes_setEngine (co : Coach) (e : Engine) (v : EngineS)
    (h : (∀ d n, (co.engine e).st ≠ .onWait d n) → (co.engine e).Later v ∧
      v.busyUntil = (co.engine e).busyUntil ∧ v.nextIssue = (co.engine e).nextIssue) : co.Passes (co.setEngine e v) := by
  have key : ∀ f, (∀ d n, (co.engine f).st ≠ .onWait d n) → (co.engine f).Later ((co.setEngine e v).engine f) ∧
      ((co.setEngine e v).engine f).busyUntil = (co.engine f).busyUntil ∧
      ((co.setEngine e v).engine f).nextIssue = (co.engine f).nextIssue := by
    intro f w
    by_cases hf : f = e
    · subst hf; rw [Coach.engine_setEngine]; exact h w
    · rw [Coach.engine_setEngine_other co v hf]; exact ⟨.refl _, rfl, rfl⟩
  exact ⟨⟨rfl, fun f w => (key f w).1, fun q => ⟨q, ⟨rfl, rfl⟩, ⟨rfl, rfl⟩, ⟨rfl, rfl⟩, rfl, rfl, fun f w => (key f w).2⟩⟩,
    ⟨rfl, fun _ n => n, fun _ _ => ⟨rfl, rfl⟩, ⟨rfl, rfl, rfl⟩, ⟨rfl, rfl⟩⟩⟩

theorem Coach.passes_onTransfer (co : Coach) (e : Engine) (f : Transfer → Transfer) : co.Passes (co.onTransfer e f) :=
  co.passes_setEngine e _ fun _ => ⟨EngineS.later_transfer _ _ (by simp), rfl, rfl⟩

theorem Coach.passes_takeImages (co : Coach) (clk : Nat) : co.Passes (co.takeImages clk) := by
  unfold Coach.takeImages
  dsimp only
  split
  · exact .refl co
  · rename_i t ht
    split
    · exact .refl co
    · exact co.passes_setEngine _ _ fun _ => ⟨EngineS.later_transfer _ _ (by rw [ht]; rfl), rfl, rfl⟩

theorem Coach.passes_stamp (t : Nat) (fill : SMap Bool) (co : Coach) : co.Passes (co.stamp t fill) :=
  (co.passes_takeImages t).trans (Coach.Passes.foldl (fun co e => co.passes_onTransfer e _) .refl _ _)

theorem Coach.passes_accepted (co : Coach) (clk : Nat) (q : Req) : co.Passes (co.accepted clk q) := co.passes_onTransfer _ _

theorem later_le (t x : Nat) : x ≤ later t x := by unfold later; split <;> omega

/-- A coach whose engines are as before. -/
theorem Coach.Loose.of {a b : Coach} (h : b = { a with
    spad := b.spad, ecc := b.ecc, fill := b.fill, tileAt := b.tileAt, accs := b.accs, opens := b.opens, vregs := b.vregs
    accMem := b.accMem, actTable := b.actTable, digest := b.digest }) : a.Loose b := by
  refine ⟨by rw [h], fun e _ => ?_⟩
  have : b.engine e = a.engine e := by unfold Coach.engine; rw [h]
  rw [this]; exact .refl _

/-- A bank conflict delays the instructions under way of its loser. -/
theorem Coach.loose_delay (co : Coach) (t : Nat) (e : Engine) : co.Loose (co.delay t e) := by
  refine ⟨?_, fun f w => ?_⟩
  · unfold Coach.delay; dsimp only; split <;> rfl
  · have eng : (co.delay t e).engines = store EngineS.zero co.engines (eid e) ((co.delay t e).engine e) := by
      unfold Coach.engine Coach.delay; dsimp only
      split <;> simp [Coach.setEngine, Coach.addStall]
    by_cases hf : f = e
    · subst hf
      have hv : (co.delay t f).engine f = { co.engine f with
          lostTo := t + 1, busyUntil := later t (co.engine f).busyUntil
          nextIssue := if (co.engine f).st = .issuing then later t (co.engine f).nextIssue else (co.engine f).nextIssue
          transfer := ((co.delay t f).engine f).transfer, kin := ((co.delay t f).engine f).kin } ∧
          ((co.delay t f).engine f).transfer.isSome = (co.engine f).transfer.isSome ∧
          ((co.delay t f).engine f).kin.isSome = (co.engine f).kin.isSome := by
        unfold Coach.delay; dsimp only
        split <;> (unfold Coach.engine; simp [Coach.setEngine, Coach.addStall])
      refine ⟨by rw [hv.1], hv.2.1, hv.2.2, by rw [hv.1]; exact later_le _ _, ?_⟩
      rw [hv.1]; dsimp only; split
      · exact later_le _ _
      · exact Nat.le_refl _
    · have : (co.delay t e).engine f = co.engine f := by
        unfold Coach.engine
        rw [eng]
        exact look_store_other _ _ _ fun h => hf (eid_injective h)
      rw [this]; exact .refl _

/-! ## The device some clk later -/

/-- A device whose coaches all hold what they held. -/
structure Passes (s t : State) : Prop where
  coach : ∀ c, (s.coach c).Passes (t.coach c)
  rest : t = { s with
    freeCtr := t.freeCtr, early := t.early, coaches := t.coaches, tasks := t.tasks, evt := t.evt, kst := t.kst
    ehl := t.ehl, board := t.board, host := t.host }

theorem Passes.refl (s : State) : Passes s s := ⟨fun _ => .refl _, rfl⟩

theorem Passes.trans {s t u : State} (h : Passes s t) (k : Passes t u) : Passes s u :=
  ⟨fun c => (h.1 c).trans (k.1 c), by rw [k.2, h.2]⟩

theorem Passes.later {s t : State} (h : Passes s t) : Later s t := ⟨fun c => (h.1 c).1, fun _ c => (h.1 c).2, by rw [h.2]⟩

theorem Later.refl (s : State) : Later s s := (Passes.refl s).later

theorem Later.trans {s t u : State} (h : Later s t) (k : Later t u) : Later s u :=
  ⟨fun c => (h.1 c).trans (k.1 c),
    fun q c => (h.holds q c).trans (k.holds (fun d => ((h.coach d).quiet (q d)).accs) c), by rw [k.rest, h.rest]⟩

theorem Quiet.passes {s t : State} (h : Quiet s t) : Passes s t :=
  ⟨fun c => by rw [h.coach c]; exact .refl _, by rw [h.1]⟩

theorem Passes.setCoach (s : State) (c : CoachId) (v : Coach) (h : (s.coach c).Passes v) : Passes s (s.setCoach c v) := by
  refine ⟨fun d => ?_, rfl⟩
  by_cases e : d = c
  · subst e; rw [State.coach_setCoach]; exact h
  · rw [State.coach_setCoach_other s v e]; exact .refl _

theorem Passes.onCoach (s : State) (c : CoachId) (f : Coach → Coach) (hf : ∀ co : Coach, co.Passes (f co)) : Passes s (s.onCoach c f) :=
  Passes.setCoach s c _ (hf _)

theorem Passes.foldl {α : Type} {f : State → α → State} (hf : ∀ s x, Passes s (f s x)) :
    ∀ (l : List α) (s : State), Passes s (l.foldl f s)
  | [], s => .refl s
  | x :: l, s => (hf s x).trans (Passes.foldl hf l (f s x))

theorem Later.foldl {α : Type} {f : State → α → State} (hf : ∀ s x, Later s (f s x)) :
    ∀ (l : List α) (s : State), Later s (l.foldl f s)
  | [], s => .refl s
  | x :: l, s => (hf s x).trans (Later.foldl hf l (f s x))

theorem Passes.mapCoaches (s : State) (f : CoachId → Coach → Coach) (hf : ∀ (c : CoachId) (co : Coach), co.Passes (f c co)) :
    Passes s (s.mapCoaches f) :=
  Passes.foldl (fun s _ => Passes.onCoach s _ _ (hf _)) _ _

theorem passes_latchCoach (s : State) (c : CoachId) (code : AbortCode) (p : Nat) : Passes s (s.latchCoach c code p) :=
  (State.latchCoach_quiet s c code p (.refl s)).passes

theorem passes_hazardCoach (s : State) (c : CoachId) (kind info p : Nat) : Passes s (s.hazardCoach c kind info p) := by
  unfold State.hazardCoach
  refine Passes.trans ?_ (passes_latchCoach _ _ _ _)
  dsimp only
  repeat' split
  all_goals first | exact .refl s | (refine Passes.onCoach s c _ fun co => ?_; exact Coach.Booked.passes rfl)

/-! ## The end of a clk -/

theorem passes_sendOut (s : State) (w : OnWay) : Passes s (s.sendOut w) := by
  have host : ∀ (wr : SMap (Byte × Byte)) (addr : Nat) (s : State), Passes s (s.applyHost addr wr) := fun wr addr s =>
    by
    unfold State.applyHost
    exact Passes.foldl (fun s e => (⟨fun _ => .refl _, rfl⟩ : Passes s (s.hostWrite _ _))) wr s
  unfold State.sendOut
  dsimp only
  split
  · exact (host _ _ _).trans (Passes.onCoach _ _ _ fun co => co.passes_accepted _ _)
  · exact (State.applyFabric_quiet _ _ _ _ _ _ (.refl s)).passes
  · exact ((State.readRemote_quiet s _ _ _ _ _ _ (.refl s)).passes).trans
      (Passes.onCoach _ _ _ fun co => co.passes_onTransfer _ _)
  · exact .refl s

theorem passes_reapWrites (s : State) : Passes s s.reapWrites := by
  refine Passes.mapCoaches s _ fun c co => ?_
  split
  · exact Coach.Passes.foldl (fun co q => co.passes_accepted _ _) .refl _ _
  · exact .refl co

theorem passes_leave (s : State) (fill : CoachId → SMap Bool) (t : Nat) : Passes s (s.leave fill t) := by
  unfold State.leave
  dsimp only
  split
  · exact .refl s
  · exact ((Passes.foldl (fun s c => Passes.onCoach s c _ (Coach.passes_stamp t _)) _ s).trans
      (Passes.foldl passes_sendOut _ _)).trans (passes_reapWrites _)

/-- A state in which accesses of one coach may have been made. -/
structure LooseAt (c : CoachId) (s t : State) : Prop where
  coach : (s.coach c).Loose (t.coach c)
  others : ∀ d, d ≠ c → (s.coach d).Later (t.coach d)
  rest : t = { s with
    freeCtr := t.freeCtr, early := t.early, coaches := t.coaches, tasks := t.tasks, evt := t.evt, kst := t.kst
    ehl := t.ehl, board := t.board, host := t.host }

theorem LooseAt.trans {c : CoachId} {s t u : State} (h : LooseAt c s t) (k : LooseAt c t u) : LooseAt c s u :=
  ⟨h.1.trans k.1, fun d n => (h.2 d n).trans (k.2 d n), by rw [k.3, h.3]⟩

theorem Passes.looseAt {s t : State} (h : Passes s t) (c : CoachId) : LooseAt c s t :=
  ⟨(h.1 c).1.loose, fun d _ => (h.1 d).1, h.2⟩

theorem LooseAt.refl (c : CoachId) (s : State) : LooseAt c s s := (Passes.refl s).looseAt c

theorem LooseAt.setCoach (s : State) (c : CoachId) (v : Coach) (h : (s.coach c).Loose v) : LooseAt c s (s.setCoach c v) :=
  ⟨by rw [State.coach_setCoach]; exact h, fun d n => by rw [State.coach_setCoach_other s v n]; exact .refl _, rfl⟩

theorem LooseAt.onCoach (s : State) (c : CoachId) (f : Coach → Coach) (hf : ∀ co : Coach, co.Loose (f co)) : LooseAt c s (s.onCoach c f) :=
  LooseAt.setCoach s c _ (hf _)

/-- Any coach changes as clk may change it. -/
theorem LooseAt.onAny (c : CoachId) (s : State) (d : CoachId) (f : Coach → Coach) (hf : ∀ co : Coach, co.Later (f co)) :
    LooseAt c s (s.onCoach d f) := by
  have k : ∀ x, (s.coach x).Later ((s.onCoach d f).coach x) := fun x => by
    by_cases e : x = d
    · subst e; rw [State.coach_onCoach]; exact hf _
    · rw [State.coach_onCoach_other s f e]; exact .refl _
  exact ⟨(k c).loose, fun x _ => k x, rfl⟩

theorem LooseAt.foldl {α : Type} {c : CoachId} {f : State → α → State} (hf : ∀ s x, LooseAt c s (f s x)) :
    ∀ (l : List α) (s : State), LooseAt c s (l.foldl f s)
  | [], s => .refl c s
  | x :: l, s => (hf s x).trans (LooseAt.foldl hf l (f s x))

theorem LooseAt.freed {c : CoachId} {s t : State} (h : LooseAt c s t) : LooseAt c s t.freed :=
  h.trans ((State.freed_quiet t (.refl t)).passes.looseAt c)

/-! ## Accesses that are made -/

/-- Only what has been planned, registers and tiles change. -/
theorem Coach.later_data (a b : Coach) (h : b = { a with
    accs := b.accs, opens := b.opens, spad := b.spad, vregs := b.vregs, accMem := b.accMem, actTable := b.actTable
    tileQueue := b.tileQueue, chainIn := b.chainIn }) (n : a.accs = [] → b.accs = []) : a.Later b := by
  have he : ∀ e, b.engine e = a.engine e := fun e => by unfold Coach.engine; rw [h]
  refine ⟨by rw [h], fun e _ => by rw [he e]; exact .refl _, fun q => ⟨n q, ?_, ?_, ?_, ?_, ?_, fun e _ => by rw [he e]; exact ⟨rfl, rfl⟩⟩⟩
  all_goals rw [h]
  all_goals exact ⟨rfl, rfl⟩

theorem Coach.later_spoil (o : OpenEx) (use : Nat) (co : Coach) : co.Later (o.spoil use co) :=
  Coach.later_data _ _ rfl fun q => by unfold OpenEx.spoil; simp [q]

theorem Coach.later_spoilTiles (co : Coach) (src use : Nat) : co.Later (co.spoilTiles src use) :=
  Coach.later_data _ _ rfl id

theorem Coach.later_renew (o : OpenEx) (x : Ex) (co : Coach) : co.Later (o.renew x co) :=
  Coach.later_data _ _ rfl fun q => by unfold OpenEx.renew; simp [q]

theorem looseAt_spoilOpen (k : CoachId) : ∀ (n : Nat) (s : State) (c : CoachId) (o : OpenEx), LooseAt k s (State.spoilOpen n s c o)
  | 0, s, _, _ => .refl k s
  | n + 1, s, c, o => by
    unfold State.spoilOpen
    refine (LooseAt.onAny k s c _ (Coach.later_spoil o s.freeCtr)).freed.trans (LooseAt.foldl (fun s d => ?_) _ _)
    exact (LooseAt.onAny k s d _ fun co => co.later_spoilTiles _ _).freed.trans
      (LooseAt.foldl (fun s p => looseAt_spoilOpen k n s d p) _ _)

theorem looseAt_learn (c : CoachId) (s : State) (a : Acc) (g : Got) : LooseAt c s (s.learn c a g) := by
  unfold State.learn
  split
  · exact .refl c s
  · split
    · exact .refl c s
    · split
      · exact looseAt_spoilOpen c _ _ _ _
      · exact LooseAt.onAny c s c _ (Coach.later_renew _ _)

/-- The transfer of SOUT and the digest change. -/
theorem Coach.loose_sout (co : Coach) (t t' : Transfer) (g : Nat) (h : (co.engine .sout).transfer = some t) :
    co.Loose { co.setEngine .sout { co.engine .sout with transfer := some t' } with digest := g } := by
  have k := co.passes_setEngine .sout { co.engine .sout with transfer := some t' } fun _ =>
    ⟨EngineS.later_transfer _ _ (by rw [h]; rfl), rfl, rfl⟩
  exact k.1.loose.trans (.of rfl)

theorem looseAt_learnRow (c : CoachId) (s : State) (a : Acc) (v : Carriage) : LooseAt c s (s.learnRow c a v) := by
  unfold State.learnRow
  split
  · split
    · refine LooseAt.onCoach s c _ fun co => ?_
      unfold Coach.learnIn
      split
      · exact .refl co
      · exact .of rfl
    · exact .refl c s
  · split
    · refine LooseAt.onCoach s c _ fun co => ?_
      unfold Coach.learnOut
      split
      · rename_i t x ht _
        dsimp only
        split
        · exact .refl co
        · exact co.loose_sout t _ _ ht
      · exact .refl co
    · exact .refl c s
  · exact looseAt_learn c s a _

/-- The errors of a row change reports alone. -/
theorem Coach.booked_eccRead (co : Coach) (row : Nat) : co.Booked (co.eccRead row).2 := by
  unfold Coach.eccRead
  generalize co.ecc.filter (fun e => decide (e.1 / 64 = row)) = l
  have step : ∀ (f : Option Nat × Coach → Nat × Option EccErr → Option Nat × Coach), (∀ r e, co.Booked r.2 → co.Booked (f r e).2) →
      ∀ (l : List (Nat × Option EccErr)) (r : Option Nat × Coach), co.Booked r.2 → co.Booked (l.foldl f r).2 := by
    intro f hf l
    induction l with
    | nil => intro r h; exact h
    | cons e l ih => intro r h; exact ih _ (hf r e h)
  refine step _ (fun r e h => ?_) l (none, co) (.refl co)
  split
  · dsimp only
    split
    · refine h.trans ?_
      unfold Coach.needRepair
      split <;> rfl
    · exact h.trans rfl
  · refine h.trans ?_
    unfold Coach.needRepair
    dsimp only
    split <;> rfl
  · exact h

theorem passes_meetErrors (s : State) (c : CoachId) (row : Nat) : Passes s (s.meetErrors c row) := by
  unfold State.meetErrors
  dsimp only
  have h := Passes.setCoach s c _ (Coach.booked_eccRead (s.coach c) row).passes
  split
  · exact h.trans (passes_latchCoach _ _ _ _)
  · exact h

theorem Coach.loose_writeRow (co : Coach) (clk : Nat) (a : Acc) : co.Loose (co.writeRow clk a) := by
  obtain ⟨x, y, z, w, h⟩ : ∃ x y z w, co.writeRow clk a = { co with spad := x, fill := y, ecc := z, tileAt := w } := ⟨_, _, _, _, rfl⟩
  rw [h]
  exact .of rfl

theorem passes_hazardOf (s : State) (c : CoachId) (a : Acc) (k : Nat) : Passes s (s.hazardOf c a k) := by
  unfold State.hazardOf
  split
  · exact passes_hazardCoach _ _ _ _ _
  · exact .refl s

theorem passes_checkAcc (s : State) (c : CoachId) (a : Acc) (full : Bool) : Passes s (s.checkAcc c a full) := by
  unfold State.checkAcc
  dsimp only
  repeat' split
  all_goals first | exact .refl s | exact passes_hazardOf _ _ _ _

theorem looseAt_readRow (c : CoachId) (s : State) (a : Acc) : LooseAt c s (s.readRow c a) := by
  unfold State.readRow
  dsimp only
  have h := (passes_meetErrors s c a.row).looseAt c
  generalize s.meetErrors c a.row = t at h
  have k : LooseAt c s (if a.want = .nothing then t else t.learnRow c a (look 0 (t.coach c).spad a.row)) := by
    split
    · exact h
    · exact h.trans (looseAt_learnRow c _ _ _)
  split
  · exact k.trans (LooseAt.onCoach _ c _ fun co => .of rfl)
  · exact k

/-- A bank access changes its row and its fill bit, brings its content, reports a hazard or aborts the task. -/
theorem looseAt_serveBank (fill : SMap Bool) (c : CoachId) (s : State) (a : Acc) : LooseAt c s (s.serveBank fill c a) := by
  unfold State.serveBank
  dsimp only
  split
  · exact (passes_hazardOf _ _ _ _).looseAt c
  · split
    · exact (passes_latchCoach _ _ _ _).looseAt c
    · refine ((passes_checkAcc s c a (a.full.getD (look false fill a.row))).looseAt c).trans ?_
      split
      · exact LooseAt.onCoach _ c _ fun co => co.loose_writeRow _ _
      · exact looseAt_readRow c _ a

theorem looseAt_queue (c : CoachId) (s : State) (q : Coach → List QTile) : LooseAt c s (s.onCoach c fun co => { co with tileQueue := q co }) :=
  LooseAt.onAny c s c _ fun co => Coach.later_data co { co with tileQueue := q co } rfl id

theorem looseAt_chain (c d : CoachId) (s : State) (q : Coach → List ChainTile) : LooseAt c s (s.onCoach d fun co => { co with chainIn := q co }) :=
  LooseAt.onAny c s d _ fun co => Coach.later_data co { co with chainIn := q co } rfl id

theorem looseAt_pushTile (c : CoachId) (s : State) (a : Acc) : LooseAt c s (s.pushTile c a) := by
  unfold State.pushTile
  dsimp only
  split
  · exact looseAt_queue c s _
  · split
    · exact (passes_hazardOf _ _ _ _).looseAt c
    · exact (looseAt_queue c s _).freed

theorem looseAt_popTile (c : CoachId) (s : State) (a : Acc) : LooseAt c s (s.popTile c a) := by
  have miss : ∀ s : State, LooseAt c s (((s.hazardOf c a 6).learn c a (.tile 0 (freeTile (s.hazardOf c a 6).freeCtr 0))).freed) := fun s =>
    (((passes_hazardOf s c a 6).looseAt c).trans (looseAt_learn c _ a _)).freed
  unfold State.popTile
  dsimp only
  split
  · split
    · exact (looseAt_queue c s _).trans (looseAt_learn c _ a _)
    · exact miss s
  · exact miss s

/-- An instruction does what it has planned. -/
theorem looseAt_serveAcc (fill : SMap Bool) (c : CoachId) (s : State) (a : Acc) : LooseAt c s (State.serveAcc fill c s a) := by
  unfold State.serveAcc
  split
  · exact looseAt_serveBank fill c s a
  · exact (passes_latchCoach _ _ _ _).looseAt c
  · exact looseAt_pushTile c s a
  · exact looseAt_popTile c s a
  · unfold State.takeTile
    exact (looseAt_chain c c s _).trans (looseAt_learn c _ a _)
  · unfold State.sendTile
    repeat' split
    · exact looseAt_chain c _ s _
    · exact .refl c s
    · exact .refl c s

theorem looseAt_serveDue (fill : SMap Bool) (t : Nat) (c : CoachId) : ∀ (n : Nat) (s : State), LooseAt c s (State.serveDue fill t c n s)
  | 0, s => .refl c s
  | n + 1, s => by
    unfold State.serveDue
    split
    · exact ((LooseAt.onCoach s c _ fun co => .of rfl).trans (looseAt_serveAcc fill c _ _)).trans (looseAt_serveDue fill t c n _)
    · exact .refl c s

/-- What a coach has planned for a clk is done. -/
theorem looseAt_serveAccs (s : State) (t : Nat) (c : CoachId) : LooseAt c s (s.serveAccs t c) := by
  unfold State.serveAccs
  dsimp only
  split
  · refine LooseAt.trans (t := if ((s.coach c).losers t).contains .kin = true then
      { s.setCoach c (((s.coach c).losers t).foldl (fun co e => co.delay t e) (s.coach c)) with
        kst := (s.setCoach c (((s.coach c).losers t).foldl (fun co e => co.delay t e) (s.coach c))).kst.putOff t c }
      else s.setCoach c (((s.coach c).losers t).foldl (fun co e => co.delay t e) (s.coach c))) ?_ (looseAt_serveDue _ t c _ _)
    have k : LooseAt c s (s.setCoach c (((s.coach c).losers t).foldl (fun co e => co.delay t e) (s.coach c))) :=
      LooseAt.setCoach s c _ (Coach.Loose.foldl (fun co e => co.loose_delay t e) _ _)
    generalize s.setCoach c (((s.coach c).losers t).foldl (fun co e => co.delay t e) (s.coach c)) = u at k
    split
    · exact k.trans ⟨.refl _, fun _ _ => .refl _, rfl⟩
    · exact k
  · exact .refl c s

/-- With nothing planned a coach stays as it is. -/
theorem State.serveAccs_none (s : State) (t : Nat) (c : CoachId) (h : (s.coach c).accs = []) : s.serveAccs t c = s := by
  unfold State.serveAccs
  dsimp only
  rw [h]
  rfl

theorem later_serveAccs (s : State) (t : Nat) (c : CoachId) : Later s (s.serveAccs t c) := by
  by_cases n : (s.coach c).accs = []
  · rw [s.serveAccs_none t c n]; exact .refl s
  · have k := looseAt_serveAccs s t c
    refine ⟨fun d => ?_, fun q => absurd (q c) n, by rw [k.rest]⟩
    by_cases e : d = c
    · subst e; exact k.coach.later n
    · exact k.others d e

/-! ## Doors and banks -/

theorem Coach.passes_tryWait (t : Nat) (co : Coach) (e : Engine) : co.Passes (co.tryWait t e) := by
  unfold Coach.tryWait
  dsimp only
  split
  · rename_i d n h
    split
    · refine (Coach.Booked.passes (b := co.setDoor d _) rfl).trans (Coach.passes_setEngine _ _ _ fun w => ?_)
      exact absurd h (w d n)
    · exact .refl co
  · exact .refl co

theorem Coach.booked_settleDoor (t : Nat) (co : Coach) (d : BitVec 8) : co.Booked (co.settleDoor t d) := by
  unfold Coach.settleDoor
  dsimp only
  split <;> rfl

/-- An entry that a filter keeps reads as before. -/
theorem look_filter {α : Type} (d : α) (p : Nat × α → Bool) (k : Nat) : ∀ (m : SMap α), (∀ v, p (k, v) = true) →
    look d (m.filter p) k = look d m k
  | [], _ => rfl
  | (j, v) :: m, h => by
    rw [List.filter_cons]
    by_cases e : j = k
    · subst e; rw [if_pos (h v)]; simp [look]
    · split
      · simp only [look, if_neg e]; exact look_filter d p k m h
      · rw [look_filter d p k m h]; simp [look, e]

/-- What a bank that is OFF held is gone. -/
theorem Coach.passes_loseBank (co : Coach) (b : Nat) (h : (co.bank b).st = .off) : co.Passes (co.loseBank b) := by
  refine ⟨⟨rfl, fun e _ => EngineS.Later.refl (co.engine e), fun q => ⟨q, ⟨rfl, rfl⟩, ⟨rfl, rfl⟩, ⟨rfl, rfl⟩, rfl, rfl, fun _ _ => ⟨rfl, rfl⟩⟩⟩,
    ⟨rfl, fun _ n => n, fun r n => ?_, ⟨rfl, rfl, rfl⟩, ⟨rfl, rfl⟩⟩⟩
  have e : r / 2048 ≠ b := fun e => n (e ▸ h)
  exact ⟨look_filter _ _ _ _ fun _ => by simp [e], look_filter _ _ _ _ fun _ => by simp [e]⟩

theorem Coach.passes_loseBanks (l : List Nat) : ∀ co : Coach, (∀ b ∈ l, (co.bank b).st = .off) → co.Passes (l.foldl Coach.loseBank co) := by
  induction l with
  | nil => exact fun co _ => .refl co
  | cons b l ih =>
    intro co h
    exact (co.passes_loseBank b (h b (by simp))).trans (ih (co.loseBank b) fun d m => h d (by simp [m]))

theorem Coach.passes_emptyBanks (t : Nat) (co : Coach) : co.Passes (co.emptyBanks t) :=
  Coach.passes_loseBanks _ co fun b m => by
    have := (List.mem_filter.mp m).2
    simp only [Bool.and_eq_true, decide_eq_true_eq] at this
    exact this.1

theorem Coach.passes_setBank (co : Coach) (b : Nat) (v : Bank) (h : (co.bank b).st ≠ .off → v.st ≠ .off) : co.Passes (co.setBank b v) := by
  refine ⟨⟨rfl, fun e _ => EngineS.Later.refl (co.engine e), fun q => ⟨q, ⟨rfl, rfl⟩, ⟨rfl, rfl⟩, ⟨rfl, rfl⟩, rfl, rfl, fun _ _ => ⟨rfl, rfl⟩⟩⟩,
    ⟨rfl, fun k n => ?_, fun r n => ⟨rfl, rfl⟩, ⟨rfl, rfl, rfl⟩, ⟨rfl, rfl⟩⟩⟩
  by_cases e : k = b
  · subst e; rw [Coach.bank_setBank]; exact h n
  · rw [Coach.bank_setBank_other co v e]; exact n

theorem Coach.passes_followBank (t : Nat) (co : Coach) (b : Nat) : co.Passes (co.followBank t b) := by
  unfold Coach.followBank
  dsimp only
  split
  · exact co.passes_setBank _ _ fun _ => by simp
  · exact co.passes_setBank _ _ fun _ => by simp
  · exact .refl co

theorem Coach.passes_endClk (t : Nat) (co : Coach) : co.Passes (co.endClk t) := by
  unfold Coach.endClk
  refine Coach.Passes.trans ?_ (Coach.Passes.foldl (fun co b => co.passes_followBank t b) .refl _ _)
  refine Coach.Passes.trans ?_ (Coach.passes_emptyBanks t _)
  refine (Coach.Passes.foldl (fun co e => co.passes_tryWait t e) .refl allEngines co).trans ?_
  unfold Coach.settleDoors
  exact (Coach.Booked.foldl (fun co d => co.booked_settleDoor t _) _ _).passes

theorem later_endClk (s : State) : Later s s.endClk := by
  unfold State.endClk
  refine Later.trans ?_ (Passes.mapCoaches _ _ fun _ co => co.passes_endClk _).later
  refine Later.trans ?_ (State.tellAborts_quiet _ (.refl _)).passes.later
  have k := (Later.foldl (f := fun s c => s.serveAccs s.clk c) (fun s c => later_serveAccs s _ c) s.listed s).trans (passes_leave _ (fun c => (s.coach c).fill) s.clk).later
  split
  · exact k
  · exact (k.trans (State.portsGoOn_quiet _ (.refl _)).passes.later).trans (passes_reapWrites _).later

/-! ## Counters -/

theorem Coach.booked_addLate (s : State) (co : Coach) (e : Engine) (t : Transfer) (a b : Nat) :
    co.Booked (Coach.addLate s co e t a b) := by
  unfold Coach.addLate
  dsimp only
  repeat' split
  all_goals rfl

theorem Coach.booked_tickEngine (s : State) (d : Nat) (co : Coach) (e : Engine) : co.Booked (Coach.tickEngine s d co e) := by
  have late : ∀ a : Coach, co.Booked a → co.Booked (match (co.engine e).transfer, (co.engine e).kin with
      | some t, _ => if t.planned < s.clk + d then
          Coach.addLate s a e t (max t.planned (max s.clk (co.engine e).lostTo)) (s.clk + d) else a
      | none, some k => if k.planned < s.clk + d then
          a.addStall e 2 (s.clk + d - max k.planned (max s.clk (co.engine e).lostTo)) else a
      | none, none => a) := fun a h => by
    repeat' split
    · exact h.trans (Coach.booked_addLate s a e _ _ _)
    · exact h
    · exact h.trans rfl
    · exact h
    · exact h
  unfold Coach.tickEngine
  dsimp only
  split
  · rfl
  · refine late _ ?_; rfl
  · exact late _ (.refl co)

theorem Coach.booked_tick (s : State) (d : Nat) (c : CoachId) (co : Coach) : co.Booked (Coach.tick s d c co) := by
  unfold Coach.tick
  split
  · exact (Coach.Booked.foldl (fun co e => Coach.booked_tickEngine s d co e) allEngines co).trans rfl
  · rfl

theorem later_pass (s : State) (d : Nat) : Later s (s.pass d) := by
  have h := (Passes.mapCoaches s (Coach.tick s d) fun c co => (Coach.booked_tick s d c co).passes).later
  refine h.trans ⟨fun _ => ?_, fun _ _ => ?_, rfl⟩
  · exact .refl _
  · exact (Coach.Passes.refl _).2

theorem later_skip (s : State) (t : Nat) : Later s (s.skip t) := by
  unfold State.skip
  split
  · exact .refl s
  · exact later_pass s _

theorem later_runTo (t : Nat) : ∀ (n : Nat) (s : State), Later s (s.runTo t n)
  | 0, s => .refl s
  | n + 1, s => by
    unfold State.runTo
    split
    · exact .refl s
    · split
      · split
        · exact (((later_skip s _).trans (later_endClk _)).trans (later_pass _ 1)).trans (later_runTo t n _)
        · exact later_pass s _
      · exact later_pass s _

theorem later_tick (s : State) (d : Nat) : Later s (s.tick d) := later_runTo _ _ _

theorem later_advance (s : State) (n : Nat) : Later s (s.advance n) := by
  unfold State.advance
  split
  · exact .refl s
  · exact later_tick s _

/-! ## The issue of an instruction -/

theorem later_reachIssue (c : CoachId) (e : Engine) : ∀ (n : Nat) (s : State), Later s (State.reachIssue c e n s)
  | 0, s => .refl s
  | n + 1, s => by
    unfold State.reachIssue
    dsimp only
    split
    · exact .refl s
    · exact (later_advance s _).trans (later_reachIssue c e n _)

/-- The clk that pass before an instruction issues. -/
theorem later_atIssue (s : State) (c : CoachId) (e : Engine) : Later s (s.atIssue c e) := later_reachIssue _ _ _ _

/-- An engine that can issue waits at no door, and nothing is awaited. -/
theorem Coach.canIssue_st {co : Coach} {e : Engine} {b : Bool} (h : co.canIssue e b = true) : (co.engine e).st = .issuing := by
  unfold Coach.canIssue at h
  simp only [Bool.and_eq_true, decide_eq_true_eq] at h
  exact h.1.2

/-- A command for an engine that can issue comes at once. -/
theorem State.come_canIssue (s : State) (c : CoachId) (e : Engine) (b : Bool) (h : (s.coach c).canIssue e b = true) :
    s.come c e = s := by
  unfold State.come Coach.waitKnown
  rw [Coach.canIssue_st h]

/-- An instruction that can issue does so in the clk planned for it. -/
theorem State.issueWith_eq (s : State) (c : CoachId) (e : Engine) (b : Bool) (f : State → State)
    (h : (s.coach c).canIssue e b = true) : s.issueWith c e b f = f (s.atIssue c e) := by
  unfold State.issueWith
  rw [State.come_canIssue s c e b h]
  simp [h]

/-- An engine that can issue now can issue some clk later. -/
theorem Coach.Later.canIssue {a b : Coach} (h : a.Later b) {e : Engine} {d : Bool} (k : a.canIssue e d = true) :
    b.canIssue e d = true := by
  have st := Coach.canIssue_st k
  have l := h.engine e fun x n => by rw [st]; exact fun q => by cases q
  unfold Coach.canIssue at *
  rw [l.st, l.2.1, l.2.2.1, show b.phase = a.phase by rw [h.same]]
  exact k

/-! ## The clock -/

theorem Quiet.clk {s t : State} (h : Quiet s t) : t.clk = s.clk := by rw [h.1]

theorem State.clk_foldl {α : Type} {f : State → α → State} (hf : ∀ s x, (f s x).clk = s.clk) :
    ∀ (l : List α) (s : State), (l.foldl f s).clk = s.clk
  | [], _ => rfl
  | x :: l, s => (State.clk_foldl hf l (f s x)).trans (hf s x)

theorem Passes.clk {s t : State} (h : Passes s t) : t.clk = s.clk := by rw [h.rest]

theorem LooseAt.clk {c : CoachId} {s t : State} (h : LooseAt c s t) : t.clk = s.clk := by rw [h.rest]

@[simp] theorem State.mapCoaches_clk (s : State) (f : CoachId → Coach → Coach) : (s.mapCoaches f).clk = s.clk := by
  unfold State.mapCoaches
  exact State.clk_foldl (fun s k => State.onCoach_clk s _ _) _ _

theorem State.endClk_clk (s : State) : s.endClk.clk = s.clk := by
  unfold State.endClk
  rw [State.mapCoaches_clk, (State.tellAborts_quiet _ (.refl _)).clk]
  have k : ((s.listed.foldl (fun s c => s.serveAccs s.clk c) s).leave (fun c => (s.coach c).fill) s.clk).clk = s.clk :=
    (passes_leave _ _ _).clk.trans (State.clk_foldl (fun s c => (looseAt_serveAccs s _ c).clk) _ _)
  split
  · exact k
  · exact ((passes_reapWrites _).clk.trans (State.portsGoOn_quiet _ (.refl _)).clk).trans k

theorem State.skip_clk (s : State) (t : Nat) : (s.skip t).clk = max s.clk t := by
  unfold State.skip
  split
  · omega
  · show s.clk + (t - s.clk) = _
    omega

theorem State.runTo_clk (t : Nat) : ∀ (n : Nat) (s : State), t ≤ s.clk + n → (s.runTo t n).clk = max s.clk t
  | 0, s, h => by show s.clk = _; omega
  | n + 1, s, h => by
    unfold State.runTo
    split
    · omega
    · have last : (s.pass (t - s.clk)).clk = max s.clk t := by show s.clk + (t - s.clk) = _; omega
      split
      · rename_i x _
        split
        · have step : (((s.skip x).endClk).pass 1).clk = max s.clk x + 1 := by
            show ((s.skip x).endClk).clk + 1 = _
            rw [State.endClk_clk, State.skip_clk]
          rw [State.runTo_clk t n _ (by rw [step]; omega), step]
          omega
        · exact last
      · exact last

theorem State.tick_clk (s : State) (d : Nat) : (s.tick d).clk = s.clk + d := by
  unfold State.tick
  rw [State.runTo_clk _ _ _ (by omega)]
  omega

/-- The clock comes to the clk named, or stands beyond it. -/
theorem State.advance_clk (s : State) (n : Nat) : (s.advance n).clk = max s.clk n := by
  unfold State.advance
  split
  · omega
  · rw [State.tick_clk]; omega

/-- Where no bank access is awaited an instruction issues in its planned clk. -/
theorem State.atIssue_quiet (s : State) (c : CoachId) (e : Engine) (h : (s.coach c).accs = []) :
    s.atIssue c e = s.advance ((s.coach c).engine e).nextIssue := by
  unfold State.atIssue
  rw [h]
  show State.reachIssue c e 1 s = _
  unfold State.reachIssue State.advance
  dsimp only
  split <;> rfl

end Sys2Proof.Machine
end

