-- ==== Sys2Proof/Laws/Issue.lean ====
section
/-! SUPPORT. What the issue of a data-path instruction does: what its body leaves in the coach stands there at the end, and
the engine goes on. -/

set_option Elab.async false

namespace Sys2Proof.Machine

open Sys2Proof

/-! ## Books: headers, key tags and signals -/

/-- A state whose books have changed: of coach `c` headers and key tags, signals and counts; of the device tasks, events and free
values. -/
structure Accounted (c : CoachId) (s t : State) : Prop where
  coach : t.coach c = { s.coach c with
    headers := (t.coach c).headers, hdrLate := (t.coach c).hdrLate, regionTags := (t.coach c).regionTags
    tagLate := (t.coach c).tagLate, poisonCount := (t.coach c).poisonCount, first := (t.coach c).first
    mismatch := (t.coach c).mismatch, mismatchRaised := (t.coach c).mismatchRaised, sigs := (t.coach c).sigs
    early := (t.coach c).early }
  others : ∀ d, d ≠ c → t.coach d = s.coach d
  rest : t = { s with freeCtr := t.freeCtr, coaches := t.coaches, tasks := t.tasks, evt := t.evt }

theorem Accounted.refl (c : CoachId) (s : State) : Accounted c s s := ⟨rfl, fun _ _ => rfl, rfl⟩

theorem Accounted.trans {c : CoachId} {s t u : State} (h : Accounted c s t) (k : Accounted c t u) : Accounted c s u :=
  ⟨by rw [k.coach, h.coach], fun d n => by rw [k.others d n, h.others d n], by rw [k.rest, h.rest]⟩

theorem Accounted.clk {c : CoachId} {s t : State} (h : Accounted c s t) : t.clk = s.clk := by rw [h.rest]

theorem Accounted.engine {c : CoachId} {s t : State} (h : Accounted c s t) (e : Engine) :
    (t.coach c).engine e = (s.coach c).engine e := by
  unfold Coach.engine; rw [h.coach]

/-- Coach `c` is another coach that differs in its books alone. -/
theorem Accounted.setCoach (s : State) (c : CoachId) (v : Coach) (h : v = { s.coach c with
    headers := v.headers, hdrLate := v.hdrLate, regionTags := v.regionTags, tagLate := v.tagLate, poisonCount := v.poisonCount
    first := v.first, mismatch := v.mismatch, mismatchRaised := v.mismatchRaised, sigs := v.sigs, early := v.early }) :
    Accounted c s (s.setCoach c v) :=
  ⟨by rw [State.coach_setCoach]; exact h, fun d n => by rw [State.coach_setCoach_other s v n], rfl⟩

/-- Two states with a coach of their own. -/
theorem Accounted.replace (s : State) (c : CoachId) (v w : Coach) (h : w = { v with
    headers := w.headers, hdrLate := w.hdrLate, regionTags := w.regionTags, tagLate := w.tagLate, poisonCount := w.poisonCount
    first := w.first, mismatch := w.mismatch, mismatchRaised := w.mismatchRaised, sigs := w.sigs, early := w.early }) :
    Accounted c (s.setCoach c v) (s.setCoach c w) :=
  ⟨by rw [State.coach_setCoach, State.coach_setCoach]; exact h,
    fun d n => by rw [State.coach_setCoach_other s v n, State.coach_setCoach_other s w n], rfl⟩

theorem Accounted.freed {c : CoachId} {s t : State} (h : Accounted c s t) : Accounted c s t.freed :=
  h.trans ⟨rfl, fun _ _ => rfl, rfl⟩

/-- A state that differs in tasks, events and free values alone. -/
theorem Accounted.books {c : CoachId} {s t : State} (h : t = { s with freeCtr := t.freeCtr, tasks := t.tasks, evt := t.evt }) :
    Accounted c s t := by
  have hc : ∀ d, t.coach d = s.coach d := fun d => by unfold State.coach; rw [h]
  exact ⟨by rw [hc c], fun d _ => by rw [hc d], by rw [h]⟩

theorem accounted_latch (c : CoachId) (s : State) (k : Nat) (a : AbortCond) : Accounted c s (s.latch k a) := by
  unfold State.latch
  split
  · exact .refl c s
  · split
    · split
      · exact .books rfl
      · exact .refl c s
    · split
      · exact .books rfl
      · exact .refl c s

/-- A completion signal waits for its clk. -/
theorem accounted_pushCs (s : State) (c : CoachId) (e : Engine) (com : Common) (due : Nat) :
    Accounted c s (s.pushCs c e com due) := by
  unfold State.pushCs State.pushSig
  split
  · exact .refl c s
  · exact Accounted.setCoach s c _ rfl

theorem accounted_keyMismatch (s : State) (c : CoachId) (e : BitVec 3) (i : BitVec 13) (m : Mismatch) :
    Accounted c s (s.keyMismatch c e i m) := by
  unfold State.keyMismatch
  have h : Accounted c s (s.setCoach c { s.coach c with mismatch := (s.coach c).mismatch + 1, mismatchRaised := true }) :=
    Accounted.setCoach s c _ rfl
  dsimp only
  split
  · exact h
  · exact h.trans (.books rfl)

/-! ## Header images that SOUT takes -/

/-- Only SOUT's requests change. -/
theorem Coach.takeImages_same (co : Coach) (clk : Nat) : co.takeImages clk = { co with engines := (co.takeImages clk).engines } := by
  unfold Coach.takeImages
  dsimp only
  repeat' split
  all_goals rfl

theorem Coach.takeImages_engine (co : Coach) (clk : Nat) (e : Engine) (h : (co.engine e).transfer = none) :
    (co.takeImages clk).engine e = co.engine e := by
  unfold Coach.takeImages
  dsimp only
  split
  · rfl
  · rename_i t ht
    split
    · rfl
    · refine Coach.engine_setEngine_other co _ fun q => ?_
      subst q; rw [ht] at h; cases h

theorem Coach.takeImages_engine' (co : Coach) (clk : Nat) {e : Engine} (h : e ≠ .sout) :
    (co.takeImages clk).engine e = co.engine e := by
  unfold Coach.takeImages
  dsimp only
  repeat' split
  all_goals first | rfl | exact Coach.engine_setEngine_other co _ h

/-- Header writes and tags whose clk has come. -/
theorem Coach.settle_same (co : Coach) (clk : Nat) : co.settle clk = { co.takeImages clk with
    headers := (co.settle clk).headers, hdrLate := (co.settle clk).hdrLate, regionTags := (co.settle clk).regionTags
    tagLate := (co.settle clk).tagLate } := by
  have h : ∀ (l : List HdrWrite) (a : Coach), l.foldl (fun c w => c.setHeader w.slot w.value) a =
      { a with headers := (l.foldl (fun c w => c.setHeader w.slot w.value) a).headers } := by
    intro l
    induction l with
    | nil => intro a; rfl
    | cons w l ih =>
      intro a
      rw [List.foldl_cons, ih]
      unfold Coach.setHeader
      split <;> rfl
  unfold Coach.settle
  dsimp only
  rw [h]

/-- The header unit serves an instruction, or a check without a header is made: SOUT may take images, and books change. -/
theorem accounted_account (s : State) (c : CoachId) (e : Engine) (i : BitVec 13) (cls : Option Nat) (param : Nat)
    (hdrs : List Nat) (r : Nat) (regions : List Nat) (due : Nat) :
    Accounted c (s.setCoach c ((s.coach c).takeImages s.clk)) (s.account c e i cls param hdrs r regions due) := by
  have h : ∀ v : Coach, v = { (s.coach c).takeImages s.clk with
      headers := v.headers, hdrLate := v.hdrLate, regionTags := v.regionTags, tagLate := v.tagLate, poisonCount := v.poisonCount
      first := v.first } → Accounted c (s.setCoach c ((s.coach c).takeImages s.clk)) (s.setCoach c v) := fun v hv =>
    Accounted.replace s c _ v (by rw [hv])
  unfold State.account
  dsimp only
  have k : ∀ (hd : Header) (own : Bool), Accounted c (s.setCoach c ((s.coach c).takeImages s.clk))
      (s.setCoach c ((((s.coach c).settle s.clk).countPoison c hd own due false).writeHeader due (eid e) r hd)) := fun hd own => by
    refine h _ ?_
    unfold Coach.writeHeader Coach.countPoison
    repeat' split
    all_goals (rw [Coach.settle_same])
  split
  · exact (k _ _).freed.trans (accounted_keyMismatch _ _ _ _ _)
  · exact (k _ _).freed

theorem accounted_keyRead (s : State) (c : CoachId) (e : Engine) (i : BitVec 13) (regions : List Nat) :
    Accounted c s (s.keyRead c e i regions) ∨ Accounted c (s.setCoach c ((s.coach c).takeImages s.clk)) (s.keyRead c e i regions) := by
  unfold State.keyRead
  dsimp only
  split
  · refine .inr (Accounted.trans (Accounted.replace s c _ _ ?_) (accounted_keyMismatch _ _ _ _ _))
    rw [Coach.settle_same]
  · exact .inl (.refl c s)

/-! ## The issue -/

/-- The execution with which a data-path instruction of occupancy `o` and latency `l` begins in the present clk. -/
def State.begun (s : State) (c : CoachId) (e : Engine) (o l : Nat) : Ex := { s.startEx c e (s.clk + l) with o := o }

/-- What a data-path instruction does that begins in the present clk. -/
def State.done (s : State) (c : CoachId) (e : Engine) (o l : Nat) (cmd : DataCmd) : Ex :=
  s.perform cmd ((s.coach c).engine e) (s.begun c e o l)

/-- The coach `co` that an execution leaves, its engine having gone on. -/
def Ex.after (x : Ex) (co : Coach) (e : Engine) (v : EngineS) (cmd : DataCmd) (clk : Nat) : Coach :=
  { (x.left co).setEngine e v with opens := co.opened clk (x.toOpen cmd (co.engine e)) }

theorem Ex.after_same (x : Ex) (co : Coach) (e : Engine) (v : EngineS) (cmd : DataCmd) (clk : Nat) : x.after co e v cmd clk = { co with
    accs := co.accs ++ x.accs, opens := co.opened clk (x.toOpen cmd (co.engine e)), spadDue := x.co.spadDue, vregDue := x.co.vregDue
    actDue := x.co.actDue, vregs := x.co.vregs, accMem := x.co.accMem, actTable := x.co.actTable
    engines := store EngineS.zero co.engines (eid e) v } := rfl

/-- The books of an instruction: headers, key tags and its signal. -/
def State.books (s : State) (c : CoachId) (e : Engine) (com : Common) (hdr : Option HdrAsk) (x : Ex) (due : Nat) : State :=
  (match hdr with
    | some h => s.account c e x.idx h.cls h.param h.operands h.result x.regions due
    | none => s.keyRead c e x.idx x.regions).pushCs c e com due

/-- The issue of an instruction on time. -/
theorem dataPath_eq (u : State) (c : CoachId) (e : Engine) (com : Common) (o l : Nat) (hdr : Option HdrAsk) (cmd : DataCmd)
    (h : ((u.coach c).engine e).busyUntil ≤ u.clk) : u.dataPath c e com o l hdr cmd =
      ((u.setCoach c ((u.done c e o l cmd).after (u.coach c) e
        { ((u.coach c).engine e).issued u.clk com.hold.toNat with busyUntil := u.clk + o } cmd u.clk)).freed).books c e com hdr
          (u.done c e o l cmd) (u.clk + l) := by
  unfold State.dataPath
  dsimp only
  rw [if_neg (Nat.not_lt.mpr h)]
  rfl

/-- Books leave a coach as it is but for them, and SOUT may take images. -/
theorem books_spec (s : State) (c : CoachId) (e : Engine) (com : Common) (hdr : Option HdrAsk) (x : Ex) (due : Nat) :
    ∃ v, (v = s.coach c ∨ v = (s.coach c).takeImages s.clk) ∧ Accounted c (s.setCoach c v) (s.books c e com hdr x due) := by
  unfold State.books
  cases hdr with
  | some q => exact ⟨_, .inr rfl, (accounted_account s c e _ _ _ _ _ _ _).trans (accounted_pushCs _ _ _ _ _)⟩
  | none =>
    rcases accounted_keyRead s c e x.idx x.regions with k | k
    · refine ⟨_, .inl rfl, Accounted.trans ?_ (k.trans (accounted_pushCs _ _ _ _ _))⟩
      exact ⟨by rw [State.coach_setCoach], fun d n => by rw [State.coach_setCoach_other s _ n], rfl⟩
    · exact ⟨_, .inr rfl, k.trans (accounted_pushCs _ _ _ _ _)⟩

/-- SOUT takes the same images where its engine and the headers are the same. -/
theorem Coach.takeImages_congr (a b : Coach) (clk : Nat) (h1 : a.engine .sout = b.engine .sout)
    (h2 : ∀ i t, a.headerAt i t = b.headerAt i t) : (a.takeImages clk).engine .sout = (b.takeImages clk).engine .sout := by
  unfold Coach.takeImages
  rw [h1]
  dsimp only
  split
  · exact h1
  · split
    · exact h1
    · rw [Coach.engine_setEngine, Coach.engine_setEngine]
      simp only [h2]

/-- A state whose coach `c` an execution has left and whose books have been kept. -/
theorem after_books (u : State) (c : CoachId) (e : Engine) (com : Common) (hdr : Option HdrAsk) (x : Ex) (v' : EngineS) (cmd : DataCmd)
    (due : Nat) (hv' : v'.transfer = none) :
    let t := ((u.setCoach c (x.after (u.coach c) e v' cmd u.clk)).freed).books c e com hdr x due
    Elsewhere c e u t ∧ t.clk = u.clk ∧ (t.coach c).engine e = v' ∧
      (t.coach c).accs = (u.coach c).accs ++ x.accs ∧ (t.coach c).opens = (u.coach c).opened u.clk (x.toOpen cmd ((u.coach c).engine e)) ∧
      (t.coach c).spadDue = x.co.spadDue ∧ (t.coach c).vregDue = x.co.vregDue ∧ (t.coach c).actDue = x.co.actDue ∧
      (t.coach c).vregs = x.co.vregs ∧ (t.coach c).accMem = x.co.accMem ∧ (t.coach c).actTable = x.co.actTable := by
  intro t
  have we : (x.after (u.coach c) e v' cmd u.clk).engine e = v' := look_store_same _ _ _ _
  have wf : ∀ f, f ≠ e → (x.after (u.coach c) e v' cmd u.clk).engine f = (u.coach c).engine f := fun f n =>
    look_store_other _ _ _ fun k => n (eid_injective k)
  have wh : ∀ i t, (x.after (u.coach c) e v' cmd u.clk).headerAt i t = (u.coach c).headerAt i t := fun _ _ => rfl
  have wa := x.after_same (u.coach c) e v' cmd u.clk
  obtain ⟨v, hv, k⟩ := books_spec ((u.setCoach c (x.after (u.coach c) e v' cmd u.clk)).freed) c e com hdr x due
  change Accounted c _ t at k
  clear_value t
  have hs1 : ((u.setCoach c (x.after (u.coach c) e v' cmd u.clk)).freed).coach c = x.after (u.coach c) e v' cmd u.clk :=
    State.coach_setCoach _ _ _
  have hd : ∀ d, d ≠ c → ((u.setCoach c (x.after (u.coach c) e v' cmd u.clk)).freed).coach d = u.coach d := fun d n =>
    State.coach_setCoach_other u _ n
  rw [hs1] at hv
  have hclk : ((u.setCoach c (x.after (u.coach c) e v' cmd u.clk)).freed).clk = u.clk := rfl
  rw [hclk] at hv
  generalize x.after (u.coach c) e v' cmd u.clk = w at *
  have hvs : v = { w with engines := v.engines } := by
    rcases hv with rfl | rfl
    · rfl
    · rw [Coach.takeImages_same]
  have kc := k.coach
  rw [State.coach_setCoach] at kc
  have ke : ∀ f, (t.coach c).engine f = v.engine f := fun f => by
    have q := k.engine f
    rwa [State.coach_setCoach] at q
  rw [wa] at hvs
  refine ⟨⟨?_, fun f n => ?_, fun d n => ?_, ?_⟩, k.clk, ?_, ?_⟩
  · unfold Coach.Alike
    rw [kc, hvs]
  · rw [ke f]
    rcases hv with rfl | rfl
    · exact .inl (wf f n)
    · by_cases q : f = .sout
      · subst q
        exact .inr (Coach.takeImages_congr _ _ _ (wf _ n) wh)
      · left
        rw [Coach.takeImages_engine' _ _ q]
        exact wf f n
  · have := k.others d n
    rw [State.coach_setCoach_other _ _ n, hd d n] at this
    exact this
  · exact k.rest
  · rw [ke e]
    rcases hv with rfl | rfl
    · exact we
    · rw [Coach.takeImages_engine _ _ _ (by rw [we]; exact hv')]
      exact we
  · rw [kc, hvs]
    exact ⟨rfl, rfl, rfl, rfl, rfl, rfl, rfl, rfl⟩

/-- What a data-path instruction on time leaves alone, how its engine goes on, and that what it does stands in the coach: registers of
data, what is planned, and the clk of results. -/
theorem dataPath_spec (s : State) (c : CoachId) (e : Engine) (com : Common) (o l : Nat) (hdr : Option HdrAsk)
    (cmd : DataCmd) (h : s.onTime c e) :
    let u := s.atIssue c e
    let x := u.done c e o l cmd
    let t := u.dataPath c e com o l hdr cmd
    Elsewhere c e u t ∧ Issued c e com o u t ∧
      (t.coach c).accs = (u.coach c).accs ++ x.accs ∧ (t.coach c).opens = (u.coach c).opened u.clk (x.toOpen cmd ((u.coach c).engine e)) ∧
      (t.coach c).spadDue = x.co.spadDue ∧ (t.coach c).vregDue = x.co.vregDue ∧ (t.coach c).actDue = x.co.actDue ∧
      (t.coach c).vregs = x.co.vregs ∧ (t.coach c).accMem = x.co.accMem ∧ (t.coach c).actTable = x.co.actTable := by
  intro u x t
  have hu : (u.coach c).canIssue e true = true := ((later_atIssue s c e).coach c).canIssue h.1
  have hcan : ((u.coach c).engine e).transfer = none := by
    unfold Coach.canIssue at hu
    cases q : ((u.coach c).engine e).transfer with
    | none => rfl
    | some w => rw [q] at hu; simp at hu
  have hv' : ({ ((u.coach c).engine e).issued u.clk com.hold.toNat with busyUntil := u.clk + o } : EngineS).transfer = none := by
    show (EngineS.issued _ _ _).transfer = none
    unfold EngineS.issued EngineS.goto
    dsimp only
    split <;> exact hcan
  obtain ⟨k1, k2, k3, k4⟩ := after_books u c e com hdr x _ cmd (u.clk + l) hv'
  have et : t = _ := dataPath_eq u c e com o l hdr cmd h.2
  rw [et]
  exact ⟨k1, ⟨k2, k3⟩, k4⟩

/-- What an instruction on time leaves alone that changes no row outside `S`, and how its engine goes on: a row to which no other write
is under way comes to hold what the execution leaves in it. -/
theorem dataPath_frame (s : State) (c : CoachId) (e : Engine) (com : Common) (o l : Nat) (hdr : Option HdrAsk)
    (cmd : DataCmd) (S : Nat → Prop) (h : s.onTime c e)
    (hb : ((s.atIssue c e).begun c e o l).Touches ((s.atIssue c e).done c e o l cmd) S) :
    let u := s.atIssue c e
    let x := u.done c e o l cmd
    let t := u.dataPath c e com o l hdr cmd
    OnlyRows c e S u t ∧ Issued c e com o u t ∧ (t.coach c).spadDue = x.co.spadDue ∧
      ∀ r, (u.coach c).calm r → (t.coach c).row r = look 0 x.co.spad r := by
  intro u x t
  obtain ⟨k1, k2, k9, k10, k3, k5, k8, k4, k6, k7⟩ := dataPath_spec s c e com o l hdr cmd h
  obtain ⟨m, hm, hl, hw⟩ := hb.accs
  have ha : (t.coach c).accs = (u.coach c).accs ++ m := k9.trans (by
    show _ ++ x.accs = _
    rw [show x.accs = m from hm])
  have hs : (t.coach c).spad = (u.coach c).spad := by
    have := k1.coach
    unfold Coach.Alike at this
    rw [this]
  have land : (t.coach c).landed = landOn (u.coach c).landed m := by
    rw [Coach.landed_eq, Coach.landed_eq, ha, hs, landOn_append]
  refine ⟨⟨fun r n => ?_, ⟨?_, ?_, ?_⟩, k1⟩, k2, k3, fun r q => ?_⟩
  · unfold Coach.row
    rw [land]
    exact landOn_other m r (fun a i w e => n (e ▸ hw a i w)) _
  · rw [k4, hb.co]; rfl
  · rw [k6, hb.co]; rfl
  · rw [k7, hb.co]; rfl
  · have e : look 0 (u.coach c).landed r = look 0 (u.coach c).spad r := Coach.row_calm q
    unfold Coach.row
    rw [land, landOn_congr m r _ _ e]
    rw [show landOn (u.coach c).spad m = x.co.spad from hl]

/-- An execution that has written nothing outside the map is at its end. -/
theorem Ex.ended_eq (x : Ex) (kinds : List Nat) (h : x.wild = false) : x.ended kinds = x := by
  unfold Ex.ended
  rw [h]
  rfl

end Sys2Proof.Machine
end

