-- ==== Sys2Proof/Laws/Keeps.lean ====
section
/-! SUPPORT. What it means that a step leaves the memories, the window and the queue alone, and that it keeps the
invariant; both compose along sequences and folds. -/

set_option Elab.async false
set_option linter.all false

namespace Sys2Proof.Machine

open Sys2Proof

/-- Both memories, the BAR2 window and the queue are untouched. -/
structure Keeps (s t : State) : Prop where
  host : t.host = s.host
  data : t.hbm.data = s.hbm.data
  gib : t.hif.bar2Gib = s.hif.bar2Gib
  pending : t.pending = s.pending

/-- The queue is untouched and the invariant is kept. -/
structure Sound (s t : State) : Prop where
  pending : t.pending = s.pending
  inv : s.Inv → t.Inv

theorem Keeps.refl (s : State) : Keeps s s := ⟨rfl, rfl, rfl, rfl⟩

theorem Keeps.trans {s t u : State} (h : Keeps s t) (k : Keeps t u) : Keeps s u :=
  ⟨k.1.trans h.1, k.2.trans h.2, k.3.trans h.3, k.4.trans h.4⟩

/-- A state that agrees with `t` in what `Keeps` names. -/
theorem Keeps.of_eq {s t u : State} (h : Keeps s t) (h1 : u.host = t.host) (h2 : u.hbm.data = t.hbm.data)
    (h3 : u.hif.bar2Gib = t.hif.bar2Gib) (h4 : u.pending = t.pending) : Keeps s u :=
  h.trans ⟨h1, h2, h3, h4⟩

theorem Keeps.sound {s t : State} (h : Keeps s t) : Sound s t :=
  ⟨h.4, fun i => ⟨by rw [h.1]; exact i.1, by rw [h.2]; exact i.2, by rw [h.3]; exact i.3⟩⟩

theorem Sound.refl (s : State) : Sound s s := (Keeps.refl s).sound

theorem Sound.trans {s t u : State} (h : Sound s t) (k : Sound t u) : Sound s u :=
  ⟨k.1.trans h.1, fun i => k.2 (h.2 i)⟩

theorem Sound.of_eq {s t u : State} (h : Sound s t) (h1 : u.host = t.host) (h2 : u.hbm.data = t.hbm.data)
    (h3 : u.hif.bar2Gib = t.hif.bar2Gib) (h4 : u.pending = t.pending) : Sound s u :=
  h.trans (Keeps.sound ⟨h1, h2, h3, h4⟩)

/-- A fold whose every step goes on from `s` soundly. -/
theorem Keeps.foldl {α : Type} {s : State} {f : State → α → State} (hf : ∀ t x, Keeps s t → Keeps s (f t x)) :
    ∀ (l : List α) {t : State}, Keeps s t → Keeps s (l.foldl f t)
  | [], _, h => h
  | x :: l, _, h => Keeps.foldl hf l (hf _ x h)

theorem Sound.foldl {α : Type} {s : State} {f : State → α → State} (hf : ∀ t x, Sound s t → Sound s (f t x)) :
    ∀ (l : List α) {t : State}, Sound s t → Sound s (l.foldl f t)
  | [], _, h => h
  | x :: l, _, h => Sound.foldl hf l (hf _ x h)

/-- A fold over pairs with the state first. -/
theorem Keeps.foldl_fst {α β : Type} {s : State} {f : State × β → α → State × β}
    (hf : ∀ p x, Keeps s p.1 → Keeps s (f p x).1) :
    ∀ (l : List α) {p : State × β}, Keeps s p.1 → Keeps s (l.foldl f p).1
  | [], _, h => h
  | x :: l, _, h => Keeps.foldl_fst hf l (hf _ x h)

theorem Keeps.foldl_snd {α β : Type} {s : State} {f : β × State → α → β × State}
    (hf : ∀ p x, Keeps s p.2 → Keeps s (f p x).2) :
    ∀ (l : List α) {p : β × State}, Keeps s p.2 → Keeps s (l.foldl f p).2
  | [], _, h => h
  | x :: l, _, h => Keeps.foldl_snd hf l (hf _ x h)

theorem Sound.foldl_fst {α β : Type} {s : State} {f : State × β → α → State × β}
    (hf : ∀ p x, Sound s p.1 → Sound s (f p x).1) :
    ∀ (l : List α) {p : State × β}, Sound s p.1 → Sound s (l.foldl f p).1
  | [], _, h => h
  | x :: l, _, h => Sound.foldl_fst hf l (hf _ x h)

theorem Sound.foldl_snd {α β : Type} {s : State} {f : β × State → α → β × State}
    (hf : ∀ p x, Sound s p.2 → Sound s (f p x).2) :
    ∀ (l : List α) {p : β × State}, Sound s p.2 → Sound s (l.foldl f p).2
  | [], _, h => h
  | x :: l, _, h => Sound.foldl_snd hf l (hf _ x h)

theorem Keeps.foldl_snd_snd {α β γ : Type} {s : State} {f : β × γ × State → α → β × γ × State}
    (hf : ∀ p x, Keeps s p.2.2 → Keeps s (f p x).2.2) :
    ∀ (l : List α) {p : β × γ × State}, Keeps s p.2.2 → Keeps s (l.foldl f p).2.2
  | [], _, h => h
  | x :: l, _, h => Keeps.foldl_snd_snd hf l (hf _ x h)

/-- A record update of a state that leaves both memories, the window and the queue alone. -/
theorem Keeps.upd {u t : State} {clk freeCtr early coaches contexts policy policyHash tasks hif evt kst hbm ehl boot sec board bus}
    (h : Keeps u t) (hd : hbm.data = t.hbm.data) (hg : hif.bar2Gib = t.hif.bar2Gib) :
    Keeps u ⟨clk, freeCtr, early, coaches, contexts, policy, policyHash, tasks, hif, evt, kst, hbm, ehl, boot, sec, board, bus,
      t.host, t.pending⟩ :=
  ⟨h.1, hd.trans h.2, hg.trans h.3, h.4⟩

theorem Sound.upd {u t : State} {clk freeCtr early coaches contexts policy policyHash tasks hif evt kst hbm ehl boot sec board bus}
    (h : Sound u t) (hd : hbm.data = t.hbm.data) (hg : hif.bar2Gib = t.hif.bar2Gib) :
    Sound u ⟨clk, freeCtr, early, coaches, contexts, policy, policyHash, tasks, hif, evt, kst, hbm, ehl, boot, sec, board, bus,
      t.host, t.pending⟩ :=
  h.trans (Keeps.sound ⟨rfl, hd, hg, rfl⟩)

/-- A step that keeps the memories goes on soundly. -/
theorem Sound.thru {u s t : State} (k : Keeps s t) (h : Sound u s) : Sound u t := h.trans k.sound

/-- HBM loses its contents. -/
theorem Sound.erase {s t : State} (k : Keeps s t) {m : Hbm} (hd : m.data = []) : Sound s { t with hbm := m } :=
  ⟨k.4, fun i => ⟨(k.sound.2 i).1, by rw [show ({ t with hbm := m } : State).hbm = m from rfl, hd]; rfl, (k.sound.2 i).3⟩⟩

end Sys2Proof.Machine
end

