-- ==== Sys2Proof/Laws/KeepsCore.lean ====
section
/-! SUPPORT. What the shared operations leave alone: `X_keeps` says that `X` goes on from a state with the memories,
the BAR2 window and the queue untouched; `X_sound`, of what writes memory, that it keeps the invariant and the queue.
-/

set_option Elab.async false
set_option linter.all false

namespace Sys2Proof.Machine

open Sys2Proof

theorem after_sound {u s : State} {a : Answer} (h : ∃ t, a = .next t ∧ Sound s t) (hk : Sound u s) :
    Sound u (after a s) := by
  obtain ⟨t, rfl, k⟩ := h
  exact hk.trans k

theorem after_keeps {u s : State} {a : Answer} (h : ∃ t, a = .next t ∧ Keeps s t) (hk : Keeps u s) :
    Keeps u (after a s) := by
  obtain ⟨t, rfl, k⟩ := h
  exact hk.trans k

theorem State.setCoach_keeps {u : State} (s : State) (c : CoachId) (v : Coach) (hk : Keeps u s) :
    Keeps u (s.setCoach c v) := by
  exact hk.of_eq rfl rfl rfl rfl

theorem State.onCoach_keeps {u : State} (s : State) (c : CoachId) (f : Coach → Coach) (hk : Keeps u s) :
    Keeps u (s.onCoach c f) := by
  unfold State.onCoach
  iterate 40 all_goals try first
    | with_reducible first | assumption | apply State.setCoach_keeps
    | split | dsimp only | with_reducible refine Keeps.upd ?_ rfl rfl

theorem State.mapCoaches_keeps {u : State} (s : State) (f : CoachId → Coach → Coach) (hk : Keeps u s) :
    Keeps u (s.mapCoaches f) := by
  unfold State.mapCoaches
  iterate 40 all_goals try first
    | with_reducible first | assumption | apply Keeps.foldl | apply State.onCoach_keeps | intro _
    | split | dsimp only | with_reducible refine Keeps.upd ?_ rfl rfl

theorem State.onTask_keeps {u : State} (s : State) (key : Nat) (f : Task → Task) (hk : Keeps u s) :
    Keeps u (s.onTask key f) := by
  unfold State.onTask
  iterate 40 all_goals try first
    | with_reducible first | assumption
    | split | dsimp only | with_reducible refine Keeps.upd ?_ rfl rfl

theorem State.freed_keeps {u : State} (s : State) (hk : Keeps u s) : Keeps u s.freed := by
  exact hk.of_eq rfl rfl rfl rfl

theorem State.hit_keeps {u : State} (s : State) (k before : Nat) (hk : Keeps u s) : Keeps u (s.hit k before) := by
  exact hk.of_eq rfl rfl rfl rfl

theorem State.raise_keeps {u : State} (s : State) (source code payload : Nat) (hk : Keeps u s) :
    Keeps u (s.raise source code payload) := by
  exact hk.of_eq rfl rfl rfl rfl

theorem State.journal_keeps {u : State} (s : State) (r : JRec) (hk : Keeps u s) : Keeps u (s.journal r) := by
  unfold State.journal
  iterate 40 all_goals try first
    | with_reducible first | assumption
    | split | dsimp only | with_reducible refine Keeps.upd ?_ rfl rfl

theorem State.hostWrite_sound {u : State} (s : State) (addr : Nat) (bs : List Byte) (hk : Sound u s) :
    Sound u (s.hostWrite addr bs) := by
  exact hk.trans ⟨rfl, fun i => ⟨SMap.wf_storeList _ _ _ _ i.1, i.2, i.3⟩⟩

theorem State.answer_keeps {u : State} (s : State) (v : Nat) (hk : Keeps u s) : Keeps u (s.answer v) := by
  exact hk.of_eq rfl rfl rfl rfl

theorem State.setPort_keeps {u : State} (s : State) (p : Nat) (v : Port) (hk : Keeps u s) :
    Keeps u (s.setPort p v) := by
  exact hk.of_eq rfl rfl rfl rfl

theorem State.release_keeps {u : State} (s : State) (o : OutPkt) (hk : Keeps u s) : Keeps u (s.release o) := by
  unfold State.release
  iterate 40 all_goals try first
    | with_reducible first | assumption | apply State.setPort_keeps
    | split | dsimp only | with_reducible refine Keeps.upd ?_ rfl rfl

theorem State.emitAt_keeps {u : State} (s : State) (p : Nat) (o : OutPkt) (hk : Keeps u s) :
    ∀ t, s.emitAt p o = some t → Keeps u t := by
  intro t e
  unfold State.emitAt at e
  dsimp only at e
  split at e
  · split at e
    · cases e
      exact State.setPort_keeps _ _ _ (State.hit_keeps _ _ _ hk)
    · cases e
  · cases e

theorem State.sendAt_keeps {u : State} (s : State) (p : Nat) (o : OutPkt) (hk : Keeps u s) :
    Keeps u (s.sendAt p o) := by
  unfold State.sendAt
  iterate 40 all_goals try first
    | with_reducible first | assumption | apply State.setPort_keeps | apply State.release_keeps
                            | (apply State.emitAt_keeps <;> assumption)
    | split | dsimp only | with_reducible refine Keeps.upd ?_ rfl rfl

theorem State.flushOne_keeps {u : State} (s : State) (p : Nat) (hk : Keeps u s) : Keeps u (s.flushOne p) := by
  unfold State.flushOne
  iterate 40 all_goals try first
    | with_reducible first | assumption | apply Keeps.foldl | apply State.setPort_keeps | apply State.sendAt_keeps
                            | intro _
    | split | dsimp only | with_reducible refine Keeps.upd ?_ rfl rfl

theorem State.discard_keeps {u : State} (s : State) (hk : Keeps u s) : Keeps u s.discard := by
  unfold State.discard
  iterate 40 all_goals try first
    | with_reducible first | assumption | apply State.hit_keeps
    | split | dsimp only | with_reducible refine Keeps.upd ?_ rfl rfl

theorem State.sendStamped_keeps {u : State} (s : State) (t : PktType) (k : Packet) (x : Option Stamp) (hk : Keeps u s)
    :
    Keeps u (s.sendStamped t k x) := by
  unfold State.sendStamped
  iterate 40 all_goals try first
    | with_reducible first | assumption | apply State.sendAt_keeps | apply State.discard_keeps
    | split | dsimp only | with_reducible refine Keeps.upd ?_ rfl rfl

theorem State.sendPacket_keeps {u : State} (s : State) (t : PktType) (k : Packet) (hk : Keeps u s) :
    Keeps u (s.sendPacket t k) := by
  unfold State.sendPacket
  iterate 40 all_goals try first
    | with_reducible first | assumption | apply State.sendStamped_keeps
    | split | dsimp only | with_reducible refine Keeps.upd ?_ rfl rfl

theorem State.deadEnd_keeps {u : State} (s : State) (k : Packet) (hk : Keeps u s) : Keeps u (s.deadEnd k) := by
  unfold State.deadEnd
  iterate 40 all_goals try first
    | with_reducible first | assumption | apply State.discard_keeps | apply State.sendPacket_keeps
    | split | dsimp only | with_reducible refine Keeps.upd ?_ rfl rfl

theorem State.forward_keeps {u : State} (s : State) (via : Nat) (t : PktType) (k : Packet) (hk : Keeps u s) :
    Keeps u (s.forward via t k) := by
  unfold State.forward
  iterate 40 all_goals try first
    | with_reducible first | assumption | apply State.release_keeps | apply State.sendAt_keeps
                            | apply State.deadEnd_keeps
    | split | dsimp only | with_reducible refine Keeps.upd ?_ rfl rfl

theorem State.sendCopies_keeps {u : State} (s : State) (o : OutPkt) (hk : Keeps u s) : Keeps u (s.sendCopies o) := by
  unfold State.sendCopies
  dsimp only
  split
  · exact hk
  · refine State.release_keeps _ _ (Keeps.foldl (fun v p hv => ?_) _ hk)
    split
    · exact State.emitAt_keeps _ _ _ (State.setPort_keeps _ _ _ hv) _ ‹_›
    · exact hv

theorem State.multicast_keeps {u : State} (s : State) (mask : BitVec 16) (via : Option Nat) (k : Packet)
    (hk : Keeps u s) :
    Keeps u (s.multicast mask via k) := by
  unfold State.multicast
  iterate 40 all_goals try first
    | with_reducible first | assumption | apply Keeps.foldl | apply State.setPort_keeps | apply State.release_keeps
                            | apply State.sendCopies_keeps | intro _
    | split | dsimp only | with_reducible refine Keeps.upd ?_ rfl rfl

theorem State.flushPort_keeps {u : State} (s : State) (p : Nat) (hk : Keeps u s) : ∀ n, Keeps u (s.flushPort p n) := by
  intro n
  induction n generalizing s with
  | zero => exact hk
  | succ n ih =>
    unfold State.flushPort
    iterate 40 all_goals try first
      | with_reducible first | assumption | apply ih | apply Keeps.foldl | apply State.flushOne_keeps
                              | apply State.sendCopies_keeps | intro _
      | split | dsimp only | with_reducible refine Keeps.upd ?_ rfl rfl

theorem State.portsGoOn_keeps {u : State} (s : State) (hk : Keeps u s) : Keeps u s.portsGoOn := by
  unfold State.portsGoOn
  iterate 40 all_goals try first
    | with_reducible first | assumption | apply Keeps.foldl | apply Keeps.foldl_snd | apply Keeps.foldl_fst
                            | apply State.flushPort_keeps | intro _
    | split | dsimp only | with_reducible refine Keeps.upd ?_ rfl rfl

theorem State.sendAborts_keeps {u : State} (s : State) (t : Task) (code : BitVec 8) (hk : Keeps u s) :
    Keeps u (s.sendAborts t code) := by
  unfold State.sendAborts
  iterate 40 all_goals try first
    | with_reducible first | assumption | apply Keeps.foldl | apply State.sendPacket_keeps | intro _
    | split | dsimp only | with_reducible refine Keeps.upd ?_ rfl rfl

theorem State.latch_keeps {u : State} (s : State) (key : Nat) (a : AbortCond) (hk : Keeps u s) :
    Keeps u (s.latch key a) := by
  unfold State.latch
  iterate 40 all_goals try first
    | with_reducible first | assumption | apply State.onTask_keeps
    | split | dsimp only | with_reducible refine Keeps.upd ?_ rfl rfl

theorem State.holdAbort_keeps {u : State} (s : State) (t : Task) (a : AbortCond) (hk : Keeps u s) :
    Keeps u (s.holdAbort t a) := by
  exact hk.of_eq rfl rfl rfl rfl

theorem State.announce_keeps {u : State} (s : State) (t : Task) (hk : Keeps u s) : Keeps u (s.announce t) := by
  unfold State.announce
  iterate 40 all_goals try first
    | with_reducible first | assumption | apply State.raise_keeps | apply State.sendAborts_keeps
                            | apply State.holdAbort_keeps
    | split | dsimp only | with_reducible refine Keeps.upd ?_ rfl rfl

theorem State.tellAborts_keeps {u : State} (s : State) (hk : Keeps u s) : Keeps u s.tellAborts := by
  unfold State.tellAborts
  iterate 40 all_goals try first
    | with_reducible first | assumption | apply Keeps.foldl | apply State.announce_keeps | intro _
    | split | dsimp only | with_reducible refine Keeps.upd ?_ rfl rfl

theorem State.removeTask_keeps {u : State} (s : State) (key : Nat) (hk : Keeps u s) : Keeps u (s.removeTask key) := by
  unfold State.removeTask
  iterate 40 all_goals try first
    | with_reducible first | assumption | apply Keeps.foldl | apply State.announce_keeps | intro _
    | split | dsimp only | with_reducible refine Keeps.upd ?_ rfl rfl

theorem State.latchCoach_keeps {u : State} (s : State) (c : CoachId) (code : AbortCode) (payload : Nat)
    (hk : Keeps u s) :
    Keeps u (s.latchCoach c code payload) := by
  unfold State.latchCoach
  iterate 40 all_goals try first
    | with_reducible first | assumption | apply State.latch_keeps
    | split | dsimp only | with_reducible refine Keeps.upd ?_ rfl rfl

theorem State.hazardCoach_keeps {u : State} (s : State) (c : CoachId) (kind info payload : Nat) (hk : Keeps u s) :
    Keeps u (s.hazardCoach c kind info payload) := by
  unfold State.hazardCoach
  iterate 40 all_goals try first
    | with_reducible first | assumption | apply State.onCoach_keeps | apply State.hit_keeps
                            | apply State.latchCoach_keeps
    | split | dsimp only | with_reducible refine Keeps.upd ?_ rfl rfl

theorem State.setStk_keeps {u : State} (s : State) (k : Nat) (v : Stack) (hk : Keeps u s) :
    Keeps u (s.setStk k v) := by
  exact hk.of_eq rfl rfl rfl rfl

theorem State.raiseRetire_keeps {u : State} (s : State) (k a row : Nat) (replay : Bool) (hk : Keeps u s) :
    Keeps u (s.raiseRetire k a row replay) := by
  unfold State.raiseRetire
  iterate 40 all_goals try first
    | with_reducible first | assumption | apply Keeps.foldl | apply State.hit_keeps | apply State.raise_keeps
                            | intro _
    | split | dsimp only | with_reducible refine Keeps.upd ?_ rfl rfl

theorem State.retireRow_keeps {u : State} (s : State) (k a row : Nat) (hk : Keeps u s) :
    Keeps u (s.retireRow k a row) := by
  unfold State.retireRow
  iterate 40 all_goals try first
    | with_reducible first | assumption | apply State.journal_keeps | apply State.setStk_keeps
                            | apply State.raiseRetire_keeps
    | split | dsimp only | with_reducible refine Keeps.upd ?_ rfl rfl

theorem State.startEvac_keeps {u : State} (s : State) (k a : Nat) (hk : Keeps u s) : Keeps u (s.startEvac k a) := by
  unfold State.startEvac
  iterate 40 all_goals try first
    | with_reducible first | assumption | apply State.raise_keeps | apply State.journal_keeps
                            | apply State.setStk_keeps
    | split | dsimp only | with_reducible refine Keeps.upd ?_ rfl rfl

theorem State.copySoon_keeps {u : State} (s : State) (k a : Nat) (hk : Keeps u s) : Keeps u (s.copySoon k a) := by
  unfold State.copySoon
  iterate 40 all_goals try first
    | with_reducible first | assumption | apply State.setStk_keeps
    | split | dsimp only | with_reducible refine Keeps.upd ?_ rfl rfl

theorem State.remapRow_keeps {u : State} (s : State) (k a row : Nat) (hk : Keeps u s) :
    Keeps u (s.remapRow k a row) := by
  unfold State.remapRow
  iterate 40 all_goals try first
    | with_reducible first | assumption | apply State.setStk_keeps | apply State.retireRow_keeps
                            | apply State.startEvac_keeps | apply State.copySoon_keeps
    | split | dsimp only | with_reducible refine Keeps.upd ?_ rfl rfl

theorem State.corrected_keeps {u : State} (s : State) (g : Nat) (hk : Keeps u s) : Keeps u (s.corrected g) := by
  unfold State.corrected
  iterate 40 all_goals try first
    | with_reducible first | assumption | apply State.hit_keeps | apply State.setStk_keeps
                            | apply State.startEvac_keeps | apply State.remapRow_keeps
    | split | dsimp only | with_reducible refine Keeps.upd ?_ rfl rfl

theorem State.uncorrected_keeps {u : State} (s : State) (g : Nat) (q : Requester) (hk : Keeps u s) :
    Keeps u (s.uncorrected g q) := by
  unfold State.uncorrected
  iterate 40 all_goals try first
    | with_reducible first | assumption | apply State.hit_keeps | apply State.remapRow_keeps
    | split | dsimp only | with_reducible refine Keeps.upd ?_ rfl rfl

theorem State.readCheck_keeps {u : State} (s : State) (g addr n : Nat) (q : Requester) (hk : Keeps u s) :
    Keeps u (s.readCheck g addr n q).2 := by
  unfold State.readCheck
  iterate 40 all_goals try first
    | with_reducible first | assumption | apply Keeps.foldl | apply Keeps.foldl_snd | apply State.corrected_keeps
                            | apply State.uncorrected_keeps | intro _
    | split | dsimp only | with_reducible refine Keeps.upd ?_ rfl rfl

theorem State.hbmRead_keeps {u : State} (s : State) (addr n : Nat) (q : Requester) (hk : Keeps u s) :
    Keeps u (s.hbmRead addr n q).2.2 := by
  unfold State.hbmRead
  iterate 40 all_goals try first
    | with_reducible first | assumption | apply Keeps.foldl | apply Keeps.foldl_snd | apply Keeps.foldl_fst
                            | apply State.readCheck_keeps | intro _
    | split | dsimp only | with_reducible refine Keeps.upd ?_ rfl rfl

theorem State.hbmWrite_sound {u : State} (s : State) (addr : Nat) (bs : List Byte) (hk : Sound u s) :
    Sound u (s.hbmWrite addr bs) := by
  unfold State.hbmWrite
  dsimp only
  split
  · exact hk
  · exact hk.trans ⟨rfl, fun i => ⟨i.1, SMap.wf_storeList _ _ _ _ i.2, i.3⟩⟩

theorem State.hbmWriteAll_sound {u : State} (s : State) (addr : Nat) (bs : List Byte) (hk : Sound u s) :
    Sound u (s.hbmWriteAll addr bs) := by
  unfold State.hbmWriteAll
  iterate 40 all_goals try first
    | with_reducible first | assumption | apply Sound.foldl | apply State.hbmWrite_sound | intro _
    | split | dsimp only | with_reducible refine Sound.upd ?_ rfl rfl

theorem State.ask_keeps {u : State} (s : State) (port addr n clkAt : Nat) (job : AskJob) (hk : Keeps u s) :
    Keeps u (s.ask port addr n clkAt job) := by
  exact hk.of_eq rfl rfl rfl rfl

theorem State.askSpent_keeps {u : State} (s : State) (addr place clkAt : Nat) (job : AskJob) (hk : Keeps u s) :
    Keeps u (s.askSpent addr place clkAt job) := by
  unfold State.askSpent
  iterate 40 all_goals try first
    | with_reducible first | assumption
    | split | dsimp only | with_reducible refine Keeps.upd ?_ rfl rfl

theorem State.setQueue_keeps {u : State} (s : State) (q : Nat) (v : KeyQueue) (hk : Keeps u s) :
    Keeps u (s.setQueue q v) := by
  exact hk.of_eq rfl rfl rfl rfl

theorem State.newRid_keeps {u : State} (s : State) (hk : Keeps u s) : Keeps u (s.newRid).2 := by
  exact hk.of_eq rfl rfl rfl rfl

theorem State.readRemote_keeps {u : State} (s : State) (who : Reader) (tkey : Nat) (tag : BitVec 16) (n : NodeId)
    (addr : Nat) (x : Option Stamp) (hk : Keeps u s) :
    Keeps u (s.readRemote who tkey tag n addr x).2 := by
  unfold State.readRemote
  iterate 40 all_goals try first
    | with_reducible first | assumption | apply State.sendStamped_keeps | apply State.newRid_keeps
    | split | dsimp only | with_reducible refine Keeps.upd ?_ rfl rfl

theorem State.applyHbm_sound {u : State} (s : State) (addr : Nat) (wr : SMap (Byte × Byte)) (hk : Sound u s) :
    Sound u (s.applyHbm addr wr) := by
  unfold State.applyHbm
  iterate 40 all_goals try first
    | with_reducible first | assumption | apply Sound.foldl | apply Sound.foldl_snd | apply Sound.foldl_fst
                            | apply State.hbmWrite_sound | intro _
    | split | dsimp only | with_reducible refine Sound.upd ?_ rfl rfl

theorem State.writeHbm_sound {u : State} (s : State) (c : CoachId) (q : Req) (hk : Sound u s) :
    Sound u (s.writeHbm c q) := by
  unfold State.writeHbm
  iterate 40 all_goals try first
    | with_reducible first | assumption | apply State.applyHbm_sound
    | split | dsimp only | with_reducible refine Sound.upd ?_ rfl rfl

theorem State.applyHost_sound {u : State} (s : State) (addr : Nat) (wr : SMap (Byte × Byte)) (hk : Sound u s) :
    Sound u (s.applyHost addr wr) := by
  unfold State.applyHost
  iterate 40 all_goals try first
    | with_reducible first | assumption | apply Sound.foldl | apply Sound.foldl_snd | apply Sound.foldl_fst
                            | apply State.hostWrite_sound | intro _
    | split | dsimp only | with_reducible refine Sound.upd ?_ rfl rfl

theorem State.applyFabric_keeps {u : State} (s : State) (n : NodeId) (tag : BitVec 16) (addr : Nat)
    (wr : SMap (Byte × Byte)) (x : Option Stamp) (hk : Keeps u s) :
    Keeps u (s.applyFabric n tag addr wr x) := by
  unfold State.applyFabric
  iterate 40 all_goals try first
    | with_reducible first | assumption | apply State.freed_keeps | apply State.sendStamped_keeps
    | split | dsimp only | with_reducible refine Keeps.upd ?_ rfl rfl

theorem State.reapWrites_keeps {u : State} (s : State) (hk : Keeps u s) : Keeps u s.reapWrites := by
  unfold State.reapWrites
  iterate 40 all_goals try first
    | with_reducible first | assumption | apply Keeps.foldl | apply State.mapCoaches_keeps | intro _
    | split | dsimp only | with_reducible refine Keeps.upd ?_ rfl rfl

theorem State.sendOut_sound {u : State} (s : State) (w : OnWay) (hk : Sound u s) : Sound u (s.sendOut w) := by
  unfold State.sendOut
  iterate 40 all_goals try first
    | with_reducible first | assumption | refine Sound.thru (by apply State.onCoach_keeps; exact Keeps.refl _) ?_
                            | refine Sound.thru (by apply State.readRemote_keeps; exact Keeps.refl _) ?_
                            | apply State.applyHost_sound
                            | refine Sound.thru (by apply State.applyFabric_keeps; exact Keeps.refl _) ?_
    | split | dsimp only | with_reducible refine Sound.upd ?_ rfl rfl

theorem State.leave_sound {u : State} (s : State) (fill : CoachId → SMap Bool) (t : Nat) (hk : Sound u s) :
    Sound u (s.leave fill t) := by
  unfold State.leave
  iterate 40 all_goals try first
    | with_reducible first | assumption | apply Sound.foldl
                            | refine Sound.thru (by apply State.onCoach_keeps; exact Keeps.refl _) ?_
                            | refine Sound.thru (by apply State.reapWrites_keeps; exact Keeps.refl _) ?_
                            | apply State.sendOut_sound | intro _
    | split | dsimp only | with_reducible refine Sound.upd ?_ rfl rfl

theorem State.redo_keeps {u : State} (s : State) (c : CoachId) (o : OpenEx) (hk : Keeps u s) :
    Keeps u (s.redo c o) := by
  unfold State.redo
  iterate 40 all_goals try first
    | with_reducible first | assumption | apply State.onCoach_keeps
    | split | dsimp only | with_reducible refine Keeps.upd ?_ rfl rfl

theorem State.spoilOpen_keeps {u : State} : ∀ (n : Nat) (s : State) (c : CoachId) (o : OpenEx), Keeps u s →
    Keeps u (State.spoilOpen n s c o)
  | 0, _, _, _, hk => hk
  | n + 1, s, c, o, hk => by
    unfold State.spoilOpen
    refine Keeps.foldl (fun t d ht => Keeps.foldl (fun v p hv => State.spoilOpen_keeps n v d p hv) _ ?_) _
      (State.freed_keeps _ (State.onCoach_keeps _ _ _ hk))
    exact State.freed_keeps _ (State.onCoach_keeps _ _ _ ht)

theorem State.learn_keeps {u : State} (s : State) (c : CoachId) (a : Acc) (g : Got) (hk : Keeps u s) :
    Keeps u (s.learn c a g) := by
  unfold State.learn
  iterate 40 all_goals try first
    | with_reducible first | assumption | apply State.redo_keeps | apply State.spoilOpen_keeps
    | split | dsimp only | with_reducible refine Keeps.upd ?_ rfl rfl

theorem State.learnRow_keeps {u : State} (s : State) (c : CoachId) (a : Acc) (v : Carriage) (hk : Keeps u s) :
    Keeps u (s.learnRow c a v) := by
  unfold State.learnRow
  iterate 40 all_goals try first
    | with_reducible first | assumption | apply State.onCoach_keeps | apply State.learn_keeps
    | split | dsimp only | with_reducible refine Keeps.upd ?_ rfl rfl

theorem State.meetErrors_keeps {u : State} (s : State) (c : CoachId) (row : Nat) (hk : Keeps u s) :
    Keeps u (s.meetErrors c row) := by
  unfold State.meetErrors
  iterate 40 all_goals try first
    | with_reducible first | assumption | apply State.setCoach_keeps | apply State.latchCoach_keeps
    | split | dsimp only | with_reducible refine Keeps.upd ?_ rfl rfl

theorem State.hazardOf_keeps {u : State} (s : State) (c : CoachId) (a : Acc) (kind : Nat) (hk : Keeps u s) :
    Keeps u (s.hazardOf c a kind) := by
  unfold State.hazardOf
  iterate 40 all_goals try first
    | with_reducible first | assumption | apply State.hazardCoach_keeps
    | split | dsimp only | with_reducible refine Keeps.upd ?_ rfl rfl

theorem State.checkAcc_keeps {u : State} (s : State) (c : CoachId) (a : Acc) (full : Bool) (hk : Keeps u s) :
    Keeps u (s.checkAcc c a full) := by
  unfold State.checkAcc
  iterate 40 all_goals try first
    | with_reducible first | assumption | apply State.hazardOf_keeps | apply State.checked_keeps | intro _
    | split | dsimp only | with_reducible refine Keeps.upd ?_ rfl rfl

theorem State.readRow_keeps {u : State} (s : State) (c : CoachId) (a : Acc) (hk : Keeps u s) :
    Keeps u (s.readRow c a) := by
  unfold State.readRow
  iterate 40 all_goals try first
    | with_reducible first | assumption | apply State.onCoach_keeps | apply State.learnRow_keeps
                            | apply State.meetErrors_keeps
    | split | dsimp only | with_reducible refine Keeps.upd ?_ rfl rfl

theorem State.serveBank_keeps {u : State} (fill : SMap Bool) (c : CoachId) (s : State) (a : Acc) (hk : Keeps u s) :
    Keeps u (State.serveBank fill c s a) := by
  unfold State.serveBank
  iterate 40 all_goals try first
    | with_reducible first | assumption | apply State.onCoach_keeps | apply State.latchCoach_keeps
                            | apply State.hazardOf_keeps | apply State.checkAcc_keeps | apply State.readRow_keeps
    | split | dsimp only | with_reducible refine Keeps.upd ?_ rfl rfl

theorem State.pushTile_keeps {u : State} (s : State) (c : CoachId) (a : Acc) (hk : Keeps u s) :
    Keeps u (s.pushTile c a) := by
  unfold State.pushTile
  iterate 40 all_goals try first
    | with_reducible first | assumption | apply State.onCoach_keeps | apply State.freed_keeps
                            | apply State.hazardOf_keeps
    | split | dsimp only | with_reducible refine Keeps.upd ?_ rfl rfl

theorem State.popTile_keeps {u : State} (s : State) (c : CoachId) (a : Acc) (hk : Keeps u s) :
    Keeps u (s.popTile c a) := by
  unfold State.popTile
  iterate 40 all_goals try first
    | with_reducible first | assumption | apply State.onCoach_keeps | apply State.freed_keeps
                            | apply State.learn_keeps | apply State.hazardOf_keeps
    | split | dsimp only | with_reducible refine Keeps.upd ?_ rfl rfl

theorem State.takeTile_keeps {u : State} (s : State) (c : CoachId) (a : Acc) (hk : Keeps u s) :
    Keeps u (s.takeTile c a) := by
  unfold State.takeTile
  iterate 40 all_goals try first
    | with_reducible first | assumption | apply State.onCoach_keeps | apply State.learn_keeps
    | split | dsimp only | with_reducible refine Keeps.upd ?_ rfl rfl

theorem State.sendTile_keeps {u : State} (s : State) (c : CoachId) (a : Acc) (hk : Keeps u s) :
    Keeps u (s.sendTile c a) := by
  unfold State.sendTile
  iterate 40 all_goals try first
    | with_reducible first | assumption | apply State.onCoach_keeps
    | split | dsimp only | with_reducible refine Keeps.upd ?_ rfl rfl

theorem State.serveAcc_keeps {u : State} (fill : SMap Bool) (c : CoachId) (s : State) (a : Acc) (hk : Keeps u s) :
    Keeps u (State.serveAcc fill c s a) := by
  unfold State.serveAcc
  iterate 40 all_goals try first
    | with_reducible first | assumption | apply State.latchCoach_keeps | apply State.serveBank_keeps
                            | apply State.pushTile_keeps | apply State.popTile_keeps | apply State.takeTile_keeps
                            | apply State.sendTile_keeps | apply State.push_keeps
    | split | dsimp only | with_reducible refine Keeps.upd ?_ rfl rfl

theorem State.serveDue_keeps {u : State} (fill : SMap Bool) (t : Nat) (c : CoachId) :
    ∀ (n : Nat) (s : State), Keeps u s → Keeps u (State.serveDue fill t c n s) := by
  intro n
  induction n with
  | zero => exact fun s hk => hk
  | succ n ih =>
    intro s hk
    unfold State.serveDue
    iterate 40 all_goals try first
      | with_reducible first | assumption | apply ih | apply State.onCoach_keeps | apply State.serveAcc_keeps
      | split | dsimp only | with_reducible refine Keeps.upd ?_ rfl rfl

theorem State.serveAccs_keeps {u : State} (s : State) (t : Nat) (c : CoachId) (hk : Keeps u s) :
    Keeps u (s.serveAccs t c) := by
  unfold State.serveAccs
  iterate 40 all_goals try first
    | with_reducible first | assumption | apply Keeps.foldl | apply State.setCoach_keeps | apply State.serveDue_keeps
                            | intro _
    | split | dsimp only | with_reducible refine Keeps.upd ?_ rfl rfl

theorem State.endClk_sound {u : State} (s : State) (hk : Sound u s) : Sound u s.endClk := by
  unfold State.endClk
  iterate 40 all_goals try first
    | with_reducible first | assumption | apply Sound.foldl
                            | refine Sound.thru (by apply State.mapCoaches_keeps; exact Keeps.refl _) ?_
                            | refine Sound.thru (by apply State.portsGoOn_keeps; exact Keeps.refl _) ?_
                            | refine Sound.thru (by apply State.tellAborts_keeps; exact Keeps.refl _) ?_
                            | refine Sound.thru (by apply State.reapWrites_keeps; exact Keeps.refl _) ?_
                            | apply State.leave_sound
                            | refine Sound.thru (by apply State.serveAccs_keeps; exact Keeps.refl _) ?_ | intro _
    | split | dsimp only | with_reducible refine Sound.upd ?_ rfl rfl

theorem State.pass_sound {u : State} (s : State) (d : Nat) (hk : Sound u s) : Sound u (s.pass d) := by
  unfold State.pass
  iterate 40 all_goals try first
    | with_reducible first | assumption | refine Sound.thru (by apply State.mapCoaches_keeps; exact Keeps.refl _) ?_
                            | apply State.tick_sound
    | split | dsimp only | with_reducible refine Sound.upd ?_ rfl rfl

theorem State.skip_sound {u : State} (s : State) (t : Nat) (hk : Sound u s) : Sound u (s.skip t) := by
  unfold State.skip
  iterate 40 all_goals try first
    | with_reducible first | assumption | apply State.pass_sound
    | split | dsimp only | with_reducible refine Sound.upd ?_ rfl rfl

theorem State.runTo_sound {u : State} (t1 : Nat) :
    ∀ (n : Nat) (s : State), Sound u s → Sound u (State.runTo t1 n s) := by
  intro n
  induction n with
  | zero => exact fun s hk => hk
  | succ n ih =>
    intro s hk
    unfold State.runTo
    iterate 40 all_goals try first
      | with_reducible first | assumption | apply ih | apply State.endClk_sound | apply State.pass_sound
                              | apply State.skip_sound
      | split | dsimp only | with_reducible refine Sound.upd ?_ rfl rfl

theorem State.tick_sound {u : State} (s : State) (d : Nat) (hk : Sound u s) : Sound u (s.tick d) := by
  unfold State.tick
  iterate 40 all_goals try first
    | with_reducible first | assumption | apply State.runTo_sound
    | split | dsimp only | with_reducible refine Sound.upd ?_ rfl rfl

theorem State.advance_sound {u : State} (s : State) (t : Nat) (hk : Sound u s) : Sound u (s.advance t) := by
  unfold State.advance
  iterate 40 all_goals try first
    | with_reducible first | assumption | apply State.tick_sound
    | split | dsimp only | with_reducible refine Sound.upd ?_ rfl rfl

theorem State.keyMismatch_keeps {u : State} (s : State) (c : CoachId) (e : BitVec 3) (i : BitVec 13) (m : Mismatch)
    (hk : Keeps u s) :
    Keeps u (s.keyMismatch c e i m) := by
  unfold State.keyMismatch
  iterate 40 all_goals try first
    | with_reducible first | assumption | apply State.setCoach_keeps | apply State.raise_keeps
    | split | dsimp only | with_reducible refine Keeps.upd ?_ rfl rfl

theorem State.account_keeps {u : State} (s : State) (c : CoachId) (e : Engine) (i : BitVec 13) (cls : Option Nat)
    (param : Nat) (hdrs : List Nat) (r : Nat) (regions : List Nat) (due : Nat) (hk : Keeps u s) :
    Keeps u (s.account c e i cls param hdrs r regions due) := by
  unfold State.account
  iterate 40 all_goals try first
    | with_reducible first | assumption | apply State.setCoach_keeps | apply State.freed_keeps
                            | apply State.keyMismatch_keeps
    | split | dsimp only | with_reducible refine Keeps.upd ?_ rfl rfl

theorem State.keyRead_keeps {u : State} (s : State) (c : CoachId) (e : Engine) (i : BitVec 13) (regions : List Nat)
    (hk : Keeps u s) :
    Keeps u (s.keyRead c e i regions) := by
  unfold State.keyRead
  iterate 40 all_goals try first
    | with_reducible first | assumption | apply State.setCoach_keeps | apply State.keyMismatch_keeps
    | split | dsimp only | with_reducible refine Keeps.upd ?_ rfl rfl

theorem State.reachIssue_sound {u : State} (c : CoachId) (e : Engine) :
    ∀ (n : Nat) (s : State), Sound u s → Sound u (State.reachIssue c e n s) := by
  intro n
  induction n with
  | zero => exact fun s hk => hk
  | succ n ih =>
    intro s hk
    unfold State.reachIssue
    iterate 40 all_goals try first
      | with_reducible first | assumption | apply ih | apply State.advance_sound
      | split | dsimp only | with_reducible refine Sound.upd ?_ rfl rfl

theorem State.atIssue_sound {u : State} (s : State) (c : CoachId) (e : Engine) (hk : Sound u s) :
    Sound u (s.atIssue c e) := by
  unfold State.atIssue
  iterate 40 all_goals try first
    | with_reducible first | assumption | apply State.reachIssue_sound
    | split | dsimp only | with_reducible refine Sound.upd ?_ rfl rfl

theorem State.pushSig_keeps {u : State} (s : State) (c : CoachId) (e : Engine) (com : Common) (remote : CoachId)
    (due : Nat) (hk : Keeps u s) :
    Keeps u (s.pushSig c e com remote due) := by
  unfold State.pushSig
  iterate 40 all_goals try first
    | with_reducible first | assumption | apply State.onCoach_keeps
    | split | dsimp only | with_reducible refine Keeps.upd ?_ rfl rfl

theorem State.pushCs_keeps {u : State} (s : State) (c : CoachId) (e : Engine) (com : Common) (due : Nat)
    (hk : Keeps u s) :
    Keeps u (s.pushCs c e com due) := by
  unfold State.pushCs
  iterate 40 all_goals try first
    | with_reducible first | assumption | apply State.pushSig_keeps
    | split | dsimp only | with_reducible refine Keeps.upd ?_ rfl rfl

theorem State.spoilHeaders_keeps {u : State} (s : State) (c : CoachId) (e : Engine) (hk : Keeps u s) :
    Keeps u (s.spoilHeaders c e) := by
  unfold State.spoilHeaders
  iterate 40 all_goals try first
    | with_reducible first | assumption | apply State.onCoach_keeps | apply State.freed_keeps
    | split | dsimp only | with_reducible refine Keeps.upd ?_ rfl rfl

theorem State.spoilBoth_keeps {u : State} (s : State) (c : CoachId) (e : Engine) (before : Option OpenEx)
    (hk : Keeps u s) :
    Keeps u (s.spoilBoth c e before) := by
  unfold State.spoilBoth
  iterate 40 all_goals try first
    | with_reducible first | assumption | apply State.spoilOpen_keeps | apply State.spoilHeaders_keeps
    | split | dsimp only | with_reducible refine Keeps.upd ?_ rfl rfl

theorem State.dataPath_keeps {u : State} (s : State) (c : CoachId) (e : Engine) (com : Common) (o l : Nat)
    (hdr : Option HdrAsk) (cmd : DataCmd) (hk : Keeps u s) :
    Keeps u (s.dataPath c e com o l hdr cmd) := by
  unfold State.dataPath
  iterate 40 all_goals try first
    | with_reducible first | assumption | apply State.setCoach_keeps | apply State.freed_keeps
                            | apply State.account_keeps | apply State.keyRead_keeps | apply State.pushCs_keeps
                            | apply State.spoilBoth_keeps
    | split | dsimp only | with_reducible refine Keeps.upd ?_ rfl rfl

theorem State.addDoorAt_keeps {u : State} (s : State) (c : CoachId) (d : BitVec 8) (amount w : Nat) (hk : Keeps u s) :
    Keeps u (s.addDoorAt c d amount w) := by
  unfold State.addDoorAt
  iterate 40 all_goals try first
    | with_reducible first | assumption | apply State.onCoach_keeps
    | split | dsimp only | with_reducible refine Keeps.upd ?_ rfl rfl

theorem State.come_sound {u : State} (s : State) (c : CoachId) (e : Engine) (hk : Sound u s) :
    Sound u (s.come c e) := by
  unfold State.come
  iterate 40 all_goals try first
    | with_reducible first | assumption | apply State.advance_sound
    | split | dsimp only | with_reducible refine Sound.upd ?_ rfl rfl

theorem State.issueWith_sound {u : State} (s : State) (c : CoachId) (e : Engine) (data : Bool) (f : State → State)
    (hf : ∀ v, Sound u v → Sound u (f v)) (hk : Sound u s) :
    Sound u (s.issueWith c e data f) := by
  unfold State.issueWith
  iterate 40 all_goals try first
    | with_reducible first | assumption | apply hf | apply State.atIssue_sound | apply State.come_sound
    | split | dsimp only | with_reducible refine Sound.upd ?_ rfl rfl

theorem State.deliver_keeps {u : State} (s : State) (c : CoachId) (g : Sig) (hk : Keeps u s) :
    Keeps u (s.deliver c g) := by
  unfold State.deliver
  iterate 40 all_goals try first
    | with_reducible first | assumption | apply State.onCoach_keeps | apply State.addDoorAt_keeps
    | split | dsimp only | with_reducible refine Keeps.upd ?_ rfl rfl

theorem State.sendArrivals_keeps {u : State} (s : State) (t : Task) (sid use fd : Nat) (hk : Keeps u s) :
    Keeps u (s.sendArrivals t sid use fd) := by
  unfold State.sendArrivals
  iterate 40 all_goals try first
    | with_reducible first | assumption | apply Keeps.foldl | apply State.sendPacket_keeps | intro _
    | split | dsimp only | with_reducible refine Keeps.upd ?_ rfl rfl

theorem State.arrive_sound {u : State} (s : State) (c : CoachId) (e : Engine) (sid a : Nat) (hk : Sound u s) :
    Sound u (s.arrive c e sid a) := by
  unfold State.arrive
  iterate 40 all_goals try first
    | with_reducible first | assumption | refine Sound.thru (by apply State.onCoach_keeps; exact Keeps.refl _) ?_
                            | refine Sound.thru (by apply State.onTask_keeps; exact Keeps.refl _) ?_
                            | apply State.tick_sound
                            | refine Sound.thru (by apply State.sendArrivals_keeps; exact Keeps.refl _) ?_
    | split | dsimp only | with_reducible refine Sound.upd ?_ rfl rfl

theorem State.closeLayer_keeps {u : State} (s : State) (key sid : Nat) (final : Bool) (hk : Keeps u s) :
    Keeps u (s.closeLayer key sid final) := by
  unfold State.closeLayer
  iterate 40 all_goals try first
    | with_reducible first | assumption | apply Keeps.foldl | apply Keeps.foldl_snd | apply Keeps.foldl_fst
                            | apply State.onCoach_keeps | apply State.onTask_keeps | intro _
    | split | dsimp only | with_reducible refine Keeps.upd ?_ rfl rfl

theorem State.releaseShutter_keeps {u : State} (s : State) (key sid r : Nat) (hk : Keeps u s) :
    Keeps u (s.releaseShutter key sid r) := by
  unfold State.releaseShutter
  iterate 40 all_goals try first
    | with_reducible first | assumption | apply Keeps.foldl | apply State.onCoach_keeps | apply State.onTask_keeps
                            | apply State.closeLayer_keeps | intro _
    | split | dsimp only | with_reducible refine Keeps.upd ?_ rfl rfl

theorem State.recordArrival_keeps {u : State} (s : State) (k : Packet) (hk : Keeps u s) :
    Keeps u (s.recordArrival k) := by
  unfold State.recordArrival
  iterate 40 all_goals try first
    | with_reducible first | assumption | apply State.onTask_keeps
    | split | dsimp only | with_reducible refine Keeps.upd ?_ rfl rfl

theorem State.setSq_keeps {u : State} (s : State) (i : Nat) (v : Sq) (hk : Keeps u s) : Keeps u (s.setSq i v) := by
  exact hk.of_eq rfl rfl rfl rfl

theorem State.setCq_keeps {u : State} (s : State) (i : Nat) (v : Cq) (hk : Keeps u s) : Keeps u (s.setCq i v) := by
  exact hk.of_eq rfl rfl rfl rfl

theorem State.push_keeps {u : State} (s : State) (h : CmdHdr) (w : BitVec 512) (hk : Keeps u s) :
    Keeps u (s.push h w) := by
  unfold State.push
  iterate 40 all_goals try first
    | with_reducible first | assumption | apply State.setCq_keeps
    | split | dsimp only | with_reducible refine Keeps.upd ?_ rfl rfl

theorem State.accept_keeps {u : State} (s : State) (h : CmdHdr) (hk : Keeps u s) : Keeps u (s.accept h) := by
  unfold State.accept
  iterate 40 all_goals try first
    | with_reducible first | assumption | apply State.setSq_keeps
    | split | dsimp only | with_reducible refine Keeps.upd ?_ rfl rfl

theorem State.post_keeps {u : State} (s : State) (op : Nat) (h : CmdHdr) (r : Report) (hk : Keeps u s) :
    Keeps u (s.post op h r) := by
  unfold State.post
  iterate 40 all_goals try first
    | with_reducible first | assumption | apply State.push_keeps | apply State.accept_keeps
    | split | dsimp only | with_reducible refine Keeps.upd ?_ rfl rfl

theorem State.refuse_keeps {u : State} (s : State) (op : Nat) (h : CmdHdr) (status : Status) (detail : Nat)
    (hk : Keeps u s) :
    Keeps u (s.refuse op h status detail) := by
  unfold State.refuse
  iterate 40 all_goals try first
    | with_reducible first | assumption | apply State.post_keeps
    | split | dsimp only | with_reducible refine Keeps.upd ?_ rfl rfl

theorem State.await_keeps {u : State} (s : State) (w : Waiting) (hk : Keeps u s) : Keeps u (s.await w) := by
  exact hk.of_eq rfl rfl rfl rfl

theorem State.waitOver_keeps {u : State} (s : State) (w : Waiting) (hk : Keeps u s) :
    ∀ t, s.waitOver w = some t → Keeps u t := by
  intro t e
  unfold State.waitOver at e
  dsimp only at e
  (repeat' split at e) <;> simp only [Option.some.injEq, reduceCtorEq] at e <;> subst e <;> apply State.post_keeps <;>
    first | exact hk | exact hk.of_eq rfl rfl rfl rfl

theorem State.settleWaiting_keeps {u : State} (s : State) (hk : Keeps u s) : Keeps u s.settleWaiting := by
  unfold State.settleWaiting
  iterate 40 all_goals try first
    | with_reducible first | assumption | apply Keeps.foldl | (apply State.waitOver_keeps <;> assumption) | intro _
    | split | dsimp only | with_reducible refine Keeps.upd ?_ rfl rfl

theorem State.postTask_keeps {u : State} (s : State) (key : Nat) (hk : Keeps u s) : Keeps u (s.postTask key) := by
  unfold State.postTask
  iterate 40 all_goals try first
    | with_reducible first | assumption | apply State.onTask_keeps | apply State.removeTask_keeps
                            | apply State.push_keeps | apply State.settleWaiting_keeps
    | split | dsimp only | with_reducible refine Keeps.upd ?_ rfl rfl

theorem State.endTask_keeps {u : State} (s : State) (key : Nat) (hk : Keeps u s) : Keeps u (s.endTask key) := by
  unfold State.endTask
  iterate 40 all_goals try first
    | with_reducible first | assumption | apply State.onTask_keeps | apply State.settleWaiting_keeps
                            | apply State.postTask_keeps
    | split | dsimp only | with_reducible refine Keeps.upd ?_ rfl rfl

theorem State.abortHere_keeps {u : State} (s : State) (a : AbortCond) (t : Task) (hk : Keeps u s) :
    Keeps u (s.abortHere a t) := by
  unfold State.abortHere
  iterate 40 all_goals try first
    | with_reducible first | assumption | apply State.onTask_keeps | apply State.latch_keeps
                            | apply State.endTask_keeps
    | split | dsimp only | with_reducible refine Keeps.upd ?_ rfl rfl

theorem State.checked_keeps {u : State} (s : State) (op : Nat) (h : CmdHdr) (w : Nat) (f : State → State)
    (hf : ∀ v, Keeps u v → Keeps u (f v)) (hk : Keeps u s) :
    Keeps u (s.checked op h w f) := by
  unfold State.checked
  split
  · exact State.refuse_keeps _ _ _ _ _ hk
  · exact hf _ hk

theorem State.checked_sound {u : State} (s : State) (op : Nat) (h : CmdHdr) (w : Nat) (f : State → State)
    (hf : ∀ v, Sound u v → Sound u (f v)) (hk : Sound u s) :
    Sound u (s.checked op h w f) := by
  unfold State.checked
  split
  · exact hk.thru (State.refuse_keeps _ _ _ _ _ (Keeps.refl _))
  · exact hf _ hk

theorem State.takePiece_keeps {u : State} (s : State) (k : Packet) (hk : Keeps u s) : Keeps u (s.takePiece k) := by
  unfold State.takePiece
  iterate 40 all_goals try first
    | with_reducible first | assumption | apply State.setQueue_keeps
    | split | dsimp only | with_reducible refine Keeps.upd ?_ rfl rfl

theorem State.claimQueue_keeps {u : State} (s : State) (t : Task) (hk : Keeps u s) : Keeps u (s.claimQueue t) := by
  unfold State.claimQueue
  iterate 40 all_goals try first
    | with_reducible first | assumption | apply Keeps.foldl | apply State.onTask_keeps | apply State.takePiece_keeps
                            | intro _
    | split | dsimp only | with_reducible refine Keeps.upd ?_ rfl rfl

theorem State.releaseQueue_keeps {u : State} (s : State) (key : Nat) (hk : Keeps u s) :
    Keeps u (s.releaseQueue key) := by
  unfold State.releaseQueue
  iterate 40 all_goals try first
    | with_reducible first | assumption
    | split | dsimp only | with_reducible refine Keeps.upd ?_ rfl rfl

end Sys2Proof.Machine
end

