-- ==== Sys2Proof/Laws/KeepsTask.lean ====
section
/-! SUPPORT. What streams, the life of a task and the key streamer leave alone: `X_keeps` says that `X` goes on from a
state with the memories, the BAR2 window and the queue untouched; `X_sound`, of what writes memory, that it keeps the
invariant and the queue. -/

set_option Elab.async false
set_option linter.all false

namespace Sys2Proof.Machine

open Sys2Proof

theorem State.setTransfer_keeps {u : State} (s : State) (c : CoachId) (e : Engine) (t : Option Transfer)
    (hk : Keeps u s) :
    Keeps u (s.setTransfer c e t) := by
  unfold State.setTransfer
  iterate 40 all_goals try first
    | with_reducible first | assumption | apply State.onCoach_keeps
    | split | dsimp only | with_reducible refine Keeps.upd ?_ rfl rfl

theorem State.sinVisits_keeps {u : State} (s : State) (c : CoachId) (t : Transfer) (noise : Bool) (value : Nat → Slot)
    (n : Nat) (hk : Keeps u s) :
    Keeps u (s.sinVisits c t noise value n) := by
  unfold State.sinVisits
  iterate 40 all_goals try first
    | with_reducible first | assumption | apply Keeps.foldl | apply Keeps.foldl_snd | apply Keeps.foldl_fst
                            | apply State.setCoach_keeps | apply State.freed_keeps | apply State.setTransfer_keeps
                            | intro _
    | split | dsimp only | with_reducible refine Keeps.upd ?_ rfl rfl

theorem State.loadImage_keeps {u : State} (s : State) (c : CoachId) (t : Transfer) (i image : Nat) (hk : Keeps u s) :
    Keeps u (s.loadImage c t i image) := by
  unfold State.loadImage
  iterate 40 all_goals try first
    | with_reducible first | assumption | apply State.setCoach_keeps | apply State.keyMismatch_keeps
                            | apply State.setTransfer_keeps
    | split | dsimp only | with_reducible refine Keeps.upd ?_ rfl rfl

theorem State.sinProgress_keeps {u : State} (s : State) (c : CoachId) (hk : Keeps u s) :
    ∀ n, Keeps u (s.sinProgress c n) := by
  intro n
  induction n generalizing s with
  | zero => exact hk
  | succ n ih =>
    unfold State.sinProgress
    iterate 40 all_goals try first
      | with_reducible first | assumption | apply ih | apply Keeps.foldl | apply Keeps.foldl_snd
                              | apply Keeps.foldl_fst | apply Keeps.foldl_snd_snd | apply State.sinVisits_keeps
                              | apply State.loadImage_keeps | intro _
      | split | dsimp only | with_reducible refine Keeps.upd ?_ rfl rfl

theorem State.feed_keeps {u : State} (s : State) (c : CoachId) (q : Req) (g : Granule) (hk : Keeps u s) :
    Keeps u (s.feed c q g) := by
  unfold State.feed
  iterate 40 all_goals try first
    | with_reducible first | assumption | apply State.setTransfer_keeps | apply State.sinProgress_keeps
    | split | dsimp only | with_reducible refine Keeps.upd ?_ rfl rfl

theorem State.undefSin_keeps {u : State} (s : State) (c : CoachId) (t : Transfer) (hk : Keeps u s) :
    Keeps u (s.undefSin c t) := by
  unfold State.undefSin
  iterate 40 all_goals try first
    | with_reducible first | assumption | apply State.setCoach_keeps | apply State.freed_keeps
                            | apply State.setTransfer_keeps
    | split | dsimp only | with_reducible refine Keeps.upd ?_ rfl rfl

theorem sinStep_sound {u : State} (c : CoachId) (desc : BitVec 10) (com : Common) (s : State) (hk : Sound u s) :
    Sound u (sinStep c desc com s) := by
  unfold sinStep
  iterate 40 all_goals try first
    | with_reducible first | assumption | refine Sound.thru (by apply State.onCoach_keeps; exact Keeps.refl _) ?_
                            | apply State.issueWith_sound
                            | refine Sound.thru (by apply State.setTransfer_keeps; exact Keeps.refl _) ?_
                            | refine Sound.thru (by apply State.sinVisits_keeps; exact Keeps.refl _) ?_
                            | refine Sound.thru (by apply State.undefSin_keeps; exact Keeps.refl _) ?_ | intro _
    | split | dsimp only | with_reducible refine Sound.upd ?_ rfl rfl

theorem State.noteWrites_keeps {u : State} (s : State) (c : CoachId) (rs : List Nat) (hk : Keeps u s) :
    Keeps u (s.noteWrites c rs) := by
  unfold State.noteWrites
  iterate 40 all_goals try first
    | with_reducible first | assumption | apply State.onTask_keeps
    | split | dsimp only | with_reducible refine Keeps.upd ?_ rfl rfl

theorem State.undefSout_keeps {u : State} (s : State) (c : CoachId) (t : Transfer) (hk : Keeps u s) :
    Keeps u (s.undefSout c t) := by
  unfold State.undefSout
  iterate 40 all_goals try first
    | with_reducible first | assumption | apply State.freed_keeps | apply State.setTransfer_keeps
                            | apply State.noteWrites_keeps
    | split | dsimp only | with_reducible refine Keeps.upd ?_ rfl rfl

theorem soutStep_sound {u : State} (c : CoachId) (desc : BitVec 10) (com : Common) (s : State) (hk : Sound u s) :
    Sound u (soutStep c desc com s) := by
  unfold soutStep
  iterate 40 all_goals try first
    | with_reducible first | assumption | apply Sound.foldl | apply Sound.foldl_snd | apply Sound.foldl_fst
                            | refine Sound.thru (by apply State.setCoach_keeps; exact Keeps.refl _) ?_
                            | refine Sound.thru (by apply State.freed_keeps; exact Keeps.refl _) ?_
                            | apply State.issueWith_sound
                            | refine Sound.thru (by apply State.setTransfer_keeps; exact Keeps.refl _) ?_
                            | refine Sound.thru (by apply State.noteWrites_keeps; exact Keeps.refl _) ?_
                            | refine Sound.thru (by apply State.undefSout_keeps; exact Keeps.refl _) ?_ | intro _
    | split | dsimp only | with_reducible refine Sound.upd ?_ rfl rfl

theorem State.creditBack_keeps {u : State} (s : State) (d : Delivery) (at_ : Nat) (hk : Keeps u s) :
    Keeps u (s.creditBack d at_) := by
  exact hk.of_eq rfl rfl rfl rfl

theorem State.undefCart_keeps {u : State} (s : State) (c : CoachId) (k : KinOpen) (due : Nat) (hk : Keeps u s) :
    Keeps u (s.undefCart c k due) := by
  unfold State.undefCart
  iterate 40 all_goals try first
    | with_reducible first | assumption | apply State.setCoach_keeps | apply State.freed_keeps
    | split | dsimp only | with_reducible refine Keeps.upd ?_ rfl rfl

theorem State.kinCart_keeps {u : State} (s : State) (c : CoachId) (k : KinOpen) (d : Delivery) (hk : Keeps u s) :
    Keeps u (s.kinCart c k d) := by
  unfold State.kinCart
  iterate 40 all_goals try first
    | with_reducible first | assumption | apply Keeps.foldl | apply Keeps.foldl_snd | apply Keeps.foldl_fst
                            | apply State.setCoach_keeps | apply State.onCoach_keeps | apply State.freed_keeps
                            | apply State.keyMismatch_keeps | apply State.creditBack_keeps
                            | apply State.undefCart_keeps | intro _
    | split | dsimp only | with_reducible refine Keeps.upd ?_ rfl rfl

theorem State.kinPump_keeps {u : State} (s : State) (c : CoachId) (hk : Keeps u s) : ∀ n, Keeps u (s.kinPump c n) := by
  intro n
  induction n generalizing s with
  | zero => exact hk
  | succ n ih =>
    unfold State.kinPump
    iterate 40 all_goals try first
      | with_reducible first | assumption | apply ih | apply State.onCoach_keeps | apply State.kinCart_keeps
      | split | dsimp only | with_reducible refine Keeps.upd ?_ rfl rfl

theorem kcartStep_sound {u : State} (c : CoachId) (f : KcartF) (s : State) (hk : Sound u s) :
    Sound u (kcartStep c f s) := by
  unfold kcartStep
  iterate 40 all_goals try first
    | with_reducible first | assumption | refine Sound.thru (by apply State.onCoach_keeps; exact Keeps.refl _) ?_
                            | refine Sound.thru (by apply State.freed_keeps; exact Keeps.refl _) ?_
                            | apply State.issueWith_sound
                            | refine Sound.thru (by apply State.kinPump_keeps; exact Keeps.refl _) ?_ | intro _
    | split | dsimp only | with_reducible refine Sound.upd ?_ rfl rfl

theorem State.endTransfer_sound {u : State} (s : State) (c : CoachId) (e : Engine) (com : Common) (remote : CoachId)
    (hk : Sound u s) :
    Sound u (s.endTransfer c e com remote) := by
  unfold State.endTransfer
  iterate 40 all_goals try first
    | with_reducible first | assumption | refine Sound.thru (by apply State.onCoach_keeps; exact Keeps.refl _) ?_
                            | refine Sound.thru (by apply State.pushSig_keeps; exact Keeps.refl _) ?_
                            | apply State.arrive_sound
    | split | dsimp only | with_reducible refine Sound.upd ?_ rfl rfl

theorem State.reachEnd_sound {u : State} (c : CoachId) (e : Engine) :
    ∀ (n : Nat) (s : State), Sound u s → Sound u (State.reachEnd c e n s) := by
  intro n
  induction n with
  | zero => exact fun s hk => hk
  | succ n ih =>
    intro s hk
    unfold State.reachEnd
    iterate 40 all_goals try first
      | with_reducible first | assumption | apply ih | apply State.advance_sound
      | split | dsimp only | with_reducible refine Sound.upd ?_ rfl rfl

theorem streamCompleteStep_sound {u : State} (c : CoachId) (e : Engine) (s : State) (hk : Sound u s) :
    Sound u (streamCompleteStep c e s) := by
  unfold streamCompleteStep
  iterate 40 all_goals try first
    | with_reducible first | assumption | apply State.endTransfer_sound | apply State.reachEnd_sound
    | split | dsimp only | with_reducible refine Sound.upd ?_ rfl rfl

theorem completionSignalStep_sound {u : State} (c : CoachId) (e : Engine) (s : State) (hk : Sound u s) :
    Sound u (completionSignalStep c e s) := by
  unfold completionSignalStep
  iterate 40 all_goals try first
    | with_reducible first | assumption | refine Sound.thru (by apply State.onCoach_keeps; exact Keeps.refl _) ?_
                            | apply State.advance_sound
                            | refine Sound.thru (by apply State.deliver_keeps; exact Keeps.refl _) ?_
    | split | dsimp only | with_reducible refine Sound.upd ?_ rfl rfl

theorem remoteDoorAddStep_sound {u : State} (c : CoachId) (s : State) (hk : Sound u s) :
    Sound u (remoteDoorAddStep c s) := by
  unfold remoteDoorAddStep
  iterate 40 all_goals try first
    | with_reducible first | assumption | refine Sound.thru (by apply State.onCoach_keeps; exact Keeps.refl _) ?_
                            | apply State.advance_sound
                            | refine Sound.thru (by apply State.addDoorAt_keeps; exact Keeps.refl _) ?_
    | split | dsimp only | with_reducible refine Sound.upd ?_ rfl rfl

theorem hostMemoryCompletionStep_sound {u : State} (c : CoachId) (s : State) (hk : Sound u s) :
    Sound u (hostMemoryCompletionStep c s) := by
  unfold hostMemoryCompletionStep
  iterate 40 all_goals try first
    | with_reducible first | assumption | apply State.advance_sound
                            | refine Sound.thru (by apply State.feed_keeps; exact Keeps.refl _) ?_
    | split | dsimp only | with_reducible refine Sound.upd ?_ rfl rfl

theorem cartArrivalStep_sound {u : State} (c : CoachId) (s : State) (hk : Sound u s) :
    Sound u (cartArrivalStep c s) := by
  unfold cartArrivalStep
  iterate 40 all_goals try first
    | with_reducible first | assumption | refine Sound.thru (by apply State.onCoach_keeps; exact Keeps.refl _) ?_
                            | apply State.advance_sound
                            | refine Sound.thru (by apply State.kinPump_keeps; exact Keeps.refl _) ?_
    | split | dsimp only | with_reducible refine Sound.upd ?_ rfl rfl

theorem releaseStep_sound {u : State} (releaseAt : State → Task → Nat → Option Nat) (id : TaskId) (sid : BitVec 4)
    (s : State) (hk : Sound u s) :
    Sound u (releaseStep releaseAt id sid s) := by
  unfold releaseStep
  iterate 40 all_goals try first
    | with_reducible first | assumption | apply State.advance_sound
                            | refine Sound.thru (by apply State.releaseShutter_keeps; exact Keeps.refl _) ?_
    | split | dsimp only | with_reducible refine Sound.upd ?_ rfl rfl

theorem digestStep_sound {u : State} (id : TaskId) (s : State) (hk : Sound u s) : Sound u (digestStep id s) := by
  unfold digestStep
  iterate 40 all_goals try first
    | with_reducible first | assumption | refine Sound.thru (by apply State.onTask_keeps; exact Keeps.refl _) ?_
                            | apply State.hostWrite_sound
                            | refine Sound.thru (by apply State.postTask_keeps; exact Keeps.refl _) ?_
    | split | dsimp only | with_reducible refine Sound.upd ?_ rfl rfl

theorem deadlockStep_sound {u : State} (c : CoachId) (s : State) (hk : Sound u s) : Sound u (deadlockStep c s) := by
  unfold deadlockStep
  iterate 40 all_goals try first
    | with_reducible first | assumption | refine Sound.thru (by apply State.setCoach_keeps; exact Keeps.refl _) ?_
                            | refine Sound.thru (by apply State.latchCoach_keeps; exact Keeps.refl _) ?_
                            | apply State.advance_sound
    | split | dsimp only | with_reducible refine Sound.upd ?_ rfl rfl

theorem taskWatchdogStep_sound {u : State} (id : TaskId) (s : State) (hk : Sound u s) :
    Sound u (taskWatchdogStep id s) := by
  unfold taskWatchdogStep
  iterate 40 all_goals try first
    | with_reducible first | assumption | apply Sound.foldl
                            | refine Sound.thru (by apply State.onCoach_keeps; exact Keeps.refl _) ?_
                            | refine Sound.thru (by apply State.onTask_keeps; exact Keeps.refl _) ?_
                            | refine Sound.thru (by apply State.latch_keeps; exact Keeps.refl _) ?_
                            | apply State.advance_sound | intro _
    | split | dsimp only | with_reducible refine Sound.upd ?_ rfl rfl

theorem runLimitStep_sound {u : State} (id : TaskId) (s : State) (hk : Sound u s) : Sound u (runLimitStep id s) := by
  unfold runLimitStep
  iterate 40 all_goals try first
    | with_reducible first | assumption | refine Sound.thru (by apply State.latch_keeps; exact Keeps.refl _) ?_
                            | apply State.advance_sound
    | split | dsimp only | with_reducible refine Sound.upd ?_ rfl rfl

theorem State.checkDevices_keeps {u : State} (s : State) (t : Task) (hk : Keeps u s) : Keeps u (s.checkDevices t) := by
  unfold State.checkDevices
  iterate 40 all_goals try first
    | with_reducible first | assumption | apply State.latch_keeps
    | split | dsimp only | with_reducible refine Keeps.upd ?_ rfl rfl

theorem taskStartStep_keeps {u : State} (id : TaskId) (s : State) (hk : Keeps u s) : Keeps u (taskStartStep id s) := by
  unfold taskStartStep
  iterate 40 all_goals try first
    | with_reducible first | assumption | apply Keeps.foldl | apply State.onCoach_keeps | apply State.onTask_keeps
                            | apply State.freed_keeps | apply State.claimQueue_keeps | apply State.checkDevices_keeps
                            | intro _
    | split | dsimp only | with_reducible refine Keeps.upd ?_ rfl rfl

theorem idleGateStep_sound {u : State} (c : CoachId) (s : State) (hk : Sound u s) : Sound u (idleGateStep c s) := by
  unfold idleGateStep
  iterate 40 all_goals try first
    | with_reducible first | assumption | refine Sound.thru (by apply State.onCoach_keeps; exact Keeps.refl _) ?_
                            | apply State.advance_sound
    | split | dsimp only | with_reducible refine Sound.upd ?_ rfl rfl

theorem State.reachDrain_sound {u : State} (c : CoachId) (b : Nat) :
    ∀ (n : Nat) (s : State), Sound u s → Sound u (State.reachDrain c b n s) := by
  intro n
  induction n with
  | zero => exact fun s hk => hk
  | succ n ih =>
    intro s hk
    unfold State.reachDrain
    iterate 40 all_goals try first
      | with_reducible first | assumption | apply ih | apply State.advance_sound
      | split | dsimp only | with_reducible refine Sound.upd ?_ rfl rfl

theorem bankDrainStep_sound {u : State} (c : CoachId) (bank : BitVec 5) (s : State) (hk : Sound u s) :
    Sound u (bankDrainStep c bank s) := by
  unfold bankDrainStep
  iterate 40 all_goals try first
    | with_reducible first | assumption | refine Sound.thru (by apply State.onCoach_keeps; exact Keeps.refl _) ?_
                            | apply State.reachDrain_sound
    | split | dsimp only | with_reducible refine Sound.upd ?_ rfl rfl

theorem bankWakeStep_sound {u : State} (c : CoachId) (bank : BitVec 5) (s : State) (hk : Sound u s) :
    Sound u (bankWakeStep c bank s) := by
  unfold bankWakeStep
  iterate 40 all_goals try first
    | with_reducible first | assumption | refine Sound.thru (by apply State.onCoach_keeps; exact Keeps.refl _) ?_
                            | apply State.advance_sound
    | split | dsimp only | with_reducible refine Sound.upd ?_ rfl rfl

theorem rowRepairStep_keeps {u : State} (c : CoachId) (row : BitVec 16) (s : State) (hk : Keeps u s) :
    Keeps u (rowRepairStep c row s) := by
  unfold rowRepairStep
  iterate 40 all_goals try first
    | with_reducible first | assumption | apply State.setCoach_keeps | apply State.raise_keeps
                            | apply State.journal_keeps
    | split | dsimp only | with_reducible refine Keeps.upd ?_ rfl rfl

theorem coachEndStep_keeps {u : State} (c : CoachId) (s : State) (hk : Keeps u s) : Keeps u (coachEndStep c s) := by
  unfold coachEndStep
  iterate 40 all_goals try first
    | with_reducible first | assumption | apply State.setCoach_keeps | apply State.onTask_keeps
                            | apply State.closeLayer_keeps | apply State.endTask_keeps
                            | apply State.releaseQueue_keeps
    | split | dsimp only | with_reducible refine Keeps.upd ?_ rfl rfl

theorem abortReceiptStep_keeps {u : State} (c : CoachId) (s : State) (hk : Keeps u s) :
    Keeps u (abortReceiptStep c s) := by
  unfold abortReceiptStep
  iterate 40 all_goals try first
    | with_reducible first | assumption | apply Keeps.foldl | apply State.setCoach_keeps | intro _
    | split | dsimp only | with_reducible refine Keeps.upd ?_ rfl rfl

theorem drainDoneStep_sound {u : State} (c : CoachId) (s : State) (hk : Sound u s) : Sound u (drainDoneStep c s) := by
  unfold drainDoneStep
  iterate 40 all_goals try first
    | with_reducible first | assumption | apply Sound.foldl
                            | refine Sound.thru (by apply State.onCoach_keeps; exact Keeps.refl _) ?_
                            | apply State.writeHbm_sound
                            | refine Sound.thru (by apply State.setTransfer_keeps; exact Keeps.refl _) ?_ | intro _
    | split | dsimp only | with_reducible refine Sound.upd ?_ rfl rfl

theorem scrubDoneStep_sound {u : State} (c : CoachId) (s : State) (hk : Sound u s) : Sound u (scrubDoneStep c s) := by
  unfold scrubDoneStep
  iterate 40 all_goals try first
    | with_reducible first | assumption | refine Sound.thru (by apply State.setCoach_keeps; exact Keeps.refl _) ?_
                            | refine Sound.thru (by apply State.onTask_keeps; exact Keeps.refl _) ?_
                            | apply State.advance_sound
    | split | dsimp only | with_reducible refine Sound.upd ?_ rfl rfl

theorem State.undefRegion_sound {u : State} (s : State) (w : Far × Nat × Nat) (hk : Sound u s) :
    Sound u (s.undefRegion w) := by
  unfold State.undefRegion undefBytes
  split
  · exact hk.trans ⟨rfl, fun i => ⟨i.1, SMap.wf_storeList _ _ _ _ i.2, i.3⟩⟩
  · exact hk.trans ⟨rfl, fun i => ⟨SMap.wf_storeList _ _ _ _ i.1, i.2, i.3⟩⟩
  · exact hk

theorem abortCompleteStep_sound {u : State} (id : TaskId) (s : State) (hk : Sound u s) :
    Sound u (abortCompleteStep id s) := by
  unfold abortCompleteStep
  iterate 40 all_goals try first
    | with_reducible first | assumption | apply Sound.foldl
                            | refine Sound.thru (by apply State.endTask_keeps; exact Keeps.refl _) ?_
                            | refine Sound.thru (by apply State.releaseQueue_keeps; exact Keeps.refl _) ?_
                            | apply State.undefRegion_sound | intro _
    | split | dsimp only | with_reducible refine Sound.upd ?_ rfl rfl

theorem debugStep_keeps {u : State} (write : Bool) (c : CoachId) (s : State) (hk : Keeps u s) :
    Keeps u (debugStep write c s) := by
  unfold debugStep
  iterate 40 all_goals try first
    | with_reducible first | assumption | apply State.setCoach_keeps
    | split | dsimp only | with_reducible refine Keeps.upd ?_ rfl rfl

theorem debugDoneStep_keeps {u : State} (c : CoachId) (s : State) (hk : Keeps u s) : Keeps u (debugDoneStep c s) := by
  unfold debugDoneStep
  iterate 40 all_goals try first
    | with_reducible first | assumption | apply State.setCoach_keeps | apply State.freed_keeps
    | split | dsimp only | with_reducible refine Keeps.upd ?_ rfl rfl

theorem State.askVoid_keeps {u : State} (s : State) (q : Nat) (v : KeyQueue) (h : InHand) (hk : Keeps u s) :
    Keeps u (s.askVoid q v h) := by
  unfold State.askVoid
  iterate 40 all_goals try first
    | with_reducible first | assumption | apply Keeps.foldl | apply Keeps.foldl_fst | apply State.freed_keeps
                            | apply State.askSpent_keeps | apply State.setQueue_keeps | intro _
    | split | dsimp only | with_reducible refine Keeps.upd ?_ rfl rfl

theorem State.askCart_keeps {u : State} (s : State) (q : Nat) (v : KeyQueue) (h : InHand) (d : KeyDir)
    (hk : Keeps u s) :
    Keeps u (s.askCart q v h d) := by
  unfold State.askCart
  iterate 40 all_goals try first
    | with_reducible first | assumption | apply Keeps.foldl | apply Keeps.foldl_snd | apply Keeps.foldl_fst
                            | apply State.ask_keeps | apply State.setQueue_keeps | apply State.readRemote_keeps
                            | intro _
    | split | dsimp only | with_reducible refine Keeps.upd ?_ rfl rfl

theorem State.askDir_keeps {u : State} (s : State) (q : Nat) (v : KeyQueue) (h : InHand) (hk : Keeps u s) :
    Keeps u (s.askDir q v h) := by
  unfold State.askDir
  iterate 40 all_goals try first
    | with_reducible first | assumption | apply State.ask_keeps | apply State.setQueue_keeps
    | split | dsimp only | with_reducible refine Keeps.upd ?_ rfl rfl

theorem State.fetchKnown_keeps {u : State} (s : State) (q : Nat) (v : KeyQueue) (h : InHand) (hk : Keeps u s) :
    Keeps u (s.fetchKnown q v h) := by
  unfold State.fetchKnown
  iterate 40 all_goals try first
    | with_reducible first | assumption | apply State.askVoid_keeps | apply State.askCart_keeps
    | split | dsimp only | with_reducible refine Keeps.upd ?_ rfl rfl

theorem State.fetch_keeps {u : State} (s : State) (q : Nat) (hk : Keeps u s) : Keeps u (s.fetch q) := by
  unfold State.fetch
  iterate 40 all_goals try first
    | with_reducible first | assumption | apply State.askVoid_keeps | apply State.askDir_keeps
                            | apply State.fetchKnown_keeps
    | split | dsimp only | with_reducible refine Keeps.upd ?_ rfl rfl

theorem State.granuleCame_keeps {u : State} (s : State) (q task place : Nat) (bs : List Byte) (hk : Keeps u s) :
    Keeps u (s.granuleCame q task place bs) := by
  unfold State.granuleCame
  iterate 40 all_goals try first
    | with_reducible first | assumption | apply State.hit_keeps | apply State.setQueue_keeps | apply State.fetch_keeps
    | split | dsimp only | with_reducible refine Keeps.upd ?_ rfl rfl

theorem State.keyReadFailed_keeps {u : State} (s : State) (q task : Nat) (hk : Keeps u s) :
    Keeps u (s.keyReadFailed q task) := by
  unfold State.keyReadFailed
  iterate 40 all_goals try first
    | with_reducible first | assumption | apply Keeps.foldl | apply State.latch_keeps | intro _
    | split | dsimp only | with_reducible refine Keeps.upd ?_ rfl rfl

theorem State.takeCart_keeps {u : State} (s : State) (v : KeyQueue) (h : InHand) (hk : Keeps u s) :
    Keeps u (s.takeCart v h).2.2 := by
  unfold State.takeCart
  iterate 40 all_goals try first
    | with_reducible first | assumption | apply State.freed_keeps | apply State.hit_keeps
    | split | dsimp only | with_reducible refine Keeps.upd ?_ rfl rfl

theorem State.startCart_keeps {u : State} (s : State) (q : Nat) (v : KeyQueue) (h : InHand) (k : Cart)
    (hk : Keeps u s) :
    Keeps u (s.startCart q v h k).2 := by
  unfold State.startCart
  iterate 40 all_goals try first
    | with_reducible first | assumption | apply Keeps.foldl | apply Keeps.foldl_snd | apply State.freed_keeps
                            | apply State.hit_keeps | apply State.sendPacket_keeps | apply State.multicast_keeps
                            | intro _
    | split | dsimp only | with_reducible refine Keeps.upd ?_ rfl rfl

theorem State.sendCart_keeps {u : State} (s : State) (q : Nat) (hk : Keeps u s) : Keeps u (s.sendCart q) := by
  unfold State.sendCart
  iterate 40 all_goals try first
    | with_reducible first | assumption | apply State.setQueue_keeps | apply State.fetch_keeps
                            | apply State.takeCart_keeps | apply State.startCart_keeps
    | split | dsimp only | with_reducible refine Keeps.upd ?_ rfl rfl

theorem cartSendStep_sound {u : State} (q : BitVec 4) (s : State) (hk : Sound u s) : Sound u (cartSendStep q s) := by
  unfold cartSendStep
  iterate 40 all_goals try first
    | with_reducible first | assumption | apply State.advance_sound
                            | refine Sound.thru (by apply State.fetch_keeps; exact Keeps.refl _) ?_
                            | refine Sound.thru (by apply State.sendCart_keeps; exact Keeps.refl _) ?_
    | split | dsimp only | with_reducible refine Sound.upd ?_ rfl rfl

theorem State.timeoutFires_keeps {u : State} (s : State) (q : Nat) (r : Receiver) (hk : Keeps u s) :
    Keeps u (s.timeoutFires q r) := by
  unfold State.timeoutFires
  iterate 40 all_goals try first
    | with_reducible first | assumption | apply Keeps.foldl | apply State.hit_keeps | apply State.latch_keeps
                            | intro _
    | split | dsimp only | with_reducible refine Keeps.upd ?_ rfl rfl

theorem mcastTimeoutStep_sound {u : State} (q : BitVec 4) (r : Receiver) (s : State) (hk : Sound u s) :
    Sound u (mcastTimeoutStep q r s) := by
  unfold mcastTimeoutStep
  iterate 40 all_goals try first
    | with_reducible first | assumption | apply State.advance_sound
                            | refine Sound.thru (by apply State.timeoutFires_keeps; exact Keeps.refl _) ?_
    | split | dsimp only | with_reducible refine Sound.upd ?_ rfl rfl

theorem State.lateTimeouts_keeps {u : State} (s : State) (r : Nat) (hk : Keeps u s) : Keeps u (s.lateTimeouts r) := by
  unfold State.lateTimeouts
  iterate 40 all_goals try first
    | with_reducible first | assumption | apply Keeps.foldl | apply State.timeoutFires_keeps | intro _
    | split | dsimp only | with_reducible refine Keeps.upd ?_ rfl rfl

theorem creditArrivalStep_sound {u : State} (c : CoachId) (s : State) (hk : Sound u s) :
    Sound u (creditArrivalStep c s) := by
  unfold creditArrivalStep
  iterate 40 all_goals try first
    | with_reducible first | assumption | apply State.advance_sound
                            | refine Sound.thru (by apply State.lateTimeouts_keeps; exact Keeps.refl _) ?_
    | split | dsimp only | with_reducible refine Sound.upd ?_ rfl rfl

theorem servingEndStep_keeps {u : State} (id : TaskId) (s : State) (hk : Keeps u s) :
    Keeps u (servingEndStep id s) := by
  unfold servingEndStep
  iterate 40 all_goals try first
    | with_reducible first | assumption | apply State.endTask_keeps | apply State.releaseQueue_keeps
    | split | dsimp only | with_reducible refine Keeps.upd ?_ rfl rfl

theorem splitApplyStep_sound {u : State} (s : State) (hk : Sound u s) : Sound u (splitApplyStep s) := by
  unfold splitApplyStep
  iterate 40 all_goals try first
    | with_reducible first | assumption | apply State.advance_sound
    | split | dsimp only | with_reducible refine Sound.upd ?_ rfl rfl

theorem execSinXfer_sound (c : CoachId) (desc : BitVec 10) (com : Common) (s : State) :
    ∃ t, execSinXfer c desc com s = .next t ∧ Sound s t :=
  ⟨_, rfl, sinStep_sound c desc com s (Sound.refl s)⟩

theorem execSoutXfer_sound (c : CoachId) (desc : BitVec 10) (com : Common) (s : State) :
    ∃ t, execSoutXfer c desc com s = .next t ∧ Sound s t :=
  ⟨_, rfl, soutStep_sound c desc com s (Sound.refl s)⟩

theorem execKcart_sound (c : CoachId) (f : KcartF) (s : State) : ∃ t, execKcart c f s = .next t ∧ Sound s t :=
  ⟨_, rfl, kcartStep_sound c f s (Sound.refl s)⟩

theorem execStreamComplete_sound (c : CoachId) (e : Engine) (s : State) :
    ∃ t, execStreamComplete c e s = .next t ∧ Sound s t :=
  ⟨_, rfl, streamCompleteStep_sound c e s (Sound.refl s)⟩

theorem execCompletionSignal_sound (c : CoachId) (e : Engine) (s : State) :
    ∃ t, execCompletionSignal c e s = .next t ∧ Sound s t :=
  ⟨_, rfl, completionSignalStep_sound c e s (Sound.refl s)⟩

theorem execRemoteDoorAdd_sound (c : CoachId) (s : State) : ∃ t, execRemoteDoorAdd c s = .next t ∧ Sound s t :=
  ⟨_, rfl, remoteDoorAddStep_sound c s (Sound.refl s)⟩

theorem execHostMemoryCompletion_sound (c : CoachId) (s : State) :
    ∃ t, execHostMemoryCompletion c s = .next t ∧ Sound s t :=
  ⟨_, rfl, hostMemoryCompletionStep_sound c s (Sound.refl s)⟩

theorem execCartArrival_sound (c : CoachId) (s : State) : ∃ t, execCartArrival c s = .next t ∧ Sound s t :=
  ⟨_, rfl, cartArrivalStep_sound c s (Sound.refl s)⟩

theorem execDeviceShutterRelease_sound (id : TaskId) (sid : BitVec 4) (s : State) :
    ∃ t, execDeviceShutterRelease id sid s = .next t ∧ Sound s t := by
  refine ⟨_, rfl, ?_⟩
  have hk := Sound.refl s
  iterate 40 all_goals try first
    | with_reducible first | assumption | apply releaseStep_sound
    | split | dsimp only | with_reducible refine Sound.upd ?_ rfl rfl

theorem execFabricShutterRelease_sound (id : TaskId) (sid : BitVec 4) (s : State) :
    ∃ t, execFabricShutterRelease id sid s = .next t ∧ Sound s t := by
  refine ⟨_, rfl, ?_⟩
  have hk := Sound.refl s
  iterate 40 all_goals try first
    | with_reducible first | assumption | apply releaseStep_sound
    | split | dsimp only | with_reducible refine Sound.upd ?_ rfl rfl

theorem execDigestRecordWrite_sound (id : TaskId) (s : State) :
    ∃ t, execDigestRecordWrite id s = .next t ∧ Sound s t :=
  ⟨_, rfl, digestStep_sound id s (Sound.refl s)⟩

theorem execDeadlockWatchdog_sound (c : CoachId) (s : State) :
    ∃ t, execDeadlockWatchdog c s = .next t ∧ Sound s t :=
  ⟨_, rfl, deadlockStep_sound c s (Sound.refl s)⟩

theorem execTaskWatchdog_sound (id : TaskId) (s : State) : ∃ t, execTaskWatchdog id s = .next t ∧ Sound s t :=
  ⟨_, rfl, taskWatchdogStep_sound id s (Sound.refl s)⟩

theorem execRunLimit_sound (id : TaskId) (s : State) : ∃ t, execRunLimit id s = .next t ∧ Sound s t :=
  ⟨_, rfl, runLimitStep_sound id s (Sound.refl s)⟩

theorem execTaskStart_keeps (id : TaskId) (s : State) : ∃ t, execTaskStart id s = .next t ∧ Keeps s t :=
  ⟨_, rfl, taskStartStep_keeps id s (Keeps.refl s)⟩

theorem execCoachWake_keeps (c : CoachId) (s : State) : ∃ t, execCoachWake c s = .next t ∧ Keeps s t := by
  refine ⟨_, rfl, ?_⟩
  have hk := Keeps.refl s
  iterate 40 all_goals try first
    | with_reducible first | assumption | apply State.onCoach_keeps
    | split | dsimp only | with_reducible refine Keeps.upd ?_ rfl rfl

theorem execCoachIdleGate_sound (c : CoachId) (s : State) : ∃ t, execCoachIdleGate c s = .next t ∧ Sound s t :=
  ⟨_, rfl, idleGateStep_sound c s (Sound.refl s)⟩

theorem execBankDrainEnd_sound (c : CoachId) (bank : BitVec 5) (s : State) :
    ∃ t, execBankDrainEnd c bank s = .next t ∧ Sound s t :=
  ⟨_, rfl, bankDrainStep_sound c bank s (Sound.refl s)⟩

theorem execBankWakeEnd_sound (c : CoachId) (bank : BitVec 5) (s : State) :
    ∃ t, execBankWakeEnd c bank s = .next t ∧ Sound s t :=
  ⟨_, rfl, bankWakeStep_sound c bank s (Sound.refl s)⟩

theorem execSpadRowRepair_keeps (c : CoachId) (row : BitVec 16) (s : State) :
    ∃ t, execSpadRowRepair c row s = .next t ∧ Keeps s t :=
  ⟨_, rfl, rowRepairStep_keeps c row s (Keeps.refl s)⟩

theorem execCoachEnd_keeps (c : CoachId) (s : State) : ∃ t, execCoachEnd c s = .next t ∧ Keeps s t :=
  ⟨_, rfl, coachEndStep_keeps c s (Keeps.refl s)⟩

theorem execAbortReceipt_keeps (c : CoachId) (s : State) : ∃ t, execAbortReceipt c s = .next t ∧ Keeps s t :=
  ⟨_, rfl, abortReceiptStep_keeps c s (Keeps.refl s)⟩

theorem execAbortDrainDone_sound (c : CoachId) (s : State) : ∃ t, execAbortDrainDone c s = .next t ∧ Sound s t :=
  ⟨_, rfl, drainDoneStep_sound c s (Sound.refl s)⟩

theorem execScrubDone_sound (c : CoachId) (s : State) : ∃ t, execScrubDone c s = .next t ∧ Sound s t :=
  ⟨_, rfl, scrubDoneStep_sound c s (Sound.refl s)⟩

theorem execAbortComplete_sound (id : TaskId) (s : State) : ∃ t, execAbortComplete id s = .next t ∧ Sound s t :=
  ⟨_, rfl, abortCompleteStep_sound id s (Sound.refl s)⟩

theorem execDbgDone_keeps (c : CoachId) (s : State) : ∃ t, execDbgDone c s = .next t ∧ Keeps s t :=
  ⟨_, rfl, debugDoneStep_keeps c s (Keeps.refl s)⟩

theorem execCartSend_sound (q : BitVec 4) (s : State) : ∃ t, execCartSend q s = .next t ∧ Sound s t :=
  ⟨_, rfl, cartSendStep_sound q s (Sound.refl s)⟩

theorem execMcastTimeout_sound (q : BitVec 4) (r : Receiver) (s : State) :
    ∃ t, execMcastTimeout q r s = .next t ∧ Sound s t :=
  ⟨_, rfl, mcastTimeoutStep_sound q r s (Sound.refl s)⟩

theorem execKeyCreditArrival_sound (c : CoachId) (s : State) :
    ∃ t, execKeyCreditArrival c s = .next t ∧ Sound s t :=
  ⟨_, rfl, creditArrivalStep_sound c s (Sound.refl s)⟩

theorem execServingTaskEnd_keeps (id : TaskId) (s : State) : ∃ t, execServingTaskEnd id s = .next t ∧ Keeps s t :=
  ⟨_, rfl, servingEndStep_keeps id s (Keeps.refl s)⟩

theorem execSplitApply_sound (s : State) : ∃ t, execSplitApply s = .next t ∧ Sound s t :=
  ⟨_, rfl, splitApplyStep_sound s (Sound.refl s)⟩

end Sys2Proof.Machine
end

