-- ==== Sys2Proof/Laws/KeepsHost.lean ====
section
/-! SUPPORT. What the host interface, the host commands, the HBM controllers, the links, packets and events leave
alone: `X_keeps` says that `X` goes on from a state with the memories, the BAR2 window and the queue untouched;
`X_sound`, of what writes memory, that it keeps the invariant and the queue. -/

set_option Elab.async false
set_option linter.all false

namespace Sys2Proof.Machine

open Sys2Proof

theorem State.readOpen_keeps {u : State} (s : State) (addr n : Nat) (hk : Keeps u s) :
    Keeps u (s.readOpen addr n).2.2 := by
  unfold State.readOpen
  iterate 40 all_goals try first
    | with_reducible first | assumption | apply State.freed_keeps | apply State.hbmRead_keeps
    | split | dsimp only | with_reducible refine Keeps.upd ?_ rfl rfl

theorem State.answerBytes_keeps {u : State} (s : State) (bs : List Byte) (ep : Bool) (hk : Keeps u s) :
    Keeps u (s.answerBytes bs ep) := by
  exact hk.of_eq rfl rfl rfl rfl

theorem bar2ReadStep_keeps {u : State} (off : BitVec 36) (len : BitVec 10) (s : State) (hk : Keeps u s) :
    Keeps u (bar2ReadStep off len s) := by
  unfold bar2ReadStep
  iterate 40 all_goals try first
    | with_reducible first | assumption | apply State.ask_keeps | apply State.answerBytes_keeps
    | split | dsimp only | with_reducible refine Keeps.upd ?_ rfl rfl

theorem State.openBytes_keeps {u : State} (s : State) (addr : Nat) (bs : List Byte) (hk : Keeps u s) :
    Keeps u (s.openBytes addr bs).2 := by
  unfold State.openBytes
  iterate 40 all_goals try first
    | with_reducible first | assumption | apply State.freed_keeps
    | split | dsimp only | with_reducible refine Keeps.upd ?_ rfl rfl

theorem State.raiseVector_keeps {u : State} (s : State) (v : Nat) (hk : Keeps u s) : Keeps u (s.raiseVector v) := by
  unfold State.raiseVector
  iterate 40 all_goals try first
    | with_reducible first | assumption
    | split | dsimp only | with_reducible refine Keeps.upd ?_ rfl rfl

theorem State.reportError_keeps {u : State} (s : State) (hk : Keeps u s) : Keeps u s.reportError := by
  unfold State.reportError
  iterate 40 all_goals try first
    | with_reducible first | assumption | apply State.freed_keeps
    | split | dsimp only | with_reducible refine Keeps.upd ?_ rfl rfl

theorem State.ringError_keeps {u : State} (s : State) (kind cq event ring : Nat) (hk : Keeps u s) :
    Keeps u (s.ringError kind cq event ring) := by
  unfold State.ringError
  iterate 40 all_goals try first
    | with_reducible first | assumption | apply State.hit_keeps | apply State.raiseVector_keeps
                            | apply State.reportError_keeps
    | split | dsimp only | with_reducible refine Keeps.upd ?_ rfl rfl

theorem State.rejectDoorbell_keeps {u : State} (s : State) (hk : Keeps u s) : Keeps u s.rejectDoorbell := by
  unfold State.rejectDoorbell
  iterate 40 all_goals try first
    | with_reducible first | assumption | apply State.hit_keeps | apply State.raiseVector_keeps
    | split | dsimp only | with_reducible refine Keeps.upd ?_ rfl rfl

theorem State.doorbell_keeps {u : State} (s : State) (off size value : Nat) (hk : Keeps u s) :
    Keeps u (s.doorbell off size value) := by
  unfold State.doorbell
  iterate 40 all_goals try first
    | with_reducible first | assumption | apply State.setSq_keeps | apply State.setCq_keeps
                            | apply State.rejectDoorbell_keeps
    | split | dsimp only | with_reducible refine Keeps.upd ?_ rfl rfl

theorem fetchStep_keeps {u : State} (i : BitVec 6) (error : Bool) (s : State) (hk : Keeps u s) :
    Keeps u (fetchStep i error s) := by
  unfold fetchStep
  iterate 40 all_goals try first
    | with_reducible first | assumption | apply State.setSq_keeps | apply State.refuse_keeps
                            | apply State.ringError_keeps
    | split | dsimp only | with_reducible refine Keeps.upd ?_ rfl rfl

theorem State.signalCq_keeps {u : State} (s : State) (i : Nat) (noIrq : Bool) (hk : Keeps u s) :
    Keeps u (s.signalCq i noIrq) := by
  unfold State.signalCq
  iterate 40 all_goals try first
    | with_reducible first | assumption | apply State.setCq_keeps | apply State.raiseVector_keeps
    | split | dsimp only | with_reducible refine Keeps.upd ?_ rfl rfl

theorem State.dropTask_keeps {u : State} (s : State) (w : Nat) (hk : Keeps u s) : Keeps u (s.dropTask w) := by
  unfold State.dropTask
  iterate 40 all_goals try first
    | with_reducible first | assumption | apply Keeps.foldl | apply State.removeTask_keeps
                            | apply State.settleWaiting_keeps | intro _
    | split | dsimp only | with_reducible refine Keeps.upd ?_ rfl rfl

theorem completionStep_sound {u : State} (i : BitVec 6) (error : Bool) (s : State) (hk : Sound u s) :
    Sound u (completionStep i error s) := by
  unfold completionStep
  iterate 40 all_goals try first
    | with_reducible first | assumption | apply State.hostWrite_sound
                            | refine Sound.thru (by apply State.setCq_keeps; exact Keeps.refl _) ?_
                            | refine Sound.thru (by apply State.ringError_keeps; exact Keeps.refl _) ?_
                            | refine Sound.thru (by apply State.signalCq_keeps; exact Keeps.refl _) ?_
                            | refine Sound.thru (by apply State.dropTask_keeps; exact Keeps.refl _) ?_
    | split | dsimp only | with_reducible refine Sound.upd ?_ rfl rfl

theorem contextCreateStep_keeps {u : State} (h : CmdHdr) (set : BitVec 8) (s : State) (hk : Keeps u s) :
    Keeps u (contextCreateStep h set s) := by
  unfold contextCreateStep
  iterate 40 all_goals try first
    | with_reducible first | assumption | apply State.post_keeps | apply State.refuse_keeps
                            | apply State.checked_keeps | intro _
    | split | dsimp only | with_reducible refine Keeps.upd ?_ rfl rfl

theorem contextDestroyStep_keeps {u : State} (h : CmdHdr) (c : BitVec 14) (s : State) (hk : Keeps u s) :
    Keeps u (contextDestroyStep h c s) := by
  unfold contextDestroyStep
  iterate 40 all_goals try first
    | with_reducible first | assumption | apply State.refuse_keeps | apply State.await_keeps
                            | apply State.settleWaiting_keeps | apply State.checked_keeps | intro _
    | split | dsimp only | with_reducible refine Keeps.upd ?_ rfl rfl

theorem keyRegisterStep_keeps {u : State} (h : CmdHdr) (c : BitVec 14) (count : BitVec 16) (dir : BitVec 40)
    (s : State) (hk : Keeps u s) :
    Keeps u (keyRegisterStep h c count dir s) := by
  unfold keyRegisterStep
  iterate 40 all_goals try first
    | with_reducible first | assumption | apply State.refuse_keeps | apply State.await_keeps
                            | apply State.checked_keeps | intro _
    | split | dsimp only | with_reducible refine Keeps.upd ?_ rfl rfl

theorem State.unwait_keeps {u : State} (s : State) (w : Waiting) (hk : Keeps u s) : Keeps u (s.unwait w) := by
  exact hk.of_eq rfl rfl rfl rfl

theorem State.bindContext_keeps {u : State} (s : State) (h : CmdHdr) (c : BitVec 14) (tag : Word64) (dir : BitVec 40)
    (hk : Keeps u s) :
    Keeps u (s.bindContext h c tag dir) := by
  unfold State.bindContext
  iterate 40 all_goals try first
    | with_reducible first | assumption | apply State.post_keeps | apply State.refuse_keeps
    | split | dsimp only | with_reducible refine Keeps.upd ?_ rfl rfl

theorem State.loadSource_keeps {u : State} (s : State) (h : CmdHdr) (src : Bool) (len : Nat) (hk : Keeps u s) :
    Keeps u (s.loadSource h src len).2 := by
  unfold State.loadSource
  iterate 40 all_goals try first
    | with_reducible first | assumption | apply Keeps.foldl | apply Keeps.foldl_snd | apply State.freed_keeps
                            | apply State.readCheck_keeps | intro _
    | split | dsimp only | with_reducible refine Keeps.upd ?_ rfl rfl

theorem programLoadStep_keeps {u : State} (h : CmdHdr) (src : Bool) (len : BitVec 32) (s : State) (hk : Keeps u s) :
    Keeps u (programLoadStep h src len s) := by
  unfold programLoadStep
  iterate 40 all_goals try first
    | with_reducible first | assumption | apply Keeps.foldl | apply Keeps.foldl_snd | apply Keeps.foldl_fst
                            | apply State.onCoach_keeps | apply State.post_keeps | apply State.await_keeps
                            | apply State.checked_keeps | apply State.loadSource_keeps | intro _
    | split | dsimp only | with_reducible refine Keeps.upd ?_ rfl rfl

theorem State.writeSlots_keeps {u : State} (s : State) (slots : List (Nat × ProgSlot)) (hk : Keeps u s) :
    Keeps u (s.writeSlots slots) := by
  unfold State.writeSlots
  iterate 40 all_goals try first
    | with_reducible first | assumption | apply Keeps.foldl | apply Keeps.foldl_snd | apply Keeps.foldl_fst
                            | apply State.onCoach_keeps | intro _
    | split | dsimp only | with_reducible refine Keeps.upd ?_ rfl rfl

theorem State.failLoads_keeps {u : State} (s : State) (progId : BitVec 32) (hk : Keeps u s) :
    Keeps u (s.failLoads progId) := by
  unfold State.failLoads
  iterate 40 all_goals try first
    | with_reducible first | assumption | apply Keeps.foldl | apply State.onTask_keeps | apply State.endTask_keeps
                            | intro _
    | split | dsimp only | with_reducible refine Keeps.upd ?_ rfl rfl

theorem State.finishLoad_keeps {u : State} (s : State) (h : CmdHdr) (progId : BitVec 32) (mask : BitVec 64)
    (slots : List (Nat × ProgSlot)) (fault : Option (Bool × Nat)) (hk : Keeps u s) :
    Keeps u (s.finishLoad h progId mask slots fault) := by
  unfold State.finishLoad
  iterate 40 all_goals try first
    | with_reducible first | assumption | apply Keeps.foldl | apply State.onCoach_keeps | apply State.post_keeps
                            | apply State.writeSlots_keeps | apply State.failLoads_keeps | intro _
    | split | dsimp only | with_reducible refine Keeps.upd ?_ rfl rfl

theorem State.readKeyList_keeps {u : State} (s : State) (addr count : Nat) (hk : Keeps u s) :
    Keeps u (s.readKeyList addr count).2 := by
  unfold State.readKeyList
  iterate 40 all_goals try first
    | with_reducible first | assumption | apply Keeps.foldl | apply Keeps.foldl_snd | apply Keeps.foldl_fst
                            | apply Keeps.foldl_snd_snd | apply State.readOpen_keeps | intro _
    | split | dsimp only | with_reducible refine Keeps.upd ?_ rfl rfl

theorem Submission.read_keeps {u : State} (s : State) (h : CmdHdr) (f : TaskF) (hk : Keeps u s) :
    Keeps u (Submission.read s h f).2 := by
  unfold Submission.read
  iterate 40 all_goals try first
    | with_reducible first | assumption | apply Keeps.foldl | apply Keeps.foldl_snd | apply Keeps.foldl_fst
                            | apply State.readKeyList_keeps | intro _
    | split | dsimp only | with_reducible refine Keeps.upd ?_ rfl rfl

theorem State.wakeFor_keeps {u : State} (s : State) (mask : BitVec 64) (hk : Keeps u s) :
    Keeps u (s.wakeFor mask) := by
  unfold State.wakeFor
  iterate 40 all_goals try first
    | with_reducible first | assumption | apply Keeps.foldl | apply State.onCoach_keeps | intro _
    | split | dsimp only | with_reducible refine Keeps.upd ?_ rfl rfl

theorem taskSubmitStep_keeps {u : State} (h : CmdHdr) (f : TaskF) (s : State) (hk : Keeps u s) :
    Keeps u (taskSubmitStep h f s) := by
  unfold taskSubmitStep
  iterate 40 all_goals try first
    | with_reducible first | assumption | apply State.freed_keeps | apply State.accept_keeps
                            | apply State.refuse_keeps | apply State.checked_keeps | apply Submission.read_keeps
                            | apply State.wakeFor_keeps | intro _
    | split | dsimp only | with_reducible refine Keeps.upd ?_ rfl rfl

theorem taskAbortStep_keeps {u : State} (h : CmdHdr) (upto : Bool) (s : State) (hk : Keeps u s) :
    Keeps u (taskAbortStep h upto s) := by
  unfold taskAbortStep
  iterate 40 all_goals try first
    | with_reducible first | assumption | apply Keeps.foldl | apply State.await_keeps
                            | apply State.settleWaiting_keeps | apply State.abortHere_keeps
                            | apply State.checked_keeps | intro _
    | split | dsimp only | with_reducible refine Keeps.upd ?_ rfl rfl

theorem fenceStep_keeps {u : State} (h : CmdHdr) (own : Bool) (s : State) (hk : Keeps u s) :
    Keeps u (fenceStep h own s) := by
  unfold fenceStep
  iterate 40 all_goals try first
    | with_reducible first | assumption | apply State.await_keeps | apply State.settleWaiting_keeps
                            | apply State.checked_keeps | intro _
    | split | dsimp only | with_reducible refine Keeps.upd ?_ rfl rfl

theorem groupSetStep_keeps {u : State} (h : CmdHdr) (f : GroupF) (s : State) (hk : Keeps u s) :
    Keeps u (groupSetStep h f s) := by
  unfold groupSetStep
  iterate 40 all_goals try first
    | with_reducible first | assumption | apply State.post_keeps | apply State.refuse_keeps | apply State.await_keeps
                            | apply State.settleWaiting_keeps | apply State.checked_keeps | intro _
    | split | dsimp only | with_reducible refine Keeps.upd ?_ rfl rfl

theorem hostMemoryErrorStep_keeps {u : State} (id : TaskId) (r : BitVec 8) (s : State) (hk : Keeps u s) :
    Keeps u (hostMemoryErrorStep id r s) := by
  unfold hostMemoryErrorStep
  iterate 40 all_goals try first
    | with_reducible first | assumption | apply State.latch_keeps | apply State.reportError_keeps
    | split | dsimp only | with_reducible refine Keeps.upd ?_ rfl rfl

theorem State.writeWords_sound {u : State} (s : State) (addr n : Nat) (ws : List Nat) (hk : Sound u s) :
    Sound u (s.writeWords addr n ws) := by
  unfold State.writeWords
  iterate 40 all_goals try first
    | with_reducible first | assumption | apply Sound.foldl | apply Sound.foldl_snd | apply Sound.foldl_fst
                            | apply State.hostWrite_sound | intro _
    | split | dsimp only | with_reducible refine Sound.upd ?_ rfl rfl

theorem State.hostClear_sound {u : State} (s : State) (addr n : Nat) (hk : Sound u s) :
    Sound u (s.hostClear addr n) := by
  exact hk.trans ⟨rfl, fun i => ⟨SMap.wf_filter _ _ _ i.1, i.2, i.3⟩⟩

theorem State.writeSummary_sound {u : State} (s : State) (a : Nat) (hk : Sound u s) : Sound u (s.writeSummary a) := by
  unfold State.writeSummary
  iterate 40 all_goals try first
    | with_reducible first | assumption | apply Sound.foldl | apply Sound.foldl_snd | apply Sound.foldl_fst
                            | apply State.writeWords_sound | apply State.hostClear_sound | intro _
    | split | dsimp only | with_reducible refine Sound.upd ?_ rfl rfl

theorem syncSummaryStep_sound {u : State} (h : CmdHdr) (capacity : BitVec 32) (s : State) (hk : Sound u s) :
    Sound u (syncSummaryStep h capacity s) := by
  unfold syncSummaryStep
  iterate 40 all_goals try first
    | with_reducible first | assumption | refine Sound.thru (by apply State.refuse_keeps; exact Keeps.refl _) ?_
                            | refine Sound.thru (by apply State.await_keeps; exact Keeps.refl _) ?_
                            | apply State.checked_sound | apply State.writeSummary_sound | intro _
    | split | dsimp only | with_reducible refine Sound.upd ?_ rfl rfl

theorem State.poisonGranule_keeps {u : State} (s : State) (g : Nat) (hk : Keeps u s) :
    Keeps u (s.poisonGranule g) := by
  unfold State.poisonGranule
  iterate 40 all_goals try first
    | with_reducible first | assumption | apply Keeps.foldl | intro _
    | split | dsimp only | with_reducible refine Keeps.upd ?_ rfl rfl

theorem State.moveGranule_keeps {u : State} (s : State) (g : Nat) (q : Requester) (hk : Keeps u s) :
    Keeps u (s.moveGranule g q) := by
  unfold State.moveGranule
  iterate 40 all_goals try first
    | with_reducible first | assumption | apply Keeps.foldl | apply Keeps.foldl_snd | apply Keeps.foldl_fst
                            | apply State.readCheck_keeps | apply State.poisonGranule_keeps | intro _
    | split | dsimp only | with_reducible refine Keeps.upd ?_ rfl rfl

theorem State.upset_keeps {u : State} (s : State) (addr : Nat) (err : BitVec 2) (hk : Keeps u s) :
    Keeps u (s.upset addr err) := by
  unfold State.upset
  iterate 40 all_goals try first
    | with_reducible first | assumption
    | split | dsimp only | with_reducible refine Keeps.upd ?_ rfl rfl

theorem State.copySlot_keeps {u : State} (s : State) (k : Nat) (err : BitVec 2) (hk : Keeps u s) :
    Keeps u (s.copySlot k err) := by
  unfold State.copySlot
  iterate 40 all_goals try first
    | with_reducible first | assumption | apply State.setStk_keeps | apply State.moveGranule_keeps
                            | apply State.upset_keeps
    | split | dsimp only | with_reducible refine Keeps.upd ?_ rfl rfl

theorem State.serveBid_sound {u : State} (s : State) (b : Bid) (hk : Sound u s) : Sound u (s.serveBid b) := by
  unfold State.serveBid
  iterate 40 all_goals try first
    | with_reducible first | assumption | refine Sound.thru (by apply State.onCoach_keeps; exact Keeps.refl _) ?_
                            | refine Sound.thru (by apply State.latchCoach_keeps; exact Keeps.refl _) ?_
                            | refine Sound.thru (by apply State.hbmRead_keeps; exact Keeps.refl _) ?_
                            | apply State.writeHbm_sound
                            | refine Sound.thru (by apply State.feed_keeps; exact Keeps.refl _) ?_
    | split | dsimp only | with_reducible refine Sound.upd ?_ rfl rfl

theorem State.respond_keeps {u : State} (s : State) (k : Packet) (len : BitVec 2) (status : Nat) (data : List Byte)
    (hk : Keeps u s) :
    Keeps u (s.respond k len status data) := by
  unfold State.respond
  iterate 40 all_goals try first
    | with_reducible first | assumption | apply State.sendPacket_keeps
    | split | dsimp only | with_reducible refine Keeps.upd ?_ rfl rfl

theorem State.goOn_keeps {u : State} (s : State) (a : Ask) (job : AskJob) (done : State → State)
    (hf : ∀ v, Keeps u v → Keeps u (done v)) (hk : Keeps u s) :
    Keeps u (s.goOn a job done) := by
  unfold State.goOn
  iterate 40 all_goals try first
    | with_reducible first | assumption | apply hf
    | split | dsimp only | with_reducible refine Keeps.upd ?_ rfl rfl

theorem State.releaseArrivals_keeps {u : State} (s : State) (hk : Keeps u s) : Keeps u s.releaseArrivals := by
  unfold State.releaseArrivals
  iterate 40 all_goals try first
    | with_reducible first | assumption | apply Keeps.foldl | apply Keeps.foldl_snd | apply Keeps.foldl_fst
                            | apply State.recordArrival_keeps | intro _
    | split | dsimp only | with_reducible refine Keeps.upd ?_ rfl rfl

theorem State.serveAsk_sound {u : State} (s : State) (a : Ask) (hk : Sound u s) : Sound u (s.serveAsk a) := by
  unfold State.serveAsk
  dsimp only
  have go : ∀ (v : State) (a : Ask) j f, (∀ w, Keeps v w → Keeps v (f w)) → Sound u v → Sound u (v.goOn a j f) :=
    fun v a j f hf hv => hv.thru (State.goOn_keeps v a j f hf (Keeps.refl v))
  have h0 : Sound u { s with hbm := { s.hbm with asks := s.hbm.asks.erase a } } := hk.upd rfl rfl
  split
  · split
    · exact h0.thru (State.granuleCame_keeps _ _ _ _ _ (Keeps.refl _))
    · split
      · exact h0.thru (State.keyReadFailed_keeps _ _ _ (State.hbmRead_keeps _ _ _ _ (Keeps.refl _)))
      · exact h0.thru (State.granuleCame_keeps _ _ _ _ _ (State.hbmRead_keeps _ _ _ _ (Keeps.refl _)))
  · refine go _ _ _ _ (fun w hw => State.releaseArrivals_keeps w hw) (State.hbmWrite_sound _ _ _ ?_)
    split
    · exact h0
    · exact h0.thru (State.openBytes_keeps _ _ _ (Keeps.refl _))
  · split
    · exact h0.thru (State.respond_keeps _ _ _ _ _ (State.hbmRead_keeps _ _ _ _ (Keeps.refl _)))
    · exact go _ _ _ _ (fun w hw => State.respond_keeps w _ _ _ _ hw)
        (h0.thru (State.hbmRead_keeps _ _ _ _ (Keeps.refl _)))
  · exact go _ _ _ _ (fun w hw => State.answerBytes_keeps w _ _ hw)
      (h0.thru (State.readOpen_keeps _ _ _ (Keeps.refl _)))

theorem State.interfaceError_keeps {u : State} (s : State) (lam : Nat) (hk : Keeps u s) :
    Keeps u (s.interfaceError lam) := by
  unfold State.interfaceError
  iterate 40 all_goals try first
    | with_reducible first | assumption | apply State.setStk_keeps
    | split | dsimp only | with_reducible refine Keeps.upd ?_ rfl rfl

theorem State.lostSlot_keeps {u : State} (s : State) (lam slot cause : Nat) (hk : Keeps u s) :
    Keeps u (s.lostSlot lam slot cause) := by
  unfold State.lostSlot
  iterate 40 all_goals try first
    | with_reducible first | assumption | apply State.hit_keeps
    | split | dsimp only | with_reducible refine Keeps.upd ?_ rfl rfl

theorem State.closeSlot_keeps {u : State} (s : State) (lam slot : Nat) (hk : Keeps u s) :
    Keeps u (s.closeSlot lam slot) := by
  exact hk.of_eq rfl rfl rfl rfl

theorem grantStep_sound {u : State} (ch : BitVec 8) (slot : BitVec 6) (err : BitVec 2) (s : State) (hk : Sound u s) :
    Sound u (grantStep ch slot err s) := by
  unfold grantStep
  iterate 40 all_goals try first
    | with_reducible first | assumption | apply State.advance_sound
                            | refine Sound.thru (by apply State.upset_keeps; exact Keeps.refl _) ?_
                            | refine Sound.thru (by apply State.copySlot_keeps; exact Keeps.refl _) ?_
                            | apply State.serveBid_sound | apply State.serveAsk_sound
                            | refine Sound.thru (by apply State.interfaceError_keeps; exact Keeps.refl _) ?_
                            | refine Sound.thru (by apply State.lostSlot_keeps; exact Keeps.refl _) ?_
                            | refine Sound.thru (by apply State.closeSlot_keeps; exact Keeps.refl _) ?_
    | split | dsimp only | with_reducible refine Sound.upd ?_ rfl rfl

theorem State.rowCopy_keeps {u : State} (s : State) (k a : Nat) (hk : Keeps u s) : Keeps u (s.rowCopy k a) := by
  unfold State.rowCopy
  iterate 40 all_goals try first
    | with_reducible first | assumption | apply Keeps.foldl | apply Keeps.foldl_snd | apply Keeps.foldl_fst
                            | apply State.journal_keeps | apply State.setStk_keeps | apply State.moveGranule_keeps
                            | intro _
    | split | dsimp only | with_reducible refine Keeps.upd ?_ rfl rfl

theorem State.boundaryStack_keeps {u : State} (s : State) (k : Nat) (hk : Keeps u s) :
    Keeps u (s.boundaryStack k) := by
  unfold State.boundaryStack
  iterate 40 all_goals try first
    | with_reducible first | assumption | apply State.setStk_keeps
    | split | dsimp only | with_reducible refine Keeps.upd ?_ rfl rfl

theorem boundaryStep_sound {u : State} (s : State) (hk : Sound u s) : Sound u (boundaryStep s) := by
  unfold boundaryStep
  iterate 40 all_goals try first
    | with_reducible first | assumption | apply Sound.foldl | apply State.advance_sound
                            | refine Sound.thru (by apply State.rowCopy_keeps; exact Keeps.refl _) ?_
                            | refine Sound.thru (by apply State.boundaryStack_keeps; exact Keeps.refl _) ?_ | intro _
    | split | dsimp only | with_reducible refine Sound.upd ?_ rfl rfl

theorem State.staleChannel_keeps {u : State} (s : State) (lam : Nat) (hk : Keeps u s) :
    Keeps u (s.staleChannel lam) := by
  exact hk.of_eq rfl rfl rfl rfl

theorem State.loseChannel_keeps {u : State} (s : State) (k a : Nat) (hk : Keeps u s) :
    Keeps u (s.loseChannel k a) := by
  unfold State.loseChannel
  iterate 40 all_goals try first
    | with_reducible first | assumption | apply Keeps.foldl | apply Keeps.foldl_fst | apply State.onTask_keeps
                            | apply State.raise_keeps | apply State.journal_keeps | apply State.latch_keeps
                            | apply State.setStk_keeps | apply State.staleChannel_keeps | intro _
    | split | dsimp only | with_reducible refine Keeps.upd ?_ rfl rfl

theorem State.idleSlot_sound {u : State} (lam : Nat) (s : State) (n : Nat) (hk : Sound u s) :
    Sound u (State.idleSlot lam s n) := by
  unfold State.idleSlot
  iterate 40 all_goals try first
    | with_reducible first | assumption | apply State.advance_sound
                            | refine Sound.thru (by apply State.lostSlot_keeps; exact Keeps.refl _) ?_
                            | refine Sound.thru (by apply State.closeSlot_keeps; exact Keeps.refl _) ?_
    | split | dsimp only | with_reducible refine Sound.upd ?_ rfl rfl

theorem State.wholeFrames_sound {u : State} (s : State) (lam : Nat) (hk : Sound u s) :
    Sound u (s.wholeFrames lam) := by
  unfold State.wholeFrames
  iterate 40 all_goals try first
    | with_reducible first | assumption | apply Sound.foldl | apply State.advance_sound | apply State.idleSlot_sound
                            | intro _
    | split | dsimp only | with_reducible refine Sound.upd ?_ rfl rfl

theorem retrainDoneStep_sound {u : State} (stack : BitVec 3) (ok : Bool) (s : State) (hk : Sound u s) :
    Sound u (retrainDoneStep stack ok s) := by
  unfold retrainDoneStep
  iterate 40 all_goals try first
    | with_reducible first | assumption | refine Sound.thru (by apply State.setStk_keeps; exact Keeps.refl _) ?_
                            | refine Sound.thru (by apply State.startEvac_keeps; exact Keeps.refl _) ?_
                            | refine Sound.thru (by apply State.loseChannel_keeps; exact Keeps.refl _) ?_
                            | apply State.wholeFrames_sound
    | split | dsimp only | with_reducible refine Sound.upd ?_ rfl rfl

theorem evacDoneStep_keeps {u : State} (stack : BitVec 3) (s : State) (hk : Keeps u s) :
    Keeps u (evacDoneStep stack s) := by
  unfold evacDoneStep
  iterate 40 all_goals try first
    | with_reducible first | assumption | apply Keeps.foldl | apply Keeps.foldl_fst | apply State.raise_keeps
                            | apply State.journal_keeps | apply State.setStk_keeps | apply State.moveGranule_keeps
                            | intro _
    | split | dsimp only | with_reducible refine Keeps.upd ?_ rfl rfl

theorem State.timeEvent_keeps {u : State} (s : State) (step : Int) (hk : Keeps u s) : Keeps u (s.timeEvent step) := by
  unfold State.timeEvent
  iterate 40 all_goals try first
    | with_reducible first | assumption | apply State.hit_keeps | apply State.raise_keeps
    | split | dsimp only | with_reducible refine Keeps.upd ?_ rfl rfl

theorem State.retime_keeps {u : State} (s : State) (hk : Keeps u s) : Keeps u s.retime := by
  unfold State.retime
  iterate 40 all_goals try first
    | with_reducible first | assumption | apply State.timeEvent_keeps
    | split | dsimp only | with_reducible refine Keeps.upd ?_ rfl rfl

theorem State.tellTime_keeps {u : State} (s : State) (p : Nat) (hk : Keeps u s) : Keeps u (s.tellTime p) := by
  unfold State.tellTime
  iterate 40 all_goals try first
    | with_reducible first | assumption | apply State.setPort_keeps
    | split | dsimp only | with_reducible refine Keeps.upd ?_ rfl rfl

theorem State.followParent_keeps {u : State} (s : State) (o : Int) (hk : Keeps u s) : Keeps u (s.followParent o) := by
  unfold State.followParent
  iterate 40 all_goals try first
    | with_reducible first | assumption | apply State.timeEvent_keeps
    | split | dsimp only | with_reducible refine Keeps.upd ?_ rfl rfl

theorem syncStep_keeps {u : State} (p : BitVec 4) (parentTime : BitVec 64) (delay2 : Nat) (s : State) (hk : Keeps u s)
    :
    Keeps u (syncStep p parentTime delay2 s) := by
  unfold syncStep
  iterate 40 all_goals try first
    | with_reducible first | assumption | apply State.tellTime_keeps | apply State.followParent_keeps
    | split | dsimp only | with_reducible refine Keeps.upd ?_ rfl rfl

theorem holdoverStep_sound {u : State} (s : State) (hk : Sound u s) : Sound u (holdoverStep s) := by
  unfold holdoverStep
  iterate 40 all_goals try first
    | with_reducible first | assumption | apply State.advance_sound
                            | refine Sound.thru (by apply State.timeEvent_keeps; exact Keeps.refl _) ?_
    | split | dsimp only | with_reducible refine Sound.upd ?_ rfl rfl

theorem State.movePort_keeps {u : State} (s : State) (p : Nat) (v : Port) (st : PortSt) (reason : Nat)
    (hk : Keeps u s) :
    Keeps u (s.movePort p v st reason) := by
  unfold State.movePort
  iterate 40 all_goals try first
    | with_reducible first | assumption | apply State.hit_keeps | apply State.raise_keeps | apply State.setPort_keeps
                            | apply State.negotiate_keeps
    | split | dsimp only | with_reducible refine Keeps.upd ?_ rfl rfl

theorem State.movePortOpen_keeps {u : State} (s : State) (p : Nat) (v : Port) (st : PortSt) (hk : Keeps u s) :
    Keeps u (s.movePortOpen p v st) := by
  unfold State.movePortOpen
  iterate 40 all_goals try first
    | with_reducible first | assumption | apply State.freed_keeps | apply State.movePort_keeps
    | split | dsimp only | with_reducible refine Keeps.upd ?_ rfl rfl

theorem State.sendTaskLost_keeps {u : State} (s : State) (n tag : Nat) (hk : Keeps u s) :
    Keeps u (s.sendTaskLost n tag) := by
  unfold State.sendTaskLost
  iterate 40 all_goals try first
    | with_reducible first | assumption | apply State.sendPacket_keeps
    | split | dsimp only | with_reducible refine Keeps.upd ?_ rfl rfl

theorem State.abortTagged_keeps {u : State} (s : State) (tag : BitVec 16) (a : AbortCond) (hk : Keeps u s) :
    Keeps u (s.abortTagged tag a) := by
  unfold State.abortTagged
  iterate 40 all_goals try first
    | with_reducible first | assumption | apply State.abortHere_keeps
    | split | dsimp only | with_reducible refine Keeps.upd ?_ rfl rfl

theorem State.markUnreachable_keeps {u : State} (s : State) (n : NodeId) (reason port : Nat) (expiry : Option Nat)
    (hk : Keeps u s) :
    Keeps u (s.markUnreachable n reason port expiry) := by
  unfold State.markUnreachable
  iterate 40 all_goals try first
    | with_reducible first | assumption | apply Keeps.foldl | apply Keeps.foldl_fst | apply State.hit_keeps
                            | apply State.abortHere_keeps | intro _
    | split | dsimp only | with_reducible refine Keeps.upd ?_ rfl rfl

theorem State.sendAgain_keeps {u : State} (s : State) (o : OutPkt) (hk : Keeps u s) : Keeps u (s.sendAgain o) := by
  unfold State.sendAgain
  iterate 40 all_goals try first
    | with_reducible first | assumption | apply State.release_keeps | apply State.sendAt_keeps
                            | apply State.discard_keeps | apply State.deadEnd_keeps | apply State.sendCopies_keeps
    | split | dsimp only | with_reducible refine Keeps.upd ?_ rfl rfl

theorem State.losePort_keeps {u : State} (s : State) (p : Nat) (st : PortSt) (reason : Nat) (hk : Keeps u s) :
    Keeps u (s.losePort p st reason) := by
  unfold State.losePort
  iterate 40 all_goals try first
    | with_reducible first | assumption | apply Keeps.foldl | apply Keeps.foldl_snd | apply Keeps.foldl_fst
                            | apply State.reapWrites_keeps | apply State.retime_keeps | apply State.movePort_keeps
                            | apply State.sendTaskLost_keeps | apply State.abortTagged_keeps
                            | apply State.markUnreachable_keeps | apply State.sendAgain_keeps | intro _
    | split | dsimp only | with_reducible refine Keeps.upd ?_ rfl rfl

theorem State.dropPort_keeps {u : State} (s : State) (p : Nat) (st : PortSt) (reason : Nat) (hk : Keeps u s) :
    Keeps u (s.dropPort p st reason) := by
  unfold State.dropPort
  iterate 40 all_goals try first
    | with_reducible first | assumption | apply State.movePort_keeps | apply State.losePort_keeps
    | split | dsimp only | with_reducible refine Keeps.upd ?_ rfl rfl

theorem State.restoreNodes_keeps {u : State} (s : State) (p : Nat) (hk : Keeps u s) : Keeps u (s.restoreNodes p) := by
  unfold State.restoreNodes
  iterate 40 all_goals try first
    | with_reducible first | assumption | apply State.retime_keeps
    | split | dsimp only | with_reducible refine Keeps.upd ?_ rfl rfl

theorem State.negotiate_keeps {u : State} (s : State) (p : Nat) (r : CapRecord) (hk : Keeps u s) :
    Keeps u (s.negotiate p r) := by
  unfold State.negotiate
  iterate 40 all_goals try first
    | with_reducible first | assumption | apply State.setPort_keeps | apply State.flushPort_keeps
                            | apply State.reapWrites_keeps | apply State.movePort_keeps
                            | apply State.restoreNodes_keeps
    | split | dsimp only | with_reducible refine Keeps.upd ?_ rfl rfl

theorem State.retrainPort_keeps {u : State} (s : State) (p : Nat) (reason : Nat) (hk : Keeps u s) :
    Keeps u (s.retrainPort p reason) := by
  unfold State.retrainPort
  iterate 40 all_goals try first
    | with_reducible first | assumption | apply State.movePort_keeps
    | split | dsimp only | with_reducible refine Keeps.upd ?_ rfl rfl

theorem State.goOnAt_keeps {u : State} (s : State) (p : Nat) (hk : Keeps u s) : Keeps u (s.goOnAt p) := by
  unfold State.goOnAt
  iterate 40 all_goals try first
    | with_reducible first | assumption | apply State.hit_keeps | apply State.setPort_keeps
                            | apply State.flushPort_keeps | apply State.reapWrites_keeps
    | split | dsimp only | with_reducible refine Keeps.upd ?_ rfl rfl

theorem State.countReplay_keeps {u : State} (s : State) (p : Nat) (ack : BitVec 12) (hk : Keeps u s) :
    Keeps u (s.countReplay p ack) := by
  unfold State.countReplay
  iterate 40 all_goals try first
    | with_reducible first | assumption | apply State.hit_keeps | apply State.setPort_keeps
    | split | dsimp only | with_reducible refine Keeps.upd ?_ rfl rfl

theorem nakStep_keeps {u : State} (p : Nat) (ack : BitVec 12) (s : State) (hk : Keeps u s) :
    Keeps u (nakStep p ack s) := by
  unfold nakStep
  iterate 40 all_goals try first
    | with_reducible first | assumption | apply State.hit_keeps | apply State.setPort_keeps
                            | apply State.retrainPort_keeps | apply State.countReplay_keeps
    | split | dsimp only | with_reducible refine Keeps.upd ?_ rfl rfl

theorem State.fecCorrected_keeps {u : State} (s : State) (p n : Nat) (hk : Keeps u s) :
    Keeps u (s.fecCorrected p n) := by
  unfold State.fecCorrected
  iterate 40 all_goals try first
    | with_reducible first | assumption | apply Keeps.foldl | apply Keeps.foldl_snd | apply Keeps.foldl_fst
                            | apply State.hit_keeps | apply State.setPort_keeps | apply State.retrainPort_keeps
                            | intro _
    | split | dsimp only | with_reducible refine Keeps.upd ?_ rfl rfl

theorem State.restoreRoutes_keeps {u : State} (s : State) (hk : Keeps u s) : Keeps u s.restoreRoutes := by
  unfold State.restoreRoutes
  iterate 40 all_goals try first
    | with_reducible first | assumption | apply State.retime_keeps
    | split | dsimp only | with_reducible refine Keeps.upd ?_ rfl rfl

theorem State.receive_keeps {u : State} (s : State) (p : BitVec 4) (x : InFlit) (t : PktType)
    (f : Packet → State → State) (hf : ∀ k v, Keeps u v → Keeps u (f k v)) (hk : Keeps u s) :
    Keeps u (s.receive p x t f) := by
  unfold State.receive
  dsimp only
  split
  · exact hk
  · exact hf _ _ (State.setPort_keeps _ _ _ hk)

theorem State.receive_sound {u : State} (s : State) (p : BitVec 4) (x : InFlit) (t : PktType)
    (f : Packet → State → State) (hf : ∀ k v, Sound u v → Sound u (f k v)) (hk : Sound u s) :
    Sound u (s.receive p x t f) := by
  unfold State.receive
  dsimp only
  split
  · exact hk
  · exact hf _ _ (hk.thru (State.setPort_keeps _ _ _ (Keeps.refl _)))

theorem State.deliverOr_keeps {u : State} (s : State) (p : BitVec 4) (t : PktType) (k : Packet) (f : State → State)
    (hf : ∀ v, Keeps u v → Keeps u (f v)) (hk : Keeps u s) :
    Keeps u (s.deliverOr p t k f) := by
  unfold State.deliverOr
  iterate 40 all_goals try first
    | with_reducible first | assumption | apply hf | apply State.release_keeps | apply State.forward_keeps
    | split | dsimp only | with_reducible refine Keeps.upd ?_ rfl rfl

theorem State.deliverOr_sound {u : State} (s : State) (p : BitVec 4) (t : PktType) (k : Packet) (f : State → State)
    (hf : ∀ v, Sound u v → Sound u (f v)) (hk : Sound u s) :
    Sound u (s.deliverOr p t k f) := by
  unfold State.deliverOr
  iterate 40 all_goals try first
    | with_reducible first | assumption | apply hf
                            | refine Sound.thru (by apply State.release_keeps; exact Keeps.refl _) ?_
                            | refine Sound.thru (by apply State.forward_keeps; exact Keeps.refl _) ?_
    | split | dsimp only | with_reducible refine Sound.upd ?_ rfl rfl

theorem servedWrite_keeps {u : State} (k : Packet) (s : State) (hk : Keeps u s) : Keeps u (servedWrite k s) := by
  unfold servedWrite
  iterate 40 all_goals try first
    | with_reducible first | assumption | apply State.discard_keeps | apply State.ask_keeps
    | split | dsimp only | with_reducible refine Keeps.upd ?_ rfl rfl

theorem servedRead_keeps {u : State} (k : Packet) (s : State) (hk : Keeps u s) : Keeps u (servedRead k s) := by
  unfold servedRead
  iterate 40 all_goals try first
    | with_reducible first | assumption | apply State.discard_keeps | apply State.ask_keeps
                            | apply State.respond_keeps
    | split | dsimp only | with_reducible refine Keeps.upd ?_ rfl rfl

theorem State.readRefused_keeps {u : State} (s : State) (o : Outstanding) (hk : Keeps u s) :
    Keeps u (s.readRefused o) := by
  unfold State.readRefused
  iterate 40 all_goals try first
    | with_reducible first | assumption | apply State.latch_keeps
    | split | dsimp only | with_reducible refine Keeps.upd ?_ rfl rfl

theorem State.readCame_keeps {u : State} (s : State) (o : Outstanding) (bs : List Byte) (hk : Keeps u s) :
    Keeps u (s.readCame o bs) := by
  unfold State.readCame
  iterate 40 all_goals try first
    | with_reducible first | assumption | apply State.feed_keeps | apply State.granuleCame_keeps
    | split | dsimp only | with_reducible refine Keeps.upd ?_ rfl rfl

theorem responseStep_keeps {u : State} (k : Packet) (s : State) (hk : Keeps u s) : Keeps u (responseStep k s) := by
  unfold responseStep
  iterate 40 all_goals try first
    | with_reducible first | assumption | apply State.readRefused_keeps | apply State.readCame_keeps
    | split | dsimp only | with_reducible refine Keeps.upd ?_ rfl rfl

theorem cartStep_keeps {u : State} (p : BitVec 4) (k : Packet) (s : State) (hk : Keeps u s) :
    Keeps u (cartStep p k s) := by
  unfold cartStep
  iterate 40 all_goals try first
    | with_reducible first | assumption | apply State.release_keeps | apply State.discard_keeps
                            | apply State.deadEnd_keeps | apply State.multicast_keeps | apply State.takePiece_keeps
    | split | dsimp only | with_reducible refine Keeps.upd ?_ rfl rfl

theorem creditStep_keeps {u : State} (k : Packet) (s : State) (hk : Keeps u s) : Keeps u (creditStep k s) := by
  unfold creditStep
  iterate 40 all_goals try first
    | with_reducible first | assumption | apply State.setQueue_keeps | apply State.timeoutFires_keeps
    | split | dsimp only | with_reducible refine Keeps.upd ?_ rfl rfl

theorem arrivalStep_keeps {u : State} (k : Packet) (s : State) (hk : Keeps u s) : Keeps u (arrivalStep k s) := by
  unfold arrivalStep
  iterate 40 all_goals try first
    | with_reducible first | assumption | apply State.recordArrival_keeps
    | split | dsimp only | with_reducible refine Keeps.upd ?_ rfl rfl

theorem lostStep_keeps {u : State} (p : BitVec 4) (k : Packet) (s : State) (hk : Keeps u s) :
    Keeps u (lostStep p k s) := by
  unfold lostStep
  iterate 40 all_goals try first
    | with_reducible first | assumption | apply State.abortTagged_keeps
    | split | dsimp only | with_reducible refine Keeps.upd ?_ rfl rfl

theorem State.recordNow_keeps {u : State} (s : State) (source : Nat) (hk : Keeps u s) :
    Keeps u (s.recordNow source) := by
  unfold State.recordNow
  iterate 40 all_goals try first
    | with_reducible first | assumption | apply State.hit_keeps
    | split | dsimp only | with_reducible refine Keeps.upd ?_ rfl rfl

theorem recordStep_sound {u : State} (source : Nat) (s : State) (hk : Sound u s) : Sound u (recordStep source s) := by
  unfold recordStep
  iterate 40 all_goals try first
    | with_reducible first | assumption | apply State.advance_sound
                            | refine Sound.thru (by apply State.recordNow_keeps; exact Keeps.refl _) ?_
    | split | dsimp only | with_reducible refine Sound.upd ?_ rfl rfl

theorem State.signalEvent_keeps {u : State} (s : State) (hk : Keeps u s) : Keeps u s.signalEvent := by
  unfold State.signalEvent
  iterate 40 all_goals try first
    | with_reducible first | assumption | apply State.raiseVector_keeps
    | split | dsimp only | with_reducible refine Keeps.upd ?_ rfl rfl

theorem ringWriteStep_sound {u : State} (error : Bool) (s : State) (hk : Sound u s) :
    Sound u (ringWriteStep error s) := by
  unfold ringWriteStep
  iterate 40 all_goals try first
    | with_reducible first | assumption | apply State.hostWrite_sound
                            | refine Sound.thru (by apply State.ringError_keeps; exact Keeps.refl _) ?_
                            | refine Sound.thru (by apply State.signalEvent_keeps; exact Keeps.refl _) ?_
    | split | dsimp only | with_reducible refine Sound.upd ?_ rfl rfl

theorem State.ringEnabled_keeps {u : State} (s : State) (hk : Keeps u s) : Keeps u s.ringEnabled := by
  unfold State.ringEnabled
  iterate 40 all_goals try first
    | with_reducible first | assumption | apply Keeps.foldl | apply Keeps.foldl_snd | apply Keeps.foldl_fst
                            | apply Keeps.foldl_snd_snd | apply State.raise_keeps | apply State.raiseRetire_keeps
                            | intro _
    | split | dsimp only | with_reducible refine Keeps.upd ?_ rfl rfl

theorem eventControl_keeps {u : State} (v : BitVec 32) (s : State) (hk : Keeps u s) : Keeps u (eventControl v s) := by
  unfold eventControl
  iterate 40 all_goals try first
    | with_reducible first | assumption | apply State.hit_keeps | apply State.ringEnabled_keeps
    | split | dsimp only | with_reducible refine Keeps.upd ?_ rfl rfl

theorem execBar2Read_keeps (off : BitVec 36) (len : BitVec 10) (s : State) :
    ∃ t, execBar2Read off len s = .next t ∧ Keeps s t :=
  ⟨_, rfl, bar2ReadStep_keeps off len s (Keeps.refl s)⟩

theorem execBar2Write_keeps (off : BitVec 36) (data : List Byte) (s : State) :
    ∃ t, execBar2Write off data s = .next t ∧ Keeps s t := by
  refine ⟨_, rfl, ?_⟩
  have hk := Keeps.refl s
  iterate 40 all_goals try first
    | with_reducible first | assumption | apply State.ask_keeps
    | split | dsimp only | with_reducible refine Keeps.upd ?_ rfl rfl

theorem execSqTailDoorbell_keeps (off : BitVec 24) (size : Nat) (value : BitVec 32) (s : State) :
    ∃ t, execSqTailDoorbell off size value s = .next t ∧ Keeps s t := by
  refine ⟨_, rfl, ?_⟩
  have hk := Keeps.refl s
  iterate 40 all_goals try first
    | with_reducible first | assumption | apply State.doorbell_keeps
    | split | dsimp only | with_reducible refine Keeps.upd ?_ rfl rfl

theorem execCqHeadDoorbell_keeps (off : BitVec 24) (size : Nat) (value : BitVec 32) (s : State) :
    ∃ t, execCqHeadDoorbell off size value s = .next t ∧ Keeps s t := by
  refine ⟨_, rfl, ?_⟩
  have hk := Keeps.refl s
  iterate 40 all_goals try first
    | with_reducible first | assumption | apply State.doorbell_keeps
    | split | dsimp only | with_reducible refine Keeps.upd ?_ rfl rfl

theorem execEventHeadDoorbell_keeps (off : BitVec 24) (size : Nat) (value : BitVec 32) (s : State) :
    ∃ t, execEventHeadDoorbell off size value s = .next t ∧ Keeps s t := by
  refine ⟨_, rfl, ?_⟩
  have hk := Keeps.refl s
  iterate 40 all_goals try first
    | with_reducible first | assumption | apply State.doorbell_keeps
    | split | dsimp only | with_reducible refine Keeps.upd ?_ rfl rfl

theorem execCommandFetch_keeps (i : BitVec 6) (error : Bool) (s : State) :
    ∃ t, execCommandFetch i error s = .next t ∧ Keeps s t :=
  ⟨_, rfl, fetchStep_keeps i error s (Keeps.refl s)⟩

theorem execCompletionWrite_sound (i : BitVec 6) (error : Bool) (s : State) :
    ∃ t, execCompletionWrite i error s = .next t ∧ Sound s t :=
  ⟨_, rfl, completionStep_sound i error s (Sound.refl s)⟩

theorem execIrqDelayExpire_sound (vec : BitVec 7) (s : State) :
    ∃ t, execIrqDelayExpire vec s = .next t ∧ Sound s t := by
  refine ⟨_, rfl, ?_⟩
  have hk := Sound.refl s
  iterate 40 all_goals try first
    | with_reducible first | assumption | apply State.advance_sound
                            | refine Sound.thru (by apply State.setCq_keeps; exact Keeps.refl _) ?_
                            | refine Sound.thru (by apply State.raiseVector_keeps; exact Keeps.refl _) ?_
    | split | dsimp only | with_reducible refine Sound.upd ?_ rfl rfl

theorem execContextCreate_keeps (h : CmdHdr) (set : BitVec 8) (s : State) :
    ∃ t, execContextCreate h set s = .next t ∧ Keeps s t :=
  ⟨_, rfl, contextCreateStep_keeps h set s (Keeps.refl s)⟩

theorem execContextDestroy_keeps (h : CmdHdr) (c : BitVec 14) (s : State) :
    ∃ t, execContextDestroy h c s = .next t ∧ Keeps s t :=
  ⟨_, rfl, contextDestroyStep_keeps h c s (Keeps.refl s)⟩

theorem execKeyRegister_keeps (h : CmdHdr) (c : BitVec 14) (count : BitVec 16) (dir : BitVec 40) (s : State) :
    ∃ t, execKeyRegister h c count dir s = .next t ∧ Keeps s t :=
  ⟨_, rfl, keyRegisterStep_keeps h c count dir s (Keeps.refl s)⟩

theorem execKeyRegisterDone_keeps (sq : BitVec 6) (s : State) :
    ∃ t, execKeyRegisterDone sq s = .next t ∧ Keeps s t := by
  refine ⟨_, rfl, ?_⟩
  have hk := Keeps.refl s
  iterate 40 all_goals try first
    | with_reducible first | assumption | apply State.unwait_keeps | apply State.bindContext_keeps
    | split | dsimp only | with_reducible refine Keeps.upd ?_ rfl rfl

theorem execProgramLoad_keeps (h : CmdHdr) (src : Bool) (len : BitVec 32) (s : State) :
    ∃ t, execProgramLoad h src len s = .next t ∧ Keeps s t :=
  ⟨_, rfl, programLoadStep_keeps h src len s (Keeps.refl s)⟩

theorem execProgramLoadDone_keeps (sq : BitVec 6) (s : State) :
    ∃ t, execProgramLoadDone sq s = .next t ∧ Keeps s t := by
  refine ⟨_, rfl, ?_⟩
  have hk := Keeps.refl s
  iterate 40 all_goals try first
    | with_reducible first | assumption | apply State.unwait_keeps | apply State.finishLoad_keeps
    | split | dsimp only | with_reducible refine Keeps.upd ?_ rfl rfl

theorem execTaskSubmit_keeps (h : CmdHdr) (f : TaskF) (s : State) :
    ∃ t, execTaskSubmit h f s = .next t ∧ Keeps s t :=
  ⟨_, rfl, taskSubmitStep_keeps h f s (Keeps.refl s)⟩

theorem execTaskAbort_keeps (h : CmdHdr) (upto : Bool) (s : State) :
    ∃ t, execTaskAbort h upto s = .next t ∧ Keeps s t :=
  ⟨_, rfl, taskAbortStep_keeps h upto s (Keeps.refl s)⟩

theorem execFence_keeps (h : CmdHdr) (own : Bool) (s : State) : ∃ t, execFence h own s = .next t ∧ Keeps s t :=
  ⟨_, rfl, fenceStep_keeps h own s (Keeps.refl s)⟩

theorem execGroupSet_keeps (h : CmdHdr) (f : GroupF) (s : State) : ∃ t, execGroupSet h f s = .next t ∧ Keeps s t :=
  ⟨_, rfl, groupSetStep_keeps h f s (Keeps.refl s)⟩

theorem execHostMemoryError_keeps (id : TaskId) (r : BitVec 8) (s : State) :
    ∃ t, execHostMemoryError id r s = .next t ∧ Keeps s t :=
  ⟨_, rfl, hostMemoryErrorStep_keeps id r s (Keeps.refl s)⟩

theorem execSyncSummary_sound (h : CmdHdr) (capacity : BitVec 32) (s : State) :
    ∃ t, execSyncSummary h capacity s = .next t ∧ Sound s t :=
  ⟨_, rfl, syncSummaryStep_sound h capacity s (Sound.refl s)⟩

theorem execSyncSummaryDone_keeps (s : State) : ∃ t, execSyncSummaryDone s = .next t ∧ Keeps s t := by
  refine ⟨_, rfl, ?_⟩
  have hk := Keeps.refl s
  iterate 40 all_goals try first
    | with_reducible first | assumption | apply State.post_keeps | apply State.unwait_keeps
    | split | dsimp only | with_reducible refine Keeps.upd ?_ rfl rfl

theorem execGrantSlot_sound (ch : BitVec 8) (slot : BitVec 6) (err : BitVec 2) (s : State) :
    ∃ t, execGrantSlot ch slot err s = .next t ∧ Sound s t :=
  ⟨_, rfl, grantStep_sound ch slot err s (Sound.refl s)⟩

theorem execHbmFrameBoundary_sound (s : State) : ∃ t, execHbmFrameBoundary s = .next t ∧ Sound s t :=
  ⟨_, rfl, boundaryStep_sound s (Sound.refl s)⟩

theorem execHbmRetrainDone_sound (stack : BitVec 3) (ok : Bool) (s : State) :
    ∃ t, execHbmRetrainDone stack ok s = .next t ∧ Sound s t :=
  ⟨_, rfl, retrainDoneStep_sound stack ok s (Sound.refl s)⟩

theorem execPoisonFillDone_keeps (stack : BitVec 3) (s : State) :
    ∃ t, execPoisonFillDone stack s = .next t ∧ Keeps s t := by
  refine ⟨_, rfl, ?_⟩
  have hk := Keeps.refl s
  iterate 40 all_goals try first
    | with_reducible first | assumption | apply State.setStk_keeps
    | split | dsimp only | with_reducible refine Keeps.upd ?_ rfl rfl

theorem execEvacDone_keeps (stack : BitVec 3) (s : State) : ∃ t, execEvacDone stack s = .next t ∧ Keeps s t :=
  ⟨_, rfl, evacDoneStep_keeps stack s (Keeps.refl s)⟩

theorem execSyncExchange_keeps (p : BitVec 4) (parentTime : BitVec 64) (delay2 : Nat) (s : State) :
    ∃ t, execSyncExchange p parentTime delay2 s = .next t ∧ Keeps s t :=
  ⟨_, rfl, syncStep_keeps p parentTime delay2 s (Keeps.refl s)⟩

theorem execTimeHoldover_sound (s : State) : ∃ t, execTimeHoldover s = .next t ∧ Sound s t :=
  ⟨_, rfl, holdoverStep_sound s (Sound.refl s)⟩

theorem execTimeStep_keeps (s : State) : ∃ t, execTimeStep s = .next t ∧ Keeps s t := by
  refine ⟨_, rfl, ?_⟩
  have hk := Keeps.refl s
  iterate 40 all_goals try first
    | with_reducible first | assumption | apply State.timeEvent_keeps
    | split | dsimp only | with_reducible refine Keeps.upd ?_ rfl rfl

theorem execLossOfSignal_keeps (p : BitVec 4) (s : State) : ∃ t, execLossOfSignal p s = .next t ∧ Keeps s t := by
  refine ⟨_, rfl, ?_⟩
  have hk := Keeps.refl s
  iterate 40 all_goals try first
    | with_reducible first | assumption | apply State.dropPort_keeps
    | split | dsimp only | with_reducible refine Keeps.upd ?_ rfl rfl

theorem execPortTrainAttempt_keeps (p : BitVec 4) (lanes : BitVec 8) (s : State) :
    ∃ t, execPortTrainAttempt p lanes s = .next t ∧ Keeps s t := by
  refine ⟨_, rfl, ?_⟩
  have hk := Keeps.refl s
  iterate 40 all_goals try first
    | with_reducible first | assumption | apply State.movePortOpen_keeps
    | split | dsimp only | with_reducible refine Keeps.upd ?_ rfl rfl

theorem execTrainingEnd_keeps (p : BitVec 4) (ok : Bool) (s : State) :
    ∃ t, execTrainingEnd p ok s = .next t ∧ Keeps s t := by
  refine ⟨_, rfl, ?_⟩
  have hk := Keeps.refl s
  iterate 40 all_goals try first
    | with_reducible first | assumption | apply State.movePort_keeps | apply State.movePortOpen_keeps
                            | apply State.negotiate_keeps
    | split | dsimp only | with_reducible refine Keeps.upd ?_ rfl rfl

theorem execCapabilityExchange_keeps (p : BitVec 4) (r : CapRecord) (s : State) :
    ∃ t, execCapabilityExchange p r s = .next t ∧ Keeps s t := by
  refine ⟨_, rfl, ?_⟩
  have hk := Keeps.refl s
  iterate 40 all_goals try first
    | with_reducible first | assumption | apply State.negotiate_keeps
    | split | dsimp only | with_reducible refine Keeps.upd ?_ rfl rfl

theorem execNegotiateTimeout_keeps (p : BitVec 4) (s : State) :
    ∃ t, execNegotiateTimeout p s = .next t ∧ Keeps s t := by
  refine ⟨_, rfl, ?_⟩
  have hk := Keeps.refl s
  iterate 40 all_goals try first
    | with_reducible first | assumption | apply State.movePort_keeps | apply State.negotiate_keeps
    | split | dsimp only | with_reducible refine Keeps.upd ?_ rfl rfl

theorem execHeldRetry_keeps (p : BitVec 4) (r : CapRecord) (s : State) :
    ∃ t, execHeldRetry p r s = .next t ∧ Keeps s t := by
  refine ⟨_, rfl, ?_⟩
  have hk := Keeps.refl s
  iterate 40 all_goals try first
    | with_reducible first | assumption | apply State.setPort_keeps | apply State.negotiate_keeps
    | split | dsimp only | with_reducible refine Keeps.upd ?_ rfl rfl

theorem execPortRetrainEnd_keeps (p : BitVec 4) (ok : Bool) (s : State) :
    ∃ t, execPortRetrainEnd p ok s = .next t ∧ Keeps s t := by
  refine ⟨_, rfl, ?_⟩
  have hk := Keeps.refl s
  iterate 40 all_goals try first
    | with_reducible first | assumption | apply State.setPort_keeps | apply State.movePort_keeps
                            | apply State.losePort_keeps | apply State.restoreNodes_keeps | apply State.goOnAt_keeps
    | split | dsimp only | with_reducible refine Keeps.upd ?_ rfl rfl

theorem execFlitCrcError_keeps (p : BitVec 4) (s : State) : ∃ t, execFlitCrcError p s = .next t ∧ Keeps s t := by
  refine ⟨_, rfl, ?_⟩
  have hk := Keeps.refl s
  iterate 40 all_goals try first
    | with_reducible first | assumption | apply State.setPort_keeps
    | split | dsimp only | with_reducible refine Keeps.upd ?_ rfl rfl

theorem execNak_keeps (p : BitVec 4) (ack : BitVec 12) (s : State) : ∃ t, execNak p ack s = .next t ∧ Keeps s t := by
  refine ⟨_, rfl, ?_⟩
  have hk := Keeps.refl s
  iterate 40 all_goals try first
    | with_reducible first | assumption | apply nakStep_keeps
    | split | dsimp only | with_reducible refine Keeps.upd ?_ rfl rfl

theorem execLinkCreditReturn_keeps (p : BitVec 4) (vc : Bool) (amount : BitVec 12) (ack : FlitAck) (s : State) :
    ∃ t, execLinkCreditReturn p vc amount ack s = .next t ∧ Keeps s t := by
  refine ⟨_, rfl, ?_⟩
  have hk := Keeps.refl s
  iterate 40 all_goals try first
    | with_reducible first | assumption | apply State.setPort_keeps | apply State.flushPort_keeps
                            | apply State.reapWrites_keeps | apply State.fecCorrected_keeps
    | split | dsimp only | with_reducible refine Keeps.upd ?_ rfl rfl

theorem execRouteRestoreApply_keeps (s : State) : ∃ t, execRouteRestoreApply s = .next t ∧ Keeps s t := by
  refine ⟨_, rfl, ?_⟩
  have hk := Keeps.refl s
  iterate 40 all_goals try first
    | with_reducible first | assumption | apply State.restoreRoutes_keeps
    | split | dsimp only | with_reducible refine Keeps.upd ?_ rfl rfl

theorem execReachableTimeout_sound (n : NodeId) (s : State) :
    ∃ t, execReachableTimeout n s = .next t ∧ Sound s t := by
  refine ⟨_, rfl, ?_⟩
  have hk := Sound.refl s
  iterate 40 all_goals try first
    | with_reducible first | assumption | apply State.advance_sound
                            | refine Sound.thru (by apply State.retime_keeps; exact Keeps.refl _) ?_
    | split | dsimp only | with_reducible refine Sound.upd ?_ rfl rfl

theorem execWritePkt_sound (p : BitVec 4) (k : InFlit) (s : State) :
    ∃ t, execWritePkt p k s = .next t ∧ Sound s t := by
  refine ⟨_, rfl, ?_⟩
  have hk := Sound.refl s
  iterate 40 all_goals try first
    | with_reducible first | assumption | apply State.receive_sound | apply State.deliverOr_sound
                            | refine Sound.thru (by apply servedWrite_keeps; exact Keeps.refl _) ?_ | intro _
    | split | dsimp only | with_reducible refine Sound.upd ?_ rfl rfl

theorem execReadReq_sound (p : BitVec 4) (k : InFlit) (s : State) : ∃ t, execReadReq p k s = .next t ∧ Sound s t := by
  refine ⟨_, rfl, ?_⟩
  have hk := Sound.refl s
  iterate 40 all_goals try first
    | with_reducible first | assumption | apply State.receive_sound | apply State.deliverOr_sound
                            | refine Sound.thru (by apply servedRead_keeps; exact Keeps.refl _) ?_ | intro _
    | split | dsimp only | with_reducible refine Sound.upd ?_ rfl rfl

theorem execReadRsp_sound (p : BitVec 4) (k : InFlit) (s : State) : ∃ t, execReadRsp p k s = .next t ∧ Sound s t := by
  refine ⟨_, rfl, ?_⟩
  have hk := Sound.refl s
  iterate 40 all_goals try first
    | with_reducible first | assumption | apply State.receive_sound | apply State.deliverOr_sound
                            | refine Sound.thru (by apply responseStep_keeps; exact Keeps.refl _) ?_ | intro _
    | split | dsimp only | with_reducible refine Sound.upd ?_ rfl rfl

theorem execRemoteReqTimeout_sound (rid : BitVec 16) (s : State) :
    ∃ t, execRemoteReqTimeout rid s = .next t ∧ Sound s t := by
  refine ⟨_, rfl, ?_⟩
  have hk := Sound.refl s
  iterate 40 all_goals try first
    | with_reducible first | assumption | refine Sound.thru (by apply State.latch_keeps; exact Keeps.refl _) ?_
                            | apply State.advance_sound
    | split | dsimp only | with_reducible refine Sound.upd ?_ rfl rfl

theorem execCart_sound (p : BitVec 4) (k : InFlit) (s : State) : ∃ t, execCart p k s = .next t ∧ Sound s t := by
  refine ⟨_, rfl, ?_⟩
  have hk := Sound.refl s
  iterate 40 all_goals try first
    | with_reducible first | assumption | apply State.receive_sound
                            | refine Sound.thru (by apply cartStep_keeps; exact Keeps.refl _) ?_ | intro _
    | split | dsimp only | with_reducible refine Sound.upd ?_ rfl rfl

theorem execCartCredit_sound (p : BitVec 4) (k : InFlit) (s : State) :
    ∃ t, execCartCredit p k s = .next t ∧ Sound s t := by
  refine ⟨_, rfl, ?_⟩
  have hk := Sound.refl s
  iterate 40 all_goals try first
    | with_reducible first | assumption | apply State.receive_sound | apply State.deliverOr_sound
                            | refine Sound.thru (by apply creditStep_keeps; exact Keeps.refl _) ?_ | intro _
    | split | dsimp only | with_reducible refine Sound.upd ?_ rfl rfl

theorem execShutArrive_sound (p : BitVec 4) (k : InFlit) (s : State) :
    ∃ t, execShutArrive p k s = .next t ∧ Sound s t := by
  refine ⟨_, rfl, ?_⟩
  have hk := Sound.refl s
  iterate 40 all_goals try first
    | with_reducible first | assumption | apply State.receive_sound | apply State.deliverOr_sound
                            | refine Sound.thru (by apply arrivalStep_keeps; exact Keeps.refl _) ?_ | intro _
    | split | dsimp only | with_reducible refine Sound.upd ?_ rfl rfl

theorem execAbortPkt_sound (p : BitVec 4) (k : InFlit) (s : State) :
    ∃ t, execAbortPkt p k s = .next t ∧ Sound s t := by
  refine ⟨_, rfl, ?_⟩
  have hk := Sound.refl s
  iterate 40 all_goals try first
    | with_reducible first | assumption | refine Sound.thru (by apply State.abortTagged_keeps; exact Keeps.refl _) ?_
                            | apply State.receive_sound | apply State.deliverOr_sound | intro _
    | split | dsimp only | with_reducible refine Sound.upd ?_ rfl rfl

theorem execTaskLost_sound (p : BitVec 4) (k : InFlit) (s : State) :
    ∃ t, execTaskLost p k s = .next t ∧ Sound s t := by
  refine ⟨_, rfl, ?_⟩
  have hk := Sound.refl s
  iterate 40 all_goals try first
    | with_reducible first | assumption | apply State.receive_sound | apply State.deliverOr_sound
                            | refine Sound.thru (by apply lostStep_keeps; exact Keeps.refl _) ?_ | intro _
    | split | dsimp only | with_reducible refine Sound.upd ?_ rfl rfl

theorem execUnreach_sound (p : BitVec 4) (k : InFlit) (s : State) : ∃ t, execUnreach p k s = .next t ∧ Sound s t := by
  refine ⟨_, rfl, ?_⟩
  have hk := Sound.refl s
  iterate 40 all_goals try first
    | with_reducible first | assumption | refine Sound.thru (by apply State.retime_keeps; exact Keeps.refl _) ?_
                            | refine Sound.thru (by apply State.markUnreachable_keeps; exact Keeps.refl _) ?_
                            | apply State.receive_sound | apply State.deliverOr_sound | intro _
    | split | dsimp only | with_reducible refine Sound.upd ?_ rfl rfl

theorem execEventRecord_sound (source : BitVec 15) (s : State) :
    ∃ t, execEventRecord source s = .next t ∧ Sound s t := by
  refine ⟨_, rfl, ?_⟩
  have hk := Sound.refl s
  iterate 40 all_goals try first
    | with_reducible first | assumption | apply recordStep_sound
    | split | dsimp only | with_reducible refine Sound.upd ?_ rfl rfl

theorem execEventRingWrite_sound (error : Bool) (s : State) :
    ∃ t, execEventRingWrite error s = .next t ∧ Sound s t :=
  ⟨_, rfl, ringWriteStep_sound error s (Sound.refl s)⟩

end Sys2Proof.Machine
end

