-- ==== Sys2Proof/Laws/KeepsEngine.lean ====
section
/-! SUPPORT. What the engines leave alone: `X_keeps` says that `X` goes on from a state with the memories, the BAR2
window and the queue untouched; `X_sound`, of what writes memory, that it keeps the invariant and the queue. -/

set_option Elab.async false
set_option linter.all false

namespace Sys2Proof.Machine

open Sys2Proof

theorem State.control_sound {u : State} (s : State) (c : CoachId) (e : Engine) (hold : Nat) (f : State → State)
    (hf : ∀ v, Sound u v → Sound u (f v)) (hk : Sound u s) :
    Sound u (s.control c e hold f) := by
  unfold State.control
  iterate 40 all_goals try first
    | with_reducible first | assumption | apply hf
                            | refine Sound.thru (by apply State.onCoach_keeps; exact Keeps.refl _) ?_
                            | apply State.issueWith_sound | intro _
    | split | dsimp only | with_reducible refine Sound.upd ?_ rfl rfl

theorem signalStep_sound {u : State} (c : CoachId) (e : Engine) (f : SignalF) (s : State) (hk : Sound u s) :
    Sound u (signalStep c e f s) := by
  unfold signalStep
  iterate 40 all_goals try first
    | with_reducible first | assumption | refine Sound.thru (by apply State.freed_keeps; exact Keeps.refl _) ?_
                            | refine Sound.thru (by apply State.deliver_keeps; exact Keeps.refl _) ?_
                            | apply State.control_sound | intro _
    | split | dsimp only | with_reducible refine Sound.upd ?_ rfl rfl

theorem waitStep_sound {u : State} (c : CoachId) (e : Engine) (door : BitVec 8) (count : BitVec 16) (hold : BitVec 12)
    (s : State) (hk : Sound u s) :
    Sound u (waitStep c e door count hold s) := by
  unfold waitStep
  iterate 40 all_goals try first
    | with_reducible first | assumption | refine Sound.thru (by apply State.onCoach_keeps; exact Keeps.refl _) ?_
                            | apply State.issueWith_sound | intro _
    | split | dsimp only | with_reducible refine Sound.upd ?_ rfl rfl

theorem shutterStep_sound {u : State} (c : CoachId) (e : Engine) (sid : BitVec 4) (hold : BitVec 12) (s : State)
    (hk : Sound u s) :
    Sound u (shutterStep c e sid hold s) := by
  unfold shutterStep
  iterate 40 all_goals try first
    | with_reducible first | assumption | refine Sound.thru (by apply State.setCoach_keeps; exact Keeps.refl _) ?_
                            | apply State.issueWith_sound | apply State.arrive_sound | intro _
    | split | dsimp only | with_reducible refine Sound.upd ?_ rfl rfl

theorem loopStep_sound {u : State} (c : CoachId) (e : Engine) (count : BitVec 24) (body : BitVec 13)
    (hold : BitVec 12) (s : State) (hk : Sound u s) :
    Sound u (loopStep c e count body hold s) := by
  unfold loopStep
  iterate 40 all_goals try first
    | with_reducible first | assumption | refine Sound.thru (by apply State.onCoach_keeps; exact Keeps.refl _) ?_
                            | refine Sound.thru (by apply State.freed_keeps; exact Keeps.refl _) ?_
                            | apply State.issueWith_sound | intro _
    | split | dsimp only | with_reducible refine Sound.upd ?_ rfl rfl

theorem endStep_sound {u : State} (c : CoachId) (e : Engine) (s : State) (hk : Sound u s) :
    Sound u (endStep c e s) := by
  unfold endStep
  iterate 40 all_goals try first
    | with_reducible first | assumption | refine Sound.thru (by apply State.onCoach_keeps; exact Keeps.refl _) ?_
                            | apply State.issueWith_sound | intro _
    | split | dsimp only | with_reducible refine Sound.upd ?_ rfl rfl

theorem bankpwrStep_sound {u : State} (c : CoachId) (e : Engine) (up : Bool) (mask : BitVec 32) (hold : BitVec 12)
    (s : State) (hk : Sound u s) :
    Sound u (bankpwrStep c e up mask hold s) := by
  unfold bankpwrStep
  iterate 40 all_goals try first
    | with_reducible first | assumption | apply Sound.foldl
                            | refine Sound.thru (by apply State.onCoach_keeps; exact Keeps.refl _) ?_
                            | apply State.control_sound | intro _
    | split | dsimp only | with_reducible refine Sound.upd ?_ rfl rfl

theorem strideStep_sound {u : State} (c : CoachId) (e : Engine) (value : BitVec 16) (depth : BitVec 2)
    (pos : BitVec 3) (hold : BitVec 12) (s : State) (hk : Sound u s) :
    Sound u (strideStep c e value depth pos hold s) := by
  unfold strideStep
  iterate 40 all_goals try first
    | with_reducible first | assumption | refine Sound.thru (by apply State.onCoach_keeps; exact Keeps.refl _) ?_
                            | apply State.control_sound | intro _
    | split | dsimp only | with_reducible refine Sound.upd ?_ rfl rfl

theorem setStep_sound {u : State} (c : CoachId) (e : Engine) (payload : BitVec 96) (word : BitVec 2)
    (hold : BitVec 12) (s : State) (hk : Sound u s) :
    Sound u (setStep c e payload word hold s) := by
  unfold setStep
  iterate 40 all_goals try first
    | with_reducible first | assumption | refine Sound.thru (by apply State.onCoach_keeps; exact Keeps.refl _) ?_
                            | refine Sound.thru (by apply State.freed_keeps; exact Keeps.refl _) ?_
                            | apply State.control_sound | intro _
    | split | dsimp only | with_reducible refine Sound.upd ?_ rfl rfl

theorem State.undefHeader_keeps {u : State} (s : State) (c : CoachId) (e : Engine) (slot due : Nat) (hk : Keeps u s) :
    Keeps u (s.undefHeader c e slot due) := by
  unfold State.undefHeader
  iterate 40 all_goals try first
    | with_reducible first | assumption | apply State.onCoach_keeps | apply State.freed_keeps
    | split | dsimp only | with_reducible refine Keeps.upd ?_ rfl rfl

theorem acctStep_sound {u : State} (c : CoachId) (e : Engine) (f : AcctF) (s : State) (hk : Sound u s) :
    Sound u (acctStep c e f s) := by
  unfold acctStep
  iterate 40 all_goals try first
    | with_reducible first | assumption | refine Sound.thru (by apply State.dataPath_keeps; exact Keeps.refl _) ?_
                            | apply State.issueWith_sound
                            | refine Sound.thru (by apply State.undefHeader_keeps; exact Keeps.refl _) ?_ | intro _
    | split | dsimp only | with_reducible refine Sound.upd ?_ rfl rfl

theorem dbuStep_sound {u : State} (op : DbuOp) (c : CoachId) (f : DbuF) (s : State) (hk : Sound u s) :
    Sound u (dbuStep op c f s) := by
  unfold dbuStep
  iterate 40 all_goals try first
    | with_reducible first | assumption | refine Sound.thru (by apply State.dataPath_keeps; exact Keeps.refl _) ?_
                            | apply State.issueWith_sound | intro _
    | split | dsimp only | with_reducible refine Sound.upd ?_ rfl rfl

theorem ksaStep_sound {u : State} (kew : Bool) (c : CoachId) (f : KsaF) (s : State) (hk : Sound u s) :
    Sound u (ksaStep kew c f s) := by
  unfold ksaStep
  iterate 40 all_goals try first
    | with_reducible first | assumption | refine Sound.thru (by apply State.dataPath_keeps; exact Keeps.refl _) ?_
                            | apply State.issueWith_sound
                            | refine Sound.thru (by apply State.undefHeader_keeps; exact Keeps.refl _) ?_ | intro _
    | split | dsimp only | with_reducible refine Sound.upd ?_ rfl rfl

theorem ktabStep_sound {u : State} (c : CoachId) (src : BitVec 16) (com : Common) (s : State) (hk : Sound u s) :
    Sound u (ktabStep c src com s) := by
  unfold ktabStep
  iterate 40 all_goals try first
    | with_reducible first | assumption | refine Sound.thru (by apply State.dataPath_keeps; exact Keeps.refl _) ?_
                            | apply State.issueWith_sound | intro _
    | split | dsimp only | with_reducible refine Sound.upd ?_ rfl rfl

theorem nteStep_sound {u : State} (op : NteOp) (c : CoachId) (f : NteF) (s : State) (hk : Sound u s) :
    Sound u (nteStep op c f s) := by
  unfold nteStep
  iterate 40 all_goals try first
    | with_reducible first | assumption | refine Sound.thru (by apply State.dataPath_keeps; exact Keeps.refl _) ?_
                            | apply State.issueWith_sound | intro _
    | split | dsimp only | with_reducible refine Sound.upd ?_ rfl rfl

theorem autoStep_sound {u : State} (c : CoachId) (f : AutoF) (s : State) (hk : Sound u s) :
    Sound u (autoStep c f s) := by
  unfold autoStep
  iterate 40 all_goals try first
    | with_reducible first | assumption | refine Sound.thru (by apply State.dataPath_keeps; exact Keeps.refl _) ?_
                            | apply State.issueWith_sound | intro _
    | split | dsimp only | with_reducible refine Sound.upd ?_ rfl rfl

theorem rotStep_sound {u : State} (c : CoachId) (f : RotF) (s : State) (hk : Sound u s) : Sound u (rotStep c f s) := by
  unfold rotStep
  iterate 40 all_goals try first
    | with_reducible first | assumption | refine Sound.thru (by apply State.dataPath_keeps; exact Keeps.refl _) ?_
                            | apply State.issueWith_sound | intro _
    | split | dsimp only | with_reducible refine Sound.upd ?_ rfl rfl

theorem transStep_sound {u : State} (c : CoachId) (f : TransF) (s : State) (hk : Sound u s) :
    Sound u (transStep c f s) := by
  unfold transStep
  iterate 40 all_goals try first
    | with_reducible first | assumption | refine Sound.thru (by apply State.dataPath_keeps; exact Keeps.refl _) ?_
                            | apply State.issueWith_sound | intro _
    | split | dsimp only | with_reducible refine Sound.upd ?_ rfl rfl

theorem mrotStep_sound {u : State} (c : CoachId) (f : MrotF) (s : State) (hk : Sound u s) :
    Sound u (mrotStep c f s) := by
  unfold mrotStep
  iterate 40 all_goals try first
    | with_reducible first | assumption | refine Sound.thru (by apply State.dataPath_keeps; exact Keeps.refl _) ?_
                            | apply State.issueWith_sound | intro _
    | split | dsimp only | with_reducible refine Sound.upd ?_ rfl rfl

theorem gsxStep_sound {u : State} (c : CoachId) (desc : BitVec 10) (com : Common) (s : State) (hk : Sound u s) :
    Sound u (gsxStep c desc com s) := by
  unfold gsxStep
  iterate 40 all_goals try first
    | with_reducible first | assumption | refine Sound.thru (by apply State.dataPath_keeps; exact Keeps.refl _) ?_
                            | apply State.issueWith_sound | intro _
    | split | dsimp only | with_reducible refine Sound.upd ?_ rfl rfl

theorem vecStep_sound {u : State} (op : VecOp) (c : CoachId) (f : VecF) (s : State) (hk : Sound u s) :
    Sound u (vecStep op c f s) := by
  unfold vecStep
  iterate 40 all_goals try first
    | with_reducible first | assumption | refine Sound.thru (by apply State.dataPath_keeps; exact Keeps.refl _) ?_
                            | apply State.issueWith_sound | intro _
    | split | dsimp only | with_reducible refine Sound.upd ?_ rfl rfl

theorem execSignal_sound (c : CoachId) (e : Engine) (f : SignalF) (s : State) :
    ∃ t, execSignal c e f s = .next t ∧ Sound s t :=
  ⟨_, rfl, signalStep_sound c e f s (Sound.refl s)⟩

theorem execWait_sound (c : CoachId) (e : Engine) (door : BitVec 8) (count : BitVec 16) (hold : BitVec 12) (s : State) :
    ∃ t, execWait c e door count hold s = .next t ∧ Sound s t :=
  ⟨_, rfl, waitStep_sound c e door count hold s (Sound.refl s)⟩

theorem execShutter_sound (c : CoachId) (e : Engine) (sid : BitVec 4) (hold : BitVec 12) (s : State) :
    ∃ t, execShutter c e sid hold s = .next t ∧ Sound s t :=
  ⟨_, rfl, shutterStep_sound c e sid hold s (Sound.refl s)⟩

theorem execLoop_sound (c : CoachId) (e : Engine) (count : BitVec 24) (body : BitVec 13) (hold : BitVec 12) (s : State) :
    ∃ t, execLoop c e count body hold s = .next t ∧ Sound s t :=
  ⟨_, rfl, loopStep_sound c e count body hold s (Sound.refl s)⟩

theorem execIdle_sound (c : CoachId) (e : Engine) (long : BitVec 24) (s : State) :
    ∃ t, execIdle c e long s = .next t ∧ Sound s t := by
  exact ⟨_, rfl, State.control_sound s c e long.toNat id (fun _ h => h) (Sound.refl s)⟩

theorem execEndPart_sound (c : CoachId) (e : Engine) (s : State) : ∃ t, execEndPart c e s = .next t ∧ Sound s t :=
  ⟨_, rfl, endStep_sound c e s (Sound.refl s)⟩

theorem execBankpwr_sound (c : CoachId) (e : Engine) (up : Bool) (mask : BitVec 32) (hold : BitVec 12) (s : State) :
    ∃ t, execBankpwr c e up mask hold s = .next t ∧ Sound s t :=
  ⟨_, rfl, bankpwrStep_sound c e up mask hold s (Sound.refl s)⟩

theorem execStride_sound (c : CoachId) (e : Engine) (value : BitVec 16) (depth : BitVec 2) (pos : BitVec 3) (hold : BitVec 12) (s : State) :
    ∃ t, execStride c e value depth pos hold s = .next t ∧ Sound s t :=
  ⟨_, rfl, strideStep_sound c e value depth pos hold s (Sound.refl s)⟩

theorem execSetWord_sound (c : CoachId) (e : Engine) (payload : BitVec 96) (word : BitVec 2) (hold : BitVec 12) (s : State) :
    ∃ t, execSetWord c e payload word hold s = .next t ∧ Sound s t :=
  ⟨_, rfl, setStep_sound c e payload word hold s (Sound.refl s)⟩

theorem execAcct_sound (c : CoachId) (e : Engine) (f : AcctF) (s : State) :
    ∃ t, execAcct c e f s = .next t ∧ Sound s t :=
  ⟨_, rfl, acctStep_sound c e f s (Sound.refl s)⟩

theorem execDecg_sound (c : CoachId) (f : DbuF) (s : State) : ∃ t, execDecg c f s = .next t ∧ Sound s t := by
  refine ⟨_, rfl, ?_⟩
  have hk := Sound.refl s
  iterate 40 all_goals try first
    | with_reducible first | assumption | apply dbuStep_sound
    | split | dsimp only | with_reducible refine Sound.upd ?_ rfl rfl

theorem execDeck_sound (c : CoachId) (f : DbuF) (s : State) : ∃ t, execDeck c f s = .next t ∧ Sound s t := by
  refine ⟨_, rfl, ?_⟩
  have hk := Sound.refl s
  iterate 40 all_goals try first
    | with_reducible first | assumption | apply dbuStep_sound
    | split | dsimp only | with_reducible refine Sound.upd ?_ rfl rfl

theorem execPresc_sound (c : CoachId) (f : DbuF) (s : State) : ∃ t, execPresc c f s = .next t ∧ Sound s t := by
  refine ⟨_, rfl, ?_⟩
  have hk := Sound.refl s
  iterate 40 all_goals try first
    | with_reducible first | assumption | apply dbuStep_sound
    | split | dsimp only | with_reducible refine Sound.upd ?_ rfl rfl

theorem execBext_sound (c : CoachId) (f : DbuF) (s : State) : ∃ t, execBext c f s = .next t ∧ Sound s t := by
  refine ⟨_, rfl, ?_⟩
  have hk := Sound.refl s
  iterate 40 all_goals try first
    | with_reducible first | assumption | apply dbuStep_sound
    | split | dsimp only | with_reducible refine Sound.upd ?_ rfl rfl

theorem execBdrop_sound (c : CoachId) (f : DbuF) (s : State) : ∃ t, execBdrop c f s = .next t ∧ Sound s t := by
  refine ⟨_, rfl, ?_⟩
  have hk := Sound.refl s
  iterate 40 all_goals try first
    | with_reducible first | assumption | apply dbuStep_sound
    | split | dsimp only | with_reducible refine Sound.upd ?_ rfl rfl

theorem execMswb_sound (c : CoachId) (f : DbuF) (s : State) : ∃ t, execMswb c f s = .next t ∧ Sound s t := by
  refine ⟨_, rfl, ?_⟩
  have hk := Sound.refl s
  iterate 40 all_goals try first
    | with_reducible first | assumption | apply dbuStep_sound
    | split | dsimp only | with_reducible refine Sound.upd ?_ rfl rfl

theorem execExtr_sound (c : CoachId) (f : DbuF) (s : State) : ∃ t, execExtr c f s = .next t ∧ Sound s t := by
  refine ⟨_, rfl, ?_⟩
  have hk := Sound.refl s
  iterate 40 all_goals try first
    | with_reducible first | assumption | apply dbuStep_sound
    | split | dsimp only | with_reducible refine Sound.upd ?_ rfl rfl

theorem execRaise_sound (c : CoachId) (f : DbuF) (s : State) : ∃ t, execRaise c f s = .next t ∧ Sound s t := by
  refine ⟨_, rfl, ?_⟩
  have hk := Sound.refl s
  iterate 40 all_goals try first
    | with_reducible first | assumption | refine Sound.thru (by apply State.raise_keeps; exact Keeps.refl _) ?_
                            | apply dbuStep_sound
    | split | dsimp only | with_reducible refine Sound.upd ?_ rfl rfl

theorem execLower_sound (c : CoachId) (f : DbuF) (s : State) : ∃ t, execLower c f s = .next t ∧ Sound s t := by
  refine ⟨_, rfl, ?_⟩
  have hk := Sound.refl s
  iterate 40 all_goals try first
    | with_reducible first | assumption | apply dbuStep_sound
    | split | dsimp only | with_reducible refine Sound.upd ?_ rfl rfl

theorem execKmm_sound (c : CoachId) (f : KsaF) (s : State) : ∃ t, execKmm c f s = .next t ∧ Sound s t :=
  ⟨_, rfl, ksaStep_sound false c f s (Sound.refl s)⟩

theorem execKew_sound (c : CoachId) (f : KsaF) (s : State) : ∃ t, execKew c f s = .next t ∧ Sound s t :=
  ⟨_, rfl, ksaStep_sound true c f s (Sound.refl s)⟩

theorem execKtab_sound (c : CoachId) (src : BitVec 16) (com : Common) (s : State) :
    ∃ t, execKtab c src com s = .next t ∧ Sound s t :=
  ⟨_, rfl, ktabStep_sound c src com s (Sound.refl s)⟩

theorem execFwd_sound (c : CoachId) (f : NteF) (s : State) : ∃ t, execFwd c f s = .next t ∧ Sound s t := by
  refine ⟨_, rfl, ?_⟩
  have hk := Sound.refl s
  iterate 40 all_goals try first
    | with_reducible first | assumption | apply nteStep_sound
    | split | dsimp only | with_reducible refine Sound.upd ?_ rfl rfl

theorem execInv_sound (c : CoachId) (f : NteF) (s : State) : ∃ t, execInv c f s = .next t ∧ Sound s t := by
  refine ⟨_, rfl, ?_⟩
  have hk := Sound.refl s
  iterate 40 all_goals try first
    | with_reducible first | assumption | apply nteStep_sound
    | split | dsimp only | with_reducible refine Sound.upd ?_ rfl rfl

theorem execFcol_sound (c : CoachId) (f : NteF) (s : State) : ∃ t, execFcol c f s = .next t ∧ Sound s t := by
  refine ⟨_, rfl, ?_⟩
  have hk := Sound.refl s
  iterate 40 all_goals try first
    | with_reducible first | assumption | apply nteStep_sound
    | split | dsimp only | with_reducible refine Sound.upd ?_ rfl rfl

theorem execFrow_sound (c : CoachId) (f : NteF) (s : State) : ∃ t, execFrow c f s = .next t ∧ Sound s t := by
  refine ⟨_, rfl, ?_⟩
  have hk := Sound.refl s
  iterate 40 all_goals try first
    | with_reducible first | assumption | apply nteStep_sound
    | split | dsimp only | with_reducible refine Sound.upd ?_ rfl rfl

theorem execIrow_sound (c : CoachId) (f : NteF) (s : State) : ∃ t, execIrow c f s = .next t ∧ Sound s t := by
  refine ⟨_, rfl, ?_⟩
  have hk := Sound.refl s
  iterate 40 all_goals try first
    | with_reducible first | assumption | apply nteStep_sound
    | split | dsimp only | with_reducible refine Sound.upd ?_ rfl rfl

theorem execIcol_sound (c : CoachId) (f : NteF) (s : State) : ∃ t, execIcol c f s = .next t ∧ Sound s t := by
  refine ⟨_, rfl, ?_⟩
  have hk := Sound.refl s
  iterate 40 all_goals try first
    | with_reducible first | assumption | apply nteStep_sound
    | split | dsimp only | with_reducible refine Sound.upd ?_ rfl rfl

theorem execAuto_sound (c : CoachId) (f : AutoF) (s : State) : ∃ t, execAuto c f s = .next t ∧ Sound s t :=
  ⟨_, rfl, autoStep_sound c f s (Sound.refl s)⟩

theorem execRot_sound (c : CoachId) (f : RotF) (s : State) : ∃ t, execRot c f s = .next t ∧ Sound s t :=
  ⟨_, rfl, rotStep_sound c f s (Sound.refl s)⟩

theorem execTrans_sound (c : CoachId) (f : TransF) (s : State) : ∃ t, execTrans c f s = .next t ∧ Sound s t :=
  ⟨_, rfl, transStep_sound c f s (Sound.refl s)⟩

theorem execMrot_sound (c : CoachId) (f : MrotF) (s : State) : ∃ t, execMrot c f s = .next t ∧ Sound s t :=
  ⟨_, rfl, mrotStep_sound c f s (Sound.refl s)⟩

theorem execGsx_sound (c : CoachId) (desc : BitVec 10) (com : Common) (s : State) :
    ∃ t, execGsx c desc com s = .next t ∧ Sound s t :=
  ⟨_, rfl, gsxStep_sound c desc com s (Sound.refl s)⟩

theorem execAdd_sound (c : CoachId) (f : VecF) (s : State) : ∃ t, execAdd c f s = .next t ∧ Sound s t := by
  refine ⟨_, rfl, ?_⟩
  have hk := Sound.refl s
  iterate 40 all_goals try first
    | with_reducible first | assumption | apply vecStep_sound
    | split | dsimp only | with_reducible refine Sound.upd ?_ rfl rfl

theorem execSub_sound (c : CoachId) (f : VecF) (s : State) : ∃ t, execSub c f s = .next t ∧ Sound s t := by
  refine ⟨_, rfl, ?_⟩
  have hk := Sound.refl s
  iterate 40 all_goals try first
    | with_reducible first | assumption | apply vecStep_sound
    | split | dsimp only | with_reducible refine Sound.upd ?_ rfl rfl

theorem execMul_sound (c : CoachId) (f : VecF) (s : State) : ∃ t, execMul c f s = .next t ∧ Sound s t := by
  refine ⟨_, rfl, ?_⟩
  have hk := Sound.refl s
  iterate 40 all_goals try first
    | with_reducible first | assumption | apply vecStep_sound
    | split | dsimp only | with_reducible refine Sound.upd ?_ rfl rfl

theorem execFma_sound (c : CoachId) (f : VecF) (s : State) : ∃ t, execFma c f s = .next t ∧ Sound s t := by
  refine ⟨_, rfl, ?_⟩
  have hk := Sound.refl s
  iterate 40 all_goals try first
    | with_reducible first | assumption | apply vecStep_sound
    | split | dsimp only | with_reducible refine Sound.upd ?_ rfl rfl

theorem execMinOp_sound (c : CoachId) (f : VecF) (s : State) : ∃ t, execMinOp c f s = .next t ∧ Sound s t := by
  refine ⟨_, rfl, ?_⟩
  have hk := Sound.refl s
  iterate 40 all_goals try first
    | with_reducible first | assumption | apply vecStep_sound
    | split | dsimp only | with_reducible refine Sound.upd ?_ rfl rfl

theorem execMaxOp_sound (c : CoachId) (f : VecF) (s : State) : ∃ t, execMaxOp c f s = .next t ∧ Sound s t := by
  refine ⟨_, rfl, ?_⟩
  have hk := Sound.refl s
  iterate 40 all_goals try first
    | with_reducible first | assumption | apply vecStep_sound
    | split | dsimp only | with_reducible refine Sound.upd ?_ rfl rfl

theorem execCmp_sound (c : CoachId) (f : VecF) (s : State) : ∃ t, execCmp c f s = .next t ∧ Sound s t := by
  refine ⟨_, rfl, ?_⟩
  have hk := Sound.refl s
  iterate 40 all_goals try first
    | with_reducible first | assumption | apply vecStep_sound
    | split | dsimp only | with_reducible refine Sound.upd ?_ rfl rfl

theorem execSel_sound (c : CoachId) (f : VecF) (s : State) : ∃ t, execSel c f s = .next t ∧ Sound s t := by
  refine ⟨_, rfl, ?_⟩
  have hk := Sound.refl s
  iterate 40 all_goals try first
    | with_reducible first | assumption | apply vecStep_sound
    | split | dsimp only | with_reducible refine Sound.upd ?_ rfl rfl

theorem execCvt_sound (c : CoachId) (f : VecF) (s : State) : ∃ t, execCvt c f s = .next t ∧ Sound s t := by
  refine ⟨_, rfl, ?_⟩
  have hk := Sound.refl s
  iterate 40 all_goals try first
    | with_reducible first | assumption | apply vecStep_sound
    | split | dsimp only | with_reducible refine Sound.upd ?_ rfl rfl

end Sys2Proof.Machine
end

