-- ==== Sys2Proof/Laws/KeepsDevice.lean ====
section
/-! SUPPORT. What security, resets, boot, power and registers leave alone: `X_keeps` says that `X` goes on from a
state with the memories, the BAR2 window and the queue untouched; `X_sound`, of what writes memory, that it keeps the
invariant and the queue. -/

set_option Elab.async false
set_option linter.all false

namespace Sys2Proof.Machine

open Sys2Proof

theorem State.restrict_keeps {u : State} (s : State) (hk : Keeps u s) : Keeps u s.restrict := by
  exact hk.of_eq rfl rfl rfl rfl

theorem State.secAbort_keeps {u : State} (s : State) (hk : Keeps u s) : Keeps u s.secAbort := by
  unfold State.secAbort
  iterate 40 all_goals try first
    | with_reducible first | assumption | apply State.freed_keeps
    | split | dsimp only | with_reducible refine Keeps.upd ?_ rfl rfl

theorem State.reserveBlock_keeps {u : State} (s : State) (hk : Keeps u s) : Keeps u (s.reserveBlock).2 := by
  unfold State.reserveBlock
  iterate 40 all_goals try first
    | with_reducible first | assumption | apply State.journal_keeps
    | split | dsimp only | with_reducible refine Keeps.upd ?_ rfl rfl

theorem State.newBak_keeps {u : State} (s : State) (op : Nat) (hk : Keeps u s) : Keeps u (s.newBak op).2 := by
  unfold State.newBak
  iterate 40 all_goals try first
    | with_reducible first | assumption | apply State.freed_keeps | apply State.reserveBlock_keeps
    | split | dsimp only | with_reducible refine Keeps.upd ?_ rfl rfl

theorem State.openSession_keeps {u : State} (s : State) (i : SecIn) (hk : Keeps u s) :
    Keeps u (s.openSession i).2 := by
  unfold State.openSession
  iterate 40 all_goals try first
    | with_reducible first | assumption | apply State.freed_keeps
    | split | dsimp only | with_reducible refine Keeps.upd ?_ rfl rfl

theorem State.secRun_keeps {u : State} (s : State) (op session : Nat) (i : SecIn) (hk : Keeps u s) :
    Keeps u (s.secRun op session i).2 := by
  unfold State.secRun
  iterate 40 all_goals try first
    | with_reducible first | assumption | apply State.freed_keeps | apply State.newBak_keeps
                            | apply State.openSession_keeps
    | split | dsimp only | with_reducible refine Keeps.upd ?_ rfl rfl

theorem State.secOutcome_keeps {u : State} (s : State) (op session : Nat) (hk : Keeps u s) :
    Keeps u (s.secOutcome op session).2 := by
  unfold State.secOutcome
  iterate 40 all_goals try first
    | with_reducible first | assumption | apply State.secRun_keeps
    | split | dsimp only | with_reducible refine Keeps.upd ?_ rfl rfl

theorem State.secCommand_keeps {u : State} (s : State) (op session : Nat) (hk : Keeps u s) :
    Keeps u (s.secCommand op session) := by
  unfold State.secCommand
  iterate 40 all_goals try first
    | with_reducible first | assumption | apply State.hit_keeps | apply State.secOutcome_keeps
    | split | dsimp only | with_reducible refine Keeps.upd ?_ rfl rfl

theorem State.faultTask_keeps {u : State} (s : State) (t : Task) (hk : Keeps u s) : Keeps u (s.faultTask t) := by
  unfold State.faultTask
  iterate 40 all_goals try first
    | with_reducible first | assumption | apply State.onTask_keeps | apply State.sendAborts_keeps
                            | apply State.holdAbort_keeps | apply State.removeTask_keeps
    | split | dsimp only | with_reducible refine Keeps.upd ?_ rfl rfl

theorem State.faultTasks_keeps {u : State} (s : State) (hk : Keeps u s) : Keeps u s.faultTasks := by
  unfold State.faultTasks
  iterate 40 all_goals try first
    | with_reducible first | assumption | apply Keeps.foldl | apply State.faultTask_keeps | intro _
    | split | dsimp only | with_reducible refine Keeps.upd ?_ rfl rfl

theorem State.resetRings_sound {u : State} (s : State) (ready : Bool) (hk : Sound u s) :
    Sound u (s.resetRings ready) := by
  have k := (Keeps.refl s).trans (State.secAbort_keeps _ (State.mapCoaches_keeps s (fun _ co => { co with loadBusy := false })
    (Keeps.refl s)))
  exact hk.trans ⟨k.4, fun i => ⟨k.sound.2 i |>.1, k.sound.2 i |>.2, (by decide : (0 : BitVec 10).toNat ≤ 928)⟩⟩

theorem State.functionReset_sound {u : State} (s : State) (hk : Sound u s) : Sound u s.functionReset := by
  unfold State.functionReset
  iterate 40 all_goals try first
    | with_reducible first | assumption | refine Sound.thru (by apply State.faultTasks_keeps; exact Keeps.refl _) ?_
                            | apply State.resetRings_sound
    | split | dsimp only | with_reducible refine Sound.upd ?_ rfl rfl

theorem State.coldReset_sound {u : State} (s : State) (hk : Sound u s) : Sound u s.coldReset := by
  exact hk.trans ⟨rfl, fun i => ⟨i.1, rfl, (by decide : (0 : BitVec 10).toNat ≤ 928)⟩⟩

theorem State.bootScan_keeps {u : State} (s : State) (hk : Keeps u s) : Keeps u s.bootScan := by
  unfold State.bootScan
  iterate 40 all_goals try first
    | with_reducible first | assumption | apply State.freed_keeps | apply State.journal_keeps
    | split | dsimp only | with_reducible refine Keeps.upd ?_ rfl rfl

theorem State.createIdentity_keeps {u : State} (s : State) (generation : Nat) (hk : Keeps u s) :
    Keeps u (s.createIdentity generation) := by
  unfold State.createIdentity
  iterate 40 all_goals try first
    | with_reducible first | assumption | apply State.freed_keeps | apply State.journal_keeps
    | split | dsimp only | with_reducible refine Keeps.upd ?_ rfl rfl

theorem State.bootIdentity_keeps {u : State} (s : State) (hk : Keeps u s) : Keeps u s.bootIdentity := by
  unfold State.bootIdentity
  iterate 40 all_goals try first
    | with_reducible first | assumption | apply State.createIdentity_keeps
    | split | dsimp only | with_reducible refine Keeps.upd ?_ rfl rfl

theorem State.bootPolicy_keeps {u : State} (s : State) (hk : Keeps u s) : Keeps u s.bootPolicy := by
  unfold State.bootPolicy
  iterate 40 all_goals try first
    | with_reducible first | assumption | apply Keeps.foldl | apply Keeps.foldl_snd | apply Keeps.foldl_fst
                            | apply State.journal_keeps | intro _
    | split | dsimp only | with_reducible refine Keeps.upd ?_ rfl rfl

theorem State.repairFrom_keeps {u : State} (s : State) (r : JRec) (hk : Keeps u s) : Keeps u (s.repairFrom r) := by
  unfold State.repairFrom
  iterate 40 all_goals try first
    | with_reducible first | assumption | apply State.onCoach_keeps
    | split | dsimp only | with_reducible refine Keeps.upd ?_ rfl rfl

theorem State.stackFrom_keeps {u : State} (s : State) (r : JRec) (hk : Keeps u s) : Keeps u (s.stackFrom r) := by
  unfold State.stackFrom
  iterate 40 all_goals try first
    | with_reducible first | assumption | apply State.setStk_keeps
    | split | dsimp only | with_reducible refine Keeps.upd ?_ rfl rfl

theorem State.trainStack_keeps {u : State} (s : State) (k : Nat) (hk : Keeps u s) : Keeps u (s.trainStack k) := by
  unfold State.trainStack
  iterate 40 all_goals try first
    | with_reducible first | assumption | apply Keeps.foldl | apply State.setStk_keeps | intro _
    | split | dsimp only | with_reducible refine Keeps.upd ?_ rfl rfl

theorem State.bootFailing_keeps {u : State} (s : State) (k : Nat) (hk : Keeps u s) : Keeps u (s.bootFailing k) := by
  unfold State.bootFailing
  iterate 40 all_goals try first
    | with_reducible first | assumption | apply Keeps.foldl | apply State.startEvac_keeps | intro _
    | split | dsimp only | with_reducible refine Keeps.upd ?_ rfl rfl

theorem State.bootMemory_sound {u : State} (s : State) (hk : Sound u s) : Sound u s.bootMemory := by
  unfold State.bootMemory
  dsimp only
  have fail : ∀ (v : State) (l : List Nat), Sound u v → Sound u (l.foldl State.bootFailing v) :=
    fun v l hv => Sound.foldl (fun w k hw => hw.thru (State.bootFailing_keeps _ _ (Keeps.refl _))) l hv
  refine fail _ _ (hk.trans (Sound.erase ?_ rfl))
  refine State.freed_keeps _ (Keeps.foldl (fun w k hw => State.trainStack_keeps _ _ hw) _ ?_)
  refine Keeps.foldl (fun w r hw => State.stackFrom_keeps _ _ hw) _ ?_
  refine Keeps.foldl (fun w e hw => State.setStk_keeps _ _ _ hw) _ ?_
  exact Keeps.foldl (fun w r hw => State.repairFrom_keeps _ _ hw) _ (Keeps.refl _)

theorem State.bootFabric_keeps {u : State} (s : State) (hk : Keeps u s) : Keeps u s.bootFabric := by
  unfold State.bootFabric
  iterate 40 all_goals try first
    | with_reducible first | assumption | apply Keeps.foldl | apply State.retime_keeps | intro _
    | split | dsimp only | with_reducible refine Keeps.upd ?_ rfl rfl

theorem State.bootRecord_keeps {u : State} (s : State) (fell : BitVec 3) (hk : Keeps u s) :
    Keeps u (s.bootRecord fell) := by
  unfold State.bootRecord
  iterate 40 all_goals try first
    | with_reducible first | assumption | apply State.journal_keeps
    | split | dsimp only | with_reducible refine Keeps.upd ?_ rfl rfl

theorem State.bootFrom_sound {u : State} (s : State) (fw : Taken) (hk : Sound u s) : Sound u (s.bootFrom fw) := by
  unfold State.bootFrom
  iterate 40 all_goals try first
    | with_reducible first | assumption | refine Sound.thru (by apply State.bootScan_keeps; exact Keeps.refl _) ?_
                            | refine Sound.thru (by apply State.bootIdentity_keeps; exact Keeps.refl _) ?_
                            | refine Sound.thru (by apply State.bootPolicy_keeps; exact Keeps.refl _) ?_
                            | apply State.bootMemory_sound
                            | refine Sound.thru (by apply State.bootFabric_keeps; exact Keeps.refl _) ?_
                            | refine Sound.thru (by apply State.bootRecord_keeps; exact Keeps.refl _) ?_
    | split | dsimp only | with_reducible refine Sound.upd ?_ rfl rfl

theorem State.bootLog_keeps {u : State} (s : State) (hk : Keeps u s) : Keeps u s.bootLog := by
  unfold State.bootLog
  iterate 40 all_goals try first
    | with_reducible first | assumption | apply State.freed_keeps
    | split | dsimp only | with_reducible refine Keeps.upd ?_ rfl rfl

theorem State.bootSequence_sound {u : State} (s : State) (hk : Sound u s) : Sound u s.bootSequence := by
  unfold State.bootSequence
  iterate 40 all_goals try first
    | with_reducible first | assumption | apply State.bootFrom_sound
                            | refine Sound.thru (by apply State.bootLog_keeps; exact Keeps.refl _) ?_
    | split | dsimp only | with_reducible refine Sound.upd ?_ rfl rfl

theorem State.startUpdate_keeps {u : State} (s : State) (kind : BitVec 2) (hk : Keeps u s) :
    Keeps u (s.startUpdate kind) := by
  unfold State.startUpdate
  iterate 40 all_goals try first
    | with_reducible first | assumption | apply State.readOpen_keeps
    | split | dsimp only | with_reducible refine Keeps.upd ?_ rfl rfl

theorem State.refuseUpdate_keeps {u : State} (s : State) (r : UpdResult) (hk : Keeps u s) :
    Keeps u (s.refuseUpdate r) := by
  exact hk.of_eq rfl rfl rfl rfl

theorem bootUpdateStep_keeps {u : State} (kind : BitVec 2) (s : State) (hk : Keeps u s) :
    Keeps u (bootUpdateStep kind s) := by
  unfold bootUpdateStep
  iterate 40 all_goals try first
    | with_reducible first | assumption | apply State.startUpdate_keeps | apply State.refuseUpdate_keeps
    | split | dsimp only | with_reducible refine Keeps.upd ?_ rfl rfl

theorem State.openSeal_keeps {u : State} (s : State) (hk : Keeps u s) : Keeps u s.openSeal := by
  unfold State.openSeal
  iterate 40 all_goals try first
    | with_reducible first | assumption | apply State.hit_keeps | apply State.raise_keeps | apply State.journal_keeps
                            | apply State.restrict_keeps
    | split | dsimp only | with_reducible refine Keeps.upd ?_ rfl rfl

theorem State.startRails_keeps {u : State} (s : State) (hk : Keeps u s) : Keeps u s.startRails := by
  unfold State.startRails
  iterate 40 all_goals try first
    | with_reducible first | assumption
    | split | dsimp only | with_reducible refine Keeps.upd ?_ rfl rfl

theorem State.powerOff_sound {u : State} (s : State) (hk : Sound u s) : Sound u s.powerOff := by
  unfold State.powerOff
  iterate 40 all_goals try first
    | with_reducible first | assumption | apply State.coldReset_sound
    | split | dsimp only | with_reducible refine Sound.upd ?_ rfl rfl

theorem State.heldInReset_keeps {u : State} (s : State) (programmed : List (Nat × Byte)) (hk : Keeps u s) :
    Keeps u (s.heldInReset programmed) := by
  unfold State.heldInReset
  iterate 40 all_goals try first
    | with_reducible first | assumption | apply Keeps.foldl | apply Keeps.foldl_snd | apply Keeps.foldl_fst | intro _
    | split | dsimp only | with_reducible refine Keeps.upd ?_ rfl rfl

theorem State.readTemps_keeps {u : State} (s : State) (r : ThermalReading) (hk : Keeps u s) :
    Keeps u (s.readTemps r) := by
  unfold State.readTemps
  iterate 40 all_goals try first
    | with_reducible first | assumption | apply Keeps.foldl | apply State.setStk_keeps | intro _
    | split | dsimp only | with_reducible refine Keeps.upd ?_ rfl rfl

theorem State.throttleBy_keeps {u : State} (s : State) (r : ThermalReading) (hk : Keeps u s) :
    Keeps u (s.throttleBy r) := by
  unfold State.throttleBy
  iterate 40 all_goals try first
    | with_reducible first | assumption | apply State.hit_keeps
    | split | dsimp only | with_reducible refine Keeps.upd ?_ rfl rfl

theorem State.shutDown_sound {u : State} (s : State) (hk : Sound u s) : Sound u s.shutDown := by
  unfold State.shutDown
  iterate 40 all_goals try first
    | with_reducible first | assumption | apply State.powerOff_sound
    | split | dsimp only | with_reducible refine Sound.upd ?_ rfl rfl

theorem thermalStep_sound {u : State} (r : ThermalReading) (s : State) (hk : Sound u s) :
    Sound u (thermalStep r s) := by
  unfold thermalStep
  iterate 40 all_goals try first
    | with_reducible first | assumption | refine Sound.thru (by apply State.readTemps_keeps; exact Keeps.refl _) ?_
                            | refine Sound.thru (by apply State.throttleBy_keeps; exact Keeps.refl _) ?_
                            | apply State.shutDown_sound
    | split | dsimp only | with_reducible refine Sound.upd ?_ rfl rfl

theorem State.smbus_keeps {u : State} (s : State) (bs : List Byte) (hk : Keeps u s) : Keeps u (s.smbus bs) := by
  unfold State.smbus
  iterate 40 all_goals try first
    | with_reducible first | assumption
    | split | dsimp only | with_reducible refine Keeps.upd ?_ rfl rfl

theorem State.jtag_keeps {u : State} (s : State) (i : Jtag) (out : BitVec 32) (hk : Keeps u s) :
    Keeps u (s.jtag i out) := by
  exact hk.of_eq rfl rfl rfl rfl

theorem State.scan_keeps {u : State} (s : State) (i : Jtag) (hk : Keeps u s) : Keeps u (s.scan i) := by
  unfold State.scan
  iterate 40 all_goals try first
    | with_reducible first | assumption | apply State.freed_keeps | apply State.jtag_keeps
    | split | dsimp only | with_reducible refine Keeps.upd ?_ rfl rfl

theorem State.ehlRc_keeps {u : State} (g : RcMap) (s : State) (o : Nat) (hk : Keeps u s) :
    Keeps u (State.ehlRc g s o) := by
  unfold State.ehlRc
  iterate 40 all_goals try first
    | with_reducible first | assumption | apply State.setPort_keeps | apply State.rc_keeps
    | split | dsimp only | with_reducible refine Keeps.upd ?_ rfl rfl

theorem State.rc_keeps {u : State} (g : RcMap) (s : State) (p : RegPlace) (hk : Keeps u s) :
    Keeps u (State.rc g s p) := by
  unfold State.rc
  split
  case h_4 => exact hk.of_eq rfl (by unfold Hbm.rc; split <;> rfl) rfl rfl
  all_goals first
    | exact State.ehlRc_keeps _ _ _ hk
    | exact State.onCoach_keeps _ _ _ hk
    | exact hk.of_eq rfl rfl (by unfold Hif.rc; split <;> rfl) rfl
    | exact hk.of_eq rfl rfl rfl rfl

theorem State.spend_keeps {u : State} (s : State) (p : RegPlace) (hk : Keeps u s) : Keeps u (s.spend p) := by
  unfold State.spend
  iterate 40 all_goals try first
    | with_reducible first | assumption | apply Keeps.foldl | apply State.onCoach_keeps | intro _
    | split | dsimp only | with_reducible refine Keeps.upd ?_ rfl rfl

theorem execSqEnable_sound (i : BitVec 6) (value : BitVec 32) (s : State) :
    ∃ t, execSqEnable i value s = .next t ∧ Sound s t := by
  refine ⟨_, rfl, ?_⟩
  have hk := Sound.refl s
  iterate 40 all_goals try first
    | with_reducible first | assumption | refine Sound.thru (by apply State.hit_keeps; exact Keeps.refl _) ?_
                            | refine Sound.thru (by apply State.setSq_keeps; exact Keeps.refl _) ?_
                            | apply State.control_sound | intro _
    | split | dsimp only | with_reducible refine Sound.upd ?_ rfl rfl

theorem State.writeSq_sound {u : State} (s : State) (i o v : Nat) (hk : Sound u s) : Sound u (s.writeSq i o v) := by
  unfold State.writeSq
  iterate 40 all_goals try first
    | with_reducible first | assumption | refine Sound.thru (by apply State.hit_keeps; exact Keeps.refl _) ?_
                            | refine Sound.thru (by apply State.setSq_keeps; exact Keeps.refl _) ?_
                            | apply State.control_sound | intro _ | apply after_sound | apply execSqEnable_sound
    | split | dsimp only | with_reducible refine Sound.upd ?_ rfl rfl

theorem execCqEnable_sound (i : BitVec 6) (value : BitVec 32) (s : State) :
    ∃ t, execCqEnable i value s = .next t ∧ Sound s t := by
  refine ⟨_, rfl, ?_⟩
  have hk := Sound.refl s
  iterate 40 all_goals try first
    | with_reducible first | assumption | refine Sound.thru (by apply State.hit_keeps; exact Keeps.refl _) ?_
                            | refine Sound.thru (by apply State.setCq_keeps; exact Keeps.refl _) ?_
                            | apply State.control_sound | intro _
    | split | dsimp only | with_reducible refine Sound.upd ?_ rfl rfl

theorem State.writeCq_sound {u : State} (s : State) (i o v : Nat) (hk : Sound u s) : Sound u (s.writeCq i o v) := by
  unfold State.writeCq
  iterate 40 all_goals try first
    | with_reducible first | assumption | refine Sound.thru (by apply State.hit_keeps; exact Keeps.refl _) ?_
                            | refine Sound.thru (by apply State.setCq_keeps; exact Keeps.refl _) ?_
                            | apply State.control_sound | intro _ | apply after_sound | apply execCqEnable_sound
    | split | dsimp only | with_reducible refine Sound.upd ?_ rfl rfl

theorem State.unmask_keeps {u : State} (s : State) (e : Nat) (hk : Keeps u s) : Keeps u (s.unmask e) := by
  unfold State.unmask
  iterate 40 all_goals try first
    | with_reducible first | assumption | apply State.raiseVector_keeps
    | split | dsimp only | with_reducible refine Keeps.upd ?_ rfl rfl

theorem State.writeMsix_keeps {u : State} (s : State) (i v : Nat) (hk : Keeps u s) : Keeps u (s.writeMsix i v) := by
  unfold State.writeMsix
  iterate 40 all_goals try first
    | with_reducible first | assumption | apply State.unmask_keeps
    | split | dsimp only | with_reducible refine Keeps.upd ?_ rfl rfl

theorem execHifBar2BaseWrite_sound (value : BitVec 32) (s : State) :
    ∃ t, execHifBar2BaseWrite value s = .next t ∧ Sound s t := by
  refine ⟨_, rfl, ?_⟩
  split
  · rename_i h; exact ⟨rfl, fun i => ⟨i.1, i.2, h⟩⟩
  · exact Sound.refl s

theorem State.writeHif_sound {u : State} (s : State) (o bits v : Nat) (hk : Sound u s) :
    Sound u (s.writeHif o bits v) := by
  unfold State.writeHif
  iterate 40 all_goals try first
    | with_reducible first | assumption | apply State.writeSq_sound | apply State.writeCq_sound
                            | refine Sound.thru (by apply State.writeMsix_keeps; exact Keeps.refl _) ?_
                            | apply after_sound | apply execHifBar2BaseWrite_sound
    | split | dsimp only | with_reducible refine Sound.upd ?_ rfl rfl

theorem execEventRingEnable_keeps (value : BitVec 32) (s : State) :
    ∃ t, execEventRingEnable value s = .next t ∧ Keeps s t := by
  refine ⟨_, rfl, ?_⟩
  have hk := Keeps.refl s
  iterate 40 all_goals try first
    | with_reducible first | assumption | apply eventControl_keeps
    | split | dsimp only | with_reducible refine Keeps.upd ?_ rfl rfl

theorem State.writeEvt_keeps {u : State} (s : State) (o v : Nat) (hk : Keeps u s) : Keeps u (s.writeEvt o v) := by
  unfold State.writeEvt
  iterate 40 all_goals try first
    | with_reducible first | assumption | apply eventControl_keeps | apply after_keeps
                            | apply execEventRingEnable_keeps
    | split | dsimp only | with_reducible refine Keeps.upd ?_ rfl rfl

theorem execKstSplitWrite_keeps (value : BitVec 32) (s : State) :
    ∃ t, execKstSplitWrite value s = .next t ∧ Keeps s t := by
  refine ⟨_, rfl, ?_⟩
  have hk := Keeps.refl s
  iterate 40 all_goals try first
    | with_reducible first | assumption | apply Keeps.foldl | intro _
    | split | dsimp only | with_reducible refine Keeps.upd ?_ rfl rfl

theorem State.writeKst_keeps {u : State} (s : State) (o v : Nat) (hk : Keeps u s) : Keeps u (s.writeKst o v) := by
  unfold State.writeKst
  iterate 40 all_goals try first
    | with_reducible first | assumption | apply after_keeps | apply execKstSplitWrite_keeps
    | split | dsimp only | with_reducible refine Keeps.upd ?_ rfl rfl

theorem execMemMaintRetrain_keeps (stack : BitVec 3) (ch : BitVec 5) (s : State) :
    ∃ t, execMemMaintRetrain stack ch s = .next t ∧ Keeps s t := by
  refine ⟨_, rfl, ?_⟩
  have hk := Keeps.refl s
  iterate 40 all_goals try first
    | with_reducible first | assumption | apply State.setStk_keeps
    | split | dsimp only | with_reducible refine Keeps.upd ?_ rfl rfl

theorem execMemMaintEvacuate_keeps (stack : BitVec 3) (ch : BitVec 5) (s : State) :
    ∃ t, execMemMaintEvacuate stack ch s = .next t ∧ Keeps s t := by
  refine ⟨_, rfl, ?_⟩
  have hk := Keeps.refl s
  iterate 40 all_goals try first
    | with_reducible first | assumption | apply State.startEvac_keeps
    | split | dsimp only | with_reducible refine Keeps.upd ?_ rfl rfl

theorem State.maint_keeps {u : State} (s : State) (v : Nat) (hk : Keeps u s) : Keeps u (s.maint v) := by
  unfold State.maint
  iterate 40 all_goals try first
    | with_reducible first | assumption | apply State.setStk_keeps | apply State.startEvac_keeps | apply after_keeps
                            | apply execMemMaintRetrain_keeps | apply execMemMaintEvacuate_keeps
    | split | dsimp only | with_reducible refine Keeps.upd ?_ rfl rfl

theorem State.writeMem_keeps {u : State} (s : State) (o v : Nat) (hk : Keeps u s) : Keeps u (s.writeMem o v) := by
  unfold State.writeMem
  iterate 40 all_goals try first
    | with_reducible first | assumption | apply State.maint_keeps
    | split | dsimp only | with_reducible refine Keeps.upd ?_ rfl rfl

theorem execPortDisable_keeps (p : BitVec 4) (disable : Bool) (s : State) :
    ∃ t, execPortDisable p disable s = .next t ∧ Keeps s t := by
  refine ⟨_, rfl, ?_⟩
  have hk := Keeps.refl s
  iterate 40 all_goals try first
    | with_reducible first | assumption | apply State.setPort_keeps | apply State.movePort_keeps
                            | apply State.dropPort_keeps
    | split | dsimp only | with_reducible refine Keeps.upd ?_ rfl rfl

theorem execPortRetrainRequest_keeps (p : BitVec 4) (s : State) :
    ∃ t, execPortRetrainRequest p s = .next t ∧ Keeps s t := by
  refine ⟨_, rfl, ?_⟩
  have hk := Keeps.refl s
  iterate 40 all_goals try first
    | with_reducible first | assumption | apply State.retrainPort_keeps
    | split | dsimp only | with_reducible refine Keeps.upd ?_ rfl rfl

theorem State.portCtrl_keeps {u : State} (s : State) (p v : Nat) (hk : Keeps u s) : Keeps u (s.portCtrl p v) := by
  unfold State.portCtrl
  iterate 40 all_goals try first
    | with_reducible first | assumption | apply State.setPort_keeps | apply State.movePort_keeps
                            | apply State.dropPort_keeps | apply State.retrainPort_keeps | apply after_keeps
                            | apply execPortDisable_keeps | apply execPortRetrainRequest_keeps
    | split | dsimp only | with_reducible refine Keeps.upd ?_ rfl rfl

theorem execRouteRestore_keeps (s : State) : ∃ t, execRouteRestore s = .next t ∧ Keeps s t := by
  refine ⟨_, rfl, ?_⟩
  have hk := Keeps.refl s
  iterate 40 all_goals try first
    | with_reducible first | assumption | apply State.restoreRoutes_keeps
    | split | dsimp only | with_reducible refine Keeps.upd ?_ rfl rfl

theorem State.writeEhl_keeps {u : State} (s : State) (o v : Nat) (hk : Keeps u s) : Keeps u (s.writeEhl o v) := by
  unfold State.writeEhl
  iterate 40 all_goals try first
    | with_reducible first | assumption | apply State.restoreRoutes_keeps | apply State.portCtrl_keeps
                            | apply after_keeps | apply execRouteRestore_keeps
    | split | dsimp only | with_reducible refine Keeps.upd ?_ rfl rfl

theorem execDbgRead_keeps (c : CoachId) (s : State) : ∃ t, execDbgRead c s = .next t ∧ Keeps s t :=
  ⟨_, rfl, debugStep_keeps false c s (Keeps.refl s)⟩

theorem execDbgWrite_keeps (c : CoachId) (s : State) : ∃ t, execDbgWrite c s = .next t ∧ Keeps s t :=
  ⟨_, rfl, debugStep_keeps true c s (Keeps.refl s)⟩

theorem State.dbgCtrl_keeps {u : State} (s : State) (c : CoachId) (v : Nat) (hk : Keeps u s) :
    Keeps u (s.dbgCtrl c v) := by
  unfold State.dbgCtrl
  iterate 40 all_goals try first
    | with_reducible first | assumption | apply State.onCoach_keeps | apply debugStep_keeps | apply after_keeps
                            | apply execDbgRead_keeps | apply execDbgWrite_keeps
    | split | dsimp only | with_reducible refine Keeps.upd ?_ rfl rfl

theorem execGateNow_keeps (c : CoachId) (s : State) : ∃ t, execGateNow c s = .next t ∧ Keeps s t := by
  refine ⟨_, rfl, ?_⟩
  have hk := Keeps.refl s
  iterate 40 all_goals try first
    | with_reducible first | assumption | apply State.onCoach_keeps
    | split | dsimp only | with_reducible refine Keeps.upd ?_ rfl rfl

theorem State.gateCtrl_keeps {u : State} (s : State) (c : CoachId) (v : Nat) (hk : Keeps u s) :
    Keeps u (s.gateCtrl c v) := by
  unfold State.gateCtrl
  iterate 40 all_goals try first
    | with_reducible first | assumption | apply State.onCoach_keeps | apply after_keeps | apply execGateNow_keeps
    | split | dsimp only | with_reducible refine Keeps.upd ?_ rfl rfl

theorem State.writeCoach_keeps {u : State} (s : State) (c : CoachId) (o v : Nat) (hk : Keeps u s) :
    Keeps u (s.writeCoach c o v) := by
  unfold State.writeCoach
  iterate 40 all_goals try first
    | with_reducible first | assumption | apply State.onCoach_keeps | apply State.hit_keeps
                            | apply State.dbgCtrl_keeps | apply State.gateCtrl_keeps
    | split | dsimp only | with_reducible refine Keeps.upd ?_ rfl rfl

theorem execCommit_keeps (s : State) : ∃ t, execCommit s = .next t ∧ Keeps s t := by
  refine ⟨_, rfl, ?_⟩
  have hk := Keeps.refl s
  iterate 40 all_goals try first
    | with_reducible first | assumption | apply Keeps.foldl | apply State.journal_keeps | intro _
    | split | dsimp only | with_reducible refine Keeps.upd ?_ rfl rfl

theorem execDebugEn_keeps (s : State) : ∃ t, execDebugEn s = .next t ∧ Keeps s t := by
  refine ⟨_, rfl, ?_⟩
  have hk := Keeps.refl s
  iterate 40 all_goals try first
    | with_reducible first | assumption | apply State.journal_keeps | apply State.restrict_keeps
                            | apply State.refuseUpdate_keeps
    | split | dsimp only | with_reducible refine Keeps.upd ?_ rfl rfl

theorem State.bootCtrl_keeps {u : State} (s : State) (v : Nat) (hk : Keeps u s) : Keeps u (s.bootCtrl v) := by
  unfold State.bootCtrl
  iterate 40 all_goals try first
    | with_reducible first | assumption | apply State.journal_keeps | apply State.restrict_keeps
                            | apply State.refuseUpdate_keeps | apply after_keeps | apply execCommit_keeps
                            | apply execDebugEn_keeps
    | split | dsimp only | with_reducible refine Keeps.upd ?_ rfl rfl

theorem execBootUpdate_keeps (kind : BitVec 2) (s : State) : ∃ t, execBootUpdate kind s = .next t ∧ Keeps s t :=
  ⟨_, rfl, bootUpdateStep_keeps kind s (Keeps.refl s)⟩

theorem State.writeBoot_keeps {u : State} (s : State) (o v : Nat) (hk : Keeps u s) : Keeps u (s.writeBoot o v) := by
  unfold State.writeBoot
  iterate 40 all_goals try first
    | with_reducible first | assumption | apply bootUpdateStep_keeps | apply State.bootCtrl_keeps | apply after_keeps
                            | apply execBootUpdate_keeps
    | split | dsimp only | with_reducible refine Keeps.upd ?_ rfl rfl

theorem execSecAbort_keeps (s : State) : ∃ t, execSecAbort s = .next t ∧ Keeps s t := by
  refine ⟨_, rfl, ?_⟩
  have hk := Keeps.refl s
  iterate 40 all_goals try first
    | with_reducible first | assumption | apply State.secAbort_keeps
    | split | dsimp only | with_reducible refine Keeps.upd ?_ rfl rfl

theorem State.writeSec_keeps {u : State} (s : State) (o v : Nat) (hk : Keeps u s) : Keeps u (s.writeSec o v) := by
  unfold State.writeSec
  iterate 40 all_goals try first
    | with_reducible first | assumption | apply State.secAbort_keeps | apply State.secCommand_keeps
                            | apply after_keeps | apply execSecAbort_keeps
    | split | dsimp only | with_reducible refine Keeps.upd ?_ rfl rfl

theorem State.writeClk_keeps {u : State} (s : State) (o v : Nat) (hk : Keeps u s) : Keeps u (s.writeClk o v) := by
  unfold State.writeClk
  iterate 40 all_goals try first
    | with_reducible first | assumption
    | split | dsimp only | with_reducible refine Keeps.upd ?_ rfl rfl

theorem State.regWrite_sound {u : State} (s : State) (p : RegPlace) (bits v : Nat) (hk : Sound u s) :
    Sound u (s.regWrite p bits v) := by
  unfold State.regWrite
  iterate 40 all_goals try first
    | with_reducible first | assumption | apply State.writeHif_sound
                            | refine Sound.thru (by apply State.writeEvt_keeps; exact Keeps.refl _) ?_
                            | refine Sound.thru (by apply State.writeKst_keeps; exact Keeps.refl _) ?_
                            | refine Sound.thru (by apply State.writeMem_keeps; exact Keeps.refl _) ?_
                            | refine Sound.thru (by apply State.writeEhl_keeps; exact Keeps.refl _) ?_
                            | refine Sound.thru (by apply State.writeCoach_keeps; exact Keeps.refl _) ?_
                            | refine Sound.thru (by apply State.writeBoot_keeps; exact Keeps.refl _) ?_
                            | refine Sound.thru (by apply State.writeSec_keeps; exact Keeps.refl _) ?_
                            | refine Sound.thru (by apply State.writeClk_keeps; exact Keeps.refl _) ?_
    | split | dsimp only | with_reducible refine Sound.upd ?_ rfl rfl

theorem execIdentityPub_keeps (s : State) : ∃ t, execIdentityPub s = .next t ∧ Keeps s t := by
  refine ⟨_, rfl, ?_⟩
  have hk := Keeps.refl s
  iterate 40 all_goals try first
    | with_reducible first | assumption | apply State.secCommand_keeps
    | split | dsimp only | with_reducible refine Keeps.upd ?_ rfl rfl

theorem execBakCert_keeps (s : State) : ∃ t, execBakCert s = .next t ∧ Keeps s t := by
  refine ⟨_, rfl, ?_⟩
  have hk := Keeps.refl s
  iterate 40 all_goals try first
    | with_reducible first | assumption | apply State.secCommand_keeps
    | split | dsimp only | with_reducible refine Keeps.upd ?_ rfl rfl

theorem execBakRotate_keeps (s : State) : ∃ t, execBakRotate s = .next t ∧ Keeps s t := by
  refine ⟨_, rfl, ?_⟩
  have hk := Keeps.refl s
  iterate 40 all_goals try first
    | with_reducible first | assumption | apply State.secCommand_keeps
    | split | dsimp only | with_reducible refine Keeps.upd ?_ rfl rfl

theorem execQuote_keeps (s : State) : ∃ t, execQuote s = .next t ∧ Keeps s t := by
  refine ⟨_, rfl, ?_⟩
  have hk := Keeps.refl s
  iterate 40 all_goals try first
    | with_reducible first | assumption | apply State.secCommand_keeps
    | split | dsimp only | with_reducible refine Keeps.upd ?_ rfl rfl

theorem execSessionOpen_keeps (s : State) : ∃ t, execSessionOpen s = .next t ∧ Keeps s t := by
  refine ⟨_, rfl, ?_⟩
  have hk := Keeps.refl s
  iterate 40 all_goals try first
    | with_reducible first | assumption | apply State.secCommand_keeps
    | split | dsimp only | with_reducible refine Keeps.upd ?_ rfl rfl

theorem execSessionQuote_keeps (session : BitVec 4) (s : State) :
    ∃ t, execSessionQuote session s = .next t ∧ Keeps s t := by
  refine ⟨_, rfl, ?_⟩
  have hk := Keeps.refl s
  iterate 40 all_goals try first
    | with_reducible first | assumption | apply State.secCommand_keeps
    | split | dsimp only | with_reducible refine Keeps.upd ?_ rfl rfl

theorem execSessionClose_keeps (session : BitVec 4) (s : State) :
    ∃ t, execSessionClose session s = .next t ∧ Keeps s t := by
  refine ⟨_, rfl, ?_⟩
  have hk := Keeps.refl s
  iterate 40 all_goals try first
    | with_reducible first | assumption | apply State.secCommand_keeps
    | split | dsimp only | with_reducible refine Keeps.upd ?_ rfl rfl

theorem execSecDone_keeps (s : State) : ∃ t, execSecDone s = .next t ∧ Keeps s t := by
  refine ⟨_, rfl, ?_⟩
  have hk := Keeps.refl s
  iterate 40 all_goals try first
    | with_reducible first | assumption | apply State.hit_keeps | apply State.raiseVector_keeps
                            | apply State.restrict_keeps
    | split | dsimp only | with_reducible refine Keeps.upd ?_ rfl rfl

theorem execFlr_sound (s : State) : ∃ t, execFlr s = .next t ∧ Sound s t := by
  refine ⟨_, rfl, ?_⟩
  have hk := Sound.refl s
  iterate 40 all_goals try first
    | with_reducible first | assumption | apply State.functionReset_sound
    | split | dsimp only | with_reducible refine Sound.upd ?_ rfl rfl

theorem execHotReset_sound (s : State) : ∃ t, execHotReset s = .next t ∧ Sound s t := by
  refine ⟨_, rfl, ?_⟩
  have hk := Sound.refl s
  iterate 40 all_goals try first
    | with_reducible first | assumption | apply State.functionReset_sound
    | split | dsimp only | with_reducible refine Sound.upd ?_ rfl rfl

theorem execD3hotEntry_sound (s : State) : ∃ t, execD3hotEntry s = .next t ∧ Sound s t := by
  refine ⟨_, rfl, ?_⟩
  have hk := Sound.refl s
  iterate 40 all_goals try first
    | with_reducible first | assumption | refine Sound.thru (by apply State.faultTasks_keeps; exact Keeps.refl _) ?_
                            | apply State.resetRings_sound
    | split | dsimp only | with_reducible refine Sound.upd ?_ rfl rfl

theorem execD3hotExit_keeps (s : State) : ∃ t, execD3hotExit s = .next t ∧ Keeps s t := by
  refine ⟨_, rfl, ?_⟩
  have hk := Keeps.refl s
  iterate 40 all_goals try first
    | with_reducible first | assumption
    | split | dsimp only | with_reducible refine Keeps.upd ?_ rfl rfl

theorem execPcieLinkDown_keeps (s : State) : ∃ t, execPcieLinkDown s = .next t ∧ Keeps s t := by
  refine ⟨_, rfl, ?_⟩
  have hk := Keeps.refl s
  iterate 40 all_goals try first
    | with_reducible first | assumption | apply State.faultTasks_keeps
    | split | dsimp only | with_reducible refine Keeps.upd ?_ rfl rfl

theorem execPcieLinkUp_sound (fullRate : Bool) (s : State) :
    ∃ t, execPcieLinkUp fullRate s = .next t ∧ Sound s t := by
  refine ⟨_, rfl, ?_⟩
  have hk := Sound.refl s
  iterate 40 all_goals try first
    | with_reducible first | assumption | apply State.functionReset_sound
    | split | dsimp only | with_reducible refine Sound.upd ?_ rfl rfl

theorem execConfigurationRequest_keeps (s : State) : ∃ t, execConfigurationRequest s = .next t ∧ Keeps s t := by
  refine ⟨_, rfl, ?_⟩
  have hk := Keeps.refl s
  iterate 40 all_goals try first
    | with_reducible first | assumption
    | split | dsimp only | with_reducible refine Keeps.upd ?_ rfl rfl

theorem execPowerGood_sound (s : State) : ∃ t, execPowerGood s = .next t ∧ Sound s t := by
  refine ⟨_, rfl, ?_⟩
  have hk := Sound.refl s
  iterate 40 all_goals try first
    | with_reducible first | assumption | apply State.coldReset_sound | apply State.bootSequence_sound
    | split | dsimp only | with_reducible refine Sound.upd ?_ rfl rfl

theorem execUpdateDone_keeps (nvmOk : Bool) (s : State) : ∃ t, execUpdateDone nvmOk s = .next t ∧ Keeps s t := by
  refine ⟨_, rfl, ?_⟩
  have hk := Keeps.refl s
  iterate 40 all_goals try first
    | with_reducible first | assumption | apply State.freed_keeps
    | split | dsimp only | with_reducible refine Keeps.upd ?_ rfl rfl

theorem execMaintEnChange_keeps (fitted : Bool) (s : State) :
    ∃ t, execMaintEnChange fitted s = .next t ∧ Keeps s t := by
  refine ⟨_, rfl, ?_⟩
  have hk := Keeps.refl s
  iterate 40 all_goals try first
    | with_reducible first | assumption
    | split | dsimp only | with_reducible refine Keeps.upd ?_ rfl rfl

theorem execSealCheck_keeps (back : Option (BitVec 16)) (s : State) :
    ∃ t, execSealCheck back s = .next t ∧ Keeps s t := by
  refine ⟨_, rfl, ?_⟩
  have hk := Keeps.refl s
  iterate 40 all_goals try first
    | with_reducible first | assumption | apply State.freed_keeps | apply State.openSeal_keeps
    | split | dsimp only | with_reducible refine Keeps.upd ?_ rfl rfl

theorem execVinTurnOn_keeps (s : State) : ∃ t, execVinTurnOn s = .next t ∧ Keeps s t := by
  refine ⟨_, rfl, ?_⟩
  have hk := Keeps.refl s
  iterate 40 all_goals try first
    | with_reducible first | assumption | apply State.startRails_keeps
    | split | dsimp only | with_reducible refine Keeps.upd ?_ rfl rfl

theorem execVinUndervoltage_sound (s : State) : ∃ t, execVinUndervoltage s = .next t ∧ Sound s t := by
  refine ⟨_, rfl, ?_⟩
  have hk := Sound.refl s
  iterate 40 all_goals try first
    | with_reducible first | assumption | apply State.powerOff_sound
    | split | dsimp only | with_reducible refine Sound.upd ?_ rfl rfl

theorem execVinOvervoltage_sound (s : State) : ∃ t, execVinOvervoltage s = .next t ∧ Sound s t := by
  refine ⟨_, rfl, ?_⟩
  have hk := Sound.refl s
  iterate 40 all_goals try first
    | with_reducible first | assumption | apply State.powerOff_sound
    | split | dsimp only | with_reducible refine Sound.upd ?_ rfl rfl

theorem execPerstAssert_sound (low : PerstLow) (s : State) : ∃ t, execPerstAssert low s = .next t ∧ Sound s t := by
  refine ⟨_, rfl, ?_⟩
  have hk := Sound.refl s
  iterate 40 all_goals try first
    | with_reducible first | assumption | apply State.coldReset_sound
                            | refine Sound.thru (by apply State.heldInReset_keeps; exact Keeps.refl _) ?_
    | split | dsimp only | with_reducible refine Sound.upd ?_ rfl rfl

theorem execPerstRelease_sound (s : State) : ∃ t, execPerstRelease s = .next t ∧ Sound s t := by
  refine ⟨_, rfl, ?_⟩
  have hk := Sound.refl s
  iterate 40 all_goals try first
    | with_reducible first | assumption | apply State.coldReset_sound | apply State.bootSequence_sound
                            | refine Sound.thru (by apply State.startRails_keeps; exact Keeps.refl _) ?_
    | split | dsimp only | with_reducible refine Sound.upd ?_ rfl rfl

theorem execD3cold_sound (s : State) : ∃ t, execD3cold s = .next t ∧ Sound s t := by
  refine ⟨_, rfl, ?_⟩
  have hk := Sound.refl s
  iterate 40 all_goals try first
    | with_reducible first | assumption | apply State.bootSequence_sound | apply State.powerOff_sound
    | split | dsimp only | with_reducible refine Sound.upd ?_ rfl rfl

theorem execShutdownRelease_keeps (s : State) : ∃ t, execShutdownRelease s = .next t ∧ Keeps s t := by
  refine ⟨_, rfl, ?_⟩
  have hk := Keeps.refl s
  iterate 40 all_goals try first
    | with_reducible first | assumption | apply State.startRails_keeps
    | split | dsimp only | with_reducible refine Keeps.upd ?_ rfl rfl

theorem execThermalSample_sound (r : ThermalReading) (s : State) :
    ∃ t, execThermalSample r s = .next t ∧ Sound s t :=
  ⟨_, rfl, thermalStep_sound r s (Sound.refl s)⟩

theorem execSmbusDieTemp_keeps (s : State) : ∃ t, execSmbusDieTemp s = .next t ∧ Keeps s t := by
  refine ⟨_, rfl, ?_⟩
  have hk := Keeps.refl s
  iterate 40 all_goals try first
    | with_reducible first | assumption | apply State.smbus_keeps
    | split | dsimp only | with_reducible refine Keeps.upd ?_ rfl rfl

theorem execSmbusStackTemp_keeps (s : State) : ∃ t, execSmbusStackTemp s = .next t ∧ Keeps s t := by
  refine ⟨_, rfl, ?_⟩
  have hk := Keeps.refl s
  iterate 40 all_goals try first
    | with_reducible first | assumption | apply State.smbus_keeps
    | split | dsimp only | with_reducible refine Keeps.upd ?_ rfl rfl

theorem execSmbusPower_keeps (s : State) : ∃ t, execSmbusPower s = .next t ∧ Keeps s t := by
  refine ⟨_, rfl, ?_⟩
  have hk := Keeps.refl s
  iterate 40 all_goals try first
    | with_reducible first | assumption | apply State.smbus_keeps
    | split | dsimp only | with_reducible refine Keeps.upd ?_ rfl rfl

theorem execSmbusStatus_keeps (s : State) : ∃ t, execSmbusStatus s = .next t ∧ Keeps s t := by
  refine ⟨_, rfl, ?_⟩
  have hk := Keeps.refl s
  iterate 40 all_goals try first
    | with_reducible first | assumption | apply State.smbus_keeps
    | split | dsimp only | with_reducible refine Keeps.upd ?_ rfl rfl

theorem execSmbusSlot_keeps (s : State) : ∃ t, execSmbusSlot s = .next t ∧ Keeps s t := by
  refine ⟨_, rfl, ?_⟩
  have hk := Keeps.refl s
  iterate 40 all_goals try first
    | with_reducible first | assumption | apply State.smbus_keeps
    | split | dsimp only | with_reducible refine Keeps.upd ?_ rfl rfl

theorem execSmbusAlertResponse_keeps (s : State) : ∃ t, execSmbusAlertResponse s = .next t ∧ Keeps s t := by
  refine ⟨_, rfl, ?_⟩
  have hk := Keeps.refl s
  iterate 40 all_goals try first
    | with_reducible first | assumption
    | split | dsimp only | with_reducible refine Keeps.upd ?_ rfl rfl

theorem execBypass_keeps (s : State) : ∃ t, execBypass s = .next t ∧ Keeps s t := by
  refine ⟨_, rfl, ?_⟩
  have hk := Keeps.refl s
  iterate 40 all_goals try first
    | with_reducible first | assumption | apply State.jtag_keeps
    | split | dsimp only | with_reducible refine Keeps.upd ?_ rfl rfl

theorem execIdcode_keeps (s : State) : ∃ t, execIdcode s = .next t ∧ Keeps s t := by
  refine ⟨_, rfl, ?_⟩
  have hk := Keeps.refl s
  iterate 40 all_goals try first
    | with_reducible first | assumption | apply State.jtag_keeps
    | split | dsimp only | with_reducible refine Keeps.upd ?_ rfl rfl

theorem execSamplePreload_keeps (s : State) : ∃ t, execSamplePreload s = .next t ∧ Keeps s t := by
  refine ⟨_, rfl, ?_⟩
  have hk := Keeps.refl s
  iterate 40 all_goals try first
    | with_reducible first | assumption | apply State.scan_keeps
    | split | dsimp only | with_reducible refine Keeps.upd ?_ rfl rfl

theorem execExtest_keeps (s : State) : ∃ t, execExtest s = .next t ∧ Keeps s t := by
  refine ⟨_, rfl, ?_⟩
  have hk := Keeps.refl s
  iterate 40 all_goals try first
    | with_reducible first | assumption | apply State.scan_keeps
    | split | dsimp only | with_reducible refine Keeps.upd ?_ rfl rfl

theorem execUartRx_keeps (ch : Byte) (s : State) : ∃ t, execUartRx ch s = .next t ∧ Keeps s t := by
  refine ⟨_, rfl, ?_⟩
  have hk := Keeps.refl s
  iterate 40 all_goals try first
    | with_reducible first | assumption
    | split | dsimp only | with_reducible refine Keeps.upd ?_ rfl rfl

theorem execPllLockLoss_keeps (root phy : Bool) (s : State) :
    ∃ t, execPllLockLoss root phy s = .next t ∧ Keeps s t := by
  refine ⟨_, rfl, ?_⟩
  have hk := Keeps.refl s
  iterate 40 all_goals try first
    | with_reducible first | assumption
    | split | dsimp only | with_reducible refine Keeps.upd ?_ rfl rfl

theorem execRcRead_keeps (off : BitVec 26) (bits : Nat) (s : State) :
    ∃ t, execRcRead off bits s = .next t ∧ Keeps s t := by
  refine ⟨_, rfl, ?_⟩
  have hk := Keeps.refl s
  iterate 40 all_goals try first
    | with_reducible first | assumption | apply State.answer_keeps | apply State.rc_keeps | apply State.spend_keeps
    | split | dsimp only | with_reducible refine Keeps.upd ?_ rfl rfl

theorem execRegisterWrite_sound (off : BitVec 26) (bits : Nat) (value : BitVec 64) (s : State) :
    ∃ t, execRegisterWrite off bits value s = .next t ∧ Sound s t := by
  refine ⟨_, rfl, ?_⟩
  have hk := Sound.refl s
  iterate 40 all_goals try first
    | with_reducible first | assumption | apply State.regWrite_sound
    | split | dsimp only | with_reducible refine Sound.upd ?_ rfl rfl

end Sys2Proof.Machine
end

