-- ==== Sys2Proof/Laws/Pxu.lean ====
section
/-! SUPPORT. Moves of rows by the permute unit. -/

set_option Elab.async false

namespace Sys2Proof.Machine

open Sys2Proof

theorem Run.rows_eq (r : Run) (offs : List Int) (h : ∀ o ∈ offs, ∃ p, r.place o = some p) :
    r.rows offs = offs.map fun o => match r.place o with | some p => p.row | none => 0 := by
  unfold Run.rows
  induction offs with
  | nil => rfl
  | cons o l ih =>
    obtain ⟨p, e⟩ := h o (by simp)
    simp [e, ih fun o m => h o (by simp [m])]

/-- A move that may be made: each destination carriage is what `g` makes of the source carriages. -/
theorem Ex.move_spec (x : Ex) (src dst : Run) (so dsto : List Int) (drain : Bool) (g : List Carriage → Nat → Option Carriage)
    (hf : x.Fresh) (he : eid x.eng ≤ 4) (h : x.co.canMove x.eng x.clk src dst so dsto) (w : Nat → Carriage)
    (hg : ∀ k, k < dsto.length → g (so.map (x.co.held src)) k = some (w k)) :
    x.Touches (x.move src dst so dsto drain false g) (fun r => r ∈ dst.rows dsto) ∧
      ∀ k (hk : k < dsto.length), ∀ p, dst.place dsto[k] = some p →
        (x.move src dst so dsto drain false g).co.rowIs p.row (w k) x.due := by
  obtain ⟨h1, h2, h3, h4⟩ := h
  have hread := x.reads_readAll src so drain
  have hval : (x.readAll src so drain).1 = so.map (x.co.held src) := x.readAll_values src so drain hf h1
  have hbad : badOverlap (src.rows so) (dst.rows dsto) false = false := by
    unfold badOverlap
    simp only [Bool.false_and, Bool.not_false, Bool.and_true]
    rw [List.any_eq_false]
    intro r m
    simpa using h3 r m
  have hrows := Run.rows_eq dst dsto fun o m => (h2 o m).imp fun _ q => q.1
  unfold Ex.move
  dsimp only
  rw [hval, hbad]
  simp only [Bool.false_or, Bool.false_eq_true, if_false]
  have key := Ex.foldl_rows (x.readAll src so drain).2
    (fun z (e : Int × Nat) => match g (so.map (x.co.held src)) e.2 with
      | some v => z.writeAt dst e.1 v
      | none => z.free.2.writeAt dst e.1 z.free.1) (fun e => match dst.place e.1 with | some p => p.row | none => 0)
    (fun e => w e.2) (fun r => r ∈ dst.rows dsto) dsto.zipIdx ?_ ?_ ?_
  · refine ⟨(hread.touches _).trans key.1, fun k hk p e => ?_⟩
    rw [← hread.due]
    have m : (dsto[k], k) ∈ dsto.zipIdx := by
      rw [List.mem_zipIdx_iff_getElem?]; simp [List.getElem?_eq_getElem hk]
    have := key.2 _ m
    dsimp only at this
    rw [e] at this
    exact this
  · rintro ⟨o, k⟩ m
    rw [hrows]
    have mo : o ∈ dsto := (List.mem_zipIdx' m).2 ▸ List.getElem_mem _
    exact List.mem_map.mpr ⟨o, mo, rfl⟩
  · have e : (dsto.zipIdx.map fun e => match dst.place e.1 with | some p => p.row | none => 0) = dst.rows dsto := by
      rw [hrows]
      conv => rhs; rw [← List.zipIdx_map_fst 0 dsto]
      rw [List.map_map]
      rfl
    rw [e]; exact h4
  · rintro y hy ⟨o, k⟩ m
    have mk := List.mem_zipIdx' m
    have mo : o ∈ dsto := mk.2 ▸ List.getElem_mem _
    obtain ⟨p, e, hw⟩ := h2 o mo
    have ey : y.eng = x.eng := ((hread.touches _).trans hy).eng
    dsimp only
    rw [hg k mk.1]
    dsimp only
    rw [e]
    dsimp only
    exact ⟨y.touches_writeAt dst o (w k) p e (mayWrite_kind hw.1),
      y.writeAt_value dst o (w k) p e (by rw [ey]; exact hw.1) (by rw [ey]; exact he)⟩

/-- An execution begins with nothing given. -/
theorem State.begun_fresh (s : State) (c : CoachId) (e : Engine) (o l : Nat) : (s.begun c e o l).Fresh := fun _ _ _ => rfl

/-- A PXU instruction that moves rows. -/
theorem pxu_move (s : State) (c : CoachId) (com : Common) (o l : Nat) (hdr : Option HdrAsk) (cmd : DataCmd) (src dst : Run)
    (so dsto : List Int) (drain : Bool) (g : List Carriage → Nat → Option Carriage) (h : s.onTime c .pxu)
    (hm : ((s.atIssue c .pxu).coach c).canMove .pxu (s.atIssue c .pxu).clk src dst so dsto) (w : Nat → Carriage)
    (hg : ∀ k, k < dsto.length → g (so.map (((s.atIssue c .pxu).coach c).held src)) k = some (w k))
    (hc : (s.atIssue c .pxu).done c .pxu o l cmd = (((s.atIssue c .pxu).begun c .pxu o l).move src dst so dsto drain false g).ended [1, 3]) :
    let u := s.atIssue c .pxu
    let t := u.dataPath c .pxu com o l hdr cmd
    OnlyRows c .pxu (fun r => r ∈ dst.rows dsto) u t ∧ Issued c .pxu com o u t ∧
      (∀ k (hk : k < dsto.length), (t.coach c).held dst dsto[k] = w k) ∧
        ∀ r ∈ dst.rows dsto, look 0 (t.coach c).spadDue r = u.clk + l := by
  intro u t
  have hmove := Ex.move_spec (u.begun c .pxu o l) src dst so dsto drain g (u.begun_fresh c .pxu o l) (show eid .pxu ≤ 4 by decide) hm w hg
  have hd : u.done c .pxu o l cmd = (u.begun c .pxu o l).move src dst so dsto drain false g :=
    hc.trans (Ex.ended_eq _ _ hmove.1.wild)
  have k := dataPath_frame s c .pxu com o l hdr cmd _ h (by rw [show (s.atIssue c .pxu).done c .pxu o l cmd = _ from hd]; exact hmove.1)
  refine ⟨k.1, k.2.1, fun i hi => ?_, fun r m => ?_⟩
  · obtain ⟨p, e, hw⟩ := hm.2.1 dsto[i] (List.getElem_mem _)
    unfold Coach.held
    rw [e]
    dsimp only
    rw [k.2.2.2 _ hw.2, show (s.atIssue c .pxu).done c .pxu o l cmd = _ from hd]
    exact (hmove.2 i hi p e).1
  · unfold Run.rows at m
    obtain ⟨o', mo, eo⟩ := List.mem_filterMap.mp m
    obtain ⟨i, hi, rfl⟩ := List.getElem_of_mem mo
    cases e : dst.place dsto[i] with
    | none => rw [e] at eo; cases eo
    | some p =>
      rw [e] at eo
      cases eo
      rw [k.2.2.1, show (s.atIssue c .pxu).done c .pxu o l cmd = _ from hd]
      exact (hmove.2 i hi p e).2

theorem span_getElem (a n k : Nat) (h : k < (span a n).length) : (span a n)[k] = ((a + k : Nat) : Int) := by
  simp [span]

@[simp] theorem length_span (a n : Nat) : (span a n).length = n := by simp [span]

end Sys2Proof.Machine
end

