-- ==== Sys2Proof/Tests/Slice0.lean ====
section
/-! SUPPORT. Tests of the model on small states: every check of well-formedness refuses something, words of the encoding
tables read as the commands they stand for, the hypotheses of each statement are met by a state, and a few results that
the spec gives. -/

set_option Elab.async false

namespace Sys2Proof.Tests

open Sys2Proof Sys2Proof.Machine

/-! ## Small states -/

/-- An engine that issues at once. -/
def ready : EngineS := { EngineS.zero with st := .issuing }

/-- A work area of 1,024 rows of bank 0. -/
def area : BitVec 128 := BitVec.ofNat 128 (1 * 2 ^ 69 + 1024 * 2 ^ 52 + 1)

def slot0 : ProgSlot := { ProgSlot.empty with valid := true, progId := 1, map := [(0, area)] }

def engines0 : SMap EngineS := (List.range 8).map fun i => (i, ready)

/-- A coach that runs task 0. -/
def co0 : Coach := { Coach.reset with phase := .running, task := some 0, slotA := slot0, engines := engines0, modTable := [1] }

def hdr0 : CmdHdr := { sq := 0, index := 0, taskId := 7, noIrq := false, argAddr := 0 }

def fields0 : TaskF :=
  { seed := 0, digestAddr := 0, digestCap := 0, runLimit := 0, margin := 0, keylistAddr := 0, keylistCount := 0, ftag := 0
    minor := 0, devices := 0, nCtx := 0, perCoach := false, hazard := false, mode := 0, programId := 1 }

/-- A task that runs on coaches 0 and 1. -/
def task0 : Task :=
  { key := 0, id := 7, hdr := hdr0, f := fields0, contexts := [], bindings := [], devices := [], coachMask := 3, keylist := []
    st := .running, t0 := 0, startTime := 0, queue := none, abort := none, shutters := [], layer := 0
    recsWritten := 0, recsLost := 0, records := [], leftDigests := [], endedCoaches := [], wdogCount := 0, poison := 0
    mismatch := 0, first := none, wrote := [], lostCh := [], noCompletion := false, loadFailed := false, scrubbed := [], endTime := 0, posted := false }

/-- A set for both representations: N = 512, two primes and two torus primes. -/
def set1 : PolicyEntry :=
  { setId := 1, packed := true, bitwise := true, logN := 9, limbs := 2, special := 0, digits := 1, scaleLog := 10, lweN := 630
    glweLogN := 9, glweK := 1, gadgetL := 2, gadgetLogB := 8, ksL := 2, ksLogB := 4, msgBits := 4, freshPacked := 100
    floorPacked := 10, freshBitwise := 100, floorBitwise := 10, cost := [1, 1, 1, 1, 1, 1, 1, 1], primes := [12289, 13313]
    primeBits := [14, 14], torusPa := 15361, torusPb := 18433, reservedZero := true, usable := true, failed := 0 }

/-- Two coaches at work. -/
def s0 : State :=
  { State.reset with coaches := [(0, co0), (1, co0)], tasks := [task0], policy := [(1, some set1)], hif := { State.reset.hif with hostReady := true } }

def com0 : Common := { csRem := false, csDoor := 0, csAmt := 0, hold := 0 }

/-! ## The present clk, and places as checks -/

/-- Nothing to wait for. -/
theorem now (s : State) (n : Nat) (h : n ≤ s.clk) : s.advance n = s := if_pos h

theorem issue_now (s : State) (c : CoachId) (e : Engine) (h : ((s.coach c).engine e).nextIssue ≤ s.clk) : s.atIssue c e = s := by
  unfold State.atIssue State.reachIssue
  exact if_pos h

def calmB (co : Coach) (r : Nat) : Bool := co.accs.all fun a => !a.write || decide (a.row ≠ r)

def readableB (co : Coach) (e : Engine) (clk : Nat) (p : Option Place) : Bool :=
  p.any fun p => mayRead p.entry.kind e && (decide (look 0 co.spadDue p.row ≤ clk) && calmB co p.row)

def writableB (co : Coach) (e : Engine) (p : Option Place) : Bool := p.any fun p => mayWrite p.entry.kind e && calmB co p.row

theorem calm_of (co : Coach) (r : Nat) (h : calmB co r = true) : co.calm r := fun a ha hw =>
  of_decide_eq_true (by have := List.all_eq_true.1 h a ha; rwa [hw, Bool.not_true, Bool.false_or] at this)

theorem readable_of (co : Coach) (e : Engine) (clk : Nat) (p : Option Place) (h : readableB co e clk p = true) :
    ∃ q, p = some q ∧ co.readable e clk q := by
  cases p with
  | none => simp [readableB] at h
  | some q =>
    simp only [readableB, Option.any_some, Bool.and_eq_true, decide_eq_true_eq] at h
    exact ⟨q, rfl, h.1, h.2.1, calm_of _ _ h.2.2⟩

theorem writable_of (co : Coach) (e : Engine) (p : Option Place) (h : writableB co e p = true) :
    ∃ q, p = some q ∧ co.writable e q := by
  cases p with
  | none => simp [writableB] at h
  | some q =>
    simp only [writableB, Option.any_some, Bool.and_eq_true] at h
    exact ⟨q, rfl, h.1, calm_of _ _ h.2⟩

theorem readable_all (co : Coach) (e : Engine) (clk : Nat) (r : Run) (offs : List Int)
    (h : offs.all (fun o => readableB co e clk (r.place o)) = true) :
    ∀ o ∈ offs, ∃ p, r.place o = some p ∧ co.readable e clk p :=
  fun o ho => readable_of _ _ _ _ (List.all_eq_true.1 h o ho)

theorem writable_all (co : Coach) (e : Engine) (r : Run) (offs : List Int)
    (h : offs.all (fun o => writableB co e (r.place o)) = true) : ∀ o ∈ offs, ∃ p, r.place o = some p ∧ co.writable e p :=
  fun o ho => writable_of _ _ _ (List.all_eq_true.1 h o ho)

/-- A move of carriages from row `a` to row `b` can be made on coach 0. -/
theorem canMove_of (s : State) (e : Engine) (clk a b : Nat) (so dsto : List Int)
    (h1 : so.all (fun o => readableB (s.coach 0) e clk (((s.coach 0).run a 0).place o)) = true)
    (h2 : dsto.all (fun o => writableB (s.coach 0) e (((s.coach 0).run b 0).place o)) = true)
    (h3 : (((s.coach 0).run a 0).rows so).all (fun r => decide (r ∉ ((s.coach 0).run b 0).rows dsto)) = true)
    (h4 : (((s.coach 0).run b 0).rows dsto).Nodup) :
    (s.coach 0).canMove e clk ((s.coach 0).run a 0) ((s.coach 0).run b 0) so dsto :=
  ⟨readable_all _ _ _ _ _ h1, writable_all _ _ _ _ h2, fun r hr => of_decide_eq_true (List.all_eq_true.1 h3 r hr), h4⟩

/-! ## The permutation unit

Each theorem meets_<Name> applies the statement of that name to a state and operands of this file: every hypothesis is
shown to hold there. -/

def rot1 : RotF := { drain := false, amount := 127, c := 1, hdr := 0, dst := 2, src := 0, com := com0 }

/-- Two carriages by 127 slots, the most there is. -/
theorem meets_RotationMovesSlots (h : Obligations.RotationMovesSlots) : ∃ t, exec (.rot 0 rot1) s0 = .next t :=
  (h 0 rot1 s0 ⟨by decide, by decide⟩ (by decide)
    (canMove_of s0 .pxu _ 0 2 _ _ (by decide) (by decide) (by decide) (by decide))).imp fun _ h => h.1

def trans1 : TransF := { drain := false, t := 0, sstride := 1, dstride := 2, hdr := 0, dst := 64, src := 0, com := com0 }

theorem meets_TransposeExchangesSlotsAndCarriages (h : Obligations.TransposeExchangesSlotsAndCarriages) :
    ∃ t, exec (.trans 0 trans1) s0 = .next t :=
  (h 0 trans1 s0 ⟨by decide, by decide⟩ (by decide) (by decide)
    (canMove_of s0 .pxu _ 0 64 _ _ (by decide) (by decide) (by decide) (by decide))).imp fun _ h => h.1

def auto1 (order : BitVec 2) (logN : BitVec 4) : AutoF :=
  { drain := false, order := order, pseq := 0, prime := 1, pset := 1, logN := logN, count := 0, galois := 2 ^ 10 - 1, hdr := 0
    dst := 256, src := 0, com := com0 }

/-- Coefficient order with the largest Galois element of the smallest ring, and four-step order in its smallest ring. -/
theorem meets_AutomorphismPermutesEveryLimb (h : Obligations.AutomorphismPermutesEveryLimb) :
    (∃ t, exec (.auto 0 (auto1 0 9)) s0 = .next t) ∧ (∃ t, exec (.auto 0 (auto1 2 13)) s0 = .next t) :=
  ⟨(h.1 0 (auto1 0 9) s0 set1 (fun _ => 13313) ⟨by decide, by decide⟩ (by decide) (by decide) (by decide) (by decide)
      (by decide) (by decide) (by decide) (by decide)
      (canMove_of s0 .pxu _ 0 256 _ _ (by decide) (by decide) (by decide) (by decide))).imp fun _ h => h.1,
   (h.1 0 (auto1 2 13) s0 set1 (fun _ => 13313) ⟨by decide, by decide⟩ (by decide) (by decide) (by decide) (by decide)
      (by decide) (by decide) (by decide) (by decide)
      (canMove_of s0 .pxu _ 0 256 _ _ (by decide +kernel) (by decide +kernel) (by decide +kernel) (by decide +kernel))).imp
      fun _ h => h.1⟩

/-- Coefficient 511 of 512 under X to X^1023 moves to 1: N - 1 times -1 mod 2N. -/
theorem meets_AutomorphismPermutesEveryLimb_coefficients : 0 < 9 ∧ 1023 % 2 = 1 ∧ 0 < 13313 ∧ 511 < 2 ^ 9 ∧ 1023 * 511 % (2 * 2 ^ 9) = 513 := by
  decide

def mrot1 : MrotF :=
  { neg := true, logN := 9, count := 0, pset := 1, amtStride := 64, amtIndex := 0, amtBase := 6400, dst := 64, src := 0
    com := com0 }

def placeOr (s : State) (row : Nat) : Place := ((s.coach 0).place? row).getD ⟨⟨0, 0, 0, 0, 0⟩, 0⟩

theorem mrot1_amounts (t : Nat) (ht : t < 8) : (s0.coach 0).readable .pxu 0 (placeOr s0 (100 + t)) := by
  have h : ∀ t < 8, readableB (s0.coach 0) .pxu 0 (some (placeOr s0 (100 + t))) = true := by decide
  obtain ⟨q, hq, hr⟩ := readable_of _ _ _ _ (h t ht)
  exact Option.some.inj hq ▸ hr

/-- Amounts in rows 100 to 107. -/
theorem meets_MonomialRotationShiftsCoefficients (h : Obligations.MonomialRotationShiftsCoefficients) :
    ∃ t, exec (.mrot 0 mrot1) s0 = .next t :=
  (h 0 mrot1 s0 set1 (fun t => 6400 + 64 * t) (fun t => placeOr s0 (100 + t)) ⟨by decide, by decide⟩ (by decide) (by decide)
    (by decide) (by decide) (by decide) (by decide)
    (fun t ht => ⟨6400, 0, by decide, by decide, by
      match t, ht with
      | 0, _ => decide | 1, _ => decide | 2, _ => decide | 3, _ => decide | 4, _ => decide | 5, _ => decide | 6, _ => decide
      | 7, _ => decide, by show 6400 + 64 * t < 2 ^ 22; omega, by
      match t, ht with
      | 0, _ => rfl | 1, _ => rfl | 2, _ => rfl | 3, _ => rfl | 4, _ => rfl | 5, _ => rfl | 6, _ => rfl
      | 7, _ => rfl,
      mrot1_amounts t ht, by
      match t, ht with
      | 0, _ => decide | 1, _ => decide | 2, _ => decide | 3, _ => decide | 4, _ => decide | 5, _ => decide | 6, _ => decide
      | 7, _ => decide⟩)
    (canMove_of s0 .pxu _ 0 64 _ _ (by decide) (by decide) (by decide) (by decide))).imp fun _ h => h.1

/-! ## Control instructions -/

/-- An engine in its fourth loop. -/
def looping : EngineS :=
  let l : LoopFrame := { start := 5, body := 3, left := 2, index := 0 }
  { ready with pc := 7, loops := [l, l, l, l] }

/-- Settings words 2 of the KSA, 0 of the VEC and 3 of any engine; a loop whose body ends at instruction 8,191; the end of a body
with two iterations left. -/
theorem meets_ControlInstructionsSteerTheirEngine :
    (s0.coach 0).canIssue .ksa false = true ∧ wordOk .ksa 2 0 = true ∧ wordOk .vec 0 0 = true ∧ wordOk .nte 3 0 = true ∧
      (8191 : BitVec 13) ≠ 0 ∧ ((s0.coach 0).engine .ksa).loops.length < 4 ∧ ((s0.coach 0).engine .ksa).pc + 8191 ≤ 8191 ∧
      (∃ l outer, looping.loops = l :: outer ∧ 1 < l.left ∧ l.start ≤ 8191) :=
  ⟨by decide, by decide, by decide, by decide, by decide, by decide, by decide, _, _, rfl, by decide, by decide⟩

/-- The PC past 8,191 ends an engine (R178). -/
theorem test_pc_past_the_end : (ready.goto 8192).st = .ended ∧ (ready.goto 8191).st = .issuing := by decide

def signal1 (remote : Bool) : SignalF := { remote := remote, coach := 1, door := 3, amount := 65535, hold := 0 }

/-- Door 3 holds 5, and 2 are added in clk 4. -/
def s1 : State :=
  let shut : SMap (BitVec 32) := [(2, 1)]
  s0.setCoach 0 { co0 with
    slotA := { slot0 with shutters := shut }, doors := [(3, { value := 5, cls := 0, adds := [(4, 2)] })] }

/-- SIGNAL here and to coach 1; a WAIT; SHUTTER 2 names the NTE alone. -/
theorem meets_SignalWaitAndShutterIssue (h : Obligations.SignalWaitAndShutterIssue) :
    (∃ t, exec (.signal 0 .nte { signal1 false with coach := 0 }) s1 = .next t) ∧ (∃ t, exec (.signal 0 .nte (signal1 true)) s1 = .next t) ∧
      (∃ t, exec (.wait 0 .nte 3 6 0) s1 = .next t) ∧ (∃ t, exec (.shutter 0 .nte 2 0) s1 = .next t) ∧
      bitOf ((s1.coach 0).prog.shutterMask 2) (eid .nte) = true ∧ bitOf ((s1.coach 0).prog.shutterMask 2) (eid .ksa) = false ∧
      (((s1.coach 0).engine .nte).transfer.isSome || ((s1.coach 0).engine .nte).kin.isSome) = false := by
  have g := h 0 .nte s1 (by decide)
  exact ⟨((g.1 { signal1 false with coach := 0 }).1 rfl).imp fun _ h => h.1,
    ((g.1 (signal1 true)).2 (by decide) ⟨task0, by decide, by decide⟩).imp fun _ h => h.1,
    (g.2.1 3 6 0).imp fun _ h => h.1, (g.2.2 2 0).imp fun _ h => h.1, by decide, by decide, by decide⟩

/-- The VEC of coach 0 waits for `n` at door 3. -/
def waiting1 (n : BitVec 16) : Coach :=
  { s1.coach 0 with engines := store EngineS.zero engines0 2 { ready with st := .onWait 3 n } }

/-- A WAIT sees what was there at the start of its clk (R186); the amounts of the clk come after it (R187). -/
theorem test_wait_sees_the_start :
    (((waiting1 5).endClk 4).engine .vec).st = .issuing ∧ (((waiting1 5).endClk 4).door 3).value = 2 ∧
      (((waiting1 6).endClk 4).engine .vec).st = .onWait 3 6 ∧ (((waiting1 6).endClk 4).door 3).value = 7 := by decide

/-- A door saturates at 65,535 and says so (R187). -/
theorem test_door_saturates :
    ((((s1.coach 0).addDoor 3 65529 4).settleDoor 4 3).door 3).value = 65535 ∧ (((s1.coach 0).addDoor 3 65529 4).settleDoor 4 3).sat = true ∧
      (((s1.coach 0).addDoor 3 65528 4).settleDoor 4 3).sat = false := by decide

/-- KSA and VEC of coach 0 reach for bank 0 in clk 4, `row` being the row of the KSA. -/
def conflict1 (row : Nat) : State :=
  let a : Acc := { engine := .ksa, kind := 1, write := false, checked := true, clears := false, own := false, issued := 0, clk := 4
                   info := BitVec.ofNat 32 row, row := row, ord := 0, act := .bank, want := .nothing, slots := [], data := []
                   tile := none, full := none }
  s0.setCoach 0 { co0 with accs := [a, { a with engine := .vec, info := 5, row := 5 }] }

/-- An engine of higher ID waits for the bank, and counts the clk (R79, R247). -/
theorem test_bank_conflict :
    look 0 (((conflict1 3).serveAccs 4 0).coach 0).stall (8 * 2 + 5) = 1 ∧
      look 0 (((conflict1 2048).serveAccs 4 0).coach 0).stall (8 * 2 + 5) = 0 := by decide

/-- BANKPWR, a clk that passes, and a bank conflict. -/
theorem meets_BankPowerSetsTheTarget (h : Obligations.BankPowerSetsTheTarget) :
    (∃ t, exec (.bankpwr 0 .vec false 1 0) s0 = .next t) ∧ (∃ t, step s0 = .next t) ∧
      look 0 (((conflict1 3).serveAccs 4 0).coach 0).stall (8 * 2 + 5) = 1 :=
  ⟨(h.1 0 .vec false 1 0 s0 (by decide)).imp fun _ h => h.1, (h.2.1 s0 rfl).imp fun _ h => h.1,
    (h.2.2 (conflict1 3) 0 4 .ksa .vec 0 (by decide) (by decide) (by decide) (by decide) (by decide)).1.trans (by decide)⟩

def acct1 : AcctF := { param := 47, cls := 6, hdrB := 0, hdrA := 1, hdrR := 2, com := com0 }

/-- A ciphertext of set 1 under context 5. -/
def ct (poison : Bool) : Header :=
  { Header.fixedPlain with poison := poison, scaleExp := 20, budget := 100, level := 1, paramSet := 1, scheme := .packed
                           context := 5 }

def coCt : Coach := { co0 with ctxList := [{ context := 5, tag := some 9, paramSet := 1 }] }

theorem meets_AccountingFollowsTheHeaderRule (h : Obligations.AccountingFollowsTheHeaderRule) :
    (∃ t, exec (.acct 0 .nte acct1) s0 = .next t) ∧
      (headerRule s0 coCt (some 0) 0 [ct true, ct false] [] 2 3).header.poison = true ∧
      (headerRule s0 coCt (some 0) 0 [ct false, ct false] [] 2 3).header.level.toNat = 1 ∧
      (headerRule s0 coCt (some 5) 0 [ct false] [] 2 3).header.level.toNat + 1 = 1 :=
  ⟨(h.1 0 .nte acct1 s0 ⟨by decide, by decide⟩ (by decide) (by decide)).imp fun _ h => h.1,
   ((h.2 s0 coCt set1 (ct true) (ct false) 2 3 (by decide) rfl rfl (by decide) rfl rfl (by decide) rfl (by decide)).1
      (some 0) 0 (.inl rfl)).1,
   ((h.2 s0 coCt set1 (ct false) (ct false) 2 3 (by decide) rfl rfl (by decide) rfl rfl (by decide) rfl (by decide)).2.1
      rfl rfl).2.1,
   ((h.2 s0 coCt set1 (ct false) (ct false) 2 3 (by decide) rfl rfl (by decide) rfl rfl (by decide) rfl (by decide)).2.2.2
      rfl (by decide) (by decide)).2.1⟩

/-- A gather or scatter of one element: index row 10, table at row 0, dense at row 20. -/
def gather1 (mode reduce : Nat) : BitVec 512 :=
  BitVec.ofNat 512 ((64 * 2 ^ 224 + 1 * 2 ^ 200 + 640 * 2 ^ 150 + 1280 * 2 ^ 122) * 2 ^ 256 + reduce * 2 ^ 176 + mode)

/-- The index is 63, the last below the extent. -/
def s2 (m : Nat × Nat) : State :=
  let desc : SMap (BitVec 512) := [(0, gather1 m.1 m.2)]
  s0.setCoach 0 { co0 with slotA := { slot0 with desc := desc }, spad := [(10, ofSlots fun _ => 63)] }

/-- A gather, a scatter, and a scatter that adds. -/
def moves : List (Nat × Nat) := [(1, 0), (2, 0), (2, 1)]

theorem moves_at : ∀ m ∈ moves, (s2 m).atIssue 0 .pxu = s2 m ∧ (s2 m).onTime 0 .pxu := fun m h => by
  have f : ∀ m ∈ moves, ((s2 m).coach 0).canIssue .pxu true = true ∧ (((s2 m).coach 0).engine .pxu).nextIssue ≤ (s2 m).clk ∧
      (((s2 m).coach 0).engine .pxu).busyUntil ≤ (s2 m).clk := by decide +kernel
  have e := issue_now (s2 m) 0 .pxu (f m h).2.1
  exact ⟨e, (f m h).1, by rw [e]; exact (f m h).2.2⟩

theorem moves_fields : ∀ m ∈ moves,
    let d := IDesc.ofWord (((s2 m).coach 0).descriptor ((((s2 m).coach 0).engine .pxu).descField 0 3))
    d.count = 1 ∧ d.width = 1 ∧ d.indexEntry = 0 ∧ d.indexOffset = 640 ∧ d.tableEntry = 0 ∧ d.tableOffset = 0 ∧
      d.denseEntry = 0 ∧ d.denseOffset = 1280 ∧ d.extent = 64 ∧ d.mode = (if decide (m.1 = 1) then 1 else 2) ∧ d.reduce = m.2 ∧
      d.fmt = 0 := by decide +kernel

theorem moves_slots (m : Nat × Nat) (h : m ∈ moves) :
    ((s2 m).coach 0).slotPlace 0 ((640 + 0 : Nat) : Int) = some (placeOr (s2 m) 10) ∧
      ((s2 m).coach 0).slotPlace 0 ((0 + 63 * 1 + 0 : Nat) : Int) = some (placeOr (s2 m) 0) ∧
      ((s2 m).coach 0).slotPlace 0 ((1280 + 0 : Nat) : Int) = some (placeOr (s2 m) 20) := by
  simp only [moves, List.mem_cons, List.not_mem_nil, or_false] at h
  rcases h with rfl | rfl | rfl <;> exact ⟨rfl, rfl, rfl⟩

theorem moves_places : ∀ m ∈ moves,
    let co := (s2 m).coach 0
    63 = (slotOf (co.row (placeOr (s2 m) 10).row) ((640 + 0) % 64)).toNat % 2 ^ 32 ∧
      (∀ r ∈ [0, 10, 20], (placeOr (s2 m) r).row = r ∧ readableB co .pxu (s2 m).clk (some (placeOr (s2 m) r)) = true ∧
        writableB co .pxu (some (placeOr (s2 m) r)) = true) := by decide +kernel

theorem moves_open (m : Nat × Nat) (h : m ∈ moves) (r : Nat) (hr : r ∈ [0, 10, 20]) :
    (placeOr (s2 m) r).row = r ∧ ((s2 m).coach 0).readable .pxu (s2 m).clk (placeOr (s2 m) r) ∧
      ((s2 m).coach 0).writable .pxu (placeOr (s2 m) r) := by
  obtain ⟨a, b, d⟩ := (moves_places m h).2 r hr
  obtain ⟨p, hp, hb⟩ := readable_of _ _ _ _ b
  obtain ⟨q, hq, hd⟩ := writable_of _ _ _ d
  exact ⟨a, Option.some.inj hp ▸ hb, Option.some.inj hq ▸ hd⟩

theorem meets_GatherAndScatterMoveElements (h : Obligations.GatherAndScatterMoveElements) :
    ∀ m ∈ moves, ∃ t, exec (.gsx 0 0 com0) (s2 m) = .next t := by
  intro m hm
  obtain ⟨ec, ew, ei, eo, et, eto, ed, edo, ee, em, -⟩ := moves_fields m hm
  obtain ⟨pi, pt, pd⟩ := moves_slots m hm
  obtain ⟨px, -⟩ := moves_places m hm
  have o := moves_open m hm
  have hh := h 0 0 com0 (s2 m) (decide (m.1 = 1)) (fun _ => 63) (fun _ => placeOr (s2 m) 10) (fun _ => placeOr (s2 m) 0)
    (fun _ => placeOr (s2 m) 20) (moves_at m hm).2
  have e0 := (o 0 (by decide)).1
  have e10 := (o 10 (by decide)).1
  have e20 := (o 20 (by decide)).1
  simp only [(moves_at m hm).1, EngineS.gsxDesc, ec, ew, ei, eo, et, eto, ed, edo, ee] at hh
  refine (hh em (fun k hk => ?_) (fun k hk => ?_) fun k n i _ _ _ => ⟨?_, ?_⟩).imp fun _ h => h.1
  · obtain rfl : k = 0 := Nat.lt_one_iff.1 hk
    exact ⟨pi, (o 10 (by decide)).2.1, px, by decide⟩
  · obtain rfl : k = 0 := Nat.lt_one_iff.1 hk
    refine ⟨pt, pd, ?_, ?_, fun _ => (o 0 (by decide)).2.1⟩
    · split <;> exact (o _ (by decide)).2.2
    · split <;> exact (o _ (by decide)).2.1
  · rw [e0, e20]; decide
  · rw [e10]; split <;> simp [e0, e20]

/-- What a scatter that adds finds and brings: INT8 elements, whose sum is always there. -/
theorem meets_GatherAndScatterMoveElements_reduces :
    (reduceSlot ((s2 (2, 1)).reduceModuli ((s2 (2, 1)).coach 0) 0 0) 1 0 true 7 9).isSome = true := by decide +kernel

/-! ## Transforms -/

def nte1 (logN : BitVec 4) (prime : BitVec 6) (push : Bool := false) : NteF :=
  { drain := false, push := push, pseq := 0, prime := prime, pset := 1, logN := logN, count := 0, hdr := 0, tw := 64, dst := 0
    src := 0, com := com0 }

/-- Direct path at N = 512, four-step path at N = 65,536 (LOG_N 0 stands for 16). -/
theorem meets_TransformsRunInTheirTime (h : Obligations.TransformsRunInTheirTime) :
    (∃ t, exec (.fwd 0 (nte1 9 0)) s0 = .next t) ∧ ∃ t, exec (.fcol 0 (nte1 0 0)) s0 = .next t :=
  ⟨(h .fwd 0 (nte1 9 0) s0 ⟨by decide, by decide⟩).imp fun _ h => h.elim fun _ h => h.1,
   (h .fcol 0 (nte1 0 0) s0 ⟨by decide, by decide⟩).imp fun _ h => h.elim fun _ h => h.1⟩

/-- The powers of 7 in bit-reversed order in rows 64 to 71. -/
def s3 (coupling : BitVec 2) : State :=
  s0.setCoach 0 { co0 with
    coupling := coupling
    spad := (List.range 8).map fun t => (64 + t, ofSlots fun s => powMod 7 (bitrev 9 (64 * t + s)) 13313) }

/-- The smallest root of R116 for N = 512 modulo 13,313. -/
theorem test_psi : psiOf 512 13313 = 7 := by decide

/-- In place, prime 13,313; and pushed to the vector engine. -/
theorem meets_TransformsComputeTheirLimbs (h : Obligations.TransformsComputeTheirLimbs) :
    (∃ t, exec (.fwd 0 (nte1 9 1)) (s3 0) = .next t) ∧ ∃ t, exec (.fwd 0 (nte1 9 1 true)) (s3 2) = .next t := by
  have one : ∀ p, ∀ j, j < (nte1 9 1 p).count.toNat + 1 → j = 0 := fun p j hj => Nat.lt_one_iff.1 hj
  have psi := test_psi
  have n512 : ∀ p, (2 : Nat) ^ NteOp.fwd.logN (nte1 9 1 p) = 512 := by decide
  refine ⟨((h .fwd 0 (nte1 9 1) (s3 0) set1 (fun _ => 13313) ⟨by decide, by decide⟩ (by decide) rfl (fun j _ => by show (set1.prime? 1) = _; decide)
      (readable_all _ _ _ _ _ (by decide)) (fun j hj => ?_) (fun j hj => ?_)).1 rfl (writable_all _ _ _ _ (by decide))
      (by decide) (fun j hj => ?_) (.inl rfl)).imp fun _ h => h.1,
    ((h .fwd 0 (nte1 9 1 true) (s3 2) set1 (fun _ => 13313) ⟨by decide, by decide⟩ (by decide) rfl (fun j _ => by show (set1.prime? 1) = _; decide)
      (readable_all _ _ _ _ _ (by decide)) (fun j hj => ?_) (fun j hj => ?_)).2 rfl (by decide) (by decide)).imp
      fun _ h => h.elim fun _ h => h.1⟩
  · obtain rfl := one _ j hj
    exact readable_all _ _ _ _ _ (by decide)
  · obtain rfl := one _ j hj
    rw [n512, psi]
    decide +kernel
  · obtain rfl := one _ j hj
    decide
  · obtain rfl := one _ j hj
    exact readable_all _ _ _ _ _ (by decide)
  · obtain rfl := one _ j hj
    rw [n512, psi]
    decide +kernel

/-- A polynomial of two coefficients: X[0] = a0 + a1 psi (R116). -/
theorem meets_ForwardTransformEvaluates (h : Obligations.ForwardTransformEvaluates) :
    (NteOp.fwd.transform 1 4 17 [3, 5]).getD (bitrev 1 1) 0 = (3 + 5 * 4 ^ 3) % 17 :=
  h 1 4 17 [3, 5] 1 (by decide) rfl (by decide)

/-! ## Vector engine -/

def vec1 (hold : BitVec 12) : VecF :=
  { drainB := false, drainA := false, count := 0, hdrB := 0, hdrA := 0, hdrR := 0, dst := 2, b := 1, a := 0
    com := { com0 with hold := hold } }

theorem meets_VectorInstructionsRunInTheirTime (h : Obligations.VectorInstructionsRunInTheirTime) :
    ∃ t, exec (.add 0 (vec1 4095)) s0 = .next t :=
  (h .add 0 (vec1 4095) s0 ⟨by decide, by decide⟩).imp fun _ h => h.elim fun _ h => h.1

/-- Coupled, with one tile in the queue. -/
def tiled : State :=
  let tile : QTile := { clk := 0, info := 0, src := 0, data := [1, 2, 3, 4] }
  { s0.setCoach 0 { co0 with coupling := 2, tileQueue := [tile] } with clk := 1 }

/-- Operand A is the tile, B vector registers 0 to 3, the destination 8 to 11. -/
def vecT : VecF := { vec1 0 with count := 3, dst := 0x4600, b := 0x600, a := 0x680 }

theorem vec_one (j : Nat) (hj : j < (vec1 0).count.toNat + 1) : j = 0 := Nat.lt_one_iff.1 hj

theorem regs_apart : (VecArg.reg 0).steady (.reg 8) 4 := fun i j hij hj e => by
  have := Sum.inr.inj (Option.some.inj e)
  omega

theorem vec_gets (x : Nat × BitVec 16) (hx : x ∈ [(0, (vec1 0).a), (1, (vec1 0).b), (2, (vec1 0).dst)]) :
    (s0.coach 0).mayGet 0 (vecArg (s0.coach 0) ((s0.coach 0).engine .vec) x.2 x.1 ((s0.coach 0).engine .vec).vecCfg.strideA) 0 := by
  simp only [List.mem_cons, List.not_mem_nil, or_false] at hx
  rcases hx with rfl | rfl | rfl <;> exact readable_of _ _ _ _ (by decide)

theorem vec_steady (a d : VecArg) : a.steady d ((vec1 0).count.toNat + 1) := fun i j hij hj => by
  have := vec_one j hj
  omega

/-- INT8, one carriage; FMA reads its destination too; and four carriages with a tile. -/
theorem meets_VectorOperationsAreElementwise (h : Obligations.VectorOperationsAreElementwise) :
    (∃ t, exec (.add 0 (vec1 0)) s0 = .next t) ∧ (∃ t, exec (.fma 0 (vec1 0)) s0 = .next t) ∧
      ∃ t, exec (.add 0 vecT) tiled = .next t := by
  have get := vec_gets
  have put : (s0.coach 0).mayPut
      (vecArg (s0.coach 0) ((s0.coach 0).engine .vec) (vec1 0).dst 2 ((s0.coach 0).engine .vec).vecCfg.strideD) 0 :=
    writable_of _ _ _ (by decide)
  have now : tiled.atIssue 0 .vec = tiled := issue_now _ _ _ (by decide)
  refine ⟨(h.1 .add 0 (vec1 0) s0 2 (by decide) ⟨by decide, by decide⟩ (by decide) (by decide) (by decide) (by decide)
      (fun h => absurd h (by decide)) (fun j hj => ?_) (vec_steady _ _) (vec_steady _ _) (fun _ => vec_steady _ _)).imp fun _ h => h.1,
    (h.1 .fma 0 (vec1 0) s0 4 (by decide) ⟨by decide, by decide⟩ (by decide) (by decide) (by decide) (by decide)
      (fun h => absurd h (by decide)) (fun j hj => ?_) (vec_steady _ _) (vec_steady _ _) (fun _ => vec_steady _ _)).imp fun _ h => h.1,
    (h.1 .add 0 vecT tiled 2 (by decide) ⟨by decide, by decide⟩ (by decide) (by decide) (by decide) (by decide)
      (fun _ => ⟨by decide, by decide, by decide⟩) (fun j hj => ?_) ?_ ?_ (fun h => ?_)).imp fun _ h => h.1⟩
  · obtain rfl := vec_one j hj
    exact ⟨.inr (get (0, (vec1 0).a) (by decide)), .inr (get (1, (vec1 0).b) (by decide)), put, fun h => absurd h (by decide)⟩
  · obtain rfl := vec_one j hj
    exact ⟨.inr (get (0, (vec1 0).a) (by decide)), .inr (get (1, (vec1 0).b) (by decide)), put, fun _ => get (2, (vec1 0).dst) (by decide)⟩
  · exact ⟨.inl (by decide), .inr (Nat.zero_le _), trivial, fun h => absurd h (by decide)⟩
  · exact fun i j _ _ => nofun
  · exact regs_apart
  · exact absurd h (by decide)

/-- M36 modulo 13,313: 13,312 + 2 is 1. -/
theorem meets_VectorOperationsAreElementwise_residues (h : Obligations.VectorOperationsAreElementwise) :
    let g := { (ready.vecCfg) with fmt := 9, cond := 3 }
    ((VecOp.add.carriage g (some 13313) none (ofSlots fun _ => 13312) (ofSlots fun _ => 2) 0).map
      fun w => (slotOf w 63).toNat) = some 1 := by
  have := (h.2 { (ready.vecCfg) with fmt := 9, cond := 3 } 13313 none (ofSlots fun _ => 13312) (ofSlots fun _ => 2) 0 63 (by decide)
    (by decide) rfl (by decide) (by decide)).1
  exact this.trans (by decide +kernel)

def cvtOf (e : Nat) : Nat × Nat :=
  (convertElem ready.vecCfg (s0.modulus? (s0.coach 0) ready.vecCfg.pset ready.vecCfg.prime) none
    (rawElem ready.vecCfg.fmt ((s0.coach 0).operand (.run ((s0.coach 0).run 0 0) 0) (e / 256)) (e % 256))).getD (0, 0)

theorem meets_ConversionKeepsElementOrder_elements : ∀ e < 256,
    convertElem ready.vecCfg (s0.modulus? (s0.coach 0) ready.vecCfg.pset ready.vecCfg.prime) none
      (rawElem ready.vecCfg.fmt ((s0.coach 0).operand (.run ((s0.coach 0).run 0 0) 0) (e / 256)) (e % 256)) = some (cvtOf e) := by
  decide +kernel

/-- INT8 to INT8, one carriage; and a tile. -/
theorem meets_ConversionKeepsElementOrder (h : Obligations.ConversionKeepsElementOrder) :
    (∃ t, exec (.cvt 0 (vec1 0)) s0 = .next t) ∧ ∃ t, exec (.cvt 0 vecT) tiled = .next t := by
  refine ⟨(h 0 (vec1 0) s0 (fun e => if e < 256 then cvtOf e else (0, 0)) ⟨by decide, by decide⟩ (by decide) (by decide)
    (fun h => absurd h (by decide)) (fun j hj => .inr ?_) (fun j hj => ?_)).imp fun _ h => h.1,
    (h 0 vecT tiled (fun e => if e < 256 then cvtOf e else (0, 0)) ⟨by decide, by decide⟩ (by decide) (by decide)
    (fun _ => ⟨by decide, by decide, by decide⟩) (fun j hj => .inl (by decide)) (fun j hj => ?_)).imp fun _ h => h.1⟩
  · obtain rfl := vec_one j hj
    exact readable_of _ _ _ _ (by decide)
  · obtain rfl := vec_one j hj
    exact writable_of _ _ _ (by decide)
  · exact trivial

/-! ## Decompose unit and key-switch array -/

def dbu1 (pset : BitVec 8) : DbuF :=
  { drain := false, pset := pset, pa := 0, pb := 0, pc := 2, count := 0, hdr := 0, aux := 0, dst := 64, src := 0, com := com0 }

/-- With the set in the modulus table, and with one outside it. -/
theorem meets_DecomposeUnitRunsInItsTime (h : Obligations.DecomposeUnitRunsInItsTime) :
    (∃ t, exec (.presc 0 (dbu1 1)) s0 = .next t) ∧ ∃ t, exec (.presc 0 (dbu1 2)) s0 = .next t :=
  ⟨by obtain ⟨t, _, ht, _⟩ := (h .presc 0 (dbu1 1) s0 ⟨by decide, by decide⟩).1 set1 (by decide); exact ⟨t, ht⟩,
   ((h .presc 0 (dbu1 2) s0 ⟨by decide, by decide⟩).2 (by decide)).imp fun _ h => h.1⟩

/-- What PRESC reads and writes: `o` is its occupancy. -/
def prescEx (o : Nat) : Ex := { ((s0.startEx 0 .dbu (0 + (o + DbuOp.presc.lambda)))) with o := o }

def prescVals (o : Nat) : List SlotVal × Ex :=
  DbuOp.presc.data (dbu1 1) set1 ((s0.coach 0).run 0 0) ((s0.coach 0).run 0 0) false (prescEx o)

theorem presc_places : (prescVals 10).1.all (fun w => decide (w.off = 0) && (((s0.coach 0).run 64 0).place w.off).any fun q =>
    mayWrite q.entry.kind .dbu && decide (q.row ∉ (prescVals 10).2.readRows (prescEx 10))) = true := by decide +kernel

theorem meets_DecomposeUnitWritesItsSlots (h : Obligations.DecomposeUnitWritesItsSlots) :
    ∃ t, exec (.presc 0 (dbu1 1)) s0 = .next t := by
  have hp := fun w hw => List.all_eq_true.1 presc_places w hw
  refine (h .presc 0 (dbu1 1) s0 set1 10 ⟨by decide, by decide⟩ (by decide) (by decide) (by decide) (by decide)
    (fun w hv => ?_) (fun w hv w' hv' hne => ?_)).imp fun _ h => h.1
  · have h1 := hp w hv
    simp only [Bool.and_eq_true] at h1
    cases hq : ((s0.coach 0).run 64 0).place w.off with
    | none => rw [hq] at h1; exact absurd h1.2 (by simp)
    | some q =>
      rw [hq] at h1
      simp only [Option.any_some, Bool.and_eq_true, decide_eq_true_eq] at h1
      exact ⟨q, hq, ⟨h1.2.1, calm_of _ _ rfl⟩, h1.2.2⟩
  · have a := hp w hv
    have b := hp w' hv'
    simp only [Bool.and_eq_true, decide_eq_true_eq] at a b
    exact absurd (a.1.trans b.1.symm) hne

def ksa1 (accIn exit push : Bool) : KsaF :=
  { drainB := false, drainA := false, push := push, accIn := accIn, exit := exit, cls := 15, t := 0, hdrA := 0, hdrR := 0
    dst := 64, b := 1, a := 0, com := com0 }

/-- One term modulo the primes of set 1; sums of residues in accumulator entries 0 to 15, and a tile that has come along the chain. -/
def s4 (chain : Nat) : State :=
  let words : SMap (BitVec 96) := [(0, BitVec.ofNat 96 (2 ^ 20 + chain * 2 ^ 16 + 1))]
  let acc : SMap AccRow := (List.range 16).map fun r => (r, { kind := .residue, sums := List.replicate 16 5, terms := 1 })
  let tile : ChainTile := { kind := .residue, sums := List.replicate 256 5, terms := 1, arrived := 0, src := 0 }
  s0.setCoach 0 { co0 with
    engines := store EngineS.zero engines0 1 { ready with words := words }, accMem := acc, coupling := 1, chainIn := [tile] }

/-- KEW or KMM, the place in a chain, ACC_IN, EXIT and PUSH of an instruction. -/
abbrev KsaCase := Bool × Nat × Bool × Bool × Bool

namespace KsaCase

def f (x : KsaCase) : KsaF := ksa1 x.2.2.1 x.2.2.2.1 x.2.2.2.2

def st (x : KsaCase) : State := s4 x.2.1

def g (x : KsaCase) : KsaCfg := ((x.st.coach 0).engine .ksa).ksaCfg.forOp x.1 (x.f.t.toNat + 1)

/-- What the tile starts from, with the terms there. -/
def from_ (x : KsaCase) : Nat := if x.2.1 = 3 ∨ x.2.2.1 = true then 1 else 0

/-- Accumulated, after ACC_IN or from zero; at the end of a chain; passed on by the first; out through the stage, and pushed. -/
def all : List KsaCase :=
  [(false, 0, true, false, false), (true, 0, false, false, false), (false, 3, false, false, false), (false, 1, false, false, false),
   (false, 0, false, true, false), (true, 0, false, true, false), (false, 0, false, true, true)]

theorem at_once : ∀ x ∈ all, (x.st.coach 0).canIssue .ksa true = true ∧ ((x.st.coach 0).engine .ksa).nextIssue ≤ x.st.clk ∧
    ((x.st.coach 0).engine .ksa).busyUntil ≤ x.st.clk := by decide +kernel

theorem operands : ∀ x ∈ all, ∀ r < 16, ∀ j < 16, ∀ k < x.g.groups,
    readableB (x.st.coach 0) .ksa x.st.clk (((x.st.coach 0).run x.f.a.toNat (((x.st.coach 0).engine .ksa).strideSum 0)).place ((x.g.firstAt x.1 0 r j k).1 : Int)) = true ∧
      readableB (x.st.coach 0) .ksa x.st.clk (((x.st.coach 0).run x.f.b.toNat (((x.st.coach 0).engine .ksa).strideSum 1)).place ((x.g.secondAt x.1 0 r j k).1 : Int)) = true := by decide +kernel

theorem facts : ∀ x ∈ all, x.g.ok x.f x.1 = true ∧ x.f.t.toNat = 0 ∧ x.f.exit = x.2.2.2.1 ∧ x.f.push = x.2.2.2.2 ∧ x.f.accIn = x.2.2.1 ∧
    x.g.chain = x.2.1 ∧ x.g.kind = .residue ∧ x.g.accRow = 0 ∧ x.g.groups = 1 ∧ x.st.tableEntry? (x.st.coach 0) x.g.pset = some set1 ∧
    (∀ j < 16, (set1.prime? (x.g.primeIdx (0 / x.g.aTiles) j)).isSome = true) ∧ 0 < x.g.startOf x.f x.1 0 ∧
    (x.st.coach 0).chainIn.length ≤ 2 ∧ x.g.en = 0 ∧ x.g.passesOn = decide (x.2.1 = 1) := by decide +kernel

theorem starts : ∀ x ∈ all, (x.st.coach 0).chainIn.all (fun h => decide (h.arrived = 0 ∧ h.kind = .residue ∧ h.terms = 1) &&
      (List.range 256).all fun i => decide (h.sums.getD i 0 = 5)) = true ∧ (x.st.coach 0).chainIn.length = 1 ∧
    ∀ r < 16, let row := look accDefault (x.st.coach 0).accMem ((0 + 16 * 0 + r) % 512)
      row.kind = .residue ∧ row.sums.length = 16 ∧ row.terms = 1 ∧ ∀ j < 16, row.sums.getD j 0 = 5 := by decide +kernel

/-- What the tile of a case starts from, cell by cell. -/
def sums (x : KsaCase) (_ _ _ : Nat) : Int := 5 * x.from_

def counts (x : KsaCase) (_ _ : Nat) : Nat := x.from_

theorem now (x : KsaCase) (hx : x ∈ all) : x.st.atIssue 0 .ksa = x.st := issue_now _ _ _ (at_once x hx).2.1

theorem onTime (x : KsaCase) (hx : x ∈ all) : x.st.onTime 0 .ksa :=
  ⟨(at_once x hx).1, by rw [now x hx]; exact (at_once x hx).2.2⟩

theorem mayStart (x : KsaCase) (hx : x ∈ all) (clk : Nat) (hc : 0 < clk) :
    (x.st.coach 0).tileFrom x.g x.f clk 0 (x.sums 0) (x.counts 0) := by
  obtain ⟨-, -, -, -, ea, ec, ek, er, -⟩ := facts x hx
  obtain ⟨hh, hl, hr⟩ := starts x hx
  have cases_ : ∀ y ∈ all, y.2.1 ∈ [0, 1, 3] ∧ (y.2.2.1 = true → y.2.1 = 0) := by decide
  have c := cases_ x hx
  unfold Coach.tileFrom sums counts from_
  rw [ec, ea]
  by_cases h3 : x.2.1 = 3
  · match hcs : (x.st.coach 0).chainIn, hl with
    | [h], _ =>
      rw [hcs, List.all_cons, Bool.and_eq_true, Bool.and_eq_true, decide_eq_true_eq] at hh
      rw [if_pos (.inr h3), if_pos (.inl h3)]
      refine ⟨h, rfl, by rw [hh.1.1.1]; exact hc, by rw [hh.1.1.2.1, ek], fun r hr => ⟨hh.1.1.2.2.symm, fun j hj => ?_⟩⟩
      exact (of_decide_eq_true (List.all_eq_true.1 hh.1.2 (16 * r + j) (List.mem_range.2 (by omega)))).symm
  · have h2 : ¬(x.2.1 = 2 ∨ x.2.1 = 3) := by
      rintro (h | h)
      · rw [h] at c; exact absurd c.1 (by decide)
      · exact h3 h
    rw [if_neg h2]
    by_cases ha : x.2.2.1 = true
    · rw [if_pos ⟨ha, c.2 ha⟩, if_pos (.inr ha), er]
      intro r h
      obtain ⟨rk, rl, rt, rj⟩ := hr r h
      exact ⟨by rw [ek]; exact rk, rl, rt.symm, fun j hj => (rj j hj).symm⟩
    · rw [if_neg fun h => ha h.1, if_neg (not_or.2 ⟨h3, ha⟩)]
      exact fun r _ => ⟨rfl, fun j _ => rfl⟩

theorem maySum (x : KsaCase) (hx : x ∈ all) :
    (x.st.coach 0).MaySum x.st.clk (x.st.tableEntry? (x.st.coach 0) x.g.pset) x.g x.f x.1
      ((x.st.coach 0).run x.f.a.toNat (((x.st.coach 0).engine .ksa).strideSum 0))
      ((x.st.coach 0).run x.f.b.toNat (((x.st.coach 0).engine .ksa).strideSum 1)) x.sums x.counts := by
  obtain ⟨e0, et, -, -, -, -, -, -, -, ep, eq, es, el, -, -⟩ := facts x hx
  have zero : ∀ t, t ≤ x.f.t.toNat → t = 0 := fun t ht => by rw [et] at ht; exact Nat.le_zero.1 ht
  refine ⟨e0, fun t r j k ht hr hj hk => ?_, .inr fun t j ht hj => .inr ⟨set1, ep, ?_⟩, fun t ht => ?_, fun _ => el⟩
  · obtain rfl := zero t ht
    exact ⟨readable_of _ _ _ _ (operands x hx r hr j hj k hk).1, readable_of _ _ _ _ (operands x hx r hr j hj k hk).2⟩
  · obtain rfl := zero t ht
    exact eq j hj
  · obtain rfl := zero t ht
    exact mayStart x hx _ (Nat.lt_of_lt_of_le es (Nat.le_add_left _ _))

end KsaCase

theorem meets_KeySwitchArrayRunsInItsTime (h : Obligations.KeySwitchArrayRunsInItsTime) :
    (∃ t, exec (.kew 0 (ksa1 false true false)) s0 = .next t) ∧ ∃ t, exec (.ktab 0 0 com0) s0 = .next t := by
  refine ⟨by obtain ⟨t, _, ht, _⟩ := h.1 true 0 (ksa1 false true false) s0 ⟨by decide, by decide⟩; exact ⟨t, ht⟩, ?_⟩
  have hp : ∃ q, (s0.coach 0).place? 0 = some q ∧ (s0.coach 0).readable .ksa 0 q :=
    readable_of _ _ _ _ (by decide)
  obtain ⟨q, hq, hr⟩ := hp
  have hs : ((s0.coach 0).place? 0).all (fun q => decide (q.carriage < q.entry.size)) = true := by decide
  rw [hq] at hs
  exact (h.2 0 0 com0 s0 q ⟨by decide, by decide⟩ hq (of_decide_eq_true hs) hr).imp fun _ h => h.1

def KsaCase.run (x : KsaCase) : Instr := if x.1 then .kew 0 x.f else .kmm 0 x.f

/-- EXIT clear, and the first of a chain. -/
theorem meets_MatrixProductAccumulates (h : Obligations.MatrixProductAccumulates) :
    ∀ x ∈ KsaCase.all, x.2.2.2.1 = false → ∃ t, exec x.run x.st = .next t := by
  intro x hx he
  have g := h.1 x.1 0 x.f x.st x.sums x.counts (x.onTime hx)
  rw [x.now hx] at g
  have g := g (x.maySum hx)
  obtain ⟨-, et, ee, -, -, -, -, -, -, -, -, -, -, -, pass⟩ := KsaCase.facts x hx
  by_cases hp : x.2.1 = 1
  · exact (g.2 (pass.trans (by rw [hp]; rfl))).imp fun _ h => h.elim fun _ h => h.1
  · exact (g.1 (ee.trans he) (pass.trans (decide_eq_false hp)) (by rw [et]; decide)).imp fun _ h => h.1

theorem KsaCase.outs : ∀ x ∈ KsaCase.all, x.2.2.2.1 = true → x.g.exits x.f = true ∧ (x.st.coach 0).coupling = 1 ∧
    ∀ r < 16, ∀ j < 16, x.g.cellAt 0 r j = ((16 * r + j) / 64, (16 * r + j) % 64) := by decide +kernel

theorem KsaCase.cells_ : ∀ x ∈ KsaCase.all, x.2.2.2.1 = true →
    ((List.range 1).flatMap fun t => cells.map fun rc => ((x.g.cellAt t rc.1 rc.2).1 : Int)).eraseDups = [0, 1, 2, 3] := by decide +kernel

theorem KsaCase.dst : ∀ x ∈ KsaCase.all, x.2.2.2.1 = true →
    (∀ k < 4, writableB (x.st.coach 0) .ksa (((x.st.coach 0).run x.f.dst.toNat (((x.st.coach 0).engine .ksa).strideSum 2)).place
      ((k : Nat) : Int)) = true) ∧
    (((x.st.coach 0).run x.f.dst.toNat (((x.st.coach 0).engine .ksa).strideSum 2)).rows [0, 1, 2, 3]) = [64, 65, 66, 67] ∧
    ∀ r < 16, ∀ j < 16, ∀ k < x.g.groups,
      (((x.st.coach 0).run x.f.a.toNat (((x.st.coach 0).engine .ksa).strideSum 0)).rows [((x.g.firstAt x.1 0 r j k).1 : Int)] ++
        ((x.st.coach 0).run x.f.b.toNat (((x.st.coach 0).engine .ksa).strideSum 1)).rows [((x.g.secondAt x.1 0 r j k).1 : Int)]).all
        (fun r => decide (r < 64)) = true := by decide +kernel

/-- Out through the stage into rows 64 to 67, and pushed. -/
theorem meets_TilesLeaveThroughTheFusedStage (h : Obligations.TilesLeaveThroughTheFusedStage) :
    ∀ x ∈ KsaCase.all, x.2.2.2.1 = true → ∃ t, exec x.run x.st = .next t := by
  intro x hx he
  obtain ⟨-, et, -, ep, -, -, -, -, -, -, -, -, -, en, -⟩ := KsaCase.facts x hx
  obtain ⟨ex, ec, eo⟩ := x.outs hx he
  have off : ∀ k, x.g.enabled k = true → False := fun k hk => by
    unfold KsaCfg.enabled at hk
    rw [en] at hk
    simp [bitOf] at hk
  have zero : ∀ t, t < x.f.t.toNat + 1 → t = 0 := fun t ht => by rw [et] at ht; exact Nat.lt_one_iff.1 ht
  have g := h.1 x.1 0 x.f x.st x.sums x.counts (x.onTime hx)
  have eg : ((x.st.coach 0).engine .ksa).ksaCfg.forOp x.1 (x.f.t.toNat + 1) = x.g := rfl
  rw [x.now hx, eg] at g
  have g := g (x.maySum hx) ex (fun h => (off _ h).elim)
    (fun t r j _ _ _ _ => ⟨fun h => (off _ h).elim, fun h => (off _ h).elim⟩)
  have e1 : x.f.t.toNat + 1 = 1 := by rw [et]
  obtain ⟨dw, dr, da⟩ := x.dst hx he
  have oc : ∀ n, n = 1 → ((List.range n).flatMap fun t => cells.map fun rc => ((x.g.cellAt t rc.1 rc.2).1 : Int)).eraseDups = [0, 1, 2, 3] :=
    fun n hn => hn ▸ x.cells_ hx he
  by_cases hp : x.2.2.2.2 = true
  · exact (g.2 (ep.trans hp) ec).imp fun _ h => h.elim fun _ h => h.elim fun _ h => h.1
  · refine (g.1 (ep.trans (Bool.not_eq_true _ ▸ hp)) (fun t r j ht hr hj => ⟨?_, fun t' r' j' ht' hr' hj' e => ?_⟩) ?_
      (fun t r j k ht hr hj hk => ?_) (fun h => (off _ h).elim) (fun h => (off _ h).elim) (fun h => (off _ h).elim)).imp fun _ h => h.1
    · obtain rfl := zero t ht
      exact writable_of _ _ _ (by have := dw ((16 * r + j) / 64) (by omega); rw [eo r hr j hj]; exact this)
    · obtain rfl := zero t ht
      obtain rfl := zero t' ht'
      have e := (eo r' hr' j' hj').symm.trans (e.trans (eo r hr j hj))
      have a := congrArg Prod.fst e
      have b := congrArg Prod.snd e
      simp only at a b
      exact ⟨rfl, by omega, by omega⟩
    · rw [oc _ e1, dr]; decide
    · obtain rfl := zero t ht
      rw [oc _ e1, dr]
      intro row hrow hm
      have := of_decide_eq_true (List.all_eq_true.1 (da r hr j hj k hk) row hrow)
      simp only [List.mem_cons, List.not_mem_nil, or_false] at hm
      omega

/-- Digits of base 16 in -8 to 7, digit 1 first: 8 is 1, -8 (R138). -/
theorem test_gadget : digits 4 2 8 = [1, -8] ∧ digits 4 2 7 = [0, 7] := by decide

/-- A tie rounds up (R139): 3 · 4 / 8 is 1 1/2. -/
theorem test_round : roundScale 3 4 8 = 2 := by decide

theorem meets_GadgetDigitsAreBalanced : 0 < 1 ∧ 0 < 15361 * 18433 := by decide

/-- Elements 0 and 15, the first and the last of COUNT 1. -/
theorem meets_ModulusSwitchRounds : 0 < set1.torusPa ∧ 0 < set1.torusPb ∧ 0 < 16 * ((dbu1 1).count.toNat + 1) ∧
    15 < 16 * ((dbu1 1).count.toNat + 1) := by decide

/-! ## Accesses -/

/-- An access of an engine to row 5, of an entry of a kind. -/
def acc1 (e : Engine) (kind : Nat) (write : Bool) (act : Act) : Acc :=
  { clk := 0, engine := e, issued := 0, info := 9, row := 5, kind := kind, write := write, clears := !write, own := false, checked := true
    ord := 0, act := act, want := .data, slots := [0, 63], data := [7], tile := none, full := none }

/-- A coach with the hazard check on and the VEC under way; bank 0 in a state, row 5 filled or not, words in error, tiles in the
queue. -/
def s31 (st : BankSt) (full : Bool) (ecc : SMap (Option EccErr)) (tiles : Nat) : State :=
  let banks : SMap Bank := [(0, { Bank.reset with st := st })]
  let o : OpenEx :=
    { cmd := .vec .add (vec1 0), eng := ready, engine := .vec, clk := 0, o := 1, due := 9, use := 0, given := [], filled := [], made := []
      idxs := none, spoiled := false }
  s0.setCoach 0 { co0 with
    hazardOn := true, banks := banks, fill := if full then [(5, true)] else [], ecc := ecc, opens := [o], accs := [acc1 .vec 1 false .bank]
    tileQueue := List.replicate tiles { clk := 0, info := 0, src := 0, data := [1] } }

/-- An access outside every entry; to a bank without power; not allowed; to a filled in-window and to a row that is not filled; a write, also
by the KSA in scratchpad mode; a read of the VEC, with a word in error; a push into a queue of 15 and of 16 tiles; a pop of a tile that
came earlier, in this clk, and of none. -/
theorem meets_AccessesMeetTheirRows :
    let serves := fun (st : BankSt) (a : Acc) => (((s31 st false [] 0).coach 0).bank (a.row / 2048)).serves a
    let allowed := fun (a : Acc) => if a.write then mayWrite a.kind a.engine else mayRead a.kind a.engine
    let one := [(64 * 5 + 63, some EccErr.single)]
    let two := [(64 * 5 + 63, some EccErr.double)]
    (acc1 .vec 0 true .bank).kind = 0 ∧ (∃ k, (s31 .on false [] 0).runs 0 k) ∧ ((s31 .on false [] 0).coach 0).task = some 0 ∧
      serves .off (acc1 .vec 1 true .bank) = false ∧ serves .on (acc1 .vec 1 true .bank) = true ∧ serves .on (acc1 .vec 1 false .bank) = true ∧
      allowed (acc1 .vec 2 true .bank) = false ∧ allowed (acc1 .vec 3 false .bank) = false ∧ allowed (acc1 .sin 2 true .bank) = true ∧
      look false ((s31 .on true [] 0).coach 0).fill 5 = true ∧ look false ((s31 .on false [] 0).coach 0).fill 5 = false ∧
      allowed (acc1 .ksa 1 true .bank) = true ∧ ((s31 .on false [] 0).coach 0).coupling = 0 ∧ allowed (acc1 .vec 1 false .bank) = true ∧
      (((s31 .on false [] 0).coach 0).openOf (acc1 .vec 1 false .bank)).any (fun o => !o.spoiled) = true ∧
      (∀ e ∈ [one, two], ((s31 .on true e 0).coach 0).ecc.filter (fun x => decide (x.1 / 64 = 5)) = e) ∧
      ((s31 .on false [] 15).coach 0).tileQueue.length < 16 ∧ 16 ≤ ((s31 .on false [] 16).coach 0).tileQueue.length ∧
      ((s31 .on false [] 1).coach 0).tileQueue.all (fun e => decide (e.clk < 1)) = true ∧
      ((s31 .on false [] 1).coach 0).tileQueue.all (fun e => decide (0 ≤ e.clk)) = true ∧ ((s31 .on false [] 0).coach 0).tileQueue = [] ∧
      (nextAcc 0 ((s31 .on false [] 0).coach 0).accs).isSome = true := by
  refine ⟨rfl, ⟨_, rfl, by decide, by decide⟩, rfl, ?_⟩
  decide +kernel

/-! ## Streams -/

/-- A descriptor of one slot: near entry, far region, direction OUT. -/
def move1 (near region : Nat) (out : Bool) : BitVec 512 :=
  BitVec.ofNat 512 ((2 ^ 80 + 2 ^ 96 + 2 ^ 112 + region * 2 ^ 32) * 2 ^ 256 + near * 2 ^ 196 + (if out then 4 else 0))

/-- Entries 1, 2 and 3 of the map: an in-window, an out-window and the key window, each in its rows of bank 0. -/
def windows : SMap (BitVec 128) :=
  [(0, area), (1, BitVec.ofNat 128 (2 * 2 ^ 69 + 8 * 2 ^ 52 + 1024 * 2 ^ 41 + 1)),
   (2, BitVec.ofNat 128 (3 * 2 ^ 69 + 8 * 2 ^ 52 + 1032 * 2 ^ 41 + 1)),
   (3, BitVec.ofNat 128 (4 * 2 ^ 69 + 64 * 2 ^ 52 + 1040 * 2 ^ 41 + 1))]

/-- Regions 0 to 3: HBM, noise, host memory, fabric node 5. -/
def s5 : State :=
  let desc : SMap (BitVec 512) := [(0, move1 1 0 false), (1, move1 1 1 false), (2, move1 2 0 true), (3, move1 2 2 true), (4, move1 2 3 true)]
  let regions : SMap (BitVec 128) := [(0, 2 ^ 32), (1, 4 * 2 ^ 32), (2, 2 * 2 ^ 32), (3, 3 * 2 ^ 32)]
  let bindings : SMap Word64 := [(2, 0x1000), (3, 5 * 2 ^ 40)]
  { s0 with
    tasks := [{ task0 with bindings := bindings }]
    coaches := [(0, { co0 with slotA := { slot0 with map := windows, desc := desc, regions := regions } }), (1, co0)] }

/-- SIN: an HBM region, a noise region, and descriptor 5, which is all zero and so no input at all. -/
theorem meets_InputTransferAsksForItsGranules :
    (s5.coach 0).canIssue .sin true = true ∧ (s5.taskOf 0).isSome = true ∧
      (let d := XDesc.ofWord ((s5.coach 0).descriptor (((s5.coach 0).engine .sin).descField 0 3))
       d.mode = 0 ∧ d.len ≠ 0 ∧ d.dir = false ∧ ((s5.coach 0).prog.region d.farRegion).kind ≠ 4) ∧
      (let d := XDesc.ofWord ((s5.coach 0).descriptor (((s5.coach 0).engine .sin).descField 1 3))
       d.mode = 0 ∧ d.len ≠ 0 ∧ d.dir = false ∧ ((s5.coach 0).prog.region d.farRegion).kind = 4) ∧
      (let d := XDesc.ofWord ((s5.coach 0).descriptor (((s5.coach 0).engine .sin).descField 5 3))
       ¬(d.mode = 0 ∧ d.len ≠ 0 ∧ d.dir = false)) := by decide +kernel

/-- An open transfer that waits for its granule of host memory. -/
def waits : Transfer :=
  { desc := move1 1 2 false, far := .host, base := 0x1000, issuedAt := 0, visits := 0, got := []
    reqs := [{ far := .host, addr := 0x1000, urg := 0, clkAt := 0, first := 0, wr := [], rid := 0 }], free := 0, planned := 1
    com := com0, index := 0, filled := [], poisoned := false, images := [], remote := 0 }

/-- In the clk after its request left. -/
def s6 : State :=
  let s := s5.setCoach 0 { s5.coach 0 with engines := store EngineS.zero engines0 5 { ready with transfer := some waits } }
  { s with clk := 1 }

theorem meets_GranuleFillsTheWindow :
    s6.advance (0 + 1) = s6 ∧
    let d := XDesc.ofWord waits.desc.toNat
    ((s6.coach 0).engine .sin).transfer = some waits ∧ d.hdrCount = 0 ∧ d.reduce = 0 ∧ waits.got = [] ∧
      waits.visits < d.visits ∧ d.runLen waits.visits = 1 ∧
      ((d.movesOf waits.visits (d.visits - waits.visits)).take 1).flatten.length = 1 ∧
      (waits.reqs.find? fun r => r.far = .host).map (fun q => (q.first, q.clkAt)) = some (waits.visits, 0) ∧
      writableB (s6.coach 0) .sin ((s6.coach 0).slotPlace d.nearEntry (d.nearAt (waits.visits + 0))) = true :=
  ⟨now _ _ (by decide), by decide +kernel⟩

/-- A header image of a context with a key tag, one of a context that is not there, and plaintext. -/
theorem meets_GranuleFillsTheWindow_images :
    let s := s0.setCoach 0 coCt
    let known := fun h : Header => ((((s.coach 0).settle s.clk).ctx? h.context).any fun x => x.tag.isSome)
    (XDesc.ofWord waits.desc.toNat).hdrSlot + 1 ≠ 0 ∧ known (Header.ofImage (ct false).image) = true ∧
      (Header.ofImage (ct false).image).scheme ≠ .plain ∧
      ((((s.coach 0).settle s.clk).ctx? (Header.ofImage { ct false with context := 6 }.image).context)) = none ∧
      (Header.ofImage Header.fixedPlain.image).scheme = .plain := by decide +kernel

/-- SOUT: to HBM, to host memory and to node 5. -/
theorem meets_OutputTransferReadsItsWindow :
    (s5.coach 0).canIssue .sout true = true ∧ s5.atIssue 0 .sout = s5 ∧ (s5.taskOf 0).isSome = true ∧
      (∀ e ∈ [((2 : BitVec 10), Far.hbm), (3, .host), (4, .fabric 5)],
        let d := XDesc.ofWord ((s5.coach 0).descriptor (((s5.coach 0).engine .sout).descField e.1 3))
        d.mode = 0 ∧ d.len ≠ 0 ∧ d.dir = true ∧ d.visits = 1 ∧ (s5.farOf 0 d.farRegion).1 = e.2 ∧
          readableB (s5.coach 0) .sout s5.clk ((s5.coach 0).slotPlace d.nearEntry (d.nearAt 0)) = true) :=
  ⟨by decide +kernel, issue_now _ _ _ (by decide), by decide +kernel, by decide +kernel⟩

/-- SOUT has one write to host memory that leaves in this clk. -/
def leaving : State :=
  let q : Req := { far := .host, addr := 0x1000, urg := 0, clkAt := 0, first := 0, wr := [(0, (7, 255))], rid := 0 }
  s5.setCoach 0 { s5.coach 0 with
    engines := store EngineS.zero engines0 6 { ready with transfer := some { waits with reqs := [q], visits := 1 } } }

theorem meets_OutputTransferReadsItsWindow_leaves : leaving.pending = [] ∧ (leaving.coach 0).phase = .running ∧
    (∃ w q, ((leaving.coach 0).engine .sout).transfer = some w ∧ w.reqs = [q] ∧ w.images = [] ∧ q.far = .host ∧ q.left = false ∧
      q.clkAt ≤ leaving.clk) ∧
    (∀ a ∈ (leaving.coach 0).accs, a.engine = .sout → leaving.clk < a.clk) ∧
    ∀ d < 64, ∀ e ∈ [Engine.sin, .sout], (leaving.coach (BitVec.ofNat 6 d)).phase = .running → (d ≠ 0 ∨ e ≠ .sout) →
      (leaving.coach (BitVec.ofNat 6 d)).leavers leaving.clk e = [] :=
  ⟨by decide, by decide, ⟨_, _, rfl, rfl, rfl, rfl, by decide, by decide⟩, fun _ h => absurd h (List.not_mem_nil),
    by decide +kernel⟩

/-- A header image that SOUT takes in clk 3, for the request that carries it. -/
theorem meets_OutputTransferReadsItsWindow_images :
    let q : Req := { far := .host, addr := 0x1000, urg := 0, clkAt := 3, first := 1, wr := [], rid := 0 }
    let w : Transfer := { waits with reqs := [q], visits := 1, images := [(3, 2, 1, 0)] }
    let co := { s5.coach 0 with engines := store EngineS.zero engines0 6 { ready with transfer := some w } }
    (co.engine .sout).transfer = some w ∧ (3, 2, 1, 0) ∈ w.images ∧ (∀ j ∈ w.images, j.2.2.1 = 1 → j = (3, 2, 1, 0)) ∧ q ∈ w.reqs :=
  ⟨by decide +kernel, by decide, by decide, by decide⟩

def kcart1 : KcartF :=
  { hdr := 1, roff := 0, ring := 0, rbase := 0, count := 0, cart := 0, keyIndex := 0, com := com0 }

/-- A cart of tag 9, format 2, and 64 carriages. -/
def cart1 : Cart := { hdr := BitVec.ofNat 256 (2 * 2 ^ 112 + 9), body := List.replicate 64 7 }

/-- The cart on its way to coach 0. -/
def delivery1 : Delivery := { clkAt := 3, coach := 0, task := some 0, cart := cart1 }

/-- A KCART for context 5, whose cart comes to the coach. -/
def s7 : State :=
  let k : KinOpen :=
    { f := kcart1, target := 1, roff := 0, cart := 0, issuedAt := 0, done := 0, free := 1, planned := 1, index := 0, filled := [],
      poisoned := false, remote := 0 }
  let hs : SMap Header := [(1, ct false)]
  let t := s5.setCoach 0 { s5.coach 0 with
    engines := store EngineS.zero engines0 7 { ready with kin := some k }, headers := hs, ctxList := coCt.ctxList }
  { t with clk := 100, kst := { t.kst with flight := [delivery1] } }

/-- The 64 rows of a cart's region are different places that KIN may write. -/
theorem cart_rows : ∃ m, (s7.coach 0).keyWindow = some m ∧ m.kind = 4 ∧ 64 * 0 + 63 < m.size ∧
    (∀ n < 64, writableB (s7.coach 0) .kin (some { entry := m, carriage := 64 * 0 + n }) = true) ∧
    ((List.range 64).map fun n => ({ entry := m, carriage := 64 * 0 + n } : Place).row).Nodup :=
  ⟨MapEntry.ofWord (BitVec.ofNat 128 (4 * 2 ^ 69 + 64 * 2 ^ 52 + 1040 * 2 ^ 41 + 1)).toNat, rfl, by decide, by decide,
    by decide +kernel, by decide +kernel⟩

theorem meets_KeyCartFillsItsRegion :
    ((s5.coach 0).canIssue .kin true = true ∧ (s5.coach 0).intake = []) ∧
      findAt (fun x : Delivery => decide (x.coach = 0)) s7.kst.flight 0 = some (0, delivery1) ∧
      s7.advance (delivery1.arrives (s7.coach 0).intakeAt s7.clk) = s7 ∧
      (s7.coach 0).phase = .running ∧ (s7.coach 0).task = delivery1.task ∧ (s7.coach 0).intakeDone = false ∧ (s7.coach 0).intake = [] ∧
      (∃ k, ((s7.coach 0).engine .kin).kin = some k ∧ k.done ≤ k.f.count.toNat ∧ (cart1.seq.toNat : Int) = k.cart + k.done ∧
        k.f.rbase.toNat + ((k.roff + k.done) % ((k.f.ring.toNat : Int) + 1)).toNat = 0 ∧
        ((s7.coach 0).settle s7.clk).tagOf (((s7.coach 0).settle s7.clk).headerRaw k.target).context = some cart1.tag) ∧
      cart1.format = 2 ∧ cart1.keyIndex = kcart1.keyIndex ∧ cart1.tag ≠ noKeyTag ∧ cart1.body.length = 64 :=
  ⟨by decide, by decide +kernel, now _ _ (by decide), by decide, by decide, by decide, by decide,
    ⟨_, rfl, by decide, by decide +kernel, by decide, by decide +kernel⟩, by decide +kernel, by decide +kernel, by decide +kernel,
    by decide⟩

/-! ## Tasks -/

def sig1 (c : CoachId) : Sig := { engine := .nte, coach := c, door := 3, amount := 1, due := 5 }

/-- Signals of the NTE to door 3 here and at coach 1, one that has come from elsewhere, and a transfer that is done. -/
def s8 : State :=
  let done : Transfer := { waits with visits := 1, reqs := [], com := { com0 with csAmt := 7, csDoor := 4 } }
  s0.setCoach 0 { co0 with
    sigs := [sig1 0, sig1 1], inbound := [sig1 0]
    engines := store EngineS.zero engines0 5 { ready with transfer := some done } }

theorem meets_SignalsReachTheirDoors :
    (s8.coach 0).phase = .running ∧
      firstDue ((s8.coach 0).sigs.filter fun x => decide (x.engine = .nte)) = some (sig1 0, [sig1 1]) ∧
      firstDue ((s8.coach 0).sigs.drop 1) = some (sig1 1, []) ∧ firstDue (s8.coach 0).inbound = some (sig1 0, []) ∧
      ((s8.coach 0).completesAt .sin).any (fun r => r.1 ≤ s8.clk) = true ∧
      (∀ sid, ((s8.coach 0).engine .sin).st ≠ .atShutter sid) :=
  ⟨by decide, by decide, by decide, by decide, by decide +kernel, fun _ h => EngSt.noConfusion h⟩

/-- VEC and DBU wait at door 3, which holds 5: for 3 and for `m`. -/
def waiting2 (m : BitVec 16) : Coach :=
  { waiting1 3 with engines := store EngineS.zero (waiting1 3).engines 3 { ready with st := .onWait 3 m } }

/-- Alone, the VEC gets its 5 and misses its 6; before the DBU, it leaves 2, which are too few for 3. -/
theorem meets_SignalsReachTheirDoors_doors :
    ((waiting1 5).door 3).value = 5 ∧ ((waiting1 5).engine .vec).st = .onWait 3 5 ∧ ((waiting1 6).engine .vec).st = .onWait 3 6 ∧
      (∀ e, e ≠ Engine.vec → ((waiting1 5).engine e).st = .issuing ∧ ((waiting1 6).engine e).st = .issuing) ∧
      eid .vec < eid .dbu ∧ ((waiting2 3).engine .vec).st = .onWait 3 3 ∧ ((waiting2 3).engine .dbu).st = .onWait 3 3 ∧
      (∀ e, e ≠ Engine.vec → e ≠ .dbu → ((waiting2 3).engine e).st = .issuing) ∧ ((waiting2 3).door 3).value = 5 := by
  refine ⟨by decide, by decide, by decide, fun e h => ?_, by decide, by decide, by decide, fun e h g => ?_, by decide⟩
  · cases e <;> first | exact absurd rfl h | decide
  · cases e <;> first | exact absurd rfl h | exact absurd rfl g | decide

/-- Two idle coaches that hold program 1, and a queued task. -/
def s9 : State :=
  let co : Coach := { Coach.reset with slotA := slot0 }
  { s0 with coaches := [(0, co), (1, co)], tasks := [{ task0 with st := .queued }] }

theorem meets_TaskStartPreparesItsCoaches :
    (∃ k, (s9.tasks.find? fun t => t.id = 7 && t.st = .queued) = some k ∧ s9.startReady k = true ∧ s9.queueReady k = true ∧
      (∀ c ∈ maskCoaches k.coachMask, (s9.coach c).gated = false) ∧ maskCoaches k.coachMask ≠ [] ∧
      (∀ n ∈ k.devices, ∀ u ∈ s9.ehl.unreachable, u.1 ≠ n.toNat)) ∧ s9.board.throttle = false :=
  ⟨⟨{ task0 with st := .queued }, by decide, by decide, by decide, by decide, by decide, by decide⟩, by decide⟩

def allEnded : SMap EngineS := (List.range 8).map fun i => (i, { EngineS.zero with st := .ended })

/-- Coach 0 has ended its part; `first` says whether it is the first of the two to do so. -/
def s10 (first : Bool) : State :=
  let word : DigestRec := { word := 5 }
  { s0 with
    coaches := [(0, { co0 with engines := allEnded }), (1, co0)]
    tasks := [{ task0 with endedCoaches := if first then [] else [1], records := [word] }] }

theorem meets_CoachEndPassesItsAccounts :
    (∀ first : Bool, ((s10 first).coach 0).task = some 0 ∧ ((s10 first).coach 0).partOver = true ∧
      ((s10 first).task? 0).any (fun k => k.st = .running && decide (((maskCoaches k.coachMask).all fun x =>
        (k.endedCoaches ++ [0]).contains x.toNat) = !first)) = true) ∧
      ((s10 true).tasks.find? fun t => t.id = 7 && !t.records.isEmpty).isSome = true := by decide

/-- The arrival of node 5 in a clk, fabric time being the same. -/
def remote1 (at_ : Nat) : Arrival := { use := 0, node := 5, fd := 90, ftimeAt := at_, clkAt := at_ }

/-- Shutter 2 is of device scope and names the NTE, shutter 3 of fabric scope; both coaches have arrived at both, and node 5 too. -/
def s11 (at_ : Nat) : State :=
  let shut : SMap (BitVec 32) := [(2, 1), (3, 257)]
  let use : ShutUse := { ShutUse.zero with arrived := [0, 8], lastAt := 4, sentFd := some 1000, remotes := [remote1 at_] }
  let co : Coach := { co0 with
    slotA := { slot0 with shutters := shut }, engines := store EngineS.zero engines0 0 { ready with st := .atShutter 2 } }
  { s0 with coaches := [(0, co), (1, co)], tasks := [{ task0 with shutters := [(2, use), (3, use)], devices := [0, 5] }] }

/-- 192 clk before R = 1,000 is in time, 191 is not. -/
theorem meets_ShuttersReleaseTogether :
    (∃ k, (s11 808).taskNamed 7 = some k ∧ maskCoaches k.coachMask = [0, 1] ∧ k.st = .running ∧
      ((s11 808).coach 0).prog.shutterFabric 2 = false ∧ (k.shutter 2).arrived ≠ [] ∧
      k.participants (((s11 808).coach 0).prog.shutterMask 2) ≤ (k.shutter 2).arrived.length) ∧
    ∀ at_ ∈ [808, 809], ((s11 at_).taskNamed 7).any (fun k =>
      let w := k.shutter 3
      let mine := w.remotes.filter fun x => decide (x.use = w.uses % 2 ^ 16)
      decide (w.sentFd = some 1000) && decide (mine = [remote1 at_]) &&
        (k.devices.all fun n => decide (n = (s11 at_).ehl.nodeId) || mine.any fun x => decide (x.node = n.toNat)) &&
        decide (mine.foldl (fun a x => max a x.fd) 1000 + k.f.margin.toNat = 1000)) = true ∧
      (s11 at_).ehl.slew = 0 ∧ (s11 at_).ehl.drift = 0 ∧ (s11 at_).ehl.ftime < 2 ^ 62 :=
  ⟨⟨_, rfl, by decide, by decide, by decide, by decide, by decide⟩, by decide⟩

/-- An engine waits at a door and every other has ended, on both coaches; the task has a run limit. -/
def s12 : State :=
  let co : Coach := { co0 with
    engines := store EngineS.zero allEnded 2 { ready with st := .onWait 3 9 }, wdogActive := 65536, wdogCount := 65536 }
  { s0 with coaches := [(0, co), (1, co)], tasks := [{ task0 with f := { fields0 with runLimit := 1 }, wdogCount := 65536 }] }

/-- Both watchdogs reach their limit in this clk. -/
theorem meets_WatchdogsAbortTheTask :
    (s12.coachStuck (s12.coach 0)).any (fun since => decide (since ≤ s12.clk)) = true ∧
    fires s12.clk (s12.coach 0).wdogActive (s12.coach 0).wdogCount (s12.coachStuck (s12.coach 0)) = true ∧
    ∃ k, s12.runs 0 k ∧ (s12.coach 0).task = some 0 ∧ s12.taskNamed 7 = some k ∧ maskCoaches k.coachMask = [0, 1] ∧
      (s12.taskStuck k).any (fun since => decide (since ≤ s12.clk)) = true ∧
      fires s12.clk (s12.coach 0).wdogActive k.wdogCount (s12.taskStuck k) = true ∧ k.f.runLimit ≠ 0 ∧ (s12.coach 0).phase = .running :=
  ⟨by decide, by decide, _, ⟨rfl, by decide, by decide⟩, by decide, by decide, by decide, by decide, by decide, by decide, by decide⟩

def abort1 : AbortCond :=
  { code := 9, rank := 64, coach := none, source := srcHost, payload := 0, remote := none, clkAt := 0 }

/-- A task that aborts, its coach 0 in a phase, with a transfer out or none. -/
def s13 (p : Phase) (w : Option Transfer) : State :=
  { s0 with
    coaches := [(0, { co0 with phase := p, engines := store EngineS.zero engines0 6 { EngineS.zero with transfer := w } }), (1, { co0 with phase := .idle, task := none })]
    tasks := [{ task0 with st := .aborting, abort := some abort1, scrubbed := if p = .idle then [0, 1] else [] }] }

theorem meets_AbortStopsDrainsAndScrubs :
    ((s13 .running none).abortFor 0).isSome = true ∧
      (∀ w ∈ [none, some waits], ((s13 .stopped w).coach 0).phase = .stopped ∧ (((s13 .stopped w).coach 0).engine .sout).transfer = w) ∧
      ((s13 .scrubbing none).coach 0).phase = .scrubbing ∧ ((s13 .scrubbing none).coach 0).task = some 0 ∧
      ((s13 .idle none).tasks.find? fun t => t.id = 7 && t.st = .aborting).any (fun k =>
        (maskCoaches k.coachMask).all fun x => (s13 .idle none).abortDone k x) = true :=
  ⟨by decide, by decide +kernel, by decide, by decide, by decide⟩

/-- Banks 3 and 31 of coach 0 drain and wake; coach 1 is idle with an idle limit, coach 2 gated and due to wake. -/
def s14 (throttle : Bool) : State :=
  let banks : SMap Bank := [(3, { Bank.reset with st := .draining, target := false }), (31, { Bank.reset with st := .waking })]
  { s0 with
    coaches := [(0, { co0 with banks := banks }), (1, { Coach.reset with idleLimit := 1 }), (2, { Coach.reset with gated := true, waking := true })]
    board := { s0.board with throttle := throttle } }

theorem meets_BanksAndCoachesPowerDownAndUp :
    (((s14 false).coach 0).bank (3 : BitVec 5).toNat).st = .draining ∧ (((s14 false).coach 0).bank (31 : BitVec 5).toNat).st = .waking ∧
      (s14 false).coachIdle 1 = true ∧ ((s14 false).coach 1).gated = false ∧ ((s14 false).coach 1).idleLimit ≠ 0 ∧
      (s14 false).coachIdle 0 = false ∧ ((s14 false).coach 2).gated = true ∧ ((s14 false).coach 2).waking = true ∧
      (s14 false).board.throttle = false ∧ (s14 true).board.throttle = true := by decide

/-- Row 5 is to be repaired; `n` spares of its bank are used. -/
def s15 (debug : Bool) (n row : Nat) (req : Option DbgReq) : State :=
  { s0 with
    coaches := [(0, { Coach.reset with repairs := [5], spares := [(0, n)], dbgAddr := BitVec.ofNat 22 (64 * row), dbgReq := req })]
    boot := { s0.boot with debug := debug } }

theorem meets_RepairsAndDebugAccesses :
    (∀ n ∈ [15, 16], ((s15 true n 0 none).coach 0).repairs.contains 5 = true ∧ ((s15 true n 0 none).coach 0).phase = .idle ∧
      look 0 ((s15 true n 0 none).coach 0).spares (5 / 2048) = n) ∧
      ((s15 true 0 0 none).coach 0).dbgReq = none ∧ (s15 true 0 0 none).boot.debug = true ∧ (s15 false 0 0 none).boot.debug = false ∧
      ((s15 true 0 1535 none).coach 0).dbgAddr.toNat / 64 % 2048 < 1536 ∧
      1536 ≤ ((s15 true 0 1536 none).coach 0).dbgAddr.toNat / 64 % 2048 ∧
      (∀ w : Bool, ((s15 true 0 0 (some { write := w, addr := 0 })).coach 0).dbgReq = some { write := w, addr := 0 } ∧
        (((s15 true 0 0 (some { write := w, addr := 0 })).coach 0).bank 0).st = .on) := by
  refine ⟨by decide, by decide, rfl, rfl, by decide, by decide, by decide⟩

/-! ## The queue, the invariant and the encodings -/

theorem meets_StepRunsTheFrontCommand (h : Obligations.StepRunsTheFrontCommand) :
    (∃ t, step { State.reset with pending := [.commit] } = .next t) ∧ (∃ t, step State.reset = .next t ∧ t.clk = 1) :=
  ⟨⟨_, (h.1 .commit [] { State.reset with pending := [.commit] } rfl).trans rfl⟩,
    (h.2 State.reset rfl).imp fun _ h => ⟨h.1, h.2.1⟩⟩

theorem reset_inv : State.reset.Inv := ⟨by decide, by decide, by decide⟩

theorem meets_EveryStepKeepsTheInvariant (h : Obligations.EveryStepKeepsTheInvariant) :
    ∃ t, step { State.reset with pending := [.commit] } = .next t ∧ t.Inv :=
  ⟨_, rfl, h { State.reset with pending := [.commit] } _ ⟨by decide, by decide, by decide⟩ rfl⟩

theorem meets_EngineWordsDecodeBack : ∃ w, instrWord (.rot 63 rot1) = some (63, .pxu, w) ∧ hasOpcode (.rot 63 rot1) = true :=
  ⟨_, rfl, by decide⟩

theorem meets_HostCommandWordsDecodeBack :
    ∃ w, commandHeader (.fence hdr0 true) = some hdr0 ∧ commandWord (.fence hdr0 true) = some w := ⟨_, rfl, rfl⟩

/-! ## The key streamer and the memory controllers -/

/-- No word is in error where no channel and no word has a fault on record. -/
theorem noErr_of (s : State) (h1 : s.hbm.stackTable = []) (h2 : s.hbm.ecc = []) (w : Nat) : s.wordErr w = none := by
  have h : ∀ k, s.stk k = Stack.reset := fun k => by simp [State.stk, h1, look]
  simp [State.wordErr, h, h2, Stack.reset, look]

/-- The list entry for coaches 0 and 1: cart 0 of key 5 of context 0, in a group or not. -/
def keyEntry (group : Bool) : BitVec 256 :=
  BitVec.ofNat 256 (2 ^ 192 * 3 + 2 ^ 180 * 9 + 2 ^ 179 * (if group then 1 else 0) + 2 ^ 96 * 1 + 2 ^ 48 * 5 + 2 ^ 18 * 1)

/-- Key 5: 12 carts, headers from 2^20 on, bodies from 576 times 4096 on. -/
def keyDir : Nat := 2 ^ 184 * 1 + 2 ^ 160 * 5 + 2 ^ 128 * 12 + 2 ^ 64 * 2 ^ 20 + 576 * 4096

/-- The same key at another device. -/
def farDir : Nat := keyDir + 2 ^ 104 * 6 + 2 ^ 40 * 6

/-- A queue of task 0 in a stage of its first cart, its directory entry read or not. -/
def queue1 (dir : Bool) (stage : Nat) : KeyQueue :=
  { KeyQueue.idle with
    active := true, taskId := 7, set := [(0, 0)], next := 1, limit := 100, stage := stage
    dirs := if dir then [(0, some (BitVec.ofNat 256 keyDir))] else []
    got := if stage = 2 then (List.range 32).map fun i => (i + 1, List.replicate 576 7) else []
    hdrs := if stage = 2 then [(0, some (1048320, List.replicate 576 9))] else [] }

def keys1 (group : Bool) (v : KeyQueue) (used : SMap Nat) : State :=
  { s0 with
    tasks := [{ task0 with keylist := [keyEntry group] }]
    contexts := [(0, some { bound := true, paramSet := 1, tag := 77, dirAddr := 0 })]
    kst := { s0.kst with queues := [(2, v)], used := used } }

/-- What holds of the cart in hand of queue 2. -/
def handed (s : State) (p : KeyQueue → InHand → Bool) : Bool := (s.inHand (s.keyQueue 2)).any (p (s.keyQueue 2))

/-- No directory entry, one that names the cart, a group that is not set, all granules here, and a receiver without credit. -/
theorem meets_KeyStreamerSendsItsCarts :
    (∀ x ∈ [keys1 false (queue1 false 0) [], keys1 false (queue1 true 2) []],
      (x.keyQueue 2).active = true ∧ (x.task? (x.keyQueue 2).task).any (fun k => k.st = .running && decide (k.t0 ≤ x.clk)) = true) ∧
    handed (keys1 false (queue1 false 0) []) (fun v h => v.stage = 0 && v.got.isEmpty && (v.dir h).isNone &&
      decide (h.e.context = 0) && decide (0 + 32 * h.e.keyIndex + 32 ≤ hbmEnd) && decide (h.e.groupEn = false)) = true ∧
    handed (keys1 false (queue1 true 0) []) (fun v h => v.stage = 0 && v.got.isEmpty && !v.void &&
      (v.dir h).any fun d => d.names h.e h.seq && decide (d.bodyNode = (keys1 false (queue1 true 0) []).ehl.nodeId)) = true ∧
    handed (keys1 true { queue1 true 0 with dirs := [(0, some (BitVec.ofNat 256 farDir))] } []) (fun v h =>
      (match (keys1 true { queue1 true 0 with dirs := [(0, some (BitVec.ofNat 256 farDir))] } []).keyRole h.e with
        | .void => true | _ => false) && (v.dir h).any fun d => decide (d.hdrNode ≠ s0.ehl.nodeId ∧ d.bodyNode ≠ s0.ehl.nodeId)) = true ∧
    handed (keys1 true (queue1 true 0) []) (fun _ h => match (keys1 true (queue1 true 0) []).keyRole h.e with
      | .void => true | _ => false) = true ∧
    handed (keys1 false (queue1 true 2) []) (fun v h => (keys1 false (queue1 true 2) []).cartReady v h &&
      decide ((keys1 false (queue1 true 2) []).roomAt h ≤ (keys1 false (queue1 true 2) []).clk) && decide ((keys1 false (queue1 true 2) []).turnQueue = some 2) && !v.void && (v.dir h).isSome &&
      (look none v.hdrs h.entry).any fun x => decide (x.1 = v.hdrGranule h)) = true ∧
    handed (keys1 false (queue1 true 2) [(1, 2)]) (fun v h => (keys1 false (queue1 true 2) [(1, 2)]).cartReady v h &&
      decide ((keys1 false (queue1 true 2) [(1, 2)]).lacking v h = [1])) = true :=
  by and_intros <;> decide +kernel

/-- Credits of coach 0 on their way; queue 2 has waited 100 clk for coaches 0 and 1 and for member 9; a serving task that has sent
all. -/
def s16 : State :=
  let v : KeyQueue := { queue1 true 2 with used := [(73, 8)], timers := [(0, 100), (1, 100), (73, 100)] }
  let s := keys1 true v [(0, 2), (1, 2)]
  let w : KeyQueue := { KeyQueue.idle with active := true, task := 1, taskId := 8, next := 1 }
  let served : Task := { task0 with key := 1, id := 8, coachMask := 0, keylist := [keyEntry true], f := { fields0 with programId := 0 } }
  { s with
    tasks := s.tasks ++ [served]
    kst := { s.kst with
      queues := [(2, v), (3, w)], sharesPending := some [6, 1, 1]
      groups := [(9, some { role := 0, source := 0, portMask := 0x8000, members := [9] })]
      back := [{ due := 100, recv := 0, all := false }, { due := 50, recv := 0, all := false }] } }

theorem meets_KeyCreditsReturnOrTimeOut :
    firstBack (s16.kst.back.filter fun b => decide (b.recv = (0 : CoachId))) = some { due := 50, recv := 0, all := false } ∧
      50 ≤ s16.clk + 172 ∧ s16.timerFull 2 0 = true ∧
      (∀ q < 16, (keys1 true (queue1 true 2) []).timerFull q 0 = false) ∧
      (∀ r ∈ [Receiver.coach 1, .member 9], (s16.heldFor (s16.keyQueue 2)).contains (receiverNumber r) = true ∧
        (s16.keyQueue 2).limit ≤ look 0 (s16.keyQueue 2).timers (receiverNumber r) ∧
        s16.timerFull 2 (receiverNumber r) = true) ∧
      s16.timerFull 2 (64 + (9 : NodeId).toNat) = true ∧ handed s16 (fun _ h => decide (h.task.key = 0) && (h.e.receivers h.seq).contains 0) = true ∧ (∃ k, s16.runs 0 k) ∧
      (∃ k q v, (s16.tasks.find? fun t => t.id = 8 && t.st = .running && t.f.programId = 0) = some k ∧
        s16.queueOf k.key = some (q, v) ∧ s16.keysDone k.key = true ∧ ∀ u ∈ v.used, u.2 = 0) ∧
      s16.kst.sharesPending = some [6, 1, 1] :=
  ⟨by decide, by decide, by decide +kernel, by decide +kernel, by decide +kernel, by decide +kernel, by decide +kernel,
    ⟨_, rfl, by decide, by decide⟩, ⟨_, _, _, rfl, rfl, by decide +kernel, by decide⟩, rfl⟩

/-- A request for 576 bytes at address 0, which lies in logical channel 0. -/
def ask1 (port : Nat) (job : AskJob) : Ask := { port := port, chan := 0, addr := 0, n := 576, clkAt := 0, job := job }

def keyAsk : Ask := ask1 0 (.key 2 0 1)

def writeAsk : Ask := ask1 1 (.write (some (5, 9, 1)) (List.replicate 576 7))

def readAsk : Ask := ask1 2 (.respond { tag := 9, dst := 0, src := 5, group := 0, ttl := 1, len := 0, addr := 0, info := 0, data := [] } [])

def hostAsk : Ask := ask1 3 (.host 0 [] false)

/-- The coach's SIN and SOUT transfers of one granule each ask at logical channel 0, and so do the listed requests. -/
def bids1 (sin sout : Bool) (asks : List Ask) : State :=
  let t : Transfer := { waits with
    far := .hbm, base := 0, reqs := [{ far := .hbm, addr := 0, urg := 1, clkAt := 0, first := 0, wr := [], rid := 1 }] }
  let es := if sin then store EngineS.zero engines0 5 { ready with transfer := some t } else engines0
  let es := if sout then store EngineS.zero es 6 { ready with transfer := some t } else es
  let s := s5.setCoach 0 { s5.coach 0 with engines := es }
  { s with hbm := { s.hbm with asks := asks } }

/-- The engine of the coach that wins, the request that wins, or neither. -/
def won : Winner → Option Engine × Option Ask
  | .coach b => (some b.eng, none)
  | .port a => (none, some a)
  | .nobody => (none, none)

/-- A coach wins over the host, the key streamer its own slot 4 and, alone, slot 0; gateway 0 has slot 9, gateway 1 slot 14. -/
theorem meets_GrantSlotsServeTheirWinner :
    won ((bids1 true false [keyAsk, hostAsk]).winner 0 0) = (some .sin, none) ∧ won ((bids1 false true []).winner 0 0) = (some .sout, none) ∧
      won ((bids1 true true [keyAsk]).winner 0 4) = (none, some keyAsk) ∧ won ((bids1 false false [keyAsk]).winner 0 0) = (none, some keyAsk) ∧
      won ((bids1 true true [writeAsk]).winner 0 9) = (none, some writeAsk) ∧
      won ((bids1 true true [readAsk]).winner 0 14) = (none, some readAsk) ∧
      won ((bids1 false false [keyAsk, hostAsk]).winner 0 0) = (none, some hostAsk) ∧
      won ((bids1 false false []).winner 247 35) = (none, none) ∧
      (∀ n < 36, (bids1 true true []).refreshing 0 n = false) ∧ (bids1 true true []).refreshing 0 39 = true ∧
      (bids1 true true []).channelRetrains 0 = false ∧ (bids1 true true []).moving 0 true = false ∧ (bids1 true true []).moving 0 false = false ∧
      ((bids1 false false [writeAsk]).stk (stackOf (channelOf (granuleOf 0)))).unserved = [] ∧ writeAsk.part = 576 ∧ readAsk.part = 576 ∧
      ∀ w, (bids1 true false [keyAsk]).wordErr w = none := by
  iterate 16 refine ⟨by decide +kernel, ?_⟩
  exact noErr_of _ rfl rfl

/-- The slot itself: 18 clk after slot 0 comes slot 1, and no slot of the frame is over. -/
theorem meets_GrantSlotsServeTheirWinner_slot : (bids1 true false []).hbm.slots = [] ∧
    ((((bids1 true false []).advance ((bids1 true false []).hbm.frameAt + 18 * 0)).closeSlot 0 0).bids 0).map (·.eng) = [.sin] := by
  rw [now _ _ (by decide)]
  decide +kernel

/-- Stack 7 retrains channel 30, has failed `n` times, and its spare is unused. -/
def stack7 (n : Nat) : State := State.reset.setStk 7 { Stack.reset with temp := 90, retraining := some (30, n) }

def stack6 (filling : Bool) : State := State.reset.setStk 6 { Stack.reset with evac := some (30, 5), filling := filling }

theorem meets_ChannelsRetrainAndAreReplaced :
    (∀ k < 8, (State.reset.stk k).copying = []) ∧
      (∀ n ∈ [0, 2], ((stack7 n).stk (7 : BitVec 3).toNat).retraining = some (30, n) ∧ ((stack7 n).stk 7).spareFor = 31 ∧
        ((stack7 n).stk 7).noSpare = false ∧ ((stack7 n).stk 7).evac = none) ∧
      ((stack6 false).stk 6).evac = some (30, 5) ∧ ((stack6 false).stk 6).filling = false ∧
      ((stack6 true).stk 6).filling = true ∧ (State.reset.stk 0).evac = none ∧ (State.reset.stk 0).noSpare = false :=
  ⟨by decide, by decide, by decide, by decide, by decide, by decide, by decide⟩

/-- The word at 8 times 4 cannot be corrected. -/
def badWord : State := { State.reset with hbm := { State.reset.hbm with ecc := [(4, some .double)] } }

/-- A request of eight bytes that lies in one granule and one that crosses into the next. -/
def windowAsk (addr : Nat) : Ask := { port := 3, chan := 0, addr := addr, n := 8, clkAt := 0, job := .host 4 [] false }

theorem meets_WindowReachesMemory :
    min 8 (hbmEnd - (State.reset.hif.bar2Gib.toNat * 2 ^ 30 + 32)) = 8 ∧ min 8 (hbmEnd - hbmEnd) = 0 ∧
      (∀ w, State.reset.wordErr w = none) ∧ (windowAsk 568).part = (windowAsk 568).n ∧ (windowAsk 572).part < (windowAsk 572).n ∧
      badWord.wordErr (((windowAsk 32).addr + 7) / 8) = some .double ∧ 7 < (windowAsk 32).part ∧
      (State.reset.stk (stackOf (channelOf (granuleOf 32)))).unserved = [] ∧ State.reset.boundRegions = [] :=
  ⟨by decide +kernel, by decide +kernel, noErr_of _ rfl rfl, by decide +kernel, by decide +kernel, by decide +kernel, by decide +kernel,
    by decide +kernel, by decide +kernel⟩

/-! ## The host interface -/

/-- The words of a control register: enabled with a ring of 16 entries, of 65,536, of 8, and disabled. -/
def controls : List (BitVec 32) := [1 + 2 ^ 4 * 4, 1 + 2 ^ 4 * 16, 1 + 2 ^ 4 * 3, 2 ^ 4 * 4]

theorem meets_RingsFollowTheirControlsAndDoorbells :
    (s0.sq 63).enable = false ∧ (s0.cq 63).enable = false ∧ s0.evt.enable = false ∧
      ((s0.setSq 63 { Sq.reset with enable := true }).sq 63).enable = true ∧
      ((s0.setCq 63 { Cq.reset with enable := true }).cq 63).enable = true ∧
      controls.map (fun v => decide (v.getLsbD 0 = true ∧ 4 ≤ (v.extractLsb' 4 5).toNat ∧ (v.extractLsb' 4 5).toNat ≤ 16)) =
        [true, true, false, false] ∧
      (0 : BitVec 32).toNat < 2 ^ 16 ∧ s0.hif.hostReady = true ∧ (0 : BitVec 32).toNat < 2 ^ (s0.sq 63).logSize.toNat ∧
      2 ^ (s0.sq 63).logSize.toNat ≤ (1 : BitVec 32).toNat := by decide

/-- Ring 63 holds a command, its first byte that of a FENCE or of no command; ring 63 of completions holds two records;
source 5 has an event and the event ring a record; interrupts wait. -/
def s17 (op : Byte) : State :=
  let q : Sq := { Sq.reset with enable := true, logSize := 4, head := 15, tail := 0, cq := 63 }
  let k : Completion := { word := 7, noIrq := false }
  let c : Cq := { Cq.reset with enable := true, logSize := 4, tail := 15, head := 1, held := [k, k], unsignalled := 1, delay := 2, base := 4096 }
  let x : EvSource := { EvSource.zero with waiting := [{ code := 1, payload := 9 }] }
  let e : Evt := { Evt.reset with sources := [(5, x)], held := [3], enable := true, logSize := 4, unsignalled := 1, base := 8192 }
  let s := (s0.setSq 63 q).setCq 63 c
  { s with evt := e, host := [(128 * 15, op)] }

theorem meets_CommandsAreFetchedAndAnswered :
    (s17 7).turn = some 63 ∧ malformedAt (leNat (lookList 0 (s17 7).host (128 * 15) 128)) = none ∧
      malformedAt (leNat (lookList 0 (s17 10).host (128 * 15) 128)) = some 0 ∧ (s17 7).turn ≠ some 62 ∧
      (((s17 7).cq 63).held.length = 2 ∧ ((s17 7).cq 63).enable = true ∧ ((s17 7).cq 63).full = false) ∧
      ((look EvSource.zero (s17 7).evt.sources 5).waiting.map fun x => x.replayed) = [false] ∧
      (s17 7).advance ((look EvSource.zero (s17 7).evt.sources 5).recordAt 5 (s17 7).clk) = s17 7 ∧ (s17 7).evt.held.length < 256 ∧
      (s17 7).evt.held.all (fun o => !(s17 7).evt.after (s17 7).clk 5 o) = true ∧
      (let e := { (s17 7).evt with held := [2 ^ 64 * 6], sources := [(6, { EvSource.zero with lastClk := some 9 })] }
       e.after 9 5 (2 ^ 64 * 6) = true) ∧
      ((s17 7).evt.enable = true ∧ (s17 7).evt.full = false) ∧ ((s17 7).cq 63).unsignalled ≠ 0 ∧ (s17 7).evt.unsignalled ≠ 0 :=
  ⟨by decide +kernel, by decide +kernel, by decide +kernel, by decide +kernel, by decide +kernel, by decide, now _ _ (by decide +kernel),
    by decide, by decide +kernel, by decide +kernel, by decide, by decide, by decide⟩

/-- The header of a command without an argument. -/
def hdr1 : CmdHdr := { hdr0 with taskId := 0 }

def context1 : Context := { bound := false, paramSet := 1, tag := noKeyTag, dirAddr := 0 }

def group1 (delete : Bool) (role : BitVec 2) : GroupF :=
  { members := if delete then 0 else 1, portMask := 0, source := 0, role := role, delete := delete, group := 4095 }

/-- Context 0 stands, group 4095 too; a registration waits for context 0. -/
def s18 : State :=
  let g : Group := { role := 2, source := 0, portMask := 0, members := [] }
  { s0 with
    contexts := [(0, some context1)], tasks := [{ task0 with contexts := [1] }]
    kst := { s0.kst with groups := [(4095, some g)] }
    hif := { s0.hif with waiting := [.keyRegister hdr1 0 5 32] } }

theorem meets_ContextsKeysAndGroupsAreKept :
    ((∃ w, commandHeader (.fence hdr0 true) = some hdr0 ∧ commandWord (.fence hdr0 true) = some w ∧ (malformedAt w).isSome = true) ∧
        hdr1.taskId = 0 ∧ hdr1.argAddr = 0 ∧ (32 : BitVec 40).toNat % 32 = 0) ∧
      (s0.usable? 1 = some set1 ∧ s0.usable? 2 = none ∧ look none s0.contexts 0 = none ∧ look none s18.contexts 0 = some context1 ∧
        look none s18.contexts 1 = none ∧ s0.hif.waiting = []) ∧
      (∃ rest, s18.hif.waiting = .keyRegister hdr1 0 5 32 :: rest) ∧
      (∀ role ∈ [(0 : BitVec 2), 1, 2], (group1 false role).role ≠ 3 ∧ (group1 false role).members ≠ 0) ∧
      (let f := group1 true 0
       f.role = 0 ∧ f.source = 0 ∧ f.portMask = 0 ∧ f.members = 0) ∧
      (group1 false 0).source = s0.ehl.nodeId ∧ s0.ehl.nodeId ∈ [BitVec.ofNat 12 (leNat (lookList 0 s0.host 0 2))] ∧
      { s18 with hif := s0.hif }.hif.waiting = [] ∧ ((s0.tasks.any fun t => decide (t.st ≠ .ended) && t.contexts.contains 1) = false ∧
        (s18.tasks.any fun t => decide (t.st ≠ .ended) && t.contexts.contains 1) = true) ∧
      look none s0.kst.groups 4095 = none ∧ (look none s18.kst.groups 4095).isSome = true :=
  ⟨⟨⟨_, rfl, rfl, by decide +kernel⟩, by decide, by decide, by decide⟩, by decide, ⟨_, rfl⟩, by decide, by decide, by decide,
    by decide, by decide, by decide, by decide, by decide⟩

/-- Every context stands. -/
theorem contexts_full : ∃ s : State, (∀ j, j < 16384 → look none s.contexts j ≠ none) := by
  refine ⟨{ s0 with contexts := (List.range 16384).map fun j => (j, some context1) }, ?_⟩
  have h : ∀ (n i : Nat) (m : SMap (Option Context)), i < n → look none ((List.range n).map (fun j => (j, some context1)) ++ m) i ≠ none := by
    intro n
    induction n with
    | zero => intro i m h; omega
    | succ n ih =>
      intro i m h
      rw [List.range_succ, List.map_append, List.append_assoc]
      by_cases hi : i < n
      · exact ih i _ hi
      · have hi : i = n := by omega
        subst hi
        have g : ∀ (l : List Nat) (m : SMap (Option Context)) (k : Nat), k ∉ l →
            look none (l.map (fun j => (j, some context1)) ++ m) k = look none m k := by
          intro l m k hk
          induction l with
          | nil => rfl
          | cons a l ih =>
            have ha : a ≠ k := fun h => hk (h ▸ .head _)
            have hl : k ∉ l := fun h => hk (.tail _ h)
            simp [look, ha, ih hl]
        rw [g _ _ _ (by simp)]
        simp [look]
  intro j hj
  simpa using h 16384 j [] hj

/-- The header of an image of program 1 for coach 0 alone: format 3 and 1,124,352 bytes. -/
def header1 : Nat := 0x11280000000000000000000000000000000000000000000000000000000000000000000001000000010003

def image1 : SMap Byte := ((List.range 64).zip (leBytes 64 header1)).filter fun e => e.2 ≠ 0

def words1 : List (Nat × Nat) := [(0, 0x1000000010003), (2, 0x1128000000000000000000)]

theorem words1_eq : imageWords image1 0 1124352 = words1 := by decide +kernel

theorem words1_short : imageWords image1 0 64 = words1 := by decide +kernel

theorem header1_eq : imageHeader words1 = header1 := by decide +kernel

theorem malformed1 : imageMalformed words1 1124352 = none ∧ imageMalformed words1 64 = some 160 := by
  unfold imageMalformed
  rw [header1_eq]
  decide +kernel

theorem mask1 : maskCoaches (imageMask (imageHeader words1)) = [0] := by
  rw [header1_eq]
  decide +kernel
/-- Coaches 0 and 1 hold program 1; `busy` says whether a load is under way on coach 0. -/
def s19 (busy : Bool) : State :=
  let co : Coach := { Coach.reset with slotA := { slot0 with header := 3 + 2 ^ 16 + 3 * 2 ^ 48 } }
  { s0 with coaches := [(0, { co with loadBusy := busy }), (1, co)], tasks := [], host := image1, hbm := { s0.hbm with data := image1 } }

theorem malformed_read : imageMalformed (imageWords image1 0 1124352) 1124352 = none ∧
    maskCoaches (imageMask (imageHeader (imageWords image1 0 1124352))) = [0] ∧
    imageMalformed (imageWords image1 0 64) 64 = some 160 := by
  rw [words1_eq, words1_short]
  exact ⟨malformed1.1, mask1, malformed1.2⟩

theorem meets_ProgramsLoadAndTasksAreAccepted :
    (hdr1.taskId = 0 ∧ hdr1.argAddr.toNat % 64 = 0 ∧ hdr1.argAddr.toNat % 2 ^ 40 % 576 = 0 ∧ 1124352 ≤ hbmEnd) ∧
      (imageMalformed (imageWords (s19 false).host 0 1124352) 1124352 = none ∧
        maskCoaches (imageMask (imageHeader (imageWords (s19 false).host 0 1124352))) = [0] ∧
        imageMalformed (imageWords (s19 false).hbm.data 0 64) 64 = some 160) ∧
      ((s19 true).slotBusy 0 = true ∧ (s19 false).slotBusy 0 = false) ∧
      ([(0, slot0)].map (·.1)).Nodup ∧ (1 : BitVec 64).getLsbD 0 = true ∧
      (∀ w, (s19 false).wordErr w = none) ∧ (4096 : BitVec 64).toNat % 64 = 0 ∧ fields0.mode ≠ 3 ∧ fields0.keylistCount = 0 :=
  ⟨by decide +kernel, ⟨malformed_read.1, malformed_read.2.1, malformed_read.2.2⟩, by decide +kernel, by decide, by decide,
    noErr_of _ rfl rfl, by decide, by decide, by decide⟩

def hdr2 : CmdHdr := { hdr0 with argAddr := 4096 }

/-- What the submission of a task of program 1 names. -/
def submission1 : Submission := (Submission.read (s19 false) hdr2 fields0).1

theorem image_read : submission1.image = some ((s19 false).coach 0).slotA ∧ submission1.contexts = [] ∧ submission1.list = [] := by
  decide +kernel

theorem mask_read : submission1.mask = 3 := by decide +kernel

theorem bindings_read : submission1.bindings = [] := by decide +kernel

theorem nodes_read : submission1.nodes = [0] := by decide +kernel

theorem submission_eta (u : Submission) (a : u.h = hdr2) (b : u.f = fields0) (c : u.image = some ((s19 false).coach 0).slotA)
    (d : u.mask = 3) (e : u.contexts = []) (f : u.bindings = []) (g : u.nodes = [0]) (h : u.list = []) :
    u = { h := hdr2, f := fields0, image := some ((s19 false).coach 0).slotA, mask := 3, contexts := [], bindings := []
          nodes := [0], list := [] } := by
  cases u
  simp_all

theorem submission1_eq : (s19 false).checkTask submission1 = none := by
  rw [submission_eta submission1 rfl rfl image_read.1 mask_read image_read.2.1 bindings_read nodes_read image_read.2.2]
  decide +kernel

/-- A task that is accepted; an ID in use is refused. -/
theorem meets_ProgramsLoadAndTasksAreAccepted_submit :
    (s19 false).checkTask submission1 = none ∧
      rowOne fields0 (s0.hostList16 (hdr2.argAddr.toNat + 0x880) (fields0.devices.toNat + 1)) = none ∧
      (∃ t ∈ s0.tasks, t.id = hdr2.taskId) :=
  ⟨submission1_eq, by decide +kernel, _, .head _, by decide⟩

/-- What R337 to R343 ask of the simplest task. -/
theorem meets_ProgramsLoadAndTasksAreAccepted_accept :
    let s := s19 false
    let p := (s.coach 0).slotA
    fields0.programId ≠ 0 ∧ s.imageOf fields0.programId = some p ∧ (∀ t ∈ s.tasks, t.id ≠ hdr2.taskId) ∧
      (∀ c ∈ maskCoaches (imageMask p.header.toNat), (s.imageOn c fields0.programId).isSome = true) ∧
      fields0.nCtx = 0 ∧ fields0.devices = 0 ∧ fields0.ftag = 0 ∧ fields0.digestCap = 0 ∧ bits p.header.toNat 133 122 = 0 ∧
      fields0.mode.toNat ≤ bits p.header.toNat 113 112 ∧
      (if bits p.header.toNat 15 0 = 2 then 1 else bits p.header.toNat 121 114) ≤ fields0.minor.toNat ∧
      (∀ r < 256, (p.region r).kind = 0 ∧ leNat (lookList 0 s.host (hdr2.argAddr.toNat + 0x80 + 8 * r) 8) = 0) ∧
      leNat (lookList 0 s.host (hdr2.argAddr.toNat + 0x880) 2) = s.ehl.nodeId.toNat := by
  decide +kernel

/-- The load of an image whose map has an alias, with a task of another program queued. -/
theorem meets_ProgramsLoadAndTasksAreAccepted_fault :
    let s : State := { s9 with hif := { s9.hif with waiting := [.load hdr1 2 3 [] (some (true, 5))] } }
    s.hif.waiting = .load hdr1 2 3 [] (some (true, 5)) :: [] ∧ (∃ k ∈ s.tasks, k.st = .queued) ∧
      ∀ k ∈ s.tasks, k.st = .queued → k.f.programId ≠ 2 := by
  decide

/-- A running, a queued and an ended task. -/
def s20 : State :=
  { s0 with
    tasks := [task0, { task0 with key := 1, id := 6, st := .queued }, { task0 with key := 2, id := 5, st := .ended }]
    coaches := [(0, { co0 with slotA := { slot0 with regions := [(255, 2 * 2 ^ 32)] } }), (1, co0)]
    hif := { s0.hif with acceptCount := 3 } }

theorem meets_AbortsFencesAndSummaries :
    (hdr0.argAddr = 0 ∧ hdr1.taskId = 0 ∧ hdr1.argAddr = 0 ∧ hdr1.argAddr.toNat % 4096 = 0) ∧
      s20.hif.waiting = [] ∧ (∀ k ∈ s20.tasks, s20.task? k.key = some k) ∧
      ((311295 : BitVec 32).toNat < 311296 ∧ 311296 ≤ (311296 : BitVec 32).toNat) ∧
      { s18 with hif := { s18.hif with waiting := [.summary hdr1] } }.hif.waiting = .summary hdr1 :: [] ∧
      s18.tableTasks.length ≤ 1024 ∧ s18.usedSources.length ≤ 256 ∧ SMap.wf none s18.contexts = true ∧
      (∀ c ∈ s18.contexts, c.1 < 16384) ∧
      (∃ k, s20.taskNamed 7 = some k ∧ s20.runs k.key k ∧
        ∃ c ∈ maskCoaches k.coachMask, ((s20.coach c).prog.region (255 : BitVec 8).toNat).kind = 2) :=
  ⟨by decide, by decide, by decide, by decide, by decide, by decide, by decide, by decide, by decide,
    ⟨_, rfl, ⟨rfl, by decide, by decide⟩, 0, by decide, by decide⟩⟩

/-! ## Resets, power, boot and updates -/

/-- A reading with one die and one stack at the given temperatures. -/
def reading (die stack : BitVec 8) (power : BitVec 16) : ThermalReading :=
  { dieTemps := [0, 0, 0, die], stackTemps := [0, 0, 0, 0, 0, 0, 0, stack], power := power, vin := 480 }

/-- Work under way, the device booted; the link is up or down, a shutdown stands or not, power cycled since. -/
def s21 (up shut : Bool) : State :=
  { s20 with
    hif := { s20.hif with linkUp := up, d3hot := !up }
    boot := { s20.boot with running := true }
    board := { s20.board with shutdown := shut, cycled := up } }

theorem meets_ResetsAndPowerEndTheWork :
    (∀ k ∈ (s21 true true).tasks, (s21 true true).task? k.key = some k) ∧
      (∀ k ∈ (s21 false false).tasks, (s21 false false).task? k.key = some k) ∧
      (s21 false false).hif.d3hot = true ∧ (s21 false false).hif.linkUp = false ∧ (s21 true true).hif.linkUp = true ∧
      (s21 true true).board.shutdown = true ∧ (s21 true true).board.cycled = true ∧ (s21 false true).board.cycled = false ∧
      (s21 true true).boot.running = true ∧ (999 < 1000 ∧ 1000 ≤ 1000) ∧
      (let l := (s21 true true).limits
       let hot := fun (r : ThermalReading) => (∃ i, i < 4 ∧ l.dieShutdown ≤ (r.dieTemps.getD i 0).toNat) ∨
         ∃ i, i < 8 ∧ l.hbmShutdown ≤ (r.stackTemps.getD i 0).toNat
       hot (reading 255 0 0) ∧ hot (reading 0 255 0) ∧ 2000 < (reading 0 0 2001).power.toNat ∧ ¬hot (reading 0 0 2000) ∧
         (reading 0 0 2000).power.toNat ≤ 2000) := by decide

/-- The digest of "abc" that FIPS 180-4 gives as its example. -/
theorem test_sha256 : beNat (sha256 [0x61, 0x62, 0x63]) =
    0xba7816bf8f01cfea414140de5dae2223b00361a396177a9cb410ff61f20015ad := by decide +kernel

theorem leBytes_length (n x : Nat) : (leBytes n x).length = n := by
  induction n generalizing x with
  | zero => rfl
  | succ n ih => exact congrArg (· + 1) (ih _)

theorem sha256_length (m : List Byte) : (sha256 m).length = 32 := by
  unfold sha256
  simp [beBytes, leBytes_length, List.range, List.range.loop]

/-- The root that an LMS signature of one W2 leaf of a tree of height 10 leads to. -/
def lmsRoot (i msg sig : List Byte) : List Byte :=
  let o : Ots := ⟨2, 2, 133, 6⟩
  let q := beNat (sig.take 4)
  let digits := otsDigits o (otsHash i q ((sig.drop 8).take 32) msg)
  let ends := (List.range o.p).map fun k =>
    otsChain i q k (2 ^ o.w - 1 - digits.getD k 0) (digits.getD k 0) ((sig.drop (40 + 32 * k)).take 32)
  lmsClimb i (2 ^ 10 + q) ((List.range 10).map fun k => (sig.drop (8 + (36 + 32 * o.p) + 32 * k)).take 32)
    (lmsLeaf i (2 ^ 10 + q) (otsPublic i q ends))

theorem lmsClimb_length (i : List Byte) (r : Nat) (l : List (List Byte)) (x : List Byte) (h : x.length = 32) :
    (lmsClimb i r l x).length = 32 := by
  induction l generalizing r x with
  | nil => exact h
  | cons s l ih => exact ih _ _ (by split <;> exact sha256_length _)

theorem lmsRoot_length (i msg sig : List Byte) : (lmsRoot i msg sig).length = 32 := lmsClimb_length _ _ _ _ (sha256_length _)

/-- A public key whose root is the one that a signature leads to verifies it. -/
theorem lmsVerify_of (i msg sig : List Byte) (hi : i.length = 16) (hs : sig.length = 4620) (hq : beNat (sig.take 4) < 2 ^ 10)
    (ho : beNat ((sig.drop 4).take 4) = 2) (hl : beNat ((sig.drop 4296).take 4) = 6) :
    lmsVerify (u32 6 ++ (u32 2 ++ (i ++ lmsRoot i msg sig))) msg sig = some (4620, true) := by
  have e0 : beNat ((u32 6 ++ (u32 2 ++ (i ++ lmsRoot i msg sig))).take 4) = 6 := rfl
  have e1 : beNat (((u32 6 ++ (u32 2 ++ (i ++ lmsRoot i msg sig))).drop 4).take 4) = 2 := rfl
  have e2 : ((u32 6 ++ (u32 2 ++ (i ++ lmsRoot i msg sig))).drop 8).take 16 = i := List.take_left' hi
  have e3 : ((u32 6 ++ (u32 2 ++ (i ++ lmsRoot i msg sig))).drop 24).take 32 = lmsRoot i msg sig := by
    have : (u32 6 ++ (u32 2 ++ (i ++ lmsRoot i msg sig))).drop 24 = lmsRoot i msg sig := by
      show ((i ++ lmsRoot i msg sig)).drop 16 = _
      exact List.drop_left' hi
    rw [this]
    exact List.take_of_length_le (Nat.le_of_eq (lmsRoot_length i msg sig))
  unfold lmsVerify
  rw [e0, e1, e2]
  simp only [lmsHeight, otsOf, hs, ho, hl, e3]
  have hq' : beNat (sig.take 4) < 1024 := hq
  simp [hq', lmsRoot]

theorem padTo_length (n : Nat) (bs : List Byte) : (padTo n bs).length = n := by
  unfold padTo
  rw [List.length_append, List.length_take, List.length_replicate]
  omega

/-- A boot header copy that holds a key. -/
def copy2 (root : List Byte) : BootHdr := { seq := 0, root := root, activeB := 0, trial := 0 }

theorem hdrOf_copy2 (root : List Byte) (h : root.length = 60) : hdrOf (copy2 root).bytes = some (copy2 root) := by
  have hp : padTo 60 root = root := by
    unfold padTo
    rw [h, List.take_of_length_le (Nat.le_of_eq h)]
    exact List.append_nil _
  have hf : (copy2 root).front.length = 96 := padTo_length _ _
  have front : (copy2 root).front = leBytes 4 1 ++ (leBytes 4 0 ++ (root ++ (0 : Byte) :: List.replicate 27 0)) := by
    unfold BootHdr.front
    show padTo 96 (leBytes 4 1 ++ leBytes 4 0 ++ padTo 60 root ++ [0]) = _
    rw [hp]
    unfold padTo
    have hl : (leBytes 4 1 ++ leBytes 4 0 ++ root ++ [(0 : Byte)]).length = 69 := by simp [leBytes_length, h]
    rw [hl, List.take_of_length_le (by rw [hl]; decide)]
    simp
  have d96 : (copy2 root).bytes.drop 96 = sha256 (copy2 root).front := List.drop_left' hf
  have t96 : (copy2 root).bytes.take 96 = (copy2 root).front := List.take_left' hf
  have head : (copy2 root).bytes = leBytes 4 1 ++ (leBytes 4 0 ++ (root ++ ((0 : Byte) :: List.replicate 27 0 ++ sha256 (copy2 root).front))) := by
    unfold BootHdr.bytes
    rw [front]
    simp
  have f0 : fieldAt (copy2 root).bytes 0 2 = 1 := by rw [head]; rfl
  have f4 : fieldAt (copy2 root).bytes 4 4 = 0 := by rw [head]; rfl
  have d8 : (copy2 root).bytes.drop 8 = root ++ ((0 : Byte) :: List.replicate 27 0 ++ sha256 (copy2 root).front) := by rw [head]; rfl
  have f68 : fieldAt (copy2 root).bytes 68 1 = 0 := by
    unfold fieldAt
    rw [show (68 : Nat) = 8 + 60 from rfl, ← List.drop_drop, d8, List.drop_left' h]
    rfl
  unfold hdrOf
  rw [if_pos ⟨f0, by rw [d96, t96]; exact List.take_of_length_le (Nat.le_of_eq (sha256_length _))⟩]
  unfold hdrFields
  rw [f4, f68, d8, List.take_left' h]
  rfl

/-- A firmware image without a payload: its header, and a signature of one level of which all is zero but what R370 names. The root of
the key is the one that it leads to. -/
def front2 : List Byte :=
  leBytes 64 0x121000000000000000000200010155b852781b9995a44c939b64e441ae2724b96f99c8f4fb9a141cfc9842c4b0e30000000000000001

def lms2 : List Byte := u32 0 ++ u32 2 ++ List.replicate (133 * 32 + 32) 0 ++ u32 6 ++ List.replicate 320 0

def image2 : List Byte := front2 ++ (u32 0 ++ lms2)

def key2 : List Byte := u32 1 ++ (u32 6 ++ (u32 2 ++ (List.replicate 16 0 ++ lmsRoot (List.replicate 16 0) front2 lms2)))

theorem key2_length : key2.length = 60 := by
  unfold key2
  simp only [List.length_append, List.length_replicate, lmsRoot_length]
  rfl

theorem lms2_length : (u32 0 ++ lms2).length = 4624 ∧ lms2.length = 4620 := by
  unfold lms2
  simp only [List.length_append, List.length_replicate]
  exact ⟨rfl, rfl⟩

theorem image2_signature : image2.take 64 = front2 ∧ (SignedHdr.of image2).signature image2 = u32 0 ++ lms2 := by
  have hp : (SignedHdr.of image2).payloadBytes = 0 ∧ (SignedHdr.of image2).sigBytes = 4624 := by decide +kernel
  have hf : front2.length = 64 := leBytes_length _ _
  refine ⟨List.take_left' hf, ?_⟩
  unfold SignedHdr.signature image2
  unfold image2 at hp
  rw [hp.1, hp.2, List.drop_left' hf, List.take_of_length_le (Nat.le_of_eq lms2_length.1)]

theorem image2_facts : beNat (lms2.take 4) < 2 ^ 10 ∧ beNat ((lms2.drop 4).take 4) = 2 ∧ beNat ((lms2.drop 4296).take 4) = 6 ∧
    (SignedHdr.of image2).signer = 1 ∧ (SignedHdr.of image2).contents image2 1 = true ∧ (SignedHdr.of image2).size ≤ image2.length := by
  decide +kernel

theorem image2_signed : hssVerify key2 (image2.take 64) ((SignedHdr.of image2).signature image2) = true := by
  obtain ⟨e1, e2⟩ := image2_signature
  obtain ⟨eq, eo, et, -⟩ := image2_facts
  have el := lms2_length.2
  rw [e1, e2]
  have levels : beNat (key2.take 4) = 1 := rfl
  have walk : hssWalk 0 (key2.drop 4) front2 ((u32 0 ++ lms2).drop 4) = true := by
    show hssWalk 0 (u32 6 ++ (u32 2 ++ (List.replicate 16 0 ++ lmsRoot (List.replicate 16 0) front2 lms2))) front2 lms2 = true
    unfold hssWalk
    rw [lmsVerify_of _ _ _ rfl el eq eo et]
    simp [el]
  unfold hssVerify
  rw [levels, key2_length]
  simp [walk, show beNat ((u32 0 ++ lms2).take 4) = 0 from rfl]

/-- An NVM whose firmware copies are that image, or are erased. -/
def nvm1 (ok : Bool) : Nvm :=
  let fw := if ok then image2 else []
  { hdr0 := (copy2 key2).bytes, hdr1 := (copy2 key2).bytes, fwA := fw, fwB := fw, mcA := [], mcB := [], cfgA := [], cfgB := []
    idA := [], idB := [], half0 := [], half1 := [] }

def boot1 (ok : Bool) : Boot := .reset (nvm1 ok) (sha256Word key2) false

theorem header_of (n : Nvm) (h : BootHdr) (h0 : hdrOf n.hdr0 = some h) (h1 : hdrOf n.hdr1 = some h) : n.header = h := by
  unfold Nvm.header
  split <;> rename_i e <;> split at e <;> simp_all

theorem boot_taken : (∃ fw, (boot1 true).take 0 = some fw) ∧ (boot1 false).take 0 = none := by
  obtain ⟨-, -, -, es, ec, el⟩ := image2_facts
  have hh : ∀ ok, (boot1 ok).nvm.header = copy2 key2 := fun ok =>
    header_of _ _ (hdrOf_copy2 key2 key2_length) (hdrOf_copy2 key2 key2_length)
  have ok : (boot1 true).copyOk 0 false = true := by
    show (boot1 true).imageOk 0 image2 = true
    have ek : (boot1 true).rootKey = ⟨sha256Word key2, key2⟩ := by
      unfold Boot.rootKey
      rw [hh]
      rfl
    have em : (boot1 true).nvm.minimum (0 + 1) = 0 := by decide +kernel
    unfold Boot.imageOk SignedHdr.check SignedHdr.signed
    rw [es, ek, em]
    simp [el, ec, image2_signed]
  have bad : ∀ b, (boot1 false).copyOk 0 b = false := fun b => by
    show (boot1 false).imageOk 0 (if b then [] else []) = false
    rw [ite_self]
    unfold Boot.imageOk
    rw [show decide ((SignedHdr.of []).size ≤ ([] : List Byte).length) = false by decide +kernel]
    rfl
  refine ⟨⟨⟨false, false, false⟩, ?_⟩, ?_⟩
  · unfold Boot.take
    rw [hh]
    exact if_pos ok
  · unfold Boot.take
    rw [hh]
    exact (if_neg (by rw [bad]; decide)).trans (if_neg (by rw [bad]; decide))

/-- The device with that NVM, its rails on or off, PERST# low or high. -/
def s22 (ok perst rails : Bool) : State :=
  { State.reset with
    boot := boot1 ok, board := { State.reset.board with perst := perst, railsOn := rails, pwrgd := rails } }

theorem meets_TheDeviceBoots :
    let k := fun s : State => Boot.reset (s.boot.nvm.cut s.freeCtr s.boot.update) s.boot.rom s.board.maintPin
    (s22 true false true).board.railsOn = true ∧ (s22 true false true).board.perst = false ∧ (s22 true false true).boot.running = false ∧
      (s22 true true true).board.perst = true ∧ (s22 true true true).board.railsOn = true ∧ (s22 true true true).board.pwrgd = true ∧
      (s22 true true false).board.railsOn = false ∧ (s22 true false false).board.mayPower = true ∧
      ((s22 true false true).board.straps &&& (s22 true false true).board.strapsStable).getLsbD 6 = false ∧
      k (s22 true false true) = boot1 true ∧ k (s22 false false true) = boot1 false ∧
      (∃ fw, (boot1 true).take 0 = some fw) ∧ (boot1 false).take 0 = none :=
  ⟨rfl, rfl, rfl, rfl, rfl, rfl, rfl, rfl, by decide, rfl, rfl, boot_taken.1, boot_taken.2⟩

/-- An update of firmware copy B, of microcode copy A or of configuration copy B. -/
def update1 (kind : BitVec 2) : Update := { kind := kind, bytes := [1, 2], copyB := kind ≠ 1 }

def s23 (pin : Bool) (trial : BitVec 3) (u : Option Update) (miss : Nat) (len : BitVec 32) : State :=
  { State.reset with boot := { State.reset.boot with
    running := true, maintEn := pin, trial := trial, update := u, sealMiss := miss, updLen := len } }

theorem meets_UpdatesSealAndDebug :
    ((s23 true 1 none 1 64).boot.running = true ∧ (s23 true 1 none 1 64).boot.update = none ∧
        (s23 false 0 none 0 0).boot.maintEn = false ∧ (s23 true 1 none 1 64).boot.maintEn = true) ∧
      ((s23 true 1 none 1 64).boot.trial.getLsbD 0 = true ∧ (s23 true 1 none 1 64).boot.trial.getLsbD 1 = false) ∧
      ((s23 true 0 none 0 0).boot.updLen = 0 ∧
        ¬((s23 true 0 none 0 64).boot.updLen = 0 ∨ regionBytes 2 < (s23 true 0 none 0 64).boot.updLen.toNat ∨
          hbmEnd < (s23 true 0 none 0 64).boot.updAddr.toNat + (s23 true 0 none 0 64).boot.updLen.toNat)) ∧
      (∀ w, (s23 true 0 none 0 64).wordErr w = none) ∧
      (∀ kind, (s23 true 0 (some (update1 kind)) 0 0).boot.update = some (update1 kind)) ∧
      ((update1 0).copyB = true ∧ (update1 1).copyB = false ∧ (update1 2).copyB = true) ∧
      (s23 true 1 none 1 64).boot.sealMiss = 1 ∧ (s23 true 0 none 0 0).boot.sealMiss ≠ 1 ∧ (s23 true 0 none 0 0).boot.trial = 0 ∧
      ∀ s : State, ∃ x, x ≠ s.drawPattern 0 :=
  ⟨⟨rfl, rfl, rfl, rfl⟩, by decide, by decide, noErr_of _ rfl rfl, fun _ => rfl, by decide, rfl, by decide, rfl,
    fun s => ⟨~~~s.drawPattern 0, fun h => by simpa using congrArg (·.getLsbD 0) h⟩⟩

/-! ## The fabric -/

/-- A task of two devices with fabric tag 9, in a status. -/
def fabricTask (st : TaskSt) : Task :=
  { task0 with f := { fields0 with ftag := 9, devices := 1 }, devices := [0, 5], st := st }

def packet1 (dst : NodeId) (ttl : BitVec 5) (len : BitVec 2) (addr : BitVec 40) (info : BitVec 86) : Packet :=
  { tag := 9, dst := dst, src := 5, group := 0, ttl := ttl, len := len, addr := addr, info := info
    data := List.replicate (dataBytes len) 0xA5 }

/-- Port 15 in a state, with `fails` failed retrainings and a flit of fabric tag 9 not yet acknowledged. -/
def s24 (st : PortSt) (fails : Nat) : State :=
  let v : Port := { Port.reset with
    st := st, retrainFails := fails, resv0 := 64, resv1 := 64, shared := 6016
    replay := [(7, { ty := .write, k := packet1 5 31 1 0 0, via := none })] }
  let s : State := { s0 with tasks := [fabricTask .running] }
  s.setPort 15 v

def cap1 (major : BitVec 8) (fabric : BitVec 32) (node : NodeId) : CapRecord :=
  { fabricId := fabric, major := major, minor := 9, port := 0, node := node }

theorem meets_PortsFollowTheirStates :
    (∀ st ∈ [PortSt.down, .training, .negotiate, .held, .up, .retrain, .disabled], ((s24 st 0).port (15 : BitVec 4).toNat).st = st ∧
        ((s24 st 0).port 15).waiting = []) ∧
      (∀ n ∈ [0, 1, 2], ((s24 .retrain n).port 15).retrainFails = n) ∧
      (let s := s24 .negotiate 0
       [cap1 3 s.ehl.fabricId 5, cap1 2 s.ehl.fabricId 5, cap1 3 (s.ehl.fabricId + 1) 5, cap1 3 s.ehl.fabricId s.ehl.nodeId].map
          (fun r => decide (r.major = 3 ∧ r.fabricId = s.ehl.fabricId ∧ r.node ≠ s.ehl.nodeId)) = [true, false, false, false] ∧
        (s.port 15).expectAny = true) ∧
      (9, [5]) ∈ (s24 .up 0).lostTags ((s24 .up 0).port 15) ∧ (∃ k, (s24 .up 0).runs 0 k ∧ k.f.ftag.toNat = 9) :=
  ⟨by decide +kernel, by decide +kernel, by decide +kernel, by decide +kernel, ⟨_, ⟨rfl, by decide, by decide⟩, by decide⟩⟩

/-- Port 15 up, a packet waiting at it for credits; routes to switch back; node 5 unreachable for a while. -/
def s25 (task : Bool) : State :=
  let v : Port := { Port.reset with st := .up, waiting := [{ ty := .write, k := packet1 5 31 1 0 0, via := none }] }
  let s : State := { s0 with
    tasks := if task then [fabricTask .running] else []
    ehl := { s0.ehl with restorePending := true, switched := [5], unreachable := [(5, some 900)] } }
  s.setPort 15 v

/-- A port whose last flit has just left with room, and one with the replays that R279 counts in a minute. -/
def s32 (replays : Nat) : State :=
  let v : Port := { Port.reset with
    st := .up, replay := [(7, { ty := .write, k := packet1 5 31 1 0 0, via := none })], txSeq := 8, flitAt := 4, flitRoom := 600
    replayTimes := List.replicate replays 0 }
  s0.setPort 15 v

theorem meets_LinksReplayAndRoutesReturn_flits :
    (let o : OutPkt := { ty := .write, k := packet1 5 31 1 0 0, via := none }
     ((s32 0).port 15).shares o (s32 0).clk = true ∧ ((s25 false).port 15).shares o (s25 false).clk = false ∧
       ((s25 false).port 15).flitAt ≤ (s25 false).clk) ∧
      ∀ n ∈ [62, 63], (((s32 n).port 15).replayTimes.filter fun t => decide ((s32 n).clk < t + 2500000)).length = n := by
  decide +kernel

theorem meets_LinksReplayAndRoutesReturn :
    ((s24 .down 0).port 15).st ≠ .up ∧ ((s24 .retrain 0).port 15).since / 2 = (s24 .retrain 0).clk / 2 ∧ ((s24 .up 0).port 15).st = .up ∧
      ((s24 .up 0).port 15).waiting = [] ∧ ((s24 .up 0).port 15).resv1 ≤ 64 ∧
      (∃ o, ((s25 false).port 15).waiting = [o] ∧ o.ty ≠ .cart ∧ o.via = none ∧ ((s25 false).port 15).resv0 ≤ 64 ∧
        ((s25 false).port 15).replayUntil ≤ (s25 false).clk ∧ ((s25 false).port 15).held < 640 ∧ o.ty.vc1 = false ∧
        Packet.credits o.k ≤ min 64 (((s25 false).port 15).resv0 + (1 : BitVec 12).toNat)) ∧
      (s25 false).noFabricTask = true ∧ (s25 true).noFabricTask = false ∧ (s25 true).ehl.restorePending = true ∧
      (s25 false).ehl.restorePending = true ∧ (s24 .up 0).ehl.restorePending = false ∧
      ((s25 true).ehl.unreachable.find? fun u => u.1 = (5 : NodeId).toNat) = some ((5 : NodeId).toNat, some 900) :=
  ⟨by decide +kernel, by decide +kernel, by decide +kernel, by decide +kernel, by decide +kernel,
    ⟨_, rfl, by decide, by decide, by decide, by decide, by decide, by decide, by decide⟩, by decide, by decide, by decide, by decide,
    by decide, by decide⟩

/-- A read of coach 0's SIN, request 3, and one of key queue 2, request 4; groups 0 (this device a member) and 1 (empty
port mask); port 15 up, port 14 up and free; a route to node 5. -/
def s26 (st : TaskSt) : State :=
  let v : Port := { Port.reset with st := .up, resv0 := 64, resv1 := 64, shared := 6016 }
  let wait : Transfer := { waits with far := .fabric 5, reqs := [{ far := .fabric 5, addr := 0, urg := 0, clkAt := 0, first := 0, wr := [], rid := 4 }] }
  let own : Outstanding := { rid := 3, task := 0, reader := .coach 0, node := 5, addr := 0, clkAt := 0, limit := 100 }
  let g : Group := { role := 1, source := 5, portMask := 0x4000, members := [0] }
  let s := s5.setCoach 0 { s5.coach 0 with engines := store EngineS.zero engines0 5 { ready with transfer := some wait } }
  let s : State := { s with
    tasks := [fabricTask st]
    ehl := { s.ehl with reads := [own, { own with rid := 4, reader := .queue 2 32 }], routes := [(5, 0x10000E)] }
    kst := { s.kst with groups := [(0, some g), (1, some { g with portMask := 0 })] } }
  (s.setPort 15 v).setPort 14 v

theorem meets_PacketsActAtTheirDevice :
    ((s26 .running).port 15).st = .up ∧ (0 : BitVec 12) = ((s26 .running).port 15).rxGood + 1 ∧ ((s24 .down 0).port 15).st ≠ .up ∧
      ((packet1 5 2 0 0 0).dst ≠ (s26 .running).ehl.nodeId ∧ 2 ≤ (packet1 5 2 0 0 0).ttl.toNat ∧
        (s26 .running).routePort 5 = some 14 ∧ (packet1 5 1 0 0 0).ttl.toNat < 2 ∧ (s26 .running).routePort 6 = none) ∧
      (let v := (s26 .running).port 14
       v.st = .up ∧ v.replayUntil ≤ (s26 .running).clk ∧ v.flitAt ≤ (s26 .running).clk ∧ v.held < 640 ∧ v.waiting = [] ∧
        ∀ len : BitVec 2, Packet.credits (packet1 5 2 len 0 0) ≤ min v.resv0 v.resv1 + v.shared) ∧
      (let k := packet1 0 1 3 (BitVec.ofNat 40 (hbmEnd - 576)) (2 ^ 68 * 2)
       k.dst = (s26 .running).ehl.nodeId ∧ k.addr.toNat + lenBytes k.len ≤ hbmEnd ∧ lenBytes k.len ≠ 0 ∧ k.data.length = lenBytes k.len ∧
        2 ≤ bits k.info.toNat 69 68 ∧ k.addr.toNat + lenBytes (BitVec.ofNat 2 (bits k.info.toNat 69 68)) ≤ hbmEnd) ∧
      lenBytes (packet1 0 1 0 0 0).len = 0 ∧ hbmEnd < (packet1 0 1 3 (BitVec.ofNat 40 (hbmEnd - 575)) 0).addr.toNat + lenBytes 3 :=
  by and_intros <;> decide +kernel

theorem meets_PacketsActAtTheirDevice_reads :
    (∃ o w r u, ((s26 .running).ehl.reads.find? fun r => r.rid = bits (2 ^ 70 * 3) 85 70) = some o ∧ o.reader = .coach 0 ∧
        (s26 .running).transferOf 0 .sin = some w ∧ (w.reqs.find? fun r => r.rid = o.rid + 1) = some r ∧
        (s26 .running).runs o.task u) ∧
      (∃ o, ((s26 .running).ehl.reads.find? fun r => r.rid = bits (2 ^ 70 * 4) 85 70) = some o ∧ o.reader = .queue 2 32) ∧
      ((s26 .running).ehl.reads.find? fun r => r.rid = bits (2 ^ 70 * 5) 85 70) = none ∧
      (∃ u, (s26 .running).taggedTask 9 = some u ∧ (s26 .running).task? u.key = some u ∧ (s26 .running).runs u.key u ∧ (5 : NodeId) ∈ u.devices) ∧
      (∃ u, (s26 .queued).taggedTask 9 = some u ∧ (s26 .queued).task? u.key = some u ∧ u.st = .queued) ∧
      (s26 .running).writesBefore (packet1 0 1 0 0 0) 9 = false ∧
      { s26 .running with hbm := { (s26 .running).hbm with asks := [writeAsk] } }.writesBefore { packet1 0 1 0 0 0 with src := 5, tag := 9 } 2 = true ∧
      look none (s26 .running).kst.groups 2 = none ∧
      (∃ g, look none (s26 .running).kst.groups 0 = some g ∧ bitOf g.portMask.toNat 14 = true ∧
        ∀ q, q < 16 → bitOf g.portMask.toNat q = true → ((s26 .running).port q).st = .up) ∧
      ∃ g, look none (s26 .running).kst.groups 1 = some g ∧ g.portMask = 0 :=
  ⟨⟨_, _, _, _, rfl, rfl, rfl, rfl, rfl, rfl, rfl⟩, ⟨_, rfl, rfl⟩, rfl, ⟨_, rfl, rfl, ⟨rfl, rfl, rfl⟩, by decide⟩, ⟨_, rfl, rfl, rfl⟩,
    by decide, by decide, by decide, ⟨_, rfl, by decide +kernel, by decide +kernel⟩, ⟨_, rfl, rfl⟩⟩

/-- No packet waits at any port. -/
theorem no_waiting (q : Nat) : ((s26 .running).port q).waiting = [] := by
  have h : ∀ m : SMap Port, (∀ e ∈ m, e.2.waiting = []) → ∀ q, (look Port.reset m q).waiting = [] := by
    intro m
    induction m with
    | nil => intro _ q; rfl
    | cons e rest ih =>
      intro h q
      obtain ⟨j, v⟩ := e
      unfold look
      split
      · exact h (j, v) (.head _)
      · exact ih (fun x hx => h x (.tail _ hx)) q
  exact h _ (by decide) q

/-- A device that follows its parent at port 15, its time set before or not, with a step due. -/
def s27 (stepped : Bool) : State :=
  let s := s24 .up 0
  { s with tasks := [], ehl := { s.ehl with parentPort := 15, stepped := stepped, depth := 16, goodSyncs := 3, ftime := 5000, stepDue := some (-1025) } }

theorem meets_FabricTimeFollowsItsParent :
    ((s27 true).ehl.rootSelf = false ∧ (s27 true).ehl.parentPort = 15 ∧ ((s27 true).port 15).st = .up) ∧
      ((s27 true).offsetFrom 3976 0 = -1024 ∧ (s27 true).offsetFrom 3975 0 = -1025 ∧ (s27 false).offsetFrom 4998 0 = -2 ∧
        (s27 false).offsetFrom 4997 0 = -3) ∧
      ((s27 true).ehl.stepped = true ∧ (s27 false).ehl.stepped = false ∧ (s27 true).ehl.slew = 0 ∧ (s27 true).ehl.drift = 0) ∧
      (s27 true).ehl.holdover = false ∧ (s27 true).ehl.stepDue = some (-1025) ∧ (s27 true).noFabricTask = true :=
  by and_intros <;> decide +kernel

/-! ## The security engine and the buses -/

/-- An engine with an identity, with a BAK or not, at a leaf of a block, with session 0 open or not. -/
def s28 (bak : Bool) (leaf block : Nat) (sessions : SMap (List Byte)) : State :=
  { s0 with
    sec := { Sec.reset with
      publicKey := [1], sessions := sessions
      store := { Sec.reset.store with seed := some 5, nextLeaf := leaf, block := block, bak := if bak then some (1, p384g.1, p384g.2) else none } }
    boot := { s0.boot with nvm := { nvm1 true with half0 := if block = 0 then [] else [(JRec.lmsReserve 0 block 0).word 1] } } }

def allSessions : SMap (List Byte) := (List.range 15).map fun i => (i, [1])

theorem meets_SecurityCommandsCheckAndRun :
    (s28 false 0 0 []).sec.running = none ∧ (s28 false 0 0 []).sec.noEngine = false ∧ (s28 false 0 0 []).boot.restricted = false ∧
      (s28 false 0 0 []).sec.publicKey ≠ [] ∧ s0.sec.publicKey = [] ∧ s0.sec.store.seed = none ∧
      (s28 false 0 0 []).sec.store.bak = none ∧ (s28 true 0 0 []).sec.store.bak.isSome = true ∧
      (s28 false 1023 0 []).sec.store.nextLeaf < 1024 ∧ 1024 ≤ (s28 false 1024 0 []).sec.store.nextLeaf ∧
      (s28 false 1024 0 []).boot.nvm.lastBlock 0 = none ∧ (s28 false 1024 1022 []).boot.nvm.lastBlock 0 = some 1022 ∧
      (s28 false 1024 1023 []).boot.nvm.lastBlock 0 = some 1023 ∧
      (s28 true 0 0 []).sec.freeSession = some 0 ∧ (s28 true 0 0 allSessions).sec.freeSession = none ∧
      look [] (s28 true 0 0 allSessions).sec.sessions (14 : BitVec 4).toNat ≠ [] ∧ look [] (s28 true 0 0 []).sec.sessions 14 = [] :=
  ⟨rfl, rfl, rfl, by decide, rfl, rfl, rfl, rfl, by decide, by decide, by decide +kernel, by decide +kernel, by decide +kernel, by decide, by decide,
    by decide, by decide⟩

/-- An empty mailbox passes for every operation, and its point lies not on the curve, as the generator does. -/
theorem meets_SecurityCommandsCheckAndRun_input :
    ([1, 2, 3, 4, 5, 6, 7].all fun op => Sec.reset.input.unusedZero op) = true ∧
      pointOk Sec.reset.input.peerX Sec.reset.input.peerY = false ∧ pointOk p384g.1 p384g.2 = true := by decide +kernel

def op1 (status : BitVec 8) (bak : Bool) : SecOp :=
  { op := 2, status := status, output := [], session := if bak then none else some (3, [1]), openIndex := 3
    newBak := if bak then some (1, 2, 3) else none, newCert := [], leaf := if bak then some (1, 1, [7]) else none }

def s29 (o : Option SecOp) (faults : Nat) : State := { s0 with sec := { Sec.reset with running := o, bootFaults := faults } }

theorem meets_SecurityOperationsCompleteOrAbort :
    (s29 none 0).sec.running = none ∧
      ∀ status ∈ [(0 : BitVec 8), 6], ∀ bak : Bool, ∀ n ∈ [1, 2], (s29 (some (op1 status bak)) n).sec.running = some (op1 status bak) ∧
        (s29 (some (op1 status bak)) n).sec.bootFaults = n ∧ (op1 status bak).newBak.isSome = bak := by
  refine ⟨rfl, fun status _ bak n _ => ⟨rfl, rfl, ?_⟩⟩
  cases bak <;> rfl

theorem meets_BusesAndRegistersAnswer :
    (let m : Module := { s0.board with perst := true, maintPin := true }
     m.perst = true ∧ m.maintPin = true) ∧
      s0.board.perst = false ∧ (let s : State := { s0 with board := { s0.board with alertLow := true }, boot := { s0.boot with running := true } }
       s.boot.running = true ∧ s.board.alertLow = true) ∧ s0.board.alertLow = false ∧ s0.access 0x2 32 = none ∧ s0.access 0x4 64 = none ∧ (s0.access 0x1800030 64).isSome = true ∧
      State.reset.hif.hostReady = false ∧ (0x400000 : BitVec 26).toNat = 0x400000 ∧ s0.hif.hostReady = true ∧
      (s0.sq (63 : BitVec 6).toNat).enable = false := by decide

/-! ## Every check of well-formedness -/

def badPacket : InFlit :=
  { seq := 0, packet := { tag := 0, dst := 0, src := 0, group := 0, ttl := 31, len := 1, addr := 0, info := 0, data := List.replicate 31 0 } }

/-- Commands each of which one check refuses: an operand names nothing, or a list has the wrong length. -/
def illFormed : List Instr :=
  [.acct 0 .sin { param := 0, cls := 0, hdrB := 0, hdrA := 0, hdrR := 0, com := com0 }, .streamComplete 0 .nte,
   .grantSlot 248 0 0, .grantSlot 0 40 0, .memMaintRetrain 0 31, .memMaintEvacuate 0 31, .bar2Read (BitVec.ofNat 36 (2 ^ 36 - 1)) 2,
   .bar2Write (BitVec.ofNat 36 (2 ^ 36 - 1)) [0, 0], .sqTailDoorbell 0x40000 4 0, .sqTailDoorbell 0 3 0, .cqHeadDoorbell 0x80000 4 0,
   .cqHeadDoorbell 0x3FFFF 4 0, .cqHeadDoorbell 0x40000 16 0, .eventHeadDoorbell 0x7FFFF 4 0, .eventHeadDoorbell 0x80000 0 0,
   .irqDelayExpire 65, .thermalSample { dieTemps := [0, 0, 0], stackTemps := [0, 0, 0, 0, 0, 0, 0, 0], power := 0, vin := 0 },
   .thermalSample { dieTemps := [0, 0, 0, 0], stackTemps := [], power := 0, vin := 0 },
   .writePkt 0 badPacket, .readReq 0 badPacket, .readRsp 0 badPacket, .cart 0 badPacket, .cartCredit 0 badPacket,
   .shutArrive 0 badPacket, .abortPkt 0 badPacket, .taskLost 0 badPacket, .unreach 0 badPacket, .eventRecord 0x41,
   .eventRecord 0x82, .registerWrite 0 24 0, .registerWrite 0 32 0x100000000, .rcRead 0 24]

theorem test_ill_formed_refused : illFormed.all (fun i => !i.wellFormed) = true := by decide +kernel

/-- The neighbours of some of them are well formed. -/
theorem test_well_formed : [Instr.acct 0 .pxu { param := 0, cls := 0, hdrB := 0, hdrA := 0, hdrR := 0, com := com0 },
    .grantSlot 247 39 3, .memMaintRetrain 7 30, .bar2Write (BitVec.ofNat 36 (2 ^ 36 - 1)) [0], .irqDelayExpire 64,
    .unreach 0 { badPacket with packet := { badPacket.packet with len := 0, data := [] } }, .eventRecord 0x81, .registerWrite 0 32 0xFFFFFFFF].all Instr.wellFormed = true := by
  decide +kernel

/-! ## Words of the encoding tables -/

/-- The spec's worked FWD: its word, with every field of its table. -/
theorem test_word_fwd : instrOf 5 .nte 0x000B821BFC00010000C000800286C1D0 = some (.fwd 5
    { drain := false, push := false, pseq := 2, prime := 56, pset := 0x21, logN := 11, count := 63, hdr := 0, tw := 0x400
      dst := 0x300, src := 0x200, com := { csRem := false, csDoor := 20, csAmt := 1, hold := 2823 } }) := by decide

/-- The STRIDE, the SUB and the LOOP of the spec's subtraction loop: POS 2 at [32:30], VALUE 64 at [50:35]; B 0x0080 at [61:46] and
COUNT 31 at [125:114]; BODY 4 at [42:30] and COUNT 16 at [66:43]. -/
theorem test_word_stride_sub_loop :
    instrOf 0 .vec 0x20080000008 = some (.stride 0 .vec 64 0 2 0) ∧
      instrOf 0 .vec 0x7C0000000000000020000000000011 = some (.sub 0
        { drainB := false, drainA := false, count := 31, hdrB := 0, hdrA := 0, hdrR := 0, dst := 0, b := 0x80, a := 0, com := com0 }) ∧
      instrOf 0 .vec 0x800100000004 = some (.loop 0 .vec 16 4 0) := by decide

/-- A WAIT for 3 at door 20 with HOLD 1, a SIGNAL to door 0x56 of coach 63, and a SET of word 2. -/
theorem test_word_wait_signal_set :
    instrOf 0 .dbu 0x50000C0000042 = some (.wait 0 .dbu 20 3 1) ∧
      instrOf 0 .kin 0x1FD5848D00000001 = some (.signal 0 .kin { remote := true, coach := 63, door := 0x56, amount := 0x1234, hold := 0 }) ∧
      instrOf 0 .ksa 0x123456789ABCDEF0123456780000009 = some (.setWord 0 .ksa 0x0123456789ABCDEF01234567 2 0) := by decide

/-- ACCT on the PXU and on no stream engine; KMM with A 1, B 2, DST 3, HDR_R 4, HDR_A 5, T 6, CLASS 7, ACC_IN and DRAIN_B; KTAB of 0x8001. -/
theorem test_word_acct_ksa :
    instrOf 0 .pxu 0x226AF37BDC00C008004000000A = some (.acct 0 .pxu
        { param := 0x89ABCDEF, cls := 7, hdrB := 3, hdrA := 2, hdrR := 1, com := com0 }) ∧
      instrOf 0 .sin 0x226AF37BDC00C008004000000A = none ∧
      instrOf 0 .ksa 0x127018014010000C000800040000010 = some (.kmm 0
        { drainB := true, drainA := false, push := false, accIn := true, exit := false, cls := 7, t := 6, hdrA := 5, hdrR := 4
          dst := 3, b := 2, a := 1, com := com0 }) ∧
      instrOf 0 .ksa 0x200040000012 = some (.ktab 0 0x8001 com0) := by decide

/-- DECG with SRC 1, DST 2, AUX 3, HDR 4, COUNT 0x405, PC 6, PB 7, PA 8, PSET 0x21; ROT with C 4, AMOUNT 0x20005 and DRAIN; MROT. -/
theorem test_word_dbu_pxu :
    instrOf 0 .dbu 0x109038D014010000C000800040000010 = some (.decg 0
        { drain := false, pset := 0x21, pa := 8, pb := 7, pc := 6, count := 0x405, hdr := 4, aux := 3, dst := 2, src := 1, com := com0 }) ∧
      instrOf 0 .pxu 0x18001401000C000800040000011 = some (.rot 0
        { drain := true, amount := 0x20005, c := 4, hdr := 3, dst := 2, src := 1, com := com0 }) ∧
      instrOf 0 .pxu 0x191C840140480000C000800040000013 = some (.mrot 0
        { neg := true, logN := 9, count := 7, pset := 0x21, amtStride := 5, amtIndex := 4, amtBase := 0x200003, dst := 2, src := 1
          com := com0 }) := by decide

/-- XFER of descriptor 1,023 on SIN and SOUT; KCART with KEY_INDEX 1, CART 2, COUNT 3, RBASE 4, RING 5, ROFF 6, HDR 7; opcode 0x10 of
NTE is another instruction and 0x0B none. -/
theorem test_word_streams :
    instrOf 0 .sin 0xFFC0000010 = some (.sinXfer 0 1023 com0) ∧ instrOf 0 .sout 0xFFC0000010 = some (.soutXfer 0 1023 com0) ∧
      instrOf 0 .kin 0x1C060140400C000800040000010 = some (.kcart 0
        { hdr := 7, roff := 6, ring := 5, rbase := 4, count := 3, cart := 2, keyIndex := 1, com := com0 }) ∧
      instrOf 0 .nte 11 = none := by decide

/-- Host commands of ring 2, index 3: CONTEXT_CREATE of set 0x21 with NO_IRQ, KEY_REGISTER, PROGRAM_LOAD from HBM, GROUP_SET,
SYNC_SUMMARY, and an opcode that is none. -/
theorem test_word_commands :
    let h := fun (id : TaskId) (noIrq : Bool) (a : BitVec 64) => ({ sq := 2, index := 3, taskId := id, noIrq := noIrq, argAddr := a } : CmdHdr)
    commandOf 2 3 0x2100000000000000000000000000000101 = some (.contextCreate (h 0 true 0) 0x21) ∧
      commandOf 2 3 0x200006000500000000000000400000000000000003 = some (.keyRegister (h 0 false 64) 5 6 32) ∧
      commandOf 2 3 0x1128000000000100000000000000400000000000000004 = some (.programLoad (h 0 false 64) true 1124352) ∧
      commandOf 2 3 0x2800100052FFF00000000000000000000000000000008 = some (.groupSet (h 0 false 0)
        { members := 2, portMask := 0x8001, source := 5, role := 1, delete := false, group := 4095 }) ∧
      commandOf 2 3 0x4C00000000000000010000000000000000009 = some (.syncSummary (h 0 false 4096) 311296) ∧
      commandOf 2 3 10 = none := by decide

/-- TASK_SUBMIT with every field of R340 at a value of its own. -/
theorem test_word_task_submit :
    commandOf 2 3 0x550000000000000020000000070000000000060000000500000000002000040ABC008018290000000900000000000000400000000700000005 =
      some (.taskSubmit { sq := 2, index := 3, taskId := 7, noIrq := false, argAddr := 64 }
        { seed := 0x55, digestAddr := 32, digestCap := 7, runLimit := 6, margin := 5, keylistAddr := 32, keylistCount := 4, ftag := 0xABC
          minor := 1, devices := 3, nCtx := 2, perCoach := true, hazard := false, mode := 1, programId := 9 }) := by decide +kernel

end Sys2Proof.Tests
end

section
/-! Steps, and what they leave alone (obligation O1). -/

namespace Sys2Proof.Machine

open Sys2Proof

/-! ## Steps -/

theorem step_cons {s : State} {c : Instr} {rest : List Instr} (h : s.pending = c :: rest) :
    step s = exec c { s with pending := rest } := by
  unfold step; rw [h]

theorem step_nil {s : State} (h : s.pending = []) : step s = .next (s.tick 1) := by
  unfold step; rw [h]

theorem Later.pending {s t : State} (h : Later s t) : t.pending = s.pending := by rw [h.rest]
theorem Later.hif {s t : State} (h : Later s t) : t.hif = s.hif := by rw [h.rest]

/-- Settles O1: a queue that is not empty is the first case of `step`, and on an empty one `State.tick` passes one clk. -/
theorem stepRunsTheFrontCommand : Obligations.StepRunsTheFrontCommand := by
  refine ⟨fun c rest s h => step_cons h, fun s h => ?_⟩
  have hl : Later s (s.tick 1) := later_tick s 1
  exact ⟨s.tick 1, step_nil h, s.tick_clk 1, hl.pending.trans h, hl⟩

/-! ## Memory -/

theorem Keeps.sameMemory {s t : State} (h : Keeps s t) : SameMemory s t :=
  ⟨fun a => by unfold State.hbmByte; rw [h.data], fun a => by unfold State.hostByte; rw [h.host]⟩

@[simp] theorem State.coach_journal (s : State) (r : JRec) (c : CoachId) : (s.journal r).coach c = s.coach c := rfl

/-! ## Fields changed in the present clk (R13) -/

theorem anyKey_insert_other {α : Type} (m : SMap α) {k j : Nat} (v : α) (h : j ≠ k) :
    ((insert m k v).any fun e => decide (e.1 = j)) = m.any fun e => decide (e.1 = j) := by
  induction m with
  | nil => simp [insert, Ne.symm h]
  | cons e r ih =>
    obtain ⟨i, w⟩ := e
    unfold insert
    split
    · rw [List.any_cons, List.any_cons, ih]
    · split
      · rename_i hik
        simp [hik, Ne.symm h]
      · simp [Ne.symm h]

theorem anyKey_noted_other (m : SMap Nat) {k j : Nat} (before : Nat) (h : j ≠ k) :
    ((noted m k before).any fun e => decide (e.1 = j)) = m.any fun e => decide (e.1 = j) := by
  unfold noted
  split
  · rfl
  · exact anyKey_insert_other m before h

theorem Coach.isEarly_hit_other (co : Coach) {k j : Nat} (before : Nat) (h : j ≠ k) :
    (co.hit k before).isEarly j = co.isEarly j := anyKey_noted_other _ _ h

theorem State.isEarly_hit_other (s : State) {k j : Nat} (before : Nat) (h : j ≠ k) :
    (s.hit k before).isEarly j = s.isEarly j := anyKey_noted_other _ _ h

end Sys2Proof.Machine
end

section
/-! Row repairs and debug accesses of a coach (obligation O40). -/

namespace Sys2Proof.Machine

open Sys2Proof

/-! ## Row repair (R76, R77) -/

section RowRepair

variable (s : State) (c : CoachId) (row : BitVec 16) (hr : (s.coach c).repairs.contains row.toNat = true)
  (hp : (s.coach c).phase = .idle)

include hr hp

/-- A repair with a spare of the bank left takes the next one and journals it. -/
theorem rowRepairStep_spare (hu : look 0 (s.coach c).spares (row.toNat / 2048) < 16) :
    let used := look 0 (s.coach c).spares (row.toNat / 2048)
    rowRepairStep c row s = (s.setCoach c { s.coach c with
      repairs := (s.coach c).repairs.filter fun x => decide (x ≠ row.toNat), idleCount := 0
      spares := store 0 (s.coach c).spares (row.toNat / 2048) (used + 1)
      ecc := (s.coach c).ecc.filter fun e => decide (e.1 / 64 ≠ row.toNat) }).journal
        (.spadRepair c.toNat (row.toNat / 2048) (row.toNat % 2048) used) := by
  unfold rowRepairStep
  dsimp only
  rw [if_neg (by rw [hr, hp]; decide), if_pos hu]

/-- A repair with no spare left degrades the coach. -/
theorem coach_rowRepairStep_full (hu : 16 ≤ look 0 (s.coach c).spares (row.toNat / 2048)) :
    (rowRepairStep c row s).coach c = { s.coach c with
      repairs := (s.coach c).repairs.filter fun x => decide (x ≠ row.toNat), idleCount := 0, degraded := true } := by
  unfold rowRepairStep
  dsimp only
  rw [if_neg (by rw [hr, hp]; decide), if_neg (by omega)]
  split <;> simp

end RowRepair

/-! ## Debug accesses (R81) -/

/-- A request while none is under way is granted or denied by `State.debugOutcome`. -/
theorem debugStep_granted (s : State) (c : CoachId) (write : Bool) (h : (s.coach c).dbgReq = none)
    (hd : s.debugOutcome (s.coach c) = 0) :
    debugStep write c s = s.setCoach c { s.coach c with
      dbgDenied := 0, dbgReq := some { write := write, addr := (s.coach c).dbgAddr }, idleCount := 0 } := by
  unfold debugStep
  dsimp only
  rw [if_neg (by simp [h]), if_pos hd]

theorem debugStep_denied (s : State) (c : CoachId) (write : Bool) (h : (s.coach c).dbgReq = none)
    (hd : s.debugOutcome (s.coach c) ≠ 0) :
    debugStep write c s = s.setCoach c { s.coach c with
      dbgDenied := s.debugOutcome (s.coach c), dbgData := if write then (s.coach c).dbgData else 0 } := by
  unfold debugStep
  dsimp only
  rw [if_neg (by simp [h]), if_neg hd]

theorem debugOutcome_eq (s : State) (co : Coach) : s.debugOutcome co =
    if s.boot.debug = false then 1 else if co.phase ≠ .idle then 2
    else if 1536 ≤ co.dbgAddr.toNat / 64 % 2048 then 3 else 0 := by
  unfold State.debugOutcome
  cases s.boot.debug <;> rfl

/-! ## Completion of a debug access (R81) -/

@[simp] theorem Coach.isEarly_needRepair (co : Coach) (row k : Nat) : (co.needRepair row).isEarly k = co.isEarly k := by
  unfold Coach.needRepair; split <;> rfl

/-- Reading a row with errors changes the fields 2 and 3 in the present clk, and no other. -/
theorem Coach.isEarly_eccRead (co : Coach) (row : Nat) {k : Nat} (h2 : k ≠ 2) (h3 : k ≠ 3) :
    (co.eccRead row).2.isEarly k = co.isEarly k := by
  unfold Coach.eccRead
  refine List.foldlRecOn (motive := fun r : Option Nat × Coach => r.2.isEarly k = co.isEarly k) _ _ rfl fun r hr e _ => ?_
  split
  · dsimp only
    split
    · exact (Coach.isEarly_needRepair _ _ _).trans ((r.2.isEarly_hit_other _ h3).trans hr)
    · exact (r.2.isEarly_hit_other _ h3).trans hr
  · exact (Coach.isEarly_needRepair _ _ _).trans ((r.2.isEarly_hit_other _ h2).trans hr)
  · exact hr

/-- A debug read meets the errors of its slot alone, which changes reports. -/
theorem Coach.booked_eccSlot (co : Coach) (addr : Nat) : co.Booked (co.eccSlot addr) := by
  have h := Coach.booked_eccRead { co with ecc := co.ecc.filter fun e => decide (e.1 = addr) } (addr / 64)
  unfold Coach.Booked Coach.eccSlot at *
  rw [h]

theorem Coach.isEarly_eccSlot (co : Coach) (addr : Nat) {k : Nat} (h2 : k ≠ 2) (h3 : k ≠ 3) :
    (co.eccSlot addr).isEarly k = co.isEarly k :=
  Coach.isEarly_eccRead { co with ecc := co.ecc.filter fun e => decide (e.1 = addr) } _ h2 h3

theorem Coach.debugData_eq (co : Coach) (v : Slot) :
    co.debugData v = { co with dbgData := if co.isEarly 5 then co.dbgData else v } := by
  unfold Coach.debugData
  split <;> rfl

section DebugDone

variable (s : State) (c : CoachId) (r : DbgReq) (h : (s.coach c).dbgReq = some r)

include h

/-- A debug write to a bank with power replaces one slot. -/
theorem coach_debugDoneStep_write (hw : r.write = true)
    (hb : ((s.coach c).bank (r.addr.toNat / 64 / 2048)).st = .on ∨ ((s.coach c).bank (r.addr.toNat / 64 / 2048)).st = .draining) :
    (debugDoneStep c s).coach c = { s.coach c with
      dbgReq := none
      spad := store 0 (s.coach c).spad (r.addr.toNat / 64)
        (setSlot (look 0 (s.coach c).spad (r.addr.toNat / 64)) (r.addr.toNat % 64) (s.coach c).dbgData)
      ecc := store none (s.coach c).ecc r.addr.toNat none } := by
  unfold debugDoneStep
  dsimp only
  rw [h]
  dsimp only
  rw [if_pos hw, if_pos (by simpa using hb), State.coach_setCoach]

/-- A debug read of a bank with power brings its slot to DBG_DATA, unless the host has written that in the same clk, and
changes reports besides. -/
theorem coach_debugDoneStep_read (hw : r.write = false)
    (hb : ((s.coach c).bank (r.addr.toNat / 64 / 2048)).st = .on ∨ ((s.coach c).bank (r.addr.toNat / 64 / 2048)).st = .draining) :
    ∃ x, Coach.Booked { s.coach c with dbgReq := none } x ∧ (debugDoneStep c s).coach c = { x with
      dbgData := if (s.coach c).isEarly 5 then (s.coach c).dbgData
        else slotOf (look 0 (s.coach c).spad (r.addr.toNat / 64)) (r.addr.toNat % 64) } := by
  have hx := Coach.booked_eccSlot { s.coach c with dbgReq := none } r.addr.toNat
  refine ⟨_, hx, ?_⟩
  have he := Coach.isEarly_eccSlot { s.coach c with dbgReq := none } r.addr.toNat (k := 5) (by decide) (by decide)
  have hd : (Coach.eccSlot { s.coach c with dbgReq := none } r.addr.toNat).dbgData = (s.coach c).dbgData := by rw [hx]
  unfold debugDoneStep
  dsimp only
  rw [h]
  dsimp only
  rw [if_neg (by simp [hw]), if_pos (by simpa using hb), State.coach_setCoach, Coach.debugData_eq, he, hd]
  rfl

/-- An access to a bank without power changes DBG_DATA at most. -/
theorem coach_debugDoneStep_dark
    (hb : ((s.coach c).bank (r.addr.toNat / 64 / 2048)).st = .off ∨ ((s.coach c).bank (r.addr.toNat / 64 / 2048)).st = .waking) :
    ∃ v, (debugDoneStep c s).coach c = { s.coach c with dbgReq := none, dbgData := v } := by
  have dark : ¬ (decide (((s.coach c).bank (r.addr.toNat / 64 / 2048)).st = .on) ||
      decide (((s.coach c).bank (r.addr.toNat / 64 / 2048)).st = .draining)) = true := by
    rcases hb with e | e <;> rw [e] <;> decide
  unfold debugDoneStep
  dsimp only
  rw [h]
  dsimp only
  rw [if_neg dark, if_neg dark]
  split
  · exact ⟨_, State.coach_setCoach _ _ _⟩
  · exact ⟨_, (State.coach_setCoach _ _ _).trans (Coach.debugData_eq _ _)⟩

end DebugDone

/-- Settles O40: a repair and a debug request are the cases of `rowRepairStep` and `debugStep`; a completion goes by whether it
writes and whether the bank has power. -/
theorem repairsAndDebugAccesses : Obligations.RepairsAndDebugAccesses := by
  intro s c
  refine ⟨fun row hr hp => ⟨_, rfl, ?_⟩, fun h => ⟨fun hd => ?_, fun hd => ?_⟩, fun r h => ⟨_, rfl, ?_⟩⟩
  · have hm : SameMemory s (rowRepairStep c row s) := (rowRepairStep_keeps c row s (Keeps.refl s)).sameMemory
    by_cases hu : look 0 (s.coach c).spares (row.toNat / 2048) < 16
    · rw [rowRepairStep_spare s c row hr hp hu] at hm ⊢
      rw [State.coach_journal, State.coach_setCoach]
      exact ⟨rfl, rfl, by simp, hm, fun _ => ⟨by simp, by simp, rfl, rfl⟩, fun h => absurd hu (by omega)⟩
    · rw [coach_rowRepairStep_full s c row hr hp (by omega)]
      exact ⟨rfl, rfl, by simp, hm, fun h => absurd h hu, fun _ => rfl⟩
  · rw [← debugOutcome_eq] at hd
    exact ⟨⟨_, rfl, by rw [debugStep_granted s c false h hd, State.coach_setCoach]⟩,
      ⟨_, rfl, by rw [debugStep_granted s c true h hd, State.coach_setCoach]⟩⟩
  · rw [← debugOutcome_eq] at hd ⊢
    exact ⟨⟨_, rfl, by rw [debugStep_denied s c false h hd, State.coach_setCoach]; rfl⟩,
      ⟨_, rfl, by rw [debugStep_denied s c true h hd, State.coach_setCoach]; rfl⟩⟩
  · have hm : SameMemory s (debugDoneStep c s) := (debugDoneStep_keeps c s (Keeps.refl s)).sameMemory
    by_cases hd : ((s.coach c).bank (r.addr.toNat / 64 / 2048)).st = .off ∨
        ((s.coach c).bank (r.addr.toNat / 64 / 2048)).st = .waking
    · obtain ⟨v, hv⟩ := coach_debugDoneStep_dark s c r h hd
      rw [hv]
      refine ⟨rfl, rfl, hm, fun _ _ => rfl, fun _ => rfl, fun hl => ?_⟩
      rcases hd with e | e <;> rw [e] at hl <;> simp at hl
    · have hl : ((s.coach c).bank (r.addr.toNat / 64 / 2048)).st = .on ∨
          ((s.coach c).bank (r.addr.toNat / 64 / 2048)).st = .draining := by
        generalize ((s.coach c).bank (r.addr.toNat / 64 / 2048)).st = st at hd ⊢
        cases st <;> simp at hd ⊢
      by_cases hw : r.write = true
      · rw [coach_debugDoneStep_write s c r h hw hl]
        refine ⟨rfl, rfl, hm, fun n hn => by dsimp only; rw [look_store_other _ _ _ hn], fun k => absurd k hd,
          fun _ => ⟨fun _ => ?_, fun k => ?_⟩⟩
        · refine ⟨?_, rfl, fun n hn hs => ?_⟩
          · have hs : r.addr.toNat % 64 < 64 := Nat.mod_lt _ (by decide)
            rw [look_store_same, slotOf_setSlot _ _ _ _ hs, if_pos rfl]
          · rw [look_store_same, slotOf_setSlot _ _ _ _ hn, if_neg hs]
        · rw [hw] at k; cases k
      · rw [Bool.not_eq_true] at hw
        obtain ⟨x, hx, ht⟩ := coach_debugDoneStep_read s c r h hw hl
        rw [ht]
        have hs : x.spad = (s.coach c).spad := by rw [hx]
        refine ⟨by rw [hx], by rw [hx], hm, fun n _ => by rw [hs], fun k => absurd k hd,
          fun _ => ⟨fun k => ?_, fun _ => ⟨hs, rfl⟩⟩⟩
        rw [hw] at k; cases k

end Sys2Proof.Machine
end

section
/-! Ring controls and doorbells (obligation O46). -/

namespace Sys2Proof.Machine

open Sys2Proof

/-! ## Ring controls (R330, R348) -/

/-- A ring has 16 to 65,536 entries. -/
theorem ringSizeOk_iff (l : BitVec 5) : ringSizeOk l = true ↔ 4 ≤ l.toNat ∧ l.toNat ≤ 16 := by
  simp [ringSizeOk, BitVec.le_def]

section Control

variable (v : BitVec 32)

/-- Enabling by a write of a ring control: ENABLE is set and the size is one a ring may have. -/
def enables : Prop := v.getLsbD 0 = true ∧ ringSizeOk (v.extractLsb' 4 5) = true

theorem enables_iff : enables v ↔ v.getLsbD 0 = true ∧ 4 ≤ (v.extractLsb' 4 5).toNat ∧ (v.extractLsb' 4 5).toNat ≤ 16 := by
  unfold enables; rw [ringSizeOk_iff]

theorem Sq.control_enabling (q : Sq) (he : q.enable = false) (h : enables v) : q.control v =
    { q with cq := v.extractLsb' 10 6, logSize := v.extractLsb' 4 5, enable := true, head := 0, tail := 0 } := by
  simp [Sq.control, he, h.1, h.2]

theorem Sq.control_disabled (q : Sq) (he : q.enable = false) (h : ¬ enables v) :
    q.control v = { q with cq := v.extractLsb' 10 6, logSize := v.extractLsb' 4 5 } := by
  cases hv : v[0]
  · simp [Sq.control, he, hv]
  · have hr : ringSizeOk (v.extractLsb' 4 5) = false := by simpa [enables, hv] using h
    simp [Sq.control, he, hv, hr]

theorem Sq.control_enabled (q : Sq) (he : q.enable = true) : q.control v = { q with enable := v.getLsbD 0 } := by
  have hq : { q with enable := true } = q := by rw [← he]
  cases hv : v[0] <;> simp [Sq.control, he, hv, hq]

theorem Cq.control_enabling (q : Cq) (he : q.enable = false) (h : enables v) :
    q.control v = { q with logSize := v.extractLsb' 4 5, enable := true, head := 0, tail := 0, phase := true } := by
  simp [Cq.control, he, h.1, h.2]

theorem Cq.control_disabled (q : Cq) (he : q.enable = false) (h : ¬ enables v) :
    q.control v = { q with logSize := v.extractLsb' 4 5 } := by
  cases hv : v[0]
  · simp [Cq.control, he, hv]
  · have hr : ringSizeOk (v.extractLsb' 4 5) = false := by simpa [enables, hv] using h
    simp [Cq.control, he, hv, hr]

theorem Cq.control_enabled (q : Cq) (he : q.enable = true) : q.control v = { q with enable := v.getLsbD 0 } := by
  have hq : { q with enable := true } = q := by rw [← he]
  cases hv : v[0] <;> simp [Cq.control, he, hv, hq]

end Control

theorem not_enables {v : BitVec 32}
    (h : v.getLsbD 0 = false ∨ ¬ (4 ≤ (v.extractLsb' 4 5).toNat ∧ (v.extractLsb' 4 5).toNat ≤ 16)) : ¬ enables v := by
  rw [enables_iff]
  rintro ⟨hv, hf⟩
  rcases h with h | h
  · rw [h] at hv; cases hv
  · exact h hf

/-- SQ_ENABLE and CQ_ENABLE, by whether the ring is enabled and the write enables it. -/
theorem sqControls (s : State) (i : BitVec 6) (v : BitVec 32) :
    exec (.sqEnable i v) s = .next ((s.hit (320 + i.toNat) 0).setSq i.toNat ((s.sq i.toNat).control v)) := rfl

theorem cqControls (s : State) (i : BitVec 6) (v : BitVec 32) :
    exec (.cqEnable i v) s = .next ((s.hit (384 + i.toNat) 0).setCq i.toNat ((s.cq i.toNat).control v)) := rfl

/-! ## The control of the event ring (R362) -/

/-- What waits for the event ring raises events and retirements, and leaves of the ring what its control sets. -/
structure RingKept (s t : State) : Prop where
  ring : t.evt = { s.evt with
    sources := t.evt.sources, replay := t.evt.replay, resetAborts := t.evt.resetAborts, sealDue := t.evt.sealDue }
  coaches : t.coaches = s.coaches
  tasks : t.tasks = s.tasks

theorem RingKept.refl (s : State) : RingKept s s := ⟨rfl, rfl, rfl⟩

theorem RingKept.trans {s t u : State} (h : RingKept s t) (k : RingKept t u) : RingKept s u :=
  ⟨by rw [k.ring, h.ring], k.coaches.trans h.coaches, k.tasks.trans h.tasks⟩

theorem RingKept.foldl {α : Type} {f : State → α → State} (hf : ∀ s x, RingKept s (f s x)) :
    ∀ (l : List α) (s : State), RingKept s (l.foldl f s)
  | [], s => .refl s
  | x :: l, s => (hf s x).trans (RingKept.foldl hf l (f s x))

theorem ringKept_raise (s : State) (i c p : Nat) : RingKept s (s.raise i c p) := ⟨rfl, rfl, rfl⟩

theorem ringKept_raiseRetire (s : State) (k a row : Nat) (replay : Bool) : RingKept s (s.raiseRetire k a row replay) := by
  unfold State.raiseRetire
  refine RingKept.foldl (fun _ _ => ?_) _ s
  exact ⟨rfl, rfl, rfl⟩

theorem ringKept_ringEnabled (s : State) : RingKept s s.ringEnabled := by
  have h1 := RingKept.foldl (fun s (r : Nat × Nat × Nat) => ringKept_raiseRetire s r.1 (activeOf r.2.1) r.2.2 true) s.evt.replay s
  unfold State.ringEnabled
  generalize s.evt.replay.foldl _ s = s1 at h1 ⊢
  have h2 := h1.trans (RingKept.foldl (fun s (w : EvWait) => ringKept_raise s srcHost w.code.toNat w.payload.toNat) s1.evt.resetAborts s1)
  dsimp only
  generalize s1.evt.resetAborts.foldl _ s1 = s2 at h2 ⊢
  refine h2.trans ?_
  split
  · exact (ringKept_raise s2 _ _ _).trans ⟨rfl, rfl, rfl⟩
  · exact ⟨rfl, rfl, rfl⟩

/-- The fields of the event ring that a write of its control changes whatever ENABLE says. -/
def Evt.controlled (e : Evt) (dropped : Bool) (v : BitVec 32) : Evt :=
  { e with dropped := dropped, logSize := if e.enable then e.logSize else v.extractLsb' 4 5 }

theorem Evt.dropped_control (e : Evt) (b : Bool) :
    (if b = true then { e with dropped := false } else e) = { e with dropped := e.dropped && !b } := by
  cases b <;> simp

theorem Evt.logSize_control (e : Evt) (l : BitVec 5) :
    (if e.enable = true then e else { e with logSize := l }) = { e with logSize := if e.enable then e.logSize else l } := by
  split <;> rfl

section EventControl

variable (v : BitVec 32) (s : State)

/-- What stands in the event ring's fields once DROPPED and LOG_SIZE have been written. -/
def controlledRing : Evt := s.evt.controlled (s.evt.dropped && (!v.getLsbD 9 || s.isEarly 2)) v

theorem eventControl_eq : eventControl v s =
    if !(v.getLsbD 0) then { s.hit 448 0 with evt := { controlledRing v s with enable := false } }
    else if s.evt.enable || !ringSizeOk (controlledRing v s).logSize then { s.hit 448 0 with evt := controlledRing v s }
    else { s.hit 448 0 with evt := { controlledRing v s with enable := true, head := 0, tail := 0, phase := true } }.ringEnabled := by
  unfold eventControl controlledRing Evt.controlled
  dsimp only
  rw [State.isEarly_hit_other s (k := 448) 0 (j := 2) (by decide), Evt.dropped_control, Evt.logSize_control]
  simp only [State.hit_evt, Bool.not_and, Bool.not_not]
  rfl

theorem eventControl_enabling (he : s.evt.enable = false) (h : enables v) : eventControl v s =
    { s.hit 448 0 with evt := { controlledRing v s with enable := true, head := 0, tail := 0, phase := true } }.ringEnabled := by
  rw [eventControl_eq, if_neg (by rw [h.1]; decide), if_neg]
  unfold controlledRing Evt.controlled
  simp [he, h.2]

theorem eventControl_keeping (h : ¬ (s.evt.enable = false ∧ enables v)) : eventControl v s =
    { s.hit 448 0 with evt := { controlledRing v s with enable := s.evt.enable && v.getLsbD 0 } } := by
  rw [eventControl_eq]
  cases hv : v.getLsbD 0
  · simp
  · have hc : (s.evt.enable || !ringSizeOk (controlledRing v s).logSize) = true := by
      cases he : s.evt.enable
      · have hr : ringSizeOk (v.extractLsb' 4 5) = false := by simpa [enables, hv, he] using h
        simp [controlledRing, Evt.controlled, he, hr]
      · rfl
    rw [hc]
    cases he : s.evt.enable
    · simp [controlledRing, Evt.controlled, he]
    · simp [controlledRing, Evt.controlled, he]

end EventControl

/-! ## Doorbells (R329) -/

/-- A rejected doorbell sets DB_ERR, counts it, and raises vector 65. -/
theorem State.rejectDoorbell_eq (s : State) : s.rejectDoorbell = { s with
    early := s.rejectDoorbell.early
    hif := { s.hif with
      dbErr := true, dbErrSet := satInc s.hif.dbErrSet, pba := s.rejectDoorbell.hif.pba, raised := s.rejectDoorbell.hif.raised } } := by
  unfold State.rejectDoorbell State.raiseVector
  split <;> rfl

theorem toNat_doorbellIndex {value : Nat} (hv : value < 2 ^ 16) : (BitVec.ofNat 16 value).toNat = value := by
  rw [BitVec.toNat_ofNat]; exact Nat.mod_eq_of_lt hv

section Doorbells

variable (s : State) (off size value : Nat)

theorem State.doorbell_bad (h : size ≠ 4 ∨ ¬ (value < 2 ^ 16 ∧ s.hif.hostReady = true)) :
    s.doorbell off size value = s.rejectDoorbell := by
  unfold State.doorbell
  refine if_pos ?_
  rcases h with h | h
  · exact .inl h
  · rw [Decidable.not_and_iff_not_or_not, Nat.not_lt, Bool.not_eq_true] at h
    exact .inr (h.imp_left fun k => by omega)

variable (hv : value < 2 ^ 16) (hr : s.hif.hostReady = true)

include hv hr

theorem not_badDoorbell : ¬ (4 ≠ 4 ∨ value / 2 ^ 16 ≠ 0 ∨ s.hif.hostReady = false) := by
  rw [hr]; simp; omega

theorem State.doorbell_sq (i : BitVec 6) : s.doorbell (0x1000 * i.toNat) 4 value =
    if value < 2 ^ (s.sq i.toNat).logSize.toNat then s.setSq i.toNat { s.sq i.toNat with tail := BitVec.ofNat 16 value }
    else s.rejectDoorbell := by
  have hi := i.isLt
  have ring : 0x1000 * i.toNat % 0x40000 / 0x1000 = i.toNat := by omega
  unfold State.doorbell
  dsimp only
  rw [if_neg (not_badDoorbell s value hv hr), if_pos (by omega), ring, toNat_doorbellIndex hv]

theorem State.doorbell_cq (i : BitVec 6) : s.doorbell (0x40000 + 0x1000 * i.toNat) 4 value =
    if value < 2 ^ (s.cq i.toNat).logSize.toNat then s.setCq i.toNat { s.cq i.toNat with head := BitVec.ofNat 16 value }
    else s.rejectDoorbell := by
  have hi := i.isLt
  have ring : (0x40000 + 0x1000 * i.toNat) % 0x40000 / 0x1000 = i.toNat := by omega
  unfold State.doorbell
  dsimp only
  rw [if_neg (not_badDoorbell s value hv hr), if_neg (by omega), if_pos (by omega), ring, toNat_doorbellIndex hv]

theorem State.doorbell_evt : s.doorbell 0x80000 4 value =
    if value < 2 ^ s.evt.logSize.toNat then { s with evt := { s.evt with head := BitVec.ofNat 16 value } }
    else s.rejectDoorbell := by
  unfold State.doorbell
  dsimp only
  rw [if_neg (not_badDoorbell s value hv hr), if_neg (by omega), if_neg (by omega), if_pos rfl, toNat_doorbellIndex hv]

end Doorbells

/-- A doorbell is rejected for its size or value, before host-ready, or for an index beyond its ring. -/
theorem State.doorbell_rejected (s : State) (off n logSize : Nat) (v : BitVec 32) (good : State)
    (h4 : v.toNat < 2 ^ 16 → s.hif.hostReady = true →
      s.doorbell off 4 v.toNat = if v.toNat < 2 ^ logSize then good else s.rejectDoorbell)
    (h : n ≠ 4 ∨ ¬ (v.toNat < 2 ^ 16 ∧ s.hif.hostReady = true) ∨ 2 ^ logSize ≤ v.toNat) :
    s.doorbell off n v.toNat = s.rejectDoorbell := by
  by_cases hb : n ≠ 4 ∨ ¬ (v.toNat < 2 ^ 16 ∧ s.hif.hostReady = true)
  · exact s.doorbell_bad _ _ _ hb
  · obtain ⟨hn, hv, hr⟩ : n = 4 ∧ v.toNat < 2 ^ 16 ∧ s.hif.hostReady = true := by simpa [not_or] using hb
    have hl : 2 ^ logSize ≤ v.toNat := (or_assoc.mpr h).resolve_left hb
    rw [hn, h4 hv hr, if_neg (by omega)]

/-- Places of the doorbells of ring `i`. -/
theorem sqDoorbell_place (i : BitVec 6) : (BitVec.ofNat 24 (0x1000 * i.toNat)).toNat = 0x1000 * i.toNat := by
  have := i.isLt
  rw [BitVec.toNat_ofNat]; omega

theorem cqDoorbell_place (i : BitVec 6) : (BitVec.ofNat 24 (0x40000 + 0x1000 * i.toNat)).toNat = 0x40000 + 0x1000 * i.toNat := by
  have := i.isLt
  rw [BitVec.toNat_ofNat]; omega

/-! ## The statement -/

/-- The event ring after a write of its control. -/
theorem eventControl_spec (v : BitVec 32) (s : State) :
    let e := s.evt
    let fits := 4 ≤ (v.extractLsb' 4 5).toNat ∧ (v.extractLsb' 4 5).toNat ≤ 16
    let t := eventControl v s
    t.evt.held = e.held ∧ t.evt.base = e.base ∧ t.evt.dropped = (e.dropped && (!v.getLsbD 9 || s.isEarly 2)) ∧
      t.evt.logSize = (if e.enable then e.logSize else v.extractLsb' 4 5) ∧
      t.evt.enable = (if e.enable then v.getLsbD 0 else (v.getLsbD 0 && decide fits)) ∧
      (e.enable = false → v.getLsbD 0 = true → fits →
        t.evt.head = 0 ∧ t.evt.tail = 0 ∧ t.evt.phase = true ∧ t.evt.resetAborts = []) ∧
      (e.enable = true ∨ v.getLsbD 0 = false ∨ ¬fits → t.evt.head = e.head ∧ t.evt.tail = e.tail ∧ t.evt.phase = e.phase) ∧
      SameMemory s t ∧ t.coaches = s.coaches ∧ t.tasks = s.tasks := by
  intro e fits t
  have hm : SameMemory s t := (eventControl_keeps v s (Keeps.refl s)).sameMemory
  by_cases h : e.enable = false ∧ enables v
  · obtain ⟨he, hv⟩ := h
    have hf := (enables_iff v).mp hv
    obtain ⟨hr, hc, hk⟩ := ringKept_ringEnabled
      { s.hit 448 0 with evt := { controlledRing v s with enable := true, head := 0, tail := 0, phase := true } }
    have ht : t = _ := eventControl_enabling v s he hv
    rw [← ht] at hr hc hk
    have ha : t.evt.resetAborts = [] := by rw [ht]; rfl
    refine ⟨by rw [hr]; rfl, by rw [hr]; rfl, by rw [hr]; rfl, by rw [hr]; rfl, ?_,
      fun _ _ _ => ⟨by rw [hr], by rw [hr], by rw [hr], ha⟩, fun k => ?_, hm, hc, hk⟩
    · rw [hr, he, hf.1, decide_eq_true hf.2]; rfl
    · rcases k with k | k
      · rw [he] at k; cases k
      · exact absurd hv (not_enables k)
  · have ht : t = _ := eventControl_keeping v s h
    refine ⟨by rw [ht]; rfl, by rw [ht]; rfl, by rw [ht]; rfl, by rw [ht]; rfl, ?_, fun he hv hf => ?_,
      fun _ => ?_, hm, by rw [ht]; rfl, by rw [ht]; rfl⟩
    · rw [ht]
      dsimp only
      cases he : s.evt.enable
      · have hn : (v.getLsbD 0 && decide fits) = false := by
          rw [enables_iff] at h
          simpa [e, he, fits] using h
        rw [hn]; rfl
      · simp
    · exact absurd ⟨he, (enables_iff v).mpr ⟨hv, hf⟩⟩ h
    · rw [ht]; exact ⟨rfl, rfl, rfl⟩

/-- Settles O46: ring controls by whether the ring is enabled and the write enables it, doorbells by whether they are rejected. -/
theorem ringsFollowTheirControlsAndDoorbells : Obligations.RingsFollowTheirControlsAndDoorbells := by
  intro s i v
  refine ⟨⟨fun he hv hf => ?_, fun he h => ?_, fun he => ?_⟩, ⟨fun he hv hf => ?_, fun he h => ?_, fun he => ?_⟩, ?_, ?_⟩
  · dsimp only; rw [sqControls, Sq.control_enabling v _ he ((enables_iff v).mpr ⟨hv, hf⟩)]
  · dsimp only; rw [sqControls, Sq.control_disabled v _ he (not_enables h)]
  · dsimp only; rw [sqControls, Sq.control_enabled v _ he]
  · dsimp only; rw [cqControls, Cq.control_enabling v _ he ((enables_iff v).mpr ⟨hv, hf⟩)]
  · dsimp only; rw [cqControls, Cq.control_disabled v _ he (not_enables h)]
  · dsimp only; rw [cqControls, Cq.control_enabled v _ he]
  · exact ⟨_, rfl, eventControl_spec v s⟩
  · have sq := fun hv hr => s.doorbell_sq v.toNat hv hr i
    have cq := fun hv hr => s.doorbell_cq v.toNat hv hr i
    have evt := fun hv hr => s.doorbell_evt v.toNat hv hr
    have sqPlace := sqDoorbell_place i
    have cqPlace := cqDoorbell_place i
    refine ⟨fun ok hl => ?_, fun ok hl => ?_, fun ok hl => ?_,
      fun n => ⟨fun h => ⟨_, rfl, ?_⟩, fun h => ⟨_, rfl, ?_⟩, fun h => ⟨_, rfl, ?_⟩⟩⟩
    · rw [exec, execSqTailDoorbell, sqPlace, sq ok.1 ok.2, if_pos hl]
    · rw [exec, execCqHeadDoorbell, cqPlace, cq ok.1 ok.2, if_pos hl]
    · rw [exec, execEventHeadDoorbell]; exact congrArg _ ((evt ok.1 ok.2).trans (if_pos hl))
    · rw [sqPlace, s.doorbell_rejected _ _ _ _ _ sq h]; exact s.rejectDoorbell_eq
    · rw [cqPlace, s.doorbell_rejected _ _ _ _ _ cq h]; exact s.rejectDoorbell_eq
    · rw [show (0x80000 : BitVec 24).toNat = 0x80000 from rfl, s.doorbell_rejected _ _ _ _ _ evt h]; exact s.rejectDoorbell_eq

end Sys2Proof.Machine
end

section
/-! COMMAND_FETCH, COMPLETION_WRITE, EVENT_RECORD, EVENT_RING_WRITE and IRQ_DELAY_EXPIRE: what each leaves (O47). -/

namespace Sys2Proof.Machine

open Sys2Proof

/-! ## Bytes of memory -/

/-- Byte `j` of a number. -/
theorem getElem_leBytes (n x j : Nat) (h : j < (leBytes n x).length) : (leBytes n x)[j] = BitVec.ofNat 8 (x / 2 ^ (8 * j)) := by
  induction n generalizing x j with
  | zero => simp [leBytes] at h
  | succ n ih =>
    cases j with
    | zero => simp [leBytes]
    | succ j =>
      rw [length_leBytes] at h
      have k := ih (x / 256) j (by rw [length_leBytes]; omega)
      have e : x / 256 / 2 ^ (8 * j) = x / 2 ^ (8 * (j + 1)) := by
        rw [Nat.div_div_eq_div_mul, Nat.mul_succ, Nat.add_comm, Nat.pow_add]
      simpa [leBytes, e] using k

theorem hostByte_congr {s t : State} (h : t.host = s.host) (a : Nat) : t.hostByte a = s.hostByte a := by
  unfold State.hostByte; rw [h]

theorem hbmByte_congr {s t : State} (h : t.hbm.data = s.hbm.data) (a : Nat) : t.hbmByte a = s.hbmByte a := by
  unfold State.hbmByte; rw [h]

/-- A number written to host memory stands there byte by byte. -/
theorem State.hostByte_hostWrite (s : State) (a n x j : Nat) (h : j < n) :
    (s.hostWrite a (leBytes n x)).hostByte (a + j) = BitVec.ofNat 8 (x / 2 ^ (8 * j)) := by
  have hj : j < (leBytes n x).length := by rw [length_leBytes]; exact h
  unfold State.hostByte State.hostWrite
  dsimp only
  rw [look_storeList_in _ _ _ _ _ hj, getElem_leBytes]

theorem State.hostByte_hostWrite_out (s : State) (a n x b : Nat) (h : b < a ∨ a + n ≤ b) :
    (s.hostWrite a (leBytes n x)).hostByte b = s.hostByte b := by
  unfold State.hostByte State.hostWrite
  dsimp only
  rw [look_storeList_out _ _ _ _ _ (by rw [length_leBytes]; exact h)]

/-! ## Vectors and ring errors (R333, R348) -/

/-- A vector's count after it has been raised while it is not masked. -/
def Raised (s t : State) (n : Nat) : Prop :=
  (look Msix.reset s.hif.msix n).ctrl.getLsbD 0 = false → look 0 t.hif.raised n = look 0 s.hif.raised n + 1

theorem Raised.congr {r s t : State} {n : Nat} (h : Raised r t n) (e : r.hif = s.hif) : Raised s t n := by
  unfold Raised at *; rw [← e]; exact h

/-- Raising a vector changes the pending bits or the counts of the vectors. -/
theorem State.raiseVector_eq (s : State) (n : Nat) : s.raiseVector n =
    { s with hif := { s.hif with pba := (s.raiseVector n).hif.pba, raised := (s.raiseVector n).hif.raised } } := by
  unfold State.raiseVector
  split <;> rfl

theorem raised_raiseVector (s : State) (n : Nat) : Raised s (s.raiseVector n) n := by
  intro h
  unfold State.raiseVector
  rw [if_neg (by rw [h]; decide)]
  dsimp only
  rw [look_store_same]

/-- What a ring error leaves: RING_ERR with its count and its place, an error report, and vector 65 raised. -/
theorem State.ringError_eq (s : State) (kind cq event ring : Nat) : s.ringError kind cq event ring = { s with
    freeCtr := (s.ringError kind cq event ring).freeCtr, early := (s.ringError kind cq event ring).early
    hif := { s.hif with
      pcie := (s.ringError kind cq event ring).hif.pcie, ringErr := true, ringErrSet := satInc s.hif.ringErrSet
      ringErrInfo := BitVec.ofNat 32 (kind * 2 ^ 8 + cq * 2 ^ 7 + event * 2 ^ 6 + ring)
      pba := (s.ringError kind cq event ring).hif.pba, raised := (s.ringError kind cq event ring).hif.raised } } := by
  unfold State.ringError
  dsimp only
  rw [State.raiseVector_eq]
  rfl

theorem raised_ringError (s : State) (kind cq event ring : Nat) : Raised s (s.ringError kind cq event ring) 65 := by
  intro h
  unfold State.ringError
  exact raised_raiseVector _ _ h

/-- RING_ERR is set with its place, and memories, coaches and tasks are as before. -/
def RingFailed (s t : State) (info : Nat) : Prop :=
  t.hif.ringErr = true ∧ t.hif.ringErrSet = satInc s.hif.ringErrSet ∧ t.hif.ringErrInfo = BitVec.ofNat 32 info ∧ SameMemory s t ∧
    t.coaches = s.coaches ∧ t.tasks = s.tasks

/-- A ring error in a state that differs from `s` in its rings alone. -/
theorem ringFailed_ringError {s u : State} (kind cq event ring : Nat) {info : Nat}
    (hi : kind * 2 ^ 8 + cq * 2 ^ 7 + event * 2 ^ 6 + ring = info)
    (hm : Keeps s u) (hc : u.coaches = s.coaches) (ht : u.tasks = s.tasks)
    (hs : u.hif.ringErrSet = s.hif.ringErrSet) (hx : u.hif.msix = s.hif.msix) (hr : u.hif.raised = s.hif.raised) :
    RingFailed s (u.ringError kind cq event ring) info ∧ Raised s (u.ringError kind cq event ring) 65 := by
  have hv := raised_ringError u kind cq event ring
  have hk := (State.ringError_keeps u kind cq event ring hm).sameMemory
  have h := u.ringError_eq kind cq event ring
  unfold Raised at hv ⊢
  rw [hx, hr] at hv
  generalize u.ringError kind cq event ring = t at hk h hv ⊢
  exact ⟨⟨by rw [h], by rw [h, hs], by rw [h, hi], hk, by rw [h, hc], by rw [h, ht]⟩, hv⟩

@[simp] theorem State.sq_ringError (s : State) (kind cq event ring i : Nat) : (s.ringError kind cq event ring).sq i = s.sq i := by
  unfold State.sq; rw [State.ringError_eq]

@[simp] theorem State.cq_ringError (s : State) (kind cq event ring i : Nat) : (s.ringError kind cq event ring).cq i = s.cq i := by
  unfold State.cq; rw [State.ringError_eq]

@[simp] theorem State.evt_ringError (s : State) (kind cq event ring : Nat) : (s.ringError kind cq event ring).evt = s.evt := by
  rw [State.ringError_eq]

/-! ## COMMAND_FETCH (R331, R429) -/

theorem State.fetchable_of_turn {s : State} {i : Nat} (h : s.turn = some i) : s.fetchable i = true := List.find?_some h

/-- The ring whose turn it is has no command fetched. -/
theorem State.fetched_of_turn {s : State} {i : Nat} (h : s.turn = some i) : (s.sq i).fetched = none := by
  have k := State.fetchable_of_turn h
  unfold State.fetchable at k
  simp only [Bool.and_eq_true, Option.isNone_iff_eq_none] at k
  exact k.1.1.1.2

theorem fetchStep_idle (i : BitVec 6) (error : Bool) (s : State) (h : s.turn ≠ some i.toNat) : fetchStep i error s = s := by
  unfold fetchStep
  exact if_pos h

/-- The place of the next command of a ring. -/
def Sq.advanced (q : Sq) : Sq := { q with head := BitVec.ofNat 16 ((q.head.toNat + 1) % 2 ^ q.logSize.toNat) }

/-- The number that the 128 bytes at a ring's head make. -/
def State.commandWord (s : State) (q : Sq) : Nat := leNat (lookList 0 s.host (q.base.toNat + 128 * q.head.toNat) 128)

/-- The state in which ring `i` has been served. -/
def State.served (s : State) (i : BitVec 6) : State := { s with hif := { s.hif with nextSq := (i.toNat + 1) % 64 } }

section Fetch

variable (i : BitVec 6) (s : State) (h : s.turn = some i.toNat)

include h

theorem fetchStep_error : fetchStep i true s =
    ((s.served i).setSq i.toNat { s.sq i.toNat with enable := (s.sq i.toNat).enable && s.isEarly (320 + i.toNat) }).ringError
      1 0 0 i.toNat := by
  unfold fetchStep
  dsimp only
  rw [if_neg (fun k => k h), if_pos rfl]
  rfl

theorem fetchStep_fetched (hw : malformedAt (s.commandWord (s.sq i.toNat)) = none) : fetchStep i false s =
    (s.served i).setSq i.toNat { (s.sq i.toNat).advanced with
      fetched := some ((s.sq i.toNat).head, BitVec.ofNat 1024 (s.commandWord (s.sq i.toNat))) } := by
  unfold State.commandWord at hw ⊢
  unfold fetchStep State.hostRead
  dsimp only
  rw [if_neg (fun k => k h), if_neg (by decide), hw]
  rfl

theorem fetchStep_malformed {d : Nat} (hw : malformedAt (s.commandWord (s.sq i.toNat)) = some d) : fetchStep i false s =
    ((s.served i).setSq i.toNat (s.sq i.toNat).advanced).refuse (bits (s.commandWord (s.sq i.toNat)) 7 0)
      (cmdHdrOf i.toNat (s.sq i.toNat).head.toNat (s.commandWord (s.sq i.toNat))) .malformed d := by
  unfold State.commandWord at hw ⊢
  unfold fetchStep State.hostRead
  dsimp only
  rw [if_neg (fun k => k h), if_neg (by decide), hw]
  rfl

end Fetch

/-- A refusal reports its status, its detail and a value. -/
def refusal (status : Status) (detail value : Nat) : Report := { Report.of status detail with value := value }

/-- A refusal of a command whose ring holds none fetched: its record joins those held for the ring's completion ring. -/
theorem State.refuse_eq (s : State) (op : Nat) (h : CmdHdr) (status : Status) (detail : Nat)
    (hf : (s.sq h.sq.toNat).fetched = none) :
    ∃ v, s.refuse op h status detail = s.push h ((refusal status detail v).word op h s.ehl.ftime) := by
  refine ⟨if op = 5 then s.policyHash.toNat else 0, ?_⟩
  unfold State.refuse State.post State.accept
  have e : ∀ w, (s.push h w).sq h.sq.toNat = s.sq h.sq.toNat := fun w => rfl
  dsimp only
  rw [e, hf]
  rfl

/-- STATUS and DETAIL of the record of a refusal (R335). -/
theorem word_refusal (status : Status) (d v op : Nat) (h : CmdHdr) (time : Nat) (hop : op < 2 ^ 8) (hs : status.code < 2 ^ 8) :
    bits ((refusal status d v).word op h time).toNat 15 8 = status.code ∧
      bits ((refusal status d v).word op h time).toNat 471 424 = d % 2 ^ 48 := by
  unfold refusal Report.of Report.word bits
  rw [BitVec.toNat_ofNat]
  have h1 := h.sq.isLt
  have h2 := h.index.isLt
  have h3 := h.taskId.isLt
  constructor <;> simp only [] <;> omega

/-- A completion record joins those held for the completion ring of its submission ring. -/
theorem State.cq_push (s : State) (h : CmdHdr) (w : BitVec 512) : (s.push h w).cq (s.sq h.sq.toNat).cq.toNat =
    { s.cq (s.sq h.sq.toNat).cq.toNat with
      held := (s.cq (s.sq h.sq.toNat).cq.toNat).held ++ [{ word := w, noIrq := h.noIrq }] } :=
  State.cq_setCq _ _ _

/-- A word that R429 finds malformed is answered with MALFORMED, and its ring goes on. -/
theorem fetchStep_malformed_spec (i : BitVec 6) (s : State) (h : s.turn = some i.toNat) {d : Nat}
    (hw : malformedAt (s.commandWord (s.sq i.toNat)) = some d) :
    let q := s.sq i.toNat
    let t := fetchStep i false s
    (∃ k, (t.cq q.cq.toNat).held = (s.cq q.cq.toNat).held ++ [k] ∧ bits k.word.toNat 15 8 = 1 ∧
      bits k.word.toNat 471 424 = d % 2 ^ 48) ∧ t.sq i.toNat = q.advanced ∧ SameMemory s t ∧ t.coaches = s.coaches := by
  intro q t
  have hm : SameMemory s t := (fetchStep_keeps i false s (Keeps.refl s)).sameMemory
  have ht : t = _ := fetchStep_malformed i s h hw
  have hi : (cmdHdrOf i.toNat q.head.toNat (s.commandWord q)).sq.toNat = i.toNat := by
    unfold cmdHdrOf; rw [BitVec.ofNat_toNat, BitVec.setWidth_eq]
  have hq : ((s.served i).setSq i.toNat q.advanced).sq i.toNat = q.advanced := State.sq_setSq _ _ _
  have hf : (((s.served i).setSq i.toNat q.advanced).sq (cmdHdrOf i.toNat q.head.toNat (s.commandWord q)).sq.toNat).fetched = none := by
    rw [hi, hq]; exact State.fetched_of_turn h
  obtain ⟨v, hv⟩ := State.refuse_eq _ (bits (s.commandWord q) 7 0) _ .malformed d hf
  rw [hv] at ht
  refine ⟨?_, ?_, hm, ?_⟩
  · have hp := State.cq_push ((s.served i).setSq i.toNat q.advanced) (cmdHdrOf i.toNat q.head.toNat (s.commandWord q))
      ((refusal .malformed d v).word (bits (s.commandWord q) 7 0) (cmdHdrOf i.toNat q.head.toNat (s.commandWord q)) s.ehl.ftime)
    rw [hi, hq] at hp
    have hop : bits (s.commandWord q) 7 0 < 2 ^ 8 := Nat.mod_lt _ (by decide)
    exact ⟨_, (congrArg Cq.held ((congrArg (State.cq · q.cq.toNat) ht).trans hp)), word_refusal _ _ _ _ _ _ hop (by decide)⟩
  · rw [ht]; exact hq
  · rw [ht]; rfl

/-! ## COMPLETION_WRITE (R332, R333) -/

/-- Commands that wait have completed, and tasks have left the table: completions have joined those that are held. -/
structure Completes (s t : State) : Prop where
  held : ∀ i, ∃ more, t.cq i = { s.cq i with held := (s.cq i).held ++ more }
  raised : t.hif.raised = s.hif.raised
  coaches : t.coaches = s.coaches
  host : t.host = s.host
  data : t.hbm.data = s.hbm.data

theorem Completes.trans {s t u : State} (h : Completes s t) (k : Completes t u) : Completes s u := by
  refine ⟨fun i => ?_, k.raised.trans h.raised, k.coaches.trans h.coaches, k.host.trans h.host, k.data.trans h.data⟩
  obtain ⟨l, hl⟩ := h.held i
  obtain ⟨m, hm⟩ := k.held i
  exact ⟨l ++ m, by rw [hm, hl, List.append_assoc]⟩

/-- A change that leaves the completion rings, the vectors, the coaches and both memories alone. -/
theorem Completes.of_eq {s t : State} (hq : t.hif.cqs = s.hif.cqs) (hr : t.hif.raised = s.hif.raised) (hc : t.coaches = s.coaches)
    (hh : t.host = s.host) (hd : t.hbm.data = s.hbm.data) : Completes s t :=
  ⟨fun i => ⟨[], by unfold State.cq; rw [hq, List.append_nil]⟩, hr, hc, hh, hd⟩

theorem Completes.refl (s : State) : Completes s s := .of_eq rfl rfl rfl rfl rfl

theorem Completes.foldl {α : Type} {f : State → α → State} (hf : ∀ s x, Completes s (f s x)) :
    ∀ (l : List α) (s : State), Completes s (l.foldl f s)
  | [], s => .refl s
  | x :: l, s => (hf s x).trans (Completes.foldl hf l (f s x))

theorem Quiet.completes {s t : State} (h : Quiet s t) : Completes s t :=
  .of_eq (by rw [h.rest]) (by rw [h.rest]) (by rw [h.rest]) (by rw [h.rest]) (by rw [h.rest])

theorem completes_push (s : State) (h : CmdHdr) (w : BitVec 512) : Completes s (s.push h w) := by
  refine ⟨fun i => ?_, rfl, rfl, rfl, rfl⟩
  by_cases hi : i = (s.sq h.sq.toNat).cq.toNat
  · rw [hi]; exact ⟨_, State.cq_push s h w⟩
  · exact ⟨[], by unfold State.push; rw [State.cq_setCq_other _ _ hi, List.append_nil]⟩

theorem completes_accept (s : State) (h : CmdHdr) : Completes s (s.accept h) := by
  unfold State.accept
  dsimp only
  split
  · exact .of_eq rfl rfl rfl rfl rfl
  · exact .refl s

theorem completes_post (s : State) (op : Nat) (h : CmdHdr) (r : Report) : Completes s (s.post op h r) :=
  (completes_push s h _).trans (completes_accept _ h)

theorem completes_of_ite {s t u : State} {p : Prop} [Decidable p] (hu : Completes s u) (h : (if p then none else some u) = some t) :
    Completes s t := by
  split at h
  · cases h
  · cases h; exact hu

/-- A command that waits completes in one of four ways, by what it waits for. -/
theorem completes_waitOver (s t : State) (w : Waiting) (h : s.waitOver w = some t) : Completes s t := by
  cases w with
  | fence c upTo own => exact completes_of_ite (completes_post s 7 c _) h
  | abortOf c keys found => exact completes_of_ite (completes_post s 6 c _) h
  | destroy c context =>
    have k : Completes s { s with contexts := store none s.contexts context.toNat none } := .of_eq rfl rfl rfl rfl rfl
    exact completes_of_ite (k.trans (completes_post _ 2 c _)) h
  | groupDelete c g =>
    have k : Completes s { s with kst := { s.kst with groups := store none s.kst.groups g.toNat none } } := .of_eq rfl rfl rfl rfl rfl
    exact completes_of_ite (k.trans (completes_post _ 8 c _)) h
  | keyRegister | load | summary => cases h

theorem completes_settleWaiting (s : State) : Completes s s.settleWaiting := by
  unfold State.settleWaiting
  refine Completes.foldl (fun s w => ?_) _ s
  split
  · rename_i t ht
    exact (completes_waitOver s t w ht).trans (.of_eq rfl rfl rfl rfl rfl)
  · exact .refl s

theorem completes_removeTask (s : State) (key : Nat) : Completes s (s.removeTask key) := by
  have h : Quiet s ((s.tasks.filter fun t => t.key = key && t.tells s.clk).foldl State.announce s) :=
    Quiet.foldl (fun t x hk => State.announce_quiet t x hk) _ (.refl s)
  exact h.completes.trans (.of_eq rfl rfl rfl rfl rfl)

theorem completes_dropTask (s : State) (w : Nat) : Completes s (s.dropTask w) := by
  unfold State.dropTask
  split
  · exact .refl s
  · exact (Completes.foldl (fun s (t : Task) => completes_removeTask s t.key) _ s).trans (completes_settleWaiting _)

/-- A completion is signalled by its count or at once; of its ring that changes what counts for the interrupt, and elsewhere the
host interface alone. -/
theorem State.signalCq_spec (s : State) (i : Nat) (noIrq : Bool) :
    (∃ n o, (s.signalCq i noIrq).cq i = { s.cq i with unsignalled := n, oldestAt := o }) ∧
      s.signalCq i noIrq = { s with hif := (s.signalCq i noIrq).hif } ∧
      (noIrq = false → (s.cq i).delay = 0 → Raised s (s.signalCq i noIrq) i) := by
  unfold State.signalCq
  dsimp only
  split
  · rename_i h
    exact ⟨⟨_, _, rfl⟩, rfl, fun k => by rw [k] at h; cases h⟩
  · split
    · refine ⟨⟨0, (s.cq i).oldestAt, ?_⟩, ?_, fun _ _ h => ?_⟩
      · rw [State.raiseVector_eq]; exact State.cq_setCq _ _ _
      · rw [State.raiseVector_eq]; rfl
      · exact raised_raiseVector _ _ h
    · rename_i h
      exact ⟨⟨_, _, State.cq_setCq _ _ _⟩, rfl, fun _ k => absurd (.inl k) h⟩

section Completion

variable (i : BitVec 6) (s : State) {k : Completion} {rest : List Completion} (hk : (s.cq i.toNat).held = k :: rest)
  (he : (s.cq i.toNat).enable = true) (hf : (s.cq i.toNat).full = false)

include hk he hf

theorem completionStep_error : completionStep i true s =
    (s.setCq i.toNat { s.cq i.toNat with enable := s.isEarly (384 + i.toNat) }).ringError 2 1 0 i.toNat := by
  unfold completionStep
  dsimp only
  rw [hk]
  dsimp only
  rw [he, hf, if_neg (by decide), if_pos rfl, Bool.true_and]

/-- A completion ring after its first held record has been written. -/
def Cq.written (q : Cq) (rest : List Completion) : Cq :=
  let tail := (q.tail.toNat + 1) % 2 ^ q.logSize.toNat
  { q with tail := BitVec.ofNat 16 tail, held := rest, phase := if tail = 0 then !q.phase else q.phase }

theorem completionStep_written {q : Cq} (hq : q = s.cq i.toNat) : completionStep i false s =
    (((s.hostWrite (q.base.toNat + 64 * q.tail.toNat) (leBytes 64 (k.word.toNat + flag q.phase * 2 ^ 48))).setCq i.toNat
      (q.written rest)).signalCq i.toNat k.noIrq).dropTask k.word.toNat := by
  subst hq
  unfold completionStep Cq.written
  simp only [hk, he, hf, Bool.not_true, Bool.or_self, Bool.false_eq_true, if_false]

end Completion

/-- A ring whose record has been written is signalled, and a task whose completion that was leaves the table. -/
theorem signalled_spec (s : State) (i : Nat) (q : Cq) (noIrq : Bool) (w : Nat) {t : State}
    (ht : t = ((s.setCq i q).signalCq i noIrq).dropTask w) :
    (∃ more n o, t.cq i = { q with held := q.held ++ more, unsignalled := n, oldestAt := o }) ∧ t.host = s.host ∧
      t.hbm.data = s.hbm.data ∧ t.coaches = s.coaches ∧ (noIrq = false → q.delay = 0 → Raised s t i) := by
  obtain ⟨⟨n, o, hq⟩, hr, hi⟩ := State.signalCq_spec (s.setCq i q) i noIrq
  rw [State.cq_setCq] at hq hi
  generalize (s.setCq i q).signalCq i noIrq = u at ht hq hr hi
  obtain ⟨hheld, hraised, hcoaches, hhost, hdata⟩ := completes_dropTask u w
  rw [← ht] at hheld hraised hcoaches hhost hdata
  obtain ⟨more, hm⟩ := hheld i
  rw [hq] at hm
  refine ⟨⟨more, n, o, hm⟩, by rw [hhost, hr]; rfl, by rw [hdata, hr]; rfl, by rw [hcoaches, hr]; rfl, fun h1 h2 h3 => ?_⟩
  rw [hraised]
  exact hi h1 h2 h3

/-- The first held record reaches its ring. -/
theorem completionStep_spec (i : BitVec 6) (s : State) {k : Completion} {rest : List Completion}
    (hk : (s.cq i.toNat).held = k :: rest) (he : (s.cq i.toNat).enable = true) (hf : (s.cq i.toNat).full = false) {c : Cq}
    (hc : c = s.cq i.toNat) {t : State} (ht : t = completionStep i false s) :
    (∃ more, (t.cq i.toNat).held = rest ++ more) ∧
      (t.cq i.toNat).tail.toNat = (c.tail.toNat + 1) % 2 ^ c.logSize.toNat % 2 ^ 16 ∧
      (t.cq i.toNat).phase = (if (c.tail.toNat + 1) % 2 ^ c.logSize.toNat = 0 then !c.phase else c.phase) ∧
      (∀ j, j < 64 → t.hostByte (c.base.toNat + 64 * c.tail.toNat + j) =
        BitVec.ofNat 8 ((k.word.toNat + flag c.phase * 2 ^ 48) / 2 ^ (8 * j))) ∧
      (∀ a, a < c.base.toNat + 64 * c.tail.toNat ∨ c.base.toNat + 64 * c.tail.toNat + 64 ≤ a → t.hostByte a = s.hostByte a) ∧
      (∀ a, t.hbmByte a = s.hbmByte a) ∧ t.coaches = s.coaches ∧ (k.noIrq = false → c.delay = 0 → Raised s t i.toNat) := by
  rw [completionStep_written i s hk he hf hc] at ht
  obtain ⟨⟨more, n, o, hq⟩, hhost, hdata, hcoaches, hraised⟩ := signalled_spec _ _ _ _ _ ht
  have hb := hostByte_congr hhost
  refine ⟨⟨more, by rw [hq]; rfl⟩, by rw [hq]; exact BitVec.toNat_ofNat _ _, by rw [hq]; rfl, fun j hj => ?_, fun a ha => ?_,
    fun a => ?_, by rw [hcoaches, State.hostWrite_coaches], fun h1 h2 => (hraised h1 h2).congr (s.hostWrite_hif _ _)⟩
  · rw [hb, State.hostByte_hostWrite _ _ _ _ _ hj]
  · rw [hb, State.hostByte_hostWrite_out _ _ _ _ _ ha]
  · exact (hbmByte_congr hdata a).trans (hbmByte_congr (congrArg Hbm.data (s.hostWrite_hbm _ _)) a)

/-! ## EVENT_RECORD (R360, R361) -/

theorem Evt.held_take (e : Evt) (clk n : Nat) (w : BitVec 256) (h : e.held.length < 256) : (e.take clk n w).held =
    e.held.take (e.held.length - (e.held.reverse.takeWhile (e.after clk n)).length) ++
      w :: e.held.drop (e.held.length - (e.held.reverse.takeWhile (e.after clk n)).length) := by
  unfold Evt.take
  dsimp only
  rw [if_pos h]

theorem Evt.sources_take (e : Evt) (clk n : Nat) (w : BitVec 256) : (e.take clk n w).sources = e.sources := by
  unfold Evt.take
  dsimp only
  split <;> rfl

/-- Behind records of which none must stand after it, a record comes last. -/
theorem Evt.held_take_last (e : Evt) (clk n : Nat) (w : BitVec 256) (h : e.held.length < 256)
    (ha : ∀ o ∈ e.held, e.after clk n o = false) : (e.take clk n w).held = e.held ++ [w] := by
  have k : e.held.reverse.takeWhile (e.after clk n) = [] := by
    cases hr : e.held.reverse with
    | nil => rfl
    | cons o l => exact List.takeWhile_cons_of_neg (by rw [ha o (List.mem_reverse.mp (hr ▸ List.mem_cons_self))]; decide)
  rw [Evt.held_take e clk n w h, k]
  simp

/-- A record comes before the one last record that must stand after it. -/
theorem Evt.held_take_before (e : Evt) (clk n : Nat) (w : BitVec 256) (h : e.held.length < 256) {l : List (BitVec 256)} {o : BitVec 256}
    (hl : e.held = l ++ [o]) (ho : e.after clk n o = true) (ha : ∀ p ∈ l, e.after clk n p = false) :
    (e.take clk n w).held = l ++ [w, o] := by
  have k : e.held.reverse.takeWhile (e.after clk n) = [o] := by
    rw [hl, List.reverse_append, List.reverse_singleton, List.singleton_append, List.takeWhile_cons_of_pos ho]
    cases hr : l.reverse with
    | nil => rfl
    | cons p r =>
      rw [List.takeWhile_cons_of_neg (by rw [ha p (List.mem_reverse.mp (hr ▸ List.mem_cons_self))]; decide)]
  rw [Evt.held_take e clk n w h, k, hl]
  simp

/-- A source's first waiting event is recorded, where the buffer has a place for it. -/
theorem State.recordNow_spec (u : State) (n : Nat) {v : EvSource} (hv : v = look EvSource.zero u.evt.sources n) {x : EvWait}
    {rest : List EvWait} (hw : v.waiting = x :: rest) (hl : u.evt.held.length < 256) (hx : x.replayed = false) {t : State}
    (ht : t = u.recordNow n) :
    t.evt.held = (u.evt.take u.clk n (recordWord x v.seq n u.ehl.ftime)).held ∧
      t.evt.sources = store EvSource.zero u.evt.sources n
        { seq := v.seq + 1, waiting := rest, lastClk := some u.clk, lastTs := BitVec.ofNat 64 u.ehl.ftime } ∧
      t = { u with early := t.early, evt := t.evt } := by
  subst hv
  unfold State.recordNow at ht
  dsimp only at ht
  rw [hw] at ht
  dsimp only at ht
  rw [if_neg (by rw [hx, Bool.false_and]; decide), if_pos hl] at ht
  have hs := u.evt.sources_take u.clk n (recordWord x (look EvSource.zero u.evt.sources n).seq n u.ehl.ftime)
  subst ht
  split
  · exact ⟨rfl, by dsimp only; rw [hs]; rfl, rfl⟩
  · exact ⟨rfl, by dsimp only; rw [hs]; rfl, rfl⟩

theorem recordStep_eq (n : Nat) (s : State) (h : (look EvSource.zero s.evt.sources n).waiting ≠ []) :
    recordStep n s = (s.advance ((look EvSource.zero s.evt.sources n).recordAt n s.clk)).recordNow n := by
  unfold recordStep
  exact if_neg (by rw [List.isEmpty_iff]; exact h)

/-! ## EVENT_RING_WRITE (R361) -/

/-- A record is signalled as a completion is, on vector 64. -/
theorem State.signalEvent_spec (s : State) {t : State} (ht : t = s.signalEvent) :
    (∃ n o, t.evt = { s.evt with unsignalled := n, oldestAt := o }) ∧ t.host = s.host ∧
      (s.evt.delay = 0 → Raised s t 64) := by
  subst ht
  unfold State.signalEvent
  dsimp only
  split
  · refine ⟨⟨0, s.evt.oldestAt, ?_⟩, ?_, fun _ h => raised_raiseVector _ _ h⟩ <;> rw [State.raiseVector_eq]
  · rename_i h
    exact ⟨⟨_, _, rfl⟩, rfl, fun k => absurd (.inl k) h⟩

section RingWrite

variable (s : State) {r : BitVec 256} {rest : List (BitVec 256)} (hr : s.evt.held = r :: rest) (he : s.evt.enable = true)
  (hf : s.evt.full = false)

include hr he hf

theorem ringWriteStep_error :
    ringWriteStep true s = { s with evt := { s.evt with enable := s.isEarly 448 } }.ringError 2 0 1 0 := by
  unfold ringWriteStep
  simp only [hr, he, hf, Bool.not_true, Bool.or_self, Bool.false_eq_true, if_false, if_true, Bool.true_and]

/-- The event ring after its first held record has been written. -/
def Evt.written (e : Evt) (rest : List (BitVec 256)) : Evt :=
  let tail := (e.tail.toNat + 1) % 2 ^ e.logSize.toNat
  { e with held := rest, tail := BitVec.ofNat 16 tail, phase := if tail = 0 then !e.phase else e.phase }

theorem ringWriteStep_written {e : Evt} (hq : e = s.evt) {w : State}
    (hw : w = s.hostWrite (e.base.toNat + 32 * e.tail.toNat) (leBytes 32 (r.toNat + flag e.phase * 2 ^ 79))) :
    ringWriteStep false s = { w with evt := e.written rest }.signalEvent := by
  subst hq
  have hevt : w.evt = s.evt := by rw [hw]; exact State.hostWrite_evt _ _ _
  unfold ringWriteStep Evt.written
  dsimp only
  rw [hr]
  dsimp only
  rw [← hw, if_neg (by rw [he, hf]; decide), if_neg (by decide), hevt]

/-- The first held record reaches the event ring. -/
theorem ringWriteStep_spec {e : Evt} (hq : e = s.evt) {t : State} (ht : t = ringWriteStep false s) :
    t.evt.held = rest ∧
      (∀ j, j < 32 → t.hostByte (e.base.toNat + 32 * e.tail.toNat + j) =
        BitVec.ofNat 8 ((r.toNat + flag e.phase * 2 ^ 79) / 2 ^ (8 * j))) ∧
      (∀ a, a < e.base.toNat + 32 * e.tail.toNat ∨ e.base.toNat + 32 * e.tail.toNat + 32 ≤ a → t.hostByte a = s.hostByte a) ∧
      (e.delay = 0 → Raised s t 64) := by
  obtain ⟨w, hw⟩ : ∃ w, w = s.hostWrite (e.base.toNat + 32 * e.tail.toNat) (leBytes 32 (r.toNat + flag e.phase * 2 ^ 79)) :=
    ⟨_, rfl⟩
  have hif : w.hif = s.hif := by rw [hw, State.hostWrite_hif]
  rw [ringWriteStep_written s hr he hf hq hw] at ht
  obtain ⟨⟨n, o, hevt⟩, hhost, hraised⟩ := State.signalEvent_spec _ ht
  have hb : ∀ a, t.hostByte a = w.hostByte a := hostByte_congr hhost
  refine ⟨by rw [hevt]; rfl, fun j hj => ?_, fun a ha => ?_, fun h => (hraised h).congr hif⟩
  · rw [hb, hw, State.hostByte_hostWrite _ _ _ _ _ hj]
  · rw [hb, hw, State.hostByte_hostWrite_out _ _ _ _ _ ha]

end RingWrite

/-! ## IRQ_DELAY_EXPIRE (R333) -/

theorem execIrqDelayExpire_cq (s : State) (i : BitVec 6) (h : (s.cq i.toNat).unsignalled ≠ 0) :
    execIrqDelayExpire (i.setWidth 7) s =
      .next (((s.advance ((s.cq i.toNat).oldestAt + (s.cq i.toNat).delay.toNat * 256)).setCq i.toNat
        { s.cq i.toNat with unsignalled := 0 }).raiseVector i.toNat) := by
  have hi := i.isLt
  have e : (i.setWidth 7).toNat = i.toNat := by rw [BitVec.toNat_setWidth]; omega
  unfold execIrqDelayExpire
  dsimp only
  rw [e, if_pos hi, if_neg h]

theorem execIrqDelayExpire_evt (s : State) (h : s.evt.unsignalled ≠ 0) : execIrqDelayExpire 64 s =
    let u := s.advance (s.evt.oldestAt + s.evt.delay.toNat * 256)
    .next ({ u with evt := { u.evt with unsignalled := 0 } }.raiseVector 64) := by
  unfold execIrqDelayExpire
  dsimp only
  rw [show (64 : BitVec 7).toNat = 64 from rfl, if_neg (by decide), if_pos rfl, if_neg h]

/-- A vector is raised after its delay: what the last part of `t` says of the state `u` in that clk. -/
theorem raiseVector_spec {s u v t : State} {clk n : Nat} (hl : Later s u) (hc : u.clk = clk) (hk : Keeps u v) (hv : v.clk = u.clk)
    (hm : v.hif.msix = u.hif.msix ∧ v.hif.raised = u.hif.raised) (ht : t = v.raiseVector n) :
    t.clk = clk ∧ Raised s t n ∧ SameMemory u t := by
  refine ⟨?_, fun h => ?_, ?_⟩
  · rw [ht, State.raiseVector_eq]; exact hv.trans hc
  · have k := raised_raiseVector v n
    rw [← ht] at k
    unfold Raised at k
    rw [hm.1, hm.2, hl.hif] at k
    exact k h
  · rw [ht]; exact (State.raiseVector_keeps v n hk).sameMemory

/-! ## The statement -/

/-- Settles O47: each row by its own lemma above. -/
theorem commandsAreFetchedAndAnswered : Obligations.CommandsAreFetchedAndAnswered := by
  intro s i q c e w next failed raised
  refine ⟨fun h => ⟨fun hw => ?_, fun d hw => ?_, ⟨_, rfl, ?_⟩⟩, fun h error => ?_, fun k rest hk he hf => ⟨⟨_, rfl, ?_⟩, ⟨_, rfl, ?_⟩⟩,
    ?_, fun r rest hr he hf => ⟨⟨_, rfl, ?_⟩, ⟨_, rfl, ?_⟩⟩, fun h => ?_, fun h => ?_⟩
  · exact congrArg _ (fetchStep_fetched i s h hw)
  · obtain ⟨⟨k, hk⟩, ht⟩ := fetchStep_malformed_spec i s h hw
    exact ⟨_, k, rfl, hk.1, hk.2.1, hk.2.2, ht⟩
  · rw [fetchStep_error i s h]
    exact ⟨by rw [State.sq_ringError, State.sq_setSq], ringFailed_ringError 1 0 0 _ (by omega) ⟨rfl, rfl, rfl, rfl⟩ rfl rfl rfl rfl rfl⟩
  · exact congrArg _ (fetchStep_idle i error s h)
  · exact completionStep_spec i s hk he hf rfl rfl
  · rw [completionStep_error i s hk he hf]
    exact ⟨by rw [State.cq_ringError, State.cq_setCq], ringFailed_ringError 2 1 0 _ (by omega) ⟨rfl, rfl, rfl, rfl⟩ rfl rfl rfl rfl rfl⟩
  · intro src x rest n u v r hw hx hl hr
    obtain ⟨hheld, hsources, hrest⟩ := State.recordNow_spec u n rfl hx hl hr rfl
    refine ⟨u.recordNow n, congrArg Host.Outcome.next (recordStep_eq n s hw), hheld, fun ho => ?_, fun l o h1 h2 h3 => ?_,
      ?_, fun m hm => ?_, hrest⟩
    · exact hheld.trans (u.evt.held_take_last _ _ _ hl ho)
    · exact hheld.trans (u.evt.held_take_before _ _ _ hl h1 h2 h3)
    · rw [hsources, look_store_same]
    · rw [hsources, look_store_other _ _ _ hm]
  · exact ringWriteStep_spec s hr he hf rfl rfl
  · rw [ringWriteStep_error s hr he hf]
    exact ⟨by rw [State.evt_ringError], by rw [State.evt_ringError],
      ringFailed_ringError 2 0 1 0 (by omega) ⟨rfl, rfl, rfl, rfl⟩ rfl rfl rfl rfl rfl⟩
  · intro u
    have hl := later_advance s (c.oldestAt + c.delay.toNat * 256)
    obtain ⟨hclk, hraised, hmem⟩ := raiseVector_spec (n := i.toNat) hl (s.advance_clk _)
      (State.setCq_keeps u i.toNat { c with unsignalled := 0 } (Keeps.refl u)) rfl ⟨rfl, rfl⟩ rfl
    exact ⟨_, execIrqDelayExpire_cq s i h, hclk, by rw [State.raiseVector_eq]; exact State.cq_setCq _ _ _, hraised, hmem⟩
  · intro u
    have hl := later_advance s (e.oldestAt + e.delay.toNat * 256)
    obtain ⟨hclk, hraised, hmem⟩ := raiseVector_spec (n := 64) (v := { u with evt := { u.evt with unsignalled := 0 } }) hl
      (s.advance_clk _) ((Keeps.refl u).of_eq rfl rfl rfl rfl) rfl ⟨rfl, rfl⟩ rfl
    exact ⟨_, execIrqDelayExpire_evt s h, hclk, by rw [State.raiseVector_eq], hraised, hmem⟩

end Sys2Proof.Machine
end

section
/-! A boot from a cold reset to host-ready (O52). -/

namespace Sys2Proof.Machine

open Sys2Proof

/-! ## Bytes of a boot header (R368) -/

theorem length_padTo (n : Nat) (bs : List Byte) : (padTo n bs).length = n := by
  unfold padTo
  rw [List.length_append, List.length_take, List.length_replicate]
  omega

theorem length_sha256 (m : List Byte) : (sha256 m).length = 32 := by
  have h : ∀ x, (beBytes 4 x).length = 4 := fun x => by unfold beBytes; rw [List.length_reverse, length_leBytes]
  unfold sha256
  simp only [List.length_flatMap, h]
  rfl

/-- Padding leaves the bytes that are there. -/
theorem padTo_of_le {n : Nat} {bs : List Byte} (h : bs.length ≤ n) : padTo n bs = bs ++ List.replicate (n - bs.length) 0 := by
  unfold padTo; rw [List.take_of_length_le h]

/-- A field that lies behind bytes. -/
theorem fieldAt_append (a b c : List Byte) (n : Nat) (h : b.length = n) : fieldAt (a ++ (b ++ c)) a.length n = leNat b := by
  unfold fieldAt
  rw [List.drop_left, ← h, List.take_left]

/-- What a header copy holds, with the bytes behind it. -/
theorem BootHdr.bytes_eq (h : BootHdr) : ∃ rest, h.bytes = leBytes 4 1 ++ (leBytes 4 h.seq.toNat ++ (padTo 60 h.root ++
    ([BitVec.ofNat 8 (h.activeB.toNat + 8 * h.trial.toNat)] ++ rest))) := by
  unfold BootHdr.bytes BootHdr.front
  rw [padTo_of_le (by simp [length_padTo])]
  simp only [List.append_assoc]
  exact ⟨_, rfl⟩

/-- A header copy that has been written verifies, with its SEQ and what is on trial. -/
theorem hdrOf_bytes (h : BootHdr) : ∃ k, hdrOf h.bytes = some k ∧ k.seq = h.seq ∧ k.trial = h.trial := by
  obtain ⟨rest, e⟩ := h.bytes_eq
  have hf : h.front.length = 96 := length_padTo _ _
  have h0 : fieldAt h.bytes 0 2 = 1 := by rw [e]; rfl
  have h4 : fieldAt h.bytes 4 4 = h.seq.toNat := by
    have k := fieldAt_append (leBytes 4 1) (leBytes 4 h.seq.toNat) (padTo 60 h.root ++
      ([BitVec.ofNat 8 (h.activeB.toNat + 8 * h.trial.toNat)] ++ rest)) 4 (length_leBytes _ _)
    rw [← e, length_leBytes, leNat_leBytes] at k
    rw [k]
    exact Nat.mod_eq_of_lt h.seq.isLt
  have h68 : fieldAt h.bytes 68 1 = h.activeB.toNat + 8 * h.trial.toNat := by
    have k := fieldAt_append (leBytes 4 1 ++ (leBytes 4 h.seq.toNat ++ padTo 60 h.root))
      [BitVec.ofNat 8 (h.activeB.toNat + 8 * h.trial.toNat)] rest 1 rfl
    simp only [List.append_assoc, List.length_append, length_leBytes, length_padTo] at k
    rw [e, k]
    have := h.activeB.isLt
    have := h.trial.isLt
    simp [leNat]
    omega
  have hd : h.bytes.drop 96 = sha256 h.front := List.drop_left' hf
  have ht : h.bytes.take 96 = h.front := List.take_left' hf
  refine ⟨hdrFields h.bytes, ?_, ?_, ?_⟩
  · unfold hdrOf
    exact if_pos ⟨h0, by rw [hd, ht, List.take_of_length_le (Nat.le_of_eq (length_sha256 _))]⟩
  · unfold hdrFields
    simp only [h4, BitVec.ofNat_toNat, BitVec.setWidth_eq]
  · unfold hdrFields
    simp only [h68]
    have := h.activeB.isLt
    rw [show (h.activeB.toNat + 8 * h.trial.toNat) / 8 = h.trial.toNat by omega, BitVec.ofNat_toNat, BitVec.setWidth_eq]

theorem serialAfter_succ (a : BitVec 32) : serialAfter (a + 1) a = true ∧ serialAfter a (a + 1) = false := by
  unfold serialAfter
  constructor
  · simp only [Bool.and_eq_true, decide_eq_true_eq]
    constructor <;> bv_omega
  · rw [Bool.and_eq_false_iff]
    right
    rw [decide_eq_false_iff_not]
    bv_omega

/-- The copy that has been written is the one in use. -/
theorem Nvm.trial_putHeader (n : Nvm) (a t : BitVec 3) : (n.putHeader a t).header.trial = t := by
  unfold Nvm.putHeader
  dsimp only
  obtain ⟨k, hk, hs, ht⟩ := hdrOf_bytes { n.header with seq := n.header.seq + 1, activeB := a, trial := t }
  dsimp only at hs ht
  generalize BootHdr.bytes _ = bs at hk ⊢
  cases hb : n.second with
  | true =>
    obtain ⟨h1, e1⟩ : ∃ h1, hdrOf n.hdr1 = some h1 := by
      unfold Nvm.second at hb
      split at hb
      · exact ⟨_, ‹_›⟩
      · exact ⟨_, ‹_›⟩
      · cases hb
    have hh : n.header = h1 := by unfold Nvm.header; rw [hb, if_pos rfl, e1]
    rw [if_pos rfl]
    have k2 : Nvm.second { n with hdr0 := bs } = false := by
      unfold Nvm.second
      simp only [hk, e1, hs, hh]
      exact (serialAfter_succ _).2
    unfold Nvm.header
    rw [k2, if_neg (by decide)]
    simp only [hk, ht]
  | false =>
    rw [if_neg (by decide)]
    have k2 : Nvm.second { n with hdr1 := bs } = true := by
      unfold Nvm.second
      cases e0 : hdrOf n.hdr0 with
      | none => simp only [hk]
      | some h0 =>
        have hh : n.header = h0 := by unfold Nvm.header; rw [hb, if_neg (by decide), e0]
        simp only [hk, hs, hh]
        exact (serialAfter_succ _).1
    unfold Nvm.header
    rw [k2, if_pos rfl]
    simp only [hk, ht]


/-! ## The record of a boot (R376, R377) -/

theorem Nvm.append_header (n : Nvm) (r : JRec) : (n.append r).hdr0 = n.hdr0 ∧ (n.append r).hdr1 = n.hdr1 := by
  unfold Nvm.append Nvm.withHalf
  dsimp only
  split <;> split <;> exact ⟨rfl, rfl⟩

theorem Nvm.header_congr {m n : Nvm} (h : m.hdr0 = n.hdr0 ∧ m.hdr1 = n.hdr1) : m.header = n.header := by
  unfold Nvm.header Nvm.second
  rw [h.1, h.2]

/-- Each record of a list is written under some SEQ. -/
theorem word_mem_recWords {r : JRec} {l : List JRec} (h : r ∈ l) (seq : Nat) : ∃ k, r.word k ∈ recWords seq l := by
  induction l generalizing seq with
  | nil => cases h
  | cons x l ih =>
    cases h with
    | head => exact ⟨seq, List.mem_cons_self⟩
    | tail _ h =>
      obtain ⟨k, hk⟩ := ih h (seq + 1)
      exact ⟨k, List.mem_cons_of_mem _ hk⟩

/-- A compaction keeps the last record, where that is one of history. -/
theorem mem_compacted_last {r : JRec} (hr : r.history = true) (seq : Nat) (l : List JRec) : r ∈ compacted seq (l ++ [r]) := by
  unfold compacted
  dsimp only
  have e : (l ++ [r]).filter JRec.history = l.filter JRec.history ++ [r] := by
    rw [List.filter_append, List.filter_cons_of_pos hr, List.filter_nil]
  have k : r ∈ (l.filter JRec.history ++ [r]).drop ((l.filter JRec.history ++ [r]).length - 256) := by
    rw [List.drop_append_of_le_length (by rw [List.length_append, List.length_singleton]; omega)]
    exact List.mem_append_right _ List.mem_cons_self
  rw [e]
  exact List.mem_append_left _ (List.mem_append_right _ k)

/-- A record of history stands in the journal once it has been appended. -/
theorem Nvm.word_mem_append (n : Nvm) {r : JRec} (hr : r.history = true) :
    ∃ seq, r.word seq ∈ (n.append r).half0 ++ (n.append r).half1 := by
  have half : ∀ b l erase, ∀ w ∈ l, w ∈ (n.withHalf b l erase).half0 ++ (n.withHalf b l erase).half1 := by
    intro b l erase w hw
    cases b
    · exact List.mem_append_left _ hw
    · exact List.mem_append_right _ hw
  unfold Nvm.append
  dsimp only
  split
  · obtain ⟨k, hk⟩ := word_mem_recWords (mem_compacted_last hr n.nextSeq n.journal) (n.nextSeq + 1)
    exact ⟨k, half _ _ _ _ hk⟩
  · exact ⟨n.nextSeq, half _ _ _ _ (List.mem_append_right _ List.mem_cons_self)⟩

/-! ## What the steps of a boot leave alone -/

/-- Steps of a boot from `s` to `t`: the NVM but its boot header, restricted mode, and what is named nowhere here, may have changed. -/
structure BootFrame (s t : State) : Prop where
  hif : t.hif = s.hif
  work : t.tasks = s.tasks ∧ t.contexts = s.contexts
  host : t.host = s.host
  coach : ∀ c, (t.coach c).phase = (s.coach c).phase ∧ (t.coach c).spad = (s.coach c).spad
  boot : t.boot.bootNumber = s.boot.bootNumber ∧ t.boot.sealOpen = s.boot.sealOpen
  taken : t.boot.copies = s.boot.copies ∧ t.boot.fallback = s.boot.fallback ∧ t.boot.cfg = s.boot.cfg
  restricted : s.boot.restricted = true → t.boot.restricted = true
  header : t.boot.nvm.hdr0 = s.boot.nvm.hdr0 ∧ t.boot.nvm.hdr1 = s.boot.nvm.hdr1

/-- A step that changes of these at most the boot block. -/
theorem BootFrame.of_boot {s t : State} (h : t.hif = s.hif) (hw : t.tasks = s.tasks ∧ t.contexts = s.contexts) (hh : t.host = s.host)
    (hc : t.coaches = s.coaches) (hb : t.boot = { s.boot with nvm := t.boot.nvm, restricted := t.boot.restricted
                                                              restrictedBoots := t.boot.restrictedBoots })
    (hr : s.boot.restricted = true → t.boot.restricted = true)
    (hn : t.boot.nvm.hdr0 = s.boot.nvm.hdr0 ∧ t.boot.nvm.hdr1 = s.boot.nvm.hdr1) : BootFrame s t :=
  ⟨h, hw, hh, fun c => by unfold State.coach; rw [hc]; exact ⟨rfl, rfl⟩, by rw [hb]; exact ⟨rfl, rfl⟩,
    by rw [hb]; exact ⟨rfl, rfl, rfl⟩, hr, hn⟩

/-- A step that leaves all of these alone. -/
theorem BootFrame.of_eq {s t : State} (h : t.hif = s.hif) (hw : t.tasks = s.tasks ∧ t.contexts = s.contexts) (hh : t.host = s.host)
    (hc : t.coaches = s.coaches) (hb : t.boot = s.boot) : BootFrame s t :=
  .of_boot h hw hh hc (by rw [hb]) (fun k => by rw [hb, k]) (by rw [hb]; exact ⟨rfl, rfl⟩)

theorem BootFrame.refl (s : State) : BootFrame s s := .of_eq rfl ⟨rfl, rfl⟩ rfl rfl rfl

theorem BootFrame.trans {s t u : State} (h : BootFrame s t) (k : BootFrame t u) : BootFrame s u where
  hif := k.hif.trans h.hif
  work := ⟨k.work.1.trans h.work.1, k.work.2.trans h.work.2⟩
  host := k.host.trans h.host
  coach c := ⟨(k.coach c).1.trans (h.coach c).1, (k.coach c).2.trans (h.coach c).2⟩
  boot := ⟨k.boot.1.trans h.boot.1, k.boot.2.trans h.boot.2⟩
  taken := ⟨k.taken.1.trans h.taken.1, k.taken.2.1.trans h.taken.2.1, k.taken.2.2.trans h.taken.2.2⟩
  restricted r := k.restricted (h.restricted r)
  header := ⟨k.header.1.trans h.header.1, k.header.2.trans h.header.2⟩

theorem BootFrame.foldl {α : Type} {f : State → α → State} (hf : ∀ s x, BootFrame s (f s x)) :
    ∀ (l : List α) (s : State), BootFrame s (l.foldl f s)
  | [], s => .refl s
  | x :: l, s => (hf s x).trans (BootFrame.foldl hf l (f s x))

theorem State.journal_frame (s : State) (r : JRec) : BootFrame s (s.journal r) :=
  .of_boot rfl ⟨rfl, rfl⟩ rfl rfl rfl id (s.boot.nvm.append_header r)

theorem State.setStk_frame (s : State) (k : Nat) (v : Stack) : BootFrame s (s.setStk k v) :=
  .of_eq rfl ⟨rfl, rfl⟩ rfl rfl rfl

theorem State.createIdentity_frame (s : State) (g : Nat) : BootFrame s (s.createIdentity g) :=
  .of_boot rfl ⟨rfl, rfl⟩ rfl rfl rfl id (Nvm.append_header _ _)

/-- Restricted mode begins. -/
theorem restricted_frame (s : State) (sec : Sec) : BootFrame s { s with boot := { s.boot with restricted := true }, sec := sec } :=
  .of_boot rfl ⟨rfl, rfl⟩ rfl rfl rfl (fun _ => rfl) ⟨rfl, rfl⟩

theorem State.bootIdentity_frame (s : State) : BootFrame s s.bootIdentity := by
  unfold State.bootIdentity
  dsimp only
  split
  · exact restricted_frame s _
  · split
    · exact .of_eq rfl ⟨rfl, rfl⟩ rfl rfl rfl
    · split
      · exact s.createIdentity_frame _
      · exact restricted_frame s s.sec

theorem State.bootPolicy_frame (s : State) : BootFrame s s.bootPolicy := by
  unfold State.bootPolicy
  split
  · exact .refl s
  · dsimp only
    split
    · refine .trans ?_ (State.journal_frame _ _)
      exact .of_eq rfl ⟨rfl, rfl⟩ rfl rfl rfl
    · refine .trans ?_ (BootFrame.foldl (fun s e => ?_) _ _)
      · exact .of_eq rfl ⟨rfl, rfl⟩ rfl rfl rfl
      split
      · split
        · exact .refl s
        · exact s.journal_frame _
      · exact .refl s

/-- A change of a coach that leaves its phase and its rows alone. -/
theorem State.onCoach_frame (s : State) (c : CoachId) (f : Coach → Coach)
    (h : ∀ co, (f co).phase = co.phase ∧ (f co).spad = co.spad) :
    BootFrame s (s.onCoach c f) := by
  refine ⟨rfl, ⟨rfl, rfl⟩, rfl, fun d => ?_, ⟨rfl, rfl⟩, ⟨rfl, rfl, rfl⟩, id, ⟨rfl, rfl⟩⟩
  by_cases hd : d = c
  · rw [hd, State.coach_onCoach]; exact h _
  · rw [State.coach_onCoach_other _ _ hd]; exact ⟨rfl, rfl⟩

theorem State.repairFrom_frame (s : State) (r : JRec) : BootFrame s (s.repairFrom r) := by
  unfold State.repairFrom
  split
  · exact s.onCoach_frame _ _ fun _ => ⟨rfl, rfl⟩
  · exact s.onCoach_frame _ _ fun _ => ⟨rfl, rfl⟩
  · exact .refl s

theorem State.stackFrom_frame (s : State) (r : JRec) : BootFrame s (s.stackFrom r) := by
  unfold State.stackFrom
  split
  · exact s.setStk_frame _ _
  · exact s.setStk_frame _ _
  · exact .of_eq rfl ⟨rfl, rfl⟩ rfl rfl rfl
  · dsimp only
    split <;> exact s.setStk_frame _ _
  · exact .refl s

theorem State.startEvac_frame (s : State) (k a : Nat) : BootFrame s (s.startEvac k a) := by
  unfold State.startEvac
  dsimp only
  split
  · split
    · exact .refl s
    · exact s.setStk_frame _ _
  · split
    · exact .refl s
    · exact ((s.setStk_frame k _).trans (State.journal_frame _ _)).trans (.of_eq rfl ⟨rfl, rfl⟩ rfl rfl rfl)

theorem State.bootFailing_frame (s : State) (k : Nat) : BootFrame s (s.bootFailing k) := by
  unfold State.bootFailing
  refine BootFrame.foldl (fun s a => ?_) _ s
  split
  · exact s.startEvac_frame k a
  · exact .refl s

theorem State.freed_frame (s : State) : BootFrame s s.freed := .of_eq rfl ⟨rfl, rfl⟩ rfl rfl rfl

theorem State.bootMemory_frame (s : State) : BootFrame s s.bootMemory := by
  unfold State.bootMemory
  dsimp only
  refine .trans ?_ (BootFrame.foldl State.bootFailing_frame _ _)
  generalize hv : State.freed _ = v
  refine .trans (t := v) ?_ (.of_eq rfl ⟨rfl, rfl⟩ rfl rfl rfl)
  rw [← hv]
  refine .trans ?_ (State.freed_frame _)
  refine .trans ?_ (BootFrame.foldl (fun s k => s.setStk_frame k _) _ _)
  refine .trans ?_ (BootFrame.foldl State.stackFrom_frame _ _)
  refine .trans ?_ (BootFrame.foldl (fun s (e : Nat × List Remap) => s.setStk_frame e.1 _) _ _)
  exact BootFrame.foldl State.repairFrom_frame _ s

theorem State.bootFabric_frame (s : State) : BootFrame s s.bootFabric := .of_eq rfl ⟨rfl, rfl⟩ rfl rfl rfl

/-- The BOOT record that ends a boot. -/
def State.bootRec (s : State) (fell : BitVec 3) : JRec :=
  .boot s.boot.bootNumber s.boot.copies fell s.boot.restricted s.boot.sealOpen s.boot.cfgMissing

theorem State.bootRecord_eq (s : State) (fell : BitVec 3) : s.bootRecord fell = { s with boot := { s.boot with
    nvm := s.boot.nvm.append (s.bootRec fell), restrictedBoots := s.boot.restrictedBoots + flag s.boot.restricted } } := rfl

theorem State.bootRecord_frame (s : State) (fell : BitVec 3) : BootFrame s (s.bootRecord fell) := by
  rw [State.bootRecord_eq]
  have h := s.boot.nvm.append_header (s.bootRec fell)
  generalize s.boot.nvm.append (s.bootRec fell) = n at h
  exact .of_boot rfl ⟨rfl, rfl⟩ rfl rfl rfl id h


/-! ## What the steps of a boot bring about -/

/-- After step 7 HBM reads as zero. -/
theorem State.bootMemory_data (s : State) : s.bootMemory.hbm.data = [] := by
  unfold State.bootMemory
  dsimp only
  generalize State.freed _ = v
  have k : ∀ u, Keeps u ((List.range 8).foldl State.bootFailing u) :=
    fun u => Keeps.foldl (fun t k h => State.bootFailing_keeps t k h) _ (Keeps.refl u)
  exact (k _).data

theorem State.retime_ids (s : State) : s.retime.ehl.nodeId = s.ehl.nodeId ∧ s.retime.ehl.fabricId = s.ehl.fabricId := by
  unfold State.retime
  dsimp only
  split <;> split <;> exact ⟨rfl, rfl⟩

/-- The fabric has the addresses of the configuration. -/
theorem State.bootFabric_ids (s : State) {c : CfgImage} (h : s.boot.cfg = some c) :
    s.bootFabric.ehl.nodeId = c.nodeId ∧ s.bootFabric.ehl.fabricId = c.fabricId := by
  have ids : ∀ e, (State.retime { s with ehl := e }).ehl.nodeId = e.nodeId ∧
      (State.retime { s with ehl := e }).ehl.fabricId = e.fabricId :=
    fun e => State.retime_ids { s with ehl := e }
  unfold State.bootFabric
  dsimp only
  rw [h]
  exact ids _

/-- The state that the scan of the journal leaves, as far as `BootFrame` tells states apart. -/
def State.scanned (s : State) : State := { s with boot := { s.boot with
  bootNumber := (bootCounts s.boot.nvm.journal).1 + 1, sealOpen := !s.loopClosed, restricted := s.boot.restricted || !s.loopClosed } }

theorem State.bootScan_frame (s : State) (h : s.boot.sealOpen = false) : BootFrame s.scanned s.bootScan := by
  unfold State.bootScan State.scanned
  dsimp only
  cases s.loopClosed with
  | true => exact ⟨rfl, ⟨rfl, rfl⟩, rfl, fun _ => ⟨rfl, rfl⟩, ⟨rfl, h⟩, ⟨rfl, rfl, rfl⟩, by simp, ⟨rfl, rfl⟩⟩
  | false => exact ⟨rfl, ⟨rfl, rfl⟩, rfl, fun _ => ⟨rfl, rfl⟩, ⟨rfl, rfl⟩, ⟨rfl, rfl, rfl⟩, fun _ => rfl,
      Nvm.append_header _ _⟩

/-- The seal loop is open at a boot, where one of eight patterns does not return. -/
theorem State.loopClosed_false_iff (s : State) :
    (!s.loopClosed) = true ↔ ∃ i, i < 8 ∧ sealReturns s.board.sealBack (s.drawPattern i) = false := by
  unfold State.loopClosed
  simp

/-- The copies taken stand in the boot block. -/
theorem Boot.copies_withCopies (b : Boot) (fw : Taken) (mc cfg : Option Taken) :
    (b.withCopies fw mc cfg).copies.getLsbD 0 = fw.b ∧ (fw.fell = true → (b.withCopies fw mc cfg).fallback = true) := by
  refine ⟨?_, fun h => ?_⟩
  · unfold Boot.withCopies
    dsimp only
    rw [Option.any_some, BitVec.getLsbD_ofNat]
    rw [Nat.testBit_zero, show (flag fw.b + 2 * flag (mc.any Taken.b) + 4 * flag (cfg.any Taken.b)) % 2 = flag fw.b % 2 by omega]
    cases fw.b <;> rfl
  · unfold Boot.withCopies
    dsimp only
    rw [h]
    rfl

/-- No copy is on trial after a boot, and the journal is as it was. -/
theorem Boot.nvm_withCopies (b : Boot) (fw : Taken) (mc cfg : Option Taken) :
    (b.withCopies fw mc cfg).nvm.header.trial = 0 ∧ (b.withCopies fw mc cfg).nvm.journal = b.nvm.journal := by
  unfold Boot.withCopies
  dsimp only
  split
  · exact ⟨‹_›, rfl⟩
  · refine ⟨Nvm.trial_putHeader _ _ _, ?_⟩
    unfold Nvm.putHeader
    dsimp only
    split <;> rfl

/-! ## The whole sequence (R371) -/

/-- A state that a boot starts from: reset, but for the NVM, the host's memory and the pins, which are those of `b`. -/
structure Cold (b u : State) : Prop where
  boot : u.boot = .reset b.boot.nvm b.boot.rom b.board.maintPin
  hif : u.hif = { Hif.reset with linkUp := u.hif.linkUp }
  work : u.tasks = [] ∧ u.contexts = []
  coaches : u.coaches = []
  host : u.host = b.host
  straps : u.board.straps = b.board.straps ∧ u.board.strapsStable = b.board.strapsStable
  pins : u.board.maintPin = b.board.maintPin ∧ u.board.sealBack = b.board.sealBack

/-- Step 1: the straps are sampled, and the PCIe link trains. -/
def State.strapped (u : State) : State := { u with
  board := { u.board with strapReg := strapWord u.board }, boot := { u.boot with maintEn := u.board.maintPin }
  hif := { u.hif with linkUp := true } }

theorem Cold.strapped {b u : State} (h : Cold b u) : Cold b u.strapped := by
  obtain ⟨hboot, hhif, hwork, hcoaches, hhost, hstraps, hpins⟩ := h
  refine ⟨?_, ?_, hwork, hcoaches, hhost, hstraps, hpins⟩
  · unfold State.strapped; dsimp only; rw [hboot, hpins.1]; rfl
  · unfold State.strapped; dsimp only; rw [hhif]

theorem Cold.bootLog {b u : State} (h : Cold b u) : Cold b u.bootLog :=
  ⟨h.boot, h.hif, h.work, h.coaches, h.host, h.straps, h.pins⟩

/-- TEST, as step 1 samples it. -/
theorem strapWord_test (m : Module) : (strapWord m).getLsbD 6 = (m.straps &&& m.strapsStable).getLsbD 6 := by
  unfold strapWord
  generalize m.straps &&& m.strapsStable = x
  have hx := x.isLt
  rw [BitVec.getLsbD_ofNat, BitVec.getLsbD, Nat.testBit_eq_decide_div_mod_eq, Nat.testBit_eq_decide_div_mod_eq]
  split
  · simp
  · have e : (x.toNat + 256) / 2 ^ 6 % 2 = x.toNat / 2 ^ 6 % 2 := by omega
    rw [e]; simp

/-- The coaches of a cold device are idle, with no row written. -/
theorem Cold.coach {b u : State} (h : Cold b u) (c : CoachId) : (u.coach c).phase = .idle ∧ (u.coach c).spad = [] := by
  unfold State.coach
  rw [h.coaches]
  exact ⟨rfl, rfl⟩

/-- The rings of a cold device are disabled. -/
theorem Cold.rings {b u : State} (h : Cold b u) (i : Nat) : (u.sq i).enable = false ∧ (u.cq i).enable = false := by
  unfold State.sq State.cq
  rw [h.hif]
  exact ⟨rfl, rfl⟩

/-- Steps 7 to 9 of a boot: HBM reads as zero, the fabric has its addresses, and the BOOT record stands in the journal. -/
theorem State.bootRecord_spec (x : State) (fell : BitVec 3) {y : State} (hy : y = x.bootMemory.bootFabric.bootRecord fell) :
    BootFrame x y ∧ y.hbm.data = [] ∧
      (∃ seq copies fell restricted seal_ missing,
        (JRec.boot y.boot.bootNumber copies fell restricted seal_ missing).word seq ∈ y.boot.nvm.half0 ++ y.boot.nvm.half1) ∧
      ∀ c, y.boot.cfg = some c → y.ehl.nodeId = c.nodeId ∧ y.ehl.fabricId = c.fabricId := by
  have f := (x.bootMemory_frame.trans (State.bootFabric_frame _)).trans (State.bootRecord_frame _ fell)
  have hdata := x.bootMemory_data
  rw [← hy] at f
  generalize x.bootMemory = m at hy hdata
  have hids := fun c (h : m.bootFabric.boot.cfg = some c) => m.bootFabric_ids h
  replace hdata : m.bootFabric.hbm.data = [] := hdata
  generalize m.bootFabric = z at hy hdata hids
  have hrec := z.boot.nvm.word_mem_append (r := z.bootRec fell) rfl
  rw [State.bootRecord_eq] at hy
  generalize z.boot.nvm.append (z.bootRec fell) = n at hy hrec
  obtain ⟨seq, hseq⟩ := hrec
  subst hy
  exact ⟨f, hdata, ⟨seq, _, _, _, _, _, hseq⟩, hids⟩

/-- With a firmware copy taken the boot reaches host-ready. -/
theorem booted_bootFrom {b v : State} (h : Cold b v) (fw : Taken) : Booted b (v.bootFrom fw) fw := by
  unfold State.bootFrom
  extract_lets mc cfg w x y shares
  have hcopy := v.boot.copies_withCopies fw mc cfg
  have hnvm := v.boot.nvm_withCopies fw mc cfg
  have hsealed : w.boot.sealOpen = false := congrArg Boot.sealOpen h.boot
  have f := ((w.bootScan_frame hsealed).trans (State.bootIdentity_frame _)).trans (State.bootPolicy_frame _)
  obtain ⟨g, hdata, hrec, hids⟩ := State.bootRecord_spec x (fellBits fw mc cfg) (y := y) rfl
  clear_value y
  obtain ⟨fhif, fwork, fhost, fcoach, fboot, ftaken, frestricted, fheader⟩ := f.trans g
  have ftaken : y.boot.copies = w.boot.copies ∧ y.boot.fallback = w.boot.fallback ∧ y.boot.cfg = w.boot.cfg := ftaken
  have hw : w.boot = v.boot.withCopies fw mc cfg := rfl
  rw [← hw] at hcopy hnvm
  have hopen : y.boot.sealOpen = true ↔ ∃ i, i < 8 ∧ sealReturns b.board.sealBack (v.drawPattern i) = false := by
    rw [fboot.2, ← h.pins.2]
    exact w.loopClosed_false_iff
  exact {
    up := ⟨rfl, rfl⟩
    work := ⟨fwork.1.trans h.work.1, fwork.2.trans h.work.2⟩
    coach := fun c => ⟨(fcoach c).1.trans (h.coach c).1, (fcoach c).2.trans (h.coach c).2⟩
    rings := fun i => by
      have e : y.hif = v.hif := fhif
      have k := h.rings i
      unfold State.sq State.cq at k ⊢
      rw [← e] at k
      exact k
    memory := ⟨fun a => by unfold State.hbmByte; dsimp only; rw [hdata]; rfl, fhost.trans h.host⟩
    number := by
      have e : y.boot.bootNumber = (bootCounts w.boot.nvm.journal).1 + 1 := fboot.1
      rw [hnvm.2, h.boot] at e
      exact e
    record := hrec
    copy := by
      dsimp only
      rw [ftaken.1, ftaken.2.1]
      exact hcopy
    trial := (congrArg BootHdr.trial (Nvm.header_congr fheader)).trans hnvm.1
    config := fun c k => ⟨(hids c k).1, (hids c k).2, by
      have e : y.boot.cfg = some c := k
      simp only [shares, e]
      rfl⟩
    sealLoop := ⟨v.freeCtr, hopen⟩
    opened := fun k => frestricted (by
      have e : w.scanned.boot.sealOpen = true := fboot.2 ▸ k
      show (w.boot.restricted || w.scanned.boot.sealOpen) = true
      rw [e, Bool.or_true]) }

/-! ## The commands that boot (R347, R371, R410) -/

/-- What a boot of a device whose state after the reset is `b` reaches: host-ready with a copy taken and TEST low, and without a copy
neither firmware that runs nor host-ready. -/
def Reaches (b t : State) : Prop :=
  (∀ fw, (b.board.straps &&& b.board.strapsStable).getLsbD 6 = false →
      (Boot.reset b.boot.nvm b.boot.rom b.board.maintPin).take 0 = some fw → Booted b t fw) ∧
    ((Boot.reset b.boot.nvm b.boot.rom b.board.maintPin).take 0 = none →
      t.boot.running = false ∧ t.hif.hostReady = false ∧ t.boot.nvm = b.boot.nvm)

/-- A cold device has not booted. -/
theorem Cold.down {b u : State} (h : Cold b u) : u.boot.running = false ∧ u.hif.hostReady = false ∧ u.boot.nvm = b.boot.nvm := by
  rw [h.boot, h.hif]
  exact ⟨rfl, rfl, rfl⟩

/-- After step 1 the boot ends where TEST is high, and goes on with the firmware copy that it takes. -/
theorem State.bootSequence_eq (u : State) : u.bootSequence = if (strapWord u.board).getLsbD 6 then u.strapped
    else (u.strapped.boot.take 0).elim u.strapped.bootLog u.strapped.bootLog.bootFrom := by
  unfold State.bootSequence State.strapped
  dsimp only
  split
  · rfl
  · split <;> rename_i h <;> rw [h] <;> rfl

theorem reaches_bootSequence {b u : State} (h : Cold b u) : Reaches b u.bootSequence := by
  have hs := h.strapped
  have htest : (strapWord u.board).getLsbD 6 = (b.board.straps &&& b.board.strapsStable).getLsbD 6 := by
    rw [strapWord_test, h.straps.1, h.straps.2]
  rw [State.bootSequence_eq, htest, hs.boot]
  refine ⟨fun fw ht hk => ?_, fun hk => ?_⟩
  · rw [ht, if_neg (by decide), hk]
    exact booted_bootFrom hs.bootLog fw
  · rw [hk]
    split
    · exact hs.down
    · exact hs.bootLog.down

theorem execPowerGood_boots {s : State} (hr : s.board.railsOn = true) (hp : s.board.perst = false) (hb : s.boot.running = false) :
    execPowerGood s = .next (State.coldReset { s with board := { s.board with pwrgd := true } }).bootSequence := by
  unfold execPowerGood
  rw [if_pos (by rw [hr, hp, hb]; rfl)]

/-- The state in which the reset by PERST# ends. -/
def State.released (s : State) : State := { s with
  board := { s.board.cycle with perst := false, strapReg := 0 }, boot := { s.boot with nvmToDebug := false } }

theorem execPerstRelease_boots {s : State} (hp : s.board.perst = true) (hr : s.board.railsOn = true) (hg : s.board.pwrgd = true) :
    execPerstRelease s = .next s.released.coldReset.bootSequence := by
  unfold execPerstRelease
  rw [if_neg (by rw [hp]; decide)]
  dsimp only
  rw [if_pos (by unfold Module.cycle; dsimp only; rw [hr, hg]; rfl)]
  rfl

/-- With the rails off the release boots nothing, and the rails start where VIN is good and no shutdown stands. -/
theorem execPerstRelease_off {s : State} (hp : s.board.perst = true) (hr : s.board.railsOn = false) :
    execPerstRelease s = .next { s with
      board := { s.board with
        perst := false, strapReg := 0, cycled := s.board.cycled || s.board.shutdown
        railsOn := s.board.vinGood && !s.board.shutdown }
      boot := { s.boot with nvmToDebug := false } } := by
  unfold execPerstRelease
  rw [if_neg (by rw [hp]; decide)]
  dsimp only
  unfold Module.cycle State.startRails Module.mayPower
  dsimp only
  rw [hr, Bool.false_and, if_neg (by decide), Bool.not_false, Bool.and_true, Bool.and_true]
  cases s.board.vinGood && !s.board.shutdown <;> rfl

/-- The device with its power back. -/
def State.powered (s : State) : State := { s.powerOff with board := { s.powerOff.board with railsOn := true, pwrgd := true } }

theorem execD3cold_boots {s : State} (h : s.board.mayPower = true) : execD3cold s = .next s.powered.bootSequence := by
  unfold execD3cold
  dsimp only
  rw [if_pos (show s.powerOff.board.mayPower = true from h)]
  rfl

/-- Settles O52: each of the three commands starts its boot from a cold device, and from there the boot sequence leads where
`reaches_bootSequence` says. -/
theorem theDeviceBoots : Obligations.TheDeviceBoots := by
  intro s n k b ready reaches
  have boots : ∀ (c : Instr) (u : State), exec c s = .next u.bootSequence → Cold b u → reaches c := fun c u hc hu =>
    ⟨fun fw hr hk => ⟨_, hc, (reaches_bootSequence hu).1 fw hr hk⟩, fun hk => ⟨_, hc, (reaches_bootSequence hu).2 hk⟩⟩
  refine ⟨fun hr hp hb => ?_, fun hp hr hg => ?_, fun hp hr => ?_, fun hp => ?_, fun h => ?_⟩
  · exact boots .powerGood _ (execPowerGood_boots hr hp hb) ⟨rfl, rfl, ⟨rfl, rfl⟩, rfl, rfl, ⟨rfl, rfl⟩, rfl, rfl⟩
  · exact boots .perstRelease _ (execPerstRelease_boots hp hr hg) ⟨rfl, rfl, ⟨rfl, rfl⟩, rfl, rfl, ⟨rfl, rfl⟩, rfl, rfl⟩
  · exact execPerstRelease_off hp hr
  · exact congrArg Host.Outcome.next (if_pos (by rw [hp]; rfl))
  · exact boots .d3cold _ (execD3cold_boots h) ⟨rfl, rfl, ⟨rfl, rfl⟩, rfl, rfl, ⟨rfl, rfl⟩, rfl, rfl⟩

end Sys2Proof.Machine
end

section
/-! Buses, and accesses to registers (O60). -/

namespace Sys2Proof.Machine

open Sys2Proof

/-! ## SMBus and JTAG (R422, R423) -/

theorem State.smbus_eq (s : State) (bs : List Byte) : s.smbus bs = { s with bus := { s.bus with
    bytes := if s.boot.running then bs else [], acked := s.boot.running, addr := s.board.smbAddress } } := by
  unfold State.smbus
  cases s.boot.running <;> rfl

theorem execSmbusAlertResponse_answered {s : State} (hb : s.boot.running = true) (ha : s.board.alertLow = true) :
    execSmbusAlertResponse s = .next { s with
      board := { s.board with alertLow := s.board.throttle || s.board.shutdown }
      bus := { s.bus with bytes := [s.board.smbAddress * 2 + 1], acked := true, addr := 0x0C } } := by
  unfold execSmbusAlertResponse
  rw [hb, ha, if_neg (by decide)]

theorem execSmbusAlertResponse_silent {s : State} (h : s.boot.running = false ∨ s.board.alertLow = false) :
    execSmbusAlertResponse s = .next { s with bus := { s.bus with bytes := [], acked := false, addr := 0x0C } } := by
  unfold execSmbusAlertResponse
  have k : (s.boot.running && s.board.alertLow) = false := by
    rcases h with h | h <;> rw [h]
    · exact Bool.false_and _
    · exact Bool.and_false _
  rw [k, Bool.not_false, if_pos rfl]

/-- A boundary scan that is loaded acts in reset with the jumper fitted, and is BYPASS as soon as that ends. -/
theorem State.scan_spec (s : State) {j : Jtag} (hj : j = .samplePreload ∨ j = .extest) {t : State} (ht : t = s.scan j) :
    t = { s with board := { s.board with jtag := j }, bus := t.bus, freeCtr := t.freeCtr } ∧
      (s.board.perst = true ∧ s.board.maintPin = true → t.board.jtagActs = j) ∧
      (s.board.perst = false ∨ s.board.maintPin = false →
        t.board.jtagActs = .bypass ∧ t.bus = { s.bus with jtagOut := 0 } ∧ t.freeCtr = s.freeCtr) := by
  have hopen : s.board.perst = true ∧ s.board.maintPin = true → s.board.scanOpen = true := fun h => by
    unfold Module.scanOpen; rw [h.1, h.2]; rfl
  have hshut : s.board.perst = false ∨ s.board.maintPin = false → s.board.scanOpen = false := fun h => by
    unfold Module.scanOpen
    rcases h with h | h <;> rw [h]
    · exact Bool.false_and _
    · exact Bool.and_false _
  have acts : ∀ m : Module, m.jtag = j → m.jtagActs = if m.scanOpen then j else .bypass := fun m hm => by
    unfold Module.jtagActs
    rw [hm]
    rcases hj with rfl | rfl <;> rfl
  subst ht
  unfold State.scan
  cases ho : s.board.scanOpen with
  | true =>
    rw [if_pos rfl]
    exact ⟨rfl, fun _ => (acts _ rfl).trans (if_pos ho), fun h => absurd (hshut h) (by rw [ho]; decide)⟩
  | false =>
    rw [if_neg (by decide)]
    refine ⟨rfl, fun h => absurd (hopen h) (by rw [ho]; decide), fun _ => ⟨(acts _ rfl).trans (if_neg ?_), rfl, rfl⟩⟩
    show ¬s.board.scanOpen = true
    rw [ho]
    decide

/-! ## What an access reaches (R10, R327) -/

/-- A register of the access's width, aligned and in a block that may be reached, is reached. -/
theorem State.access_eq {s : State} {off n x : Nat} {p : RegPlace} (hp : placeOf off = p) (hr : s.regAt p n = some (n, x))
    (ha : off % (n / 8) = 0) (hb : s.reachable? p = true) : s.access off n = some p := by
  unfold State.access
  rw [hp]
  dsimp only
  rw [hr]
  exact if_pos ⟨rfl, ha, hb⟩

/-- The place that a bound of `placeOf` decides, where both places are reached alike. -/
theorem State.reachable_ite {s : State} {c : Prop} [Decidable c] {p q : RegPlace} {b : Bool} (hp : s.reachable? p = b)
    (hq : s.reachable? q = b) : s.reachable? (if c then p else q) = b := by
  split
  · exact hp
  · exact hq

/-- Behind HIF nothing is reached before host-ready. -/
theorem State.access_before_ready {s : State} (h : s.hif.hostReady = false) {off : Nat} (ho : 0x400000 ≤ off) (n : Nat) :
    s.access off n = none := by
  have k : s.reachable? (placeOf off) = false := by
    unfold placeOf
    rw [if_neg (by omega)]
    iterate 8 refine State.reachable_ite h ?_
    exact h
  unfold State.access
  dsimp only
  split
  · exact if_neg fun e => absurd e.2.2 (by rw [k]; decide)
  · rfl

theorem execRegisterWrite_none {s : State} {off : BitVec 26} {n : Nat} (h : s.access off.toNat n = none) (v : BitVec 64) :
    execRegisterWrite off n v s = .next s := by
  unfold execRegisterWrite; rw [h]

theorem execRegisterWrite_some {s : State} {off : BitVec 26} {n : Nat} {p : RegPlace}
    (h : s.access off.toNat n = some p) (v : BitVec 64) :
    execRegisterWrite off n v s = .next (s.regWrite p n (v.toNat % 2 ^ n)) := by
  unfold execRegisterWrite; rw [h]

theorem execRcRead_none {s : State} {off : BitVec 26} {n : Nat} (h : s.access off.toNat n = none) :
    execRcRead off n s = .next (s.answer (2 ^ min n 64 - 1)) := by
  unfold execRcRead; rw [h]

/-- The state after a read of the register at a place. -/
def State.afterRead (s : State) (p : RegPlace) (n : Nat) : State :=
  ((s.rc (fun k x => (rcRead (s.earlyOf p) k x).2) p).spend p).answer (s.readValue p n)

theorem execRcRead_some {s : State} {off : BitVec 26} {n : Nat} {p : RegPlace} (h : s.access off.toNat n = some p) :
    execRcRead off n s = .next (s.afterRead p n) := by
  unfold execRcRead; rw [h]; rfl

/-! ## What a read leaves and answers (R13) -/

/-- The RC fields of a place are no part of the tasks, the NVM or the clock. -/
theorem State.rc_rest (g : RcMap) (s : State) (p : RegPlace) :
    (s.rc g p).tasks = s.tasks ∧ (s.rc g p).boot.nvm = s.boot.nvm ∧ (s.rc g p).clk = s.clk ∧
      (s.rc g p).hif.hostReady = s.hif.hostReady := by
  cases p with
  | hif o => refine ⟨rfl, rfl, rfl, ?_⟩; unfold State.rc Hif.rc; dsimp only; split <;> rfl
  | boot o => refine ⟨rfl, ?_, rfl, rfl⟩; unfold State.rc Boot.rc; dsimp only; split <;> rfl
  | ehl o =>
    unfold State.rc State.ehlRc
    dsimp only
    split
    · exact ⟨rfl, rfl, rfl, rfl⟩
    · exact ⟨rfl, rfl, rfl, rfl⟩
    · split
      · exact ⟨State.setPort_tasks _ _ _, congrArg Boot.nvm (State.setPort_boot _ _ _), State.setPort_clk _ _ _,
          congrArg Hif.hostReady (State.setPort_hif _ _ _)⟩
      · exact ⟨rfl, rfl, rfl, rfl⟩
  | evt | kst | mem | coach | sec | clk => exact ⟨rfl, rfl, rfl, rfl⟩

theorem State.spend_rest (s : State) (p : RegPlace) : (s.spend p).tasks = s.tasks ∧ (s.spend p).boot.nvm = s.boot.nvm ∧
    (s.spend p).clk = s.clk ∧ (s.spend p).hif.hostReady = s.hif.hostReady := by
  cases p <;> exact ⟨rfl, rfl, rfl, rfl⟩

theorem State.afterRead_rest (s : State) (p : RegPlace) (n : Nat) :
    (s.afterRead p n).tasks = s.tasks ∧ (s.afterRead p n).boot.nvm = s.boot.nvm ∧ (s.afterRead p n).clk = s.clk ∧
      (s.afterRead p n).hif.hostReady = s.hif.hostReady := by
  unfold State.afterRead
  generalize (fun k x => (rcRead (s.earlyOf p) k x).2) = g
  generalize s.readValue p n = v
  obtain ⟨rtasks, rnvm, rclk, rready⟩ := s.rc_rest g p
  obtain ⟨stasks, snvm, sclk, sready⟩ := (s.rc g p).spend_rest p
  generalize (s.rc g p).spend p = u at stasks snvm sclk sready
  exact ⟨stasks.trans rtasks, snvm.trans rnvm, sclk.trans rclk, sready.trans rready⟩

theorem State.sameMemory_afterRead (s : State) (p : RegPlace) (n : Nat) : SameMemory s (s.afterRead p n) :=
  (State.answer_keeps _ _ (State.spend_keeps _ p (State.rc_keeps _ s p (Keeps.refl s)))).sameMemory

/-! A field that becomes what it is leaves its register as it is. -/

theorem look_store_look {α : Type} [DecidableEq α] (d : α) (m : SMap α) (k j : Nat) :
    look d (store d m k (look d m k)) j = look d m j := by
  rw [look_store]
  split
  · rename_i h; rw [h]
  · rfl

@[simp] theorem count8_self (k : Nat) (x : BitVec 8) : RcMap.count8 (fun _ x => x) k x = x := by
  unfold RcMap.count8
  rw [BitVec.ofNat_toNat, BitVec.setWidth_eq]

theorem Hif.rc_self (h : Hif) (o : Nat) : h.rc (fun _ x => x) o = h := by
  unfold Hif.rc
  split
  · simp only [count8_self]
  · rfl

theorem Hbm.rc_self (m : Hbm) (o : Nat) : m.rc (fun _ x => x) o = m := by
  unfold Hbm.rc
  split <;> simp only [count8_self]

theorem Boot.rc_self (b : Boot) (o : Nat) : b.rc (fun _ x => x) o = b := by
  unfold Boot.rc
  split
  · simp only [count8_self]
  · rfl

theorem Sec.rc_self (v : Sec) (o : Nat) : v.rc (fun _ x => x) o = v := by
  unfold Sec.rc
  split <;> simp only [count8_self]

theorem Module.rc_self (m : Module) (o : Nat) : m.rc (fun _ x => x) o = m := by
  unfold Module.rc
  split <;> simp only [count8_self]

theorem Port.rc_self (v : Port) (p o : Nat) : v.rc (fun _ x => x) p o = v := by
  unfold Port.rc
  split <;> rfl

theorem Evt.reg_rc_self (e : Evt) (o : Nat) : (e.rc (fun _ x => x) o).reg o = e.reg o := by
  unfold Evt.rc
  split
  · simp only [count8_self]
  · rfl
  · rfl
  · split
    · unfold Evt.reg
      simp only [look_store_look]
    · rfl

theorem State.kstReg_rc_self (s : State) (o : Nat) : State.kstReg { s with kst := s.kst.rc (fun _ x => x) o } o = s.kstReg o := by
  unfold Kst.rc
  split
  · simp only [count8_self]
  · rfl
  · rfl
  · rfl
  · split
    · unfold State.kstReg
      simp only [look_store_look]
      rfl
    · rfl

theorem State.ehlReg_rc_self (s : State) (o : Nat) : (State.ehlRc (fun _ x => x) s o).ehlReg o = s.ehlReg o := by
  unfold State.ehlRc
  split
  · simp only [count8_self]
  · rfl
  · split
    · rw [Port.rc_self]
      unfold State.ehlReg
      simp only [State.port_setPort]
      rfl
    · rfl

/-- Wait and stall counters are read one by one. -/
theorem Coach.reg_congr (co : Coach) {w t : SMap Nat} (hw : ∀ j, look 0 w j = look 0 co.shutWait j)
    (ht : ∀ j, look 0 t j = look 0 co.stall j) (clk o : Nat) : Coach.reg { co with shutWait := w, stall := t } clk o = co.reg clk o := by
  unfold Coach.reg Coach.arrayReg
  simp only [hw, ht]
  rfl

theorem Coach.reg_rc_self (co : Coach) (clk o : Nat) : (co.rc (fun _ x => x) o).reg clk o = co.reg clk o := by
  unfold Coach.rc
  split
  · simp only [count8_self]
  · simp only [count8_self]
  · simp only [count8_self]
  · simp only [count8_self]
  · split
    · exact co.reg_congr (look_store_look 0 _ _) (fun _ => rfl) clk o
    · exact co.reg_congr (fun _ => rfl) (look_store_look 0 _ _) clk o
    · rfl

/-- A register whose RC fields become what they are reads as before. -/
theorem State.regAt_rc_self (s : State) (p : RegPlace) (n : Nat) : (s.rc (fun _ x => x) p).regAt p n = s.regAt p n := by
  cases p with
  | hif o => unfold State.rc; simp only [Hif.rc_self]
  | evt o => exact s.evt.reg_rc_self o
  | kst o => exact s.kstReg_rc_self o
  | mem o => unfold State.rc; simp only [Hbm.rc_self]
  | ehl o => exact s.ehlReg_rc_self o
  | coach c o =>
    unfold State.rc State.regAt
    dsimp only
    rw [State.coach_onCoach]
    exact (s.coach c).reg_rc_self s.clk o
  | boot o => unfold State.rc; simp only [Boot.rc_self]
  | sec o => unfold State.rc; simp only [Sec.rc_self]
  | clk o => unfold State.rc; simp only [Module.rc_self]

/-- A read answers a register's value, where hardware has changed nothing of its block in the present cycle. -/
theorem State.readValue_calm {s : State} {p : RegPlace} (he : s.earlyOf p = []) {n w x : Nat} (hr : s.regAt p n = some (w, x)) :
    s.readValue p n = x := by
  have g : (fun k x => (rcRead [] k x).1) = fun (_ x : Nat) => x := rfl
  unfold State.readValue
  rw [he, g, State.regAt_rc_self, hr]

/-! ## Counters (R13) -/

/-- A second read of a counter answers 0. -/
theorem rcRead_twice (m : SMap Nat) (k x : Nat) : (rcRead (rcSpent m k) k (rcRead m k x).2).1 = 0 := by
  have h : (rcSpent m k).find? (fun e => decide (e.1 = k)) = (m.find? fun e => decide (e.1 = k)).map fun _ => (k, 0) := by
    unfold rcSpent
    induction m with
    | nil => rfl
    | cons e m ih =>
      by_cases he : e.1 = k
      · rw [List.map_cons, if_pos he, List.find?_cons_of_pos (by simp), List.find?_cons_of_pos (by simp [he])]
        rfl
      · rw [List.map_cons, if_neg he, List.find?_cons_of_neg (by simp [he]), List.find?_cons_of_neg (by simp [he]), ih]
  unfold rcRead
  rw [h]
  cases m.find? fun e => decide (e.1 = k) <;> rfl

/-- What a read leaves of a field of 8 bits. -/
theorem toNat_rcRead8 (m : SMap Nat) (k : Nat) (x : BitVec 8) :
    (BitVec.ofNat 8 (rcRead m k x.toNat).2).toNat = (rcRead m k x.toNat).2 := by
  have hx := x.isLt
  rw [BitVec.toNat_ofNat]
  refine Nat.mod_eq_of_lt ?_
  unfold rcRead
  split
  · dsimp only; omega
  · exact Nat.two_pow_pos 8

/-- A register at `off` of `n` bits that is one counter, of number `k`: what a second read answers. -/
theorem readTwice {s : State} {off : BitVec 26} {n k x : Nat} (p : RegPlace)
    (ha : ∀ t : State, t.hif.hostReady = true → t.access off.toNat n = some p)
    (hs : s.hif.hostReady = true) (hv : (s.afterRead p n).readValue p n = (rcRead (rcSpent s.early k) k (rcRead s.early k x).2).1) :
    ∃ t u, execRcRead off n s = .next t ∧ execRcRead off n t = .next u ∧ u.bus.readData = 0 := by
  have ht := (s.afterRead_rest p n).2.2.2.trans hs
  refine ⟨_, _, execRcRead_some (ha s hs), execRcRead_some (ha _ ht), ?_⟩
  show BitVec.ofNat 64 ((s.afterRead p n).readValue p n) = 0
  rw [hv, rcRead_twice]
  rfl

/-- The eleven counters: each place, its register and its number. -/
theorem counters_readTwice {s : State} (h : s.hif.hostReady = true) :
    ∀ e ∈ [((0x400020 : BitVec 26), 64), (0x400028, 64), (0x800010, 64), (0x800018, 64), (0x800020, 64), (0x1000018, 64),
      (0x1000020, 64), (0x1800030, 64), (0x3000018, 32), (0x3000020, 64), (0x3800018, 64)],
      ∃ t u, execRcRead e.1 e.2 s = .next t ∧ execRcRead e.1 e.2 t = .next u ∧ u.bus.readData = 0 := by
  simp only [List.forall_mem_cons]
  refine ⟨?_, ?_, ?_, ?_, ?_, ?_, ?_, ?_, ?_, ?_, ?_, fun _ h => nomatch h⟩
  · exact readTwice (k := 22) (x := s.evt.droppedCount) (.evt 0x20) (fun t ht => State.access_eq rfl rfl rfl ht) h rfl
  · exact readTwice (k := 23) (x := s.evt.aborts) (.evt 0x28) (fun t ht => State.access_eq rfl rfl rfl ht) h rfl
  · exact readTwice (k := 19) (x := s.kst.cartsRead) (.kst 0x10) (fun t ht => State.access_eq rfl rfl rfl ht) h rfl
  · exact readTwice (k := 20) (x := s.kst.cartsSent) (.kst 0x18) (fun t ht => State.access_eq rfl rfl rfl ht) h rfl
  · exact readTwice (k := 21) (x := s.kst.voidCarts) (.kst 0x20) (fun t ht => State.access_eq rfl rfl rfl ht) h rfl
  · exact readTwice (k := 16) (x := s.hbm.corrCount) (.mem 0x18) (fun t ht => State.access_eq rfl rfl rfl ht) h rfl
  · exact readTwice (k := 17) (x := s.hbm.uncorrCount) (.mem 0x20) (fun t ht => State.access_eq rfl rfl rfl ht) h rfl
  · exact readTwice (k := 18) (x := s.ehl.discards) (.ehl 0x30) (fun t ht => State.access_eq rfl rfl rfl ht) h rfl
  · refine readTwice (k := 13) (x := s.sec.faults.toNat) (.sec 0x18) (fun t ht => State.access_eq rfl rfl rfl ht) h ?_
    show (BitVec.ofNat 8 (rcRead (rcSpent s.early 13) 13 (BitVec.ofNat 8 (rcRead s.early 13 s.sec.faults.toNat).2).toNat).1).toNat = _
    rw [toNat_rcRead8, rcRead_twice]
    rfl
  · exact readTwice (k := 14) (x := s.sec.ops) (.sec 0x20) (fun t ht => State.access_eq rfl rfl rfl ht) h rfl
  · exact readTwice (k := 15) (x := s.board.withheld) (.clk 0x18) (fun t ht => State.access_eq rfl rfl rfl ht) h rfl

/-! ## HIF_STATUS (R13, R348) -/

theorem State.access_status (s : State) : s.access (0x4 : BitVec 26).toNat 32 = some (.hif 4) := State.access_eq rfl rfl rfl rfl

/-- What hardware has set in the present cycle is kept. -/
theorem rcRead_early {m : SMap Nat} {k : Nat} (h : (m.any fun e => decide (e.1 = k)) = true) (x : Nat) : 1 ≤ (rcRead m k x).2 := by
  obtain ⟨e, he, hk⟩ := List.any_eq_true.mp h
  obtain ⟨f, hf⟩ := Option.isSome_iff_exists.mp ((List.find?_isSome (p := fun e => decide (e.1 = k))).mpr ⟨e, he, hk⟩)
  unfold rcRead
  rw [hf]
  dsimp only
  omega

theorem rcRead_calm {m : SMap Nat} {k : Nat} (h : (m.any fun e => decide (e.1 = k)) = false) (x : Nat) : rcRead m k x = (x, 0) := by
  unfold rcRead
  rw [List.find?_eq_none.mpr (List.any_eq_false.mp h)]

theorem readStatus_spec (s : State) {t : State} (ht : t = s.afterRead (.hif 4) 32) : t.coaches = s.coaches ∧
    t.hif = { s.hif with ringErrSet := t.hif.ringErrSet, dbErrSet := t.hif.dbErrSet } ∧
    (s.isEarly 0 = true → t.hif.ringErrSet ≠ 0) ∧ (s.isEarly 1 = true → t.hif.dbErrSet ≠ 0) ∧
    (s.isEarly 0 = false → s.isEarly 1 = false → t.hif.ringErrSet = 0 ∧ t.hif.dbErrSet = 0 ∧
      t.bus.readData.toNat = s.hif.ringErrSet.toNat * 2 ^ 24 + s.hif.dbErrSet.toNat * 2 ^ 16 + flag s.hif.linkDegraded * 16 +
        flag s.hif.summaryBusy * 8 + flag s.hif.ringErr * 4 + flag s.hif.dbErr * 2 + flag s.hif.hostReady) := by
  have h0 : t.hif.ringErrSet = BitVec.ofNat 8 (rcRead s.early 0 s.hif.ringErrSet.toNat).2 := by rw [ht]; rfl
  have h1 : t.hif.dbErrSet = BitVec.ofNat 8 (rcRead s.early 1 s.hif.dbErrSet.toNat).2 := by rw [ht]; rfl
  have set : ∀ k (x : BitVec 8), s.isEarly k = true → BitVec.ofNat 8 (rcRead s.early k x.toNat).2 ≠ 0 := fun k x h e => by
    have a := toNat_rcRead8 s.early k x
    have b := rcRead_early h x.toNat
    rw [e] at a
    exact absurd (a ▸ b) (by decide)
  refine ⟨by rw [ht]; rfl, by rw [ht]; rfl, fun h => h0 ▸ set 0 _ h, fun h => h1 ▸ set 1 _ h, fun h k => ⟨?_, ?_, ?_⟩⟩
  · rw [h0, rcRead_calm h]; rfl
  · rw [h1, rcRead_calm k]; rfl
  · have e : t.bus.readData = BitVec.ofNat 64 ((RcMap.count8 (fun k x => (rcRead s.early k x).1) 0 s.hif.ringErrSet).toNat * 2 ^ 24 +
        (RcMap.count8 (fun k x => (rcRead s.early k x).1) 1 s.hif.dbErrSet).toNat * 2 ^ 16 + flag s.hif.linkDegraded * 16 +
        flag s.hif.summaryBusy * 8 + flag s.hif.ringErr * 4 + flag s.hif.dbErr * 2 + flag s.hif.hostReady) := by rw [ht]; rfl
    have c : ∀ k (x : BitVec 8), s.isEarly k = false → RcMap.count8 (fun k x => (rcRead s.early k x).1) k x = x := fun k x h => by
      unfold RcMap.count8
      dsimp only
      rw [rcRead_calm h, BitVec.ofNat_toNat, BitVec.setWidth_eq]
    rw [e, c 0 _ h, c 1 _ k, BitVec.toNat_ofNat]
    refine Nat.mod_eq_of_lt ?_
    have f : ∀ b, flag b ≤ 1 := by decide
    have := s.hif.ringErrSet.isLt
    have := s.hif.dbErrSet.isLt
    have := f s.hif.linkDegraded
    have := f s.hif.summaryBusy
    have := f s.hif.ringErr
    have := f s.hif.dbErr
    have := f s.hif.hostReady
    omega

/-! ## Writes (R13, R330, R348) -/

/-- A write that acts as a command does. -/
theorem execRegisterWrite_acts {s : State} {off : BitVec 26} {n : Nat} {v : BitVec 64} {p : RegPlace} {a : Answer}
    (h : s.access off.toNat n = some p) (ha : ∃ t, a = .next t) (hw : s.regWrite p n (v.toNat % 2 ^ n) = after a s) :
    execRegisterWrite off n v s = a := by
  obtain ⟨t, rfl⟩ := ha
  rw [execRegisterWrite_some h, hw]
  rfl

/-- A value of 32 bits, taken from the 64 of a write. -/
theorem bitOf_low (v : BitVec 64) {i : Nat} (h : i < 32) : bitOf (v.toNat % 2 ^ 32) i = v.getLsbD i := by
  have e : (v.toNat % 2 ^ 32).testBit i = v.getLsbD i := by
    rw [Nat.testBit_mod_two_pow, decide_eq_true h, Bool.true_and]
    rfl
  rw [← e, Nat.testBit_eq_decide_div_mod_eq]
  rfl

theorem bits_low (v : BitVec 64) {hi lo : Nat} (h : hi < 32) (hl : lo ≤ hi) : bits (v.toNat % 2 ^ 32) hi lo = bits v.toNat hi lo := by
  unfold bits
  have e : 2 ^ 32 = 2 ^ lo * 2 ^ (hi - lo + 1) * 2 ^ (31 - hi) := by rw [← Nat.pow_add, ← Nat.pow_add]; congr 1; omega
  rw [e, Nat.mul_assoc, Nat.mod_mul_right_div_self, Nat.mod_mul_right_mod]

theorem ofNat_low (v : BitVec 64) : BitVec.ofNat 32 (v.toNat % 2 ^ 32) = BitVec.ofNat 32 v.toNat := by
  apply BitVec.eq_of_toNat_eq
  rw [BitVec.toNat_ofNat, BitVec.toNat_ofNat, Nat.mod_mod]

/-- The base of a ring: the low 12 bits are dropped. -/
theorem ringBase_toNat (v : BitVec 64) : ringBase (v.toNat % 2 ^ 64) = v &&& ~~~4095 := by
  unfold ringBase
  rw [Nat.mod_eq_of_lt v.isLt]
  apply BitVec.eq_of_getLsbD_eq
  intro i hi
  have low : (4095 : BitVec 64).getLsbD i = decide (i < 12) := Nat.testBit_two_pow_sub_one 12 i
  have high : (v.toNat / 2 ^ 12 * 2 ^ 12).testBit i = (decide (12 ≤ i) && v.getLsbD i) := by
    rw [Nat.testBit_mul_two_pow, Nat.testBit_div_two_pow]
    by_cases h : 12 ≤ i
    · rw [Nat.sub_add_cancel h]; rfl
    · rw [decide_eq_false h]; rfl
  rw [BitVec.getLsbD_ofNat, BitVec.getLsbD_and, BitVec.getLsbD_not, low, decide_eq_true hi, Bool.true_and, Bool.true_and,
    Bool.and_comm (v.getLsbD i)]
  refine high.trans ?_
  congr 1
  by_cases h : i < 12
  · rw [decide_eq_true h, decide_eq_false (by omega)]; rfl
  · rw [decide_eq_false h, decide_eq_true (by omega)]; rfl

/-- W1C bits of HIF_STATUS. -/
theorem writeStatus (v : BitVec 64) (s : State) : execRegisterWrite 0x4 32 v s = .next { s with hif := { s.hif with
    ringErr := s.hif.ringErr && (s.isEarly 0 || !(v.getLsbD 2)), dbErr := s.hif.dbErr && (s.isEarly 1 || !(v.getLsbD 1)) } } := by
  rw [execRegisterWrite_some s.access_status, ← bitOf_low v (i := 2) (by decide), ← bitOf_low v (i := 1) (by decide)]
  rfl

theorem writeBar2Base (v : BitVec 64) (s : State) : execRegisterWrite 0x8 32 v s = execHifBar2BaseWrite (BitVec.ofNat 32 v.toNat) s := by
  obtain ⟨t, ht, -⟩ := execHifBar2BaseWrite_sound (BitVec.ofNat 32 v.toNat) s
  refine execRegisterWrite_acts (p := .hif 8) (State.access_eq rfl rfl rfl rfl) ⟨t, ht⟩ ?_
  rw [← ofNat_low]
  rfl

section Ready

variable {s : State} (h : s.hif.hostReady = true)

include h

theorem writeEventRing (v : BitVec 64) : execRegisterWrite 0x400010 32 v s = execEventRingEnable (BitVec.ofNat 32 v.toNat) s := by
  obtain ⟨t, ht, -⟩ := execEventRingEnable_keeps (BitVec.ofNat 32 v.toNat) s
  refine execRegisterWrite_acts (p := .evt 0x10) (State.access_eq rfl rfl rfl h) ⟨t, ht⟩ ?_
  rw [← ofNat_low]
  rfl

theorem writeKeySplit (v : BitVec 64) : execRegisterWrite 0x800004 32 v s = execKstSplitWrite (BitVec.ofNat 32 v.toNat) s := by
  obtain ⟨t, ht, -⟩ := execKstSplitWrite_keeps (BitVec.ofNat 32 v.toNat) s
  refine execRegisterWrite_acts (p := .kst 4) (State.access_eq rfl rfl rfl h) ⟨t, ht⟩ ?_
  rw [← ofNat_low]
  rfl

theorem writeCommit : execRegisterWrite 0x280001C 32 1 s = execCommit s := by
  obtain ⟨t, ht, -⟩ := execCommit_keeps s
  exact execRegisterWrite_acts (p := .boot 0x1C) (State.access_eq rfl rfl rfl h) ⟨t, ht⟩ rfl

theorem writeDebugEn : execRegisterWrite 0x280001C 32 2 s = execDebugEn s := by
  obtain ⟨t, ht, -⟩ := execDebugEn_keeps s
  exact execRegisterWrite_acts (p := .boot 0x1C) (State.access_eq rfl rfl rfl h) ⟨t, ht⟩ rfl

theorem writeSecCommand (v : BitVec 64) :
    execRegisterWrite 0x3000004 32 v s = .next (s.secCommand (bits v.toNat 7 0) (bits v.toNat 11 8)) := by
  rw [execRegisterWrite_some (p := .sec 4) (State.access_eq rfl rfl rfl h), ← bits_low v (hi := 7) (by decide) (by decide),
    ← bits_low v (hi := 11) (by decide) (by decide)]
  rfl

theorem writeWatchdogLimit (c : CoachId) (v : BitVec 64) : execRegisterWrite (BitVec.ofNat 26 (0x2000010 + 0x10000 * c.toNat)) 32 v s =
    .next (s.setCoach c { s.coach c with wdogLimit := BitVec.ofNat 32 v.toNat }) := by
  have hc := c.isLt
  have e : (BitVec.ofNat 26 (0x2000010 + 0x10000 * c.toNat)).toNat = 0x2000010 + 0x10000 * c.toNat :=
    (BitVec.toNat_ofNat _ _).trans (Nat.mod_eq_of_lt (by omega))
  have hp : placeOf (0x2000010 + 0x10000 * c.toNat) = .coach c 0x10 := by
    unfold placeOf
    rw [if_neg (by omega), if_neg (by omega), if_neg (by omega), if_neg (by omega), if_neg (by omega), if_pos (by omega),
      show (0x2000010 + 0x10000 * c.toNat - 0x2000000) / 0x10000 = c.toNat by omega,
      show (0x2000010 + 0x10000 * c.toNat - 0x2000000) % 0x10000 = 0x10 by omega, BitVec.ofNat_toNat, BitVec.setWidth_eq]
  have ha : s.access (BitVec.ofNat 26 (0x2000010 + 0x10000 * c.toNat)).toNat 32 = some (.coach c 0x10) := by
    rw [e]
    exact State.access_eq hp rfl (by omega) h
  rw [execRegisterWrite_some ha, ← ofNat_low]
  rfl

end Ready

/-! ## Ring registers (R330, R348) -/

theorem placeOf_hif {o : Nat} (h : o < 0x400000) : placeOf o = .hif o := by
  unfold placeOf
  exact if_pos h

section Rings

variable (s : State) {i r : Nat} (hi : i < 64) (hr : r < 32)

include hi hr

theorem State.hifReg_sq (n : Nat) : s.hifReg (0x1000 + 0x20 * i + r) n = sqReg (s.sq i) r := by
  unfold State.hifReg
  dsimp only
  split
  · omega
  · omega
  · omega
  · omega
  · omega
  · rw [if_pos (by omega), show (0x1000 + 0x20 * i + r - 0x1000) / 32 = i by omega,
      show (0x1000 + 0x20 * i + r - 0x1000) % 32 = r by omega]

theorem State.hifReg_cq (n : Nat) : s.hifReg (0x2000 + 0x20 * i + r) n = cqReg (s.cq i) r := by
  unfold State.hifReg
  dsimp only
  split
  · omega
  · omega
  · omega
  · omega
  · omega
  · rw [if_neg (by omega), if_pos (by omega), show (0x2000 + 0x20 * i + r - 0x2000) / 32 = i by omega,
      show (0x2000 + 0x20 * i + r - 0x2000) % 32 = r by omega]

theorem State.writeHif_sq (n v : Nat) : s.writeHif (0x1000 + 0x20 * i + r) n v = s.writeSq i r v := by
  unfold State.writeHif
  split
  · omega
  · omega
  · rw [if_pos (by omega), show (0x1000 + 0x20 * i + r - 0x1000) / 32 = i by omega,
      show (0x1000 + 0x20 * i + r - 0x1000) % 32 = r by omega]

theorem State.writeHif_cq (n v : Nat) : s.writeHif (0x2000 + 0x20 * i + r) n v = s.writeCq i r v := by
  unfold State.writeHif
  split
  · omega
  · omega
  · rw [if_neg (by omega), if_pos (by omega), show (0x2000 + 0x20 * i + r - 0x2000) / 32 = i by omega,
      show (0x2000 + 0x20 * i + r - 0x2000) % 32 = r by omega]

end Rings

/-- A register of the host interface is reached where it is aligned. -/
theorem State.access_hif {s : State} {o n x : Nat} (ho : o < 0x400000) (hr : s.hifReg o n = some (n, x)) (ha : o % (n / 8) = 0) :
    s.access (BitVec.ofNat 26 o).toNat n = some (.hif o) := by
  rw [BitVec.toNat_ofNat, Nat.mod_eq_of_lt (by omega)]
  exact State.access_eq (placeOf_hif ho) hr ha rfl

theorem writeSqControl (q : BitVec 6) (v : BitVec 64) (s : State) :
    execRegisterWrite (BitVec.ofNat 26 (0x1008 + 0x20 * q.toNat)) 32 v s = execSqEnable q (BitVec.ofNat 32 v.toNat) s := by
  have hq := q.isLt
  obtain ⟨t, ht, -⟩ := execSqEnable_sound q (BitVec.ofNat 32 v.toNat) s
  rw [show 0x1008 + 0x20 * q.toNat = 0x1000 + 0x20 * q.toNat + 8 by omega]
  refine execRegisterWrite_acts (State.access_hif (by omega) (s.hifReg_sq hq (by decide) 32) (by omega)) ⟨t, ht⟩ ?_
  refine (s.writeHif_sq hq (by decide) 32 _).trans ?_
  show after (execSqEnable (BitVec.ofNat 6 q.toNat) (BitVec.ofNat 32 (v.toNat % 2 ^ 32)) s) s = _
  rw [ofNat_low, BitVec.ofNat_toNat, BitVec.setWidth_eq]

theorem writeCqControl (q : BitVec 6) (v : BitVec 64) (s : State) :
    execRegisterWrite (BitVec.ofNat 26 (0x2008 + 0x20 * q.toNat)) 32 v s = execCqEnable q (BitVec.ofNat 32 v.toNat) s := by
  have hq := q.isLt
  obtain ⟨t, ht, -⟩ := execCqEnable_sound q (BitVec.ofNat 32 v.toNat) s
  rw [show 0x2008 + 0x20 * q.toNat = 0x2000 + 0x20 * q.toNat + 8 by omega]
  refine execRegisterWrite_acts (State.access_hif (by omega) (s.hifReg_cq hq (by decide) 32) (by omega)) ⟨t, ht⟩ ?_
  refine (s.writeHif_cq hq (by decide) 32 _).trans ?_
  show after (execCqEnable (BitVec.ofNat 6 q.toNat) (BitVec.ofNat 32 (v.toNat % 2 ^ 32)) s) s = _
  rw [ofNat_low, BitVec.ofNat_toNat, BitVec.setWidth_eq]

theorem writeSqBase (q : BitVec 6) (v : BitVec 64) (s : State) :
    execRegisterWrite (BitVec.ofNat 26 (0x1000 + 0x20 * q.toNat)) 64 v s = .next (if (s.sq q.toNat).enable then s
      else s.setSq q.toNat { s.sq q.toNat with base := v &&& ~~~4095 }) := by
  have hq := q.isLt
  rw [show 0x1000 + 0x20 * q.toNat = 0x1000 + 0x20 * q.toNat + 0 by omega,
    execRegisterWrite_some (State.access_hif (by omega) (s.hifReg_sq hq (by decide) 64) (by omega))]
  refine congrArg Host.Outcome.next ((s.writeHif_sq hq (by decide) 64 _).trans ?_)
  show (if (s.sq q.toNat).enable then s else s.setSq q.toNat { s.sq q.toNat with base := ringBase (v.toNat % 2 ^ 64) }) = _
  rw [ringBase_toNat]

/-! ## The statement -/

/-- Settles O60: buses by their own lemmas; of the registers, what an access reaches, what a read leaves and what a write does. -/
theorem busesAndRegistersAnswer : Obligations.BusesAndRegistersAnswer := by
  intro s m bytes scans
  have smbus : ∀ i bs, exec i s = .next (s.smbus bs) → bytes i bs := fun i bs h => h.trans (congrArg _ (s.smbus_eq bs))
  have scan : ∀ i j, exec i s = .next (s.scan j) → j = .samplePreload ∨ j = .extest → scans i j := fun i j h hj =>
    ⟨_, h, s.scan_spec hj rfl⟩
  refine ⟨smbus _ _ rfl, smbus _ _ rfl, smbus _ _ rfl, smbus _ _ rfl, smbus _ _ rfl, execSmbusAlertResponse_answered,
    execSmbusAlertResponse_silent, rfl, rfl, scan _ _ rfl (.inl rfl), scan _ _ rfl (.inr rfl), fun _ => rfl, fun _ _ => rfl,
    fun off n v h => ⟨execRegisterWrite_none h v, execRcRead_none h⟩, fun off n p h => ?_,
    fun h off ho n => State.access_before_ready h ho n,
    fun h => ⟨counters_readTwice h, writeWatchdogLimit h, writeSecCommand h, writeCommit h, writeDebugEn h, writeEventRing h,
      writeKeySplit h⟩, fun v => writeStatus v s, ⟨_, execRcRead_some s.access_status, readStatus_spec s rfl⟩,
    fun v => writeBar2Base v s, fun q v => ⟨writeSqControl q v s, writeCqControl q v s, writeSqBase q v s⟩⟩
  obtain ⟨htasks, hnvm, hclk, -⟩ := s.afterRead_rest p n
  exact ⟨_, execRcRead_some h, rfl, fun w x he hr => State.readValue_calm he hr, s.sameMemory_afterRead p n, htasks, hnvm, hclk⟩

end Sys2Proof.Machine
end
